-- ==== Sys2Proof/Word.lean ====
section
/-! DEFINITION. The two word types of the block: the byte of the UART, of an 8-bit bus and of the flash
device, and the bus word, wide enough for a 16-bit bus (R9 `SPI_W`, R75). -/

namespace Sys2Proof

/-- A byte (R79). -/
abbrev Byte := BitVec 8

/-- One bus element: `SPI_W` bits, 8 or 16 (R9, R180). On an 8-bit bus the upper byte is zero
(log 20). -/
abbrev Word := BitVec 16

end Sys2Proof
end

