-- ==== Sys2Proof/Config.lean ====
section
/-! DEFINITION. What an implementation fixes (R9: every parameter of its second table is an argument of the
model), and the one free value behind every `draw` of the spec (R12, R107, R176, R182). -/

namespace Sys2Proof

/-- The two execution contexts of the one core (R83, R378, R388). -/
inductive Side where
  | main
  | irq
  deriving DecidableEq, Repr

/-- Word width of a bus instance: 8 or 16 bits, nothing else (R9, R160). -/
inductive Width where
  | w8
  | w16
  deriving DecidableEq, Repr

/-- Configuration of one bus instance (R25). No rule reads the clock mode or the bit rate (R166). -/
structure BusCfg where
  cpol : Bool
  cpha : Bool
  width : Width
  bitrate : Nat
  hasCs : Bool
  deriving DecidableEq, Repr

/-- A stand-alone ring: its capacity and the context that owns each port for the life of the ring
(R22, R140; DESIGN CHOICE, log 11). -/
structure RingCfg where
  n : Nat
  producer : Side
  consumer : Side
  deriving DecidableEq, Repr

/-- The transmit ring of a UART: its capacity, and the one context that calls `UART.WRITE_BYTE` on the
instance (R140, R388). Its consumer is the handler `EV.UART_TX_LEVEL`. -/
structure TxRingCfg where
  n : Nat
  producer : Side
  deriving DecidableEq, Repr

/-- The three listeners given to a UART instance at construction (R27, R221, R392), as handles. -/
structure Callbacks where
  frameReceived : Nat
  error : Nat
  txDone : Nat
  deriving DecidableEq, Repr

/-- Layout parameters of the discovery table (R118). -/
structure SfdpLayout where
  sigOff : BitVec 24
  hdrLen : Nat
  idOff : Nat
  ptrOff : Nat
  w1Off : Nat
  erase4kMask : BitVec 32
  erase4kVal : BitVec 32
  w2Off : Nat
  tblLen : Nat
  deriving DecidableEq, Repr

/-- Block Device Geometry `bd.geom` (R31, R347). -/
structure Geometry where
  base : Nat
  blockSize : Nat
  blockCount : Nat
  readSize : Nat
  progSize : Nat
  cacheSize : Nat
  lookaheadSize : Nat
  deriving DecidableEq, Repr

/-- Every parameter of the second table of R9. -/
structure Config where
  buses : List BusCfg
  flashBus : Nat
  txRings : List TxRingCfg
  cbs : List Callbacks
  rings : List RingCfg
  busFifoDepth : Nat
  dmaMax : Nat
  flDmaThresh : Nat
  uartFifoDepth : Nat
  uartRxTrig : Nat
  uartTxTrig : Nat
  uartRxTimeout : Nat
  flPage : Nat
  apiAddrW : Nat
  hostBigEndian : Bool
  sfdp : SfdpLayout
  geom : Geometry
  bufCaps : List Nat
  deriving DecidableEq, Repr

/-- The erase granularities the source fixes (R9 `FL_SECTOR`, `FL_BLOCK32`). -/
def flSector : Nat := 4096

/-- See `flSector`. -/
def flBlock32 : Nat := 32768

/-- A power of two at least 2, the capacity a ring may have (R9, R22). -/
def isRingSize (n : Nat) : Bool := decide (2 ≤ n) && n == 2 ^ n.log2

/-- The fields of the discovery table lie inside the parts that are read: R118 gives the offsets as offsets into
the `SFDP_HDR_LEN` header bytes and the `SFDP_TBL_LEN` table bytes (DESIGN CHOICE, log 29). -/
def SfdpLayout.wf (l : SfdpLayout) : Bool :=
  decide (4 ≤ l.hdrLen) && decide (l.idOff < l.hdrLen) && decide (l.ptrOff + 3 ≤ l.hdrLen) &&
  decide (l.w1Off + 4 ≤ l.tblLen) && decide (l.w2Off + 4 ≤ l.tblLen)

/-- The constraints the spec puts on the parameters: R9, R22, R27 (one set of listeners for each UART), R232, R281,
R347; that `FL_PAGE` is at least 1 follows from R347, since `BD_PROG_SIZE` divides 4096 and is at most `FL_PAGE`. The
others are the model's (DESIGN CHOICE): that `BUS_FIFO_DEPTH` and `DMA_MAX` are at least 1 and a caller buffer has at
most `2^32` elements (log 31), the bounds on `API_ADDR_W` (log 22) and those on the layout (log 29). -/
def Config.wf (c : Config) : Bool :=
  c.txRings.all (fun r => isRingSize r.n) && c.rings.all (fun r => isRingSize r.n) &&
  c.cbs.length == c.txRings.length && c.sfdp.wf &&
  decide (24 ≤ c.apiAddrW) && decide (c.apiAddrW ≤ 64) &&
  decide (1 ≤ c.busFifoDepth) && decide (1 ≤ c.dmaMax) &&
  decide (3 ≤ c.uartRxTrig) && decide (c.uartRxTrig ≤ c.uartFifoDepth) &&
  decide (1 ≤ c.flPage) &&
  (match c.buses[c.flashBus]? with
    | some b => b.width == .w8 && b.hasCs
    | none => false) &&
  c.geom.blockSize == flSector && c.geom.base % flSector == 0 &&
  decide (c.geom.base + c.geom.blockCount * c.geom.blockSize ≤ 2 ^ 24) &&
  c.geom.blockSize % c.geom.readSize == 0 && c.geom.blockSize % c.geom.progSize == 0 &&
  decide (c.geom.progSize ≤ c.flPage) && c.flPage % c.geom.progSize == 0 &&
  c.bufCaps.all fun n => decide (n ≤ 2 ^ 32)

/-- The `API_ADDR_W`-bit address in a field that may be wider (R103, R122, R283; log 22). -/
def Config.addrOf (c : Config) (a : Nat) : Nat := a % 2 ^ c.apiAddrW

/-- JESD216 layout, the values of R118. -/
def SfdpLayout.jesd216 : SfdpLayout where
  sigOff := 0
  hdrLen := 16
  idOff := 8
  ptrOff := 12
  w1Off := 0
  erase4kMask := 0x00000003
  erase4kVal := 0x00000001
  w2Off := 4
  tblLen := 8

/-- The defaults of R9, with the values of log 6 where R9 has none. -/
def Config.default : Config where
  buses := [{ cpol := false, cpha := false, width := .w8, bitrate := 0, hasCs := true }]
  flashBus := 0
  txRings := [{ n := 128, producer := .main }]
  cbs := [{ frameReceived := 0, error := 1, txDone := 2 }]
  rings := [{ n := 128, producer := .main, consumer := .irq },
            { n := 128, producer := .irq, consumer := .main }]
  busFifoDepth := 8
  dmaMax := 1024
  flDmaThresh := 64
  uartFifoDepth := 32
  uartRxTrig := 16
  uartTxTrig := 0
  uartRxTimeout := 0
  flPage := 256
  apiAddrW := 32
  hostBigEndian := false
  sfdp := .jesd216
  geom := { base := 0x00080000, blockSize := 4096, blockCount := 128, readSize := 16,
            progSize := 16, cacheSize := 64, lookaheadSize := 16 }
  bufCaps := List.replicate 16 65536

/-- The `n`-th value drawn (R12 `draw`): nothing constrains it (log 9). -/
opaque Config.freeWord : Nat → BitVec 16

end Sys2Proof
end

