-- ==== Sys2Proof/Syntax.lean ====
section
/-! DEFINITION. The instructions: one constructor per row of the opcode table, which is R104 (flash wire
commands), R124 (operations) and R126 (events). -/

namespace Sys2Proof

/-- Line-error kinds, R360 code 5 and R28 `line_err`. `brk` is the spec's `break`. -/
inductive LineErr where
  | framing
  | parity
  | brk
  deriving DecidableEq, Repr

/-- A ring instance: a stand-alone ring, or the transmit ring a UART driver owns (R20, R22, log 11). -/
inductive RingRef where
  | own (i : BitVec 7)
  | tx (u : BitVec 7)
  deriving DecidableEq, Repr

/-- One constructor per row of the opcode table. A buffer operand is the number of a caller buffer
(R70), a length counts elements (R168). An address stands in a field of 64 bits, of which `API_ADDR_W` are
the operand (R283, log 22); blocks and offsets are 32 bits (R342). -/
inductive Instr where
  -- flash wire commands, R104
  | fcPp (addr : BitVec 24) (data : List Byte)
  | fcRead (addr : BitVec 24) (n : Nat)
  | fcRdsr
  | fcWren
  | fcSe (addr : BitVec 24)
  | fcBe32 (addr : BitVec 24)
  | fcRdsfdp (addr : BitVec 24) (n : Nat)
  | fcRdid
  | fcJedec
  | fcCe
  -- operations, R124
  | rbPush (r : RingRef) (b : Byte)
  | rbPull (r : RingRef)
  | spiSelect (b : BitVec 8)
  | spiDeselect (b : BitVec 8)
  | spiXfer (b : BitVec 8) (tx rx : BitVec 16) (length : Nat)
  | spiTx (b : BitVec 8) (tx : BitVec 16) (length : Nat)
  | spiRx (b : BitVec 8) (rx : BitVec 16) (length : Nat)
  | dmaStart (b : BitVec 8) (tx rx : Option (BitVec 16)) (count : Nat) (blocking : Bool)
  | dmaWait (b : BitVec 8)
  | uartBindPoll (u : BitVec 8)
  | uartBindIrq (u : BitVec 8) (rxBuf : BitVec 16) (rxCap : Nat)
  | uartPollRead (u : BitVec 8)
  | uartWriteByte (u : BitVec 8) (b : Byte)
  | uartDmaTx (u : BitVec 8) (src : BitVec 16) (len : Nat)
  | uartDmaWait (u : BitVec 8)
  | flIdentify
  | flDiscover
  | flRead (addr : BitVec 64) (rx : BitVec 16) (len : Nat)
  | flProgram (addr : BitVec 64) (tx : BitVec 16) (len : Nat)
  | flEraseSector (addr : BitVec 64)
  | flEraseBlock (addr : BitVec 64)
  | flEraseAll
  | flWaitReady
  | flWriteEnable
  | flReadStatus
  | flInit
  | bdRead (block offset : BitVec 32) (buffer : BitVec 16) (size : Nat)
  | bdProgram (block offset : BitVec 32) (buffer : BitVec 16) (size : Nat)
  | bdErase (block : BitVec 32)
  | bdSync
  -- interrupt handlers, R126
  | evDmaRxDone (b : BitVec 8)
  | evDmaTxDone (b : BitVec 8)
  | evUartRxLevel (u : BitVec 8)
  | evUartRxTimeout (u : BitVec 8)
  | evUartTxLevel (u : BitVec 8)
  | evUartLineError (u : BitVec 8)
  | evUartDmaDone (u : BitVec 8)
  | evUartEot (u : BitVec 8)
  -- hardware and environment events, R126
  | envDmaRxMove (b : BitVec 8)
  | envDmaTxMove (b : BitVec 8)
  | envUartDmaMove (u : BitVec 8)
  | envLineByte (u : BitVec 8) (b : Byte) (e : Option LineErr)
  | envLineSilence (u : BitVec 8)
  | envTxShift (u : BitVec 8)
  | envFlashDone
  deriving DecidableEq, Repr

end Sys2Proof
end

