-- ==== Sys2Proof/WellFormed.lean ====
section
/-! DEFINITION. The operand domains of the opcode table: a length is "> 0" (R168, R194, R250, R296, R300,
R344), a reply of a read frame has at least one byte and a program frame at least one data byte (R101,
R106), and a count fits the field the encoding gives it (log 3). -/

namespace Sys2Proof

/-- A count of elements, "> 0", in the 32-bit field that holds it less one. -/
abbrev lengthOk (n : Nat) : Bool := decide (1 ≤ n) && decide (n ≤ 2 ^ 32)

/-- The operands are in the domains the opcode table gives them. -/
def Instr.wf : Instr → Bool
  | .fcPp _ data => !data.isEmpty
  | .fcRead _ n => decide (1 ≤ n)
  | .fcRdsfdp _ n => decide (1 ≤ n)
  | .spiXfer _ _ _ n => lengthOk n
  | .spiTx _ _ n => lengthOk n
  | .spiRx _ _ n => lengthOk n
  | .dmaStart _ _ _ n _ => lengthOk n
  | .uartBindIrq _ _ cap => decide (cap < 2 ^ 32)
  | .uartDmaTx _ _ n => lengthOk n
  | .flRead _ _ n => lengthOk n
  | .flProgram _ _ n => lengthOk n
  | .bdRead _ _ _ n => lengthOk n
  | .bdProgram _ _ _ n => lengthOk n
  | .fcRdsr | .fcWren | .fcSe _ | .fcBe32 _ | .fcRdid | .fcJedec | .fcCe => true
  | .rbPush _ _ | .rbPull _ | .spiSelect _ | .spiDeselect _ | .dmaWait _ => true
  | .uartBindPoll _ | .uartPollRead _ | .uartWriteByte _ _ | .uartDmaWait _ => true
  | .flIdentify | .flDiscover | .flEraseSector _ | .flEraseBlock _ | .flEraseAll => true
  | .flWaitReady | .flWriteEnable | .flReadStatus | .flInit | .bdErase _ | .bdSync => true
  | .evDmaRxDone _ | .evDmaTxDone _ | .evUartRxLevel _ | .evUartRxTimeout _ => true
  | .evUartTxLevel _ | .evUartLineError _ | .evUartDmaDone _ | .evUartEot _ => true
  | .envDmaRxMove _ | .envDmaTxMove _ | .envUartDmaMove _ | .envLineByte _ _ _ => true
  | .envLineSilence _ | .envTxShift _ | .envFlashDone => true

end Sys2Proof
end

