-- ==== Sys2Proof/Decode.lean ====
section
/-! DEFINITION. From bytes to instructions and back. There are two code spaces: the identifiers of
operations and events (R124, R126), which appear on no wire, and the opcodes of the frames that cross the
flash bus (R104). They overlap at 0x02 and 0x20, so bytes are read in the space they were presented in
(log 4). The operand layout after an identifier is the model's (log 3); a frame is laid out by R101 to
R106. -/

namespace Sys2Proof

/-- The code space some bytes are presented in (log 4). -/
inductive Space where
  | op
  | wire
  deriving DecidableEq, Repr

/-- Why bytes are no instruction. -/
inductive DecodeError where
  /-- No byte at all. -/
  | empty
  /-- An identifier outside R124 and R126 (R132). -/
  | unknownId (id : Byte)
  /-- Fewer operand bytes than the identifier's operands take. -/
  | truncated (id : Byte)
  /-- A presence, blocking or line-error byte that names nothing, or a reference given for an absent
  buffer. -/
  | badOperand (id : Byte)
  /-- A first byte outside the ten opcodes of R104 (R110). -/
  | unknownOpcode (opcode : Byte)
  /-- A frame whose length or constant bytes are not those of its opcode's format (R101, R106). -/
  | badFrame (opcode : Byte)
  deriving DecidableEq, Repr

/-! ## Field layout -/

/-- Two bytes, the lower first, as 16 bits. -/
def of16 (a b : Byte) : BitVec 16 := b ++ a

/-- Four bytes, the lowest first, as 32 bits. -/
def of32 (a b c d : Byte) : BitVec 32 := d ++ c ++ b ++ a

/-- Eight bytes, the lowest first, as 64 bits. -/
def of64 (a b c d e f g h : Byte) : BitVec 64 := of32 e f g h ++ of32 a b c d

/-- Three bytes, the highest first, as the 24 bits of a wire address (R72, R102). -/
def of24 (a b c : Byte) : BitVec 24 := a ++ b ++ c

/-- `be24` of R11: the three address bytes of a frame, most significant first (R72, R102). -/
def be24 (a : BitVec 24) : List Byte :=
  [a.extractLsb' 16 8, a.extractLsb' 8 8, a.extractLsb' 0 8]

/-- 16 bits as two bytes, the lower first. -/
def bytes16 (x : BitVec 16) : List Byte := [x.extractLsb' 0 8, x.extractLsb' 8 8]

/-- 32 bits as four bytes, the lowest first. -/
def bytes32 (x : BitVec 32) : List Byte :=
  [x.extractLsb' 0 8, x.extractLsb' 8 8, x.extractLsb' 16 8, x.extractLsb' 24 8]

/-- 64 bits as eight bytes, the lowest first. -/
def bytes64 (x : BitVec 64) : List Byte := bytes32 (x.extractLsb' 0 32) ++ bytes32 (x.extractLsb' 32 32)

/-- The field of a count that is never zero holds the count less one (log 3). -/
def bytesCount (n : Nat) : List Byte := bytes32 (BitVec.ofNat 32 (n - 1))

/-- See `bytesCount`. -/
def ofCount (a b c d : Byte) : Nat := (of32 a b c d).toNat + 1

/-- A ring reference: the top bit clear for a stand-alone ring, set for a UART's transmit ring. -/
def ofRing (x : Byte) : RingRef :=
  if x.getLsbD 7 then .tx (x.extractLsb' 0 7) else .own (x.extractLsb' 0 7)

/-- See `ofRing`. -/
def byteRing : RingRef → Byte
  | .own i => 0#1 ++ i
  | .tx u => 1#1 ++ u

/-- The buffers of `DMA.START`: a presence byte, then a transmit and a receive reference, an absent one
written as zero. -/
def ofDmaBuffers (p : Byte) (tx rx : BitVec 16) :
    Option (Option (BitVec 16) × Option (BitVec 16)) :=
  match p.toNat with
  | 0 => if rx = 0 then some (some tx, none) else none
  | 1 => if tx = 0 then some (none, some rx) else none
  | 2 => some (some tx, some rx)
  | 3 => if tx = 0 ∧ rx = 0 then some (none, none) else none
  | _ => none

/-- See `ofDmaBuffers`. -/
def bytesDmaBuffers : Option (BitVec 16) → Option (BitVec 16) → List Byte
  | some tx, none => 0 :: (bytes16 tx ++ bytes16 0)
  | none, some rx => 1 :: (bytes16 0 ++ bytes16 rx)
  | some tx, some rx => 2 :: (bytes16 tx ++ bytes16 rx)
  | none, none => 3 :: (bytes16 0 ++ bytes16 0)

/-- A bool as one byte. -/
def ofBool (x : Byte) : Option Bool :=
  match x.toNat with
  | 0 => some false
  | 1 => some true
  | _ => none

/-- The defect operand of `ENV.LINE_BYTE` (R262). -/
def ofLineErr (x : Byte) : Option (Option LineErr) :=
  match x.toNat with
  | 0 => some none
  | 1 => some (some .framing)
  | 2 => some (some .parity)
  | 3 => some (some .brk)
  | _ => none

/-- See `ofLineErr`. -/
def byteLineErr : Option LineErr → Byte
  | none => 0
  | some .framing => 1
  | some .parity => 2
  | some .brk => 3

/-! ## Operations and events -/

/-- An instruction with no operand. -/
def noOperand (i : Instr) (_ : List Byte) : Option Instr := some i

/-- An instruction whose one operand is an index or a byte. -/
def oneByte (f : Byte → Instr) : List Byte → Option Instr
  | x :: _ => some (f x)
  | _ => none

/-- An instruction with two one-byte operands. -/
def twoBytes (f : Byte → Byte → Instr) : List Byte → Option Instr
  | x :: y :: _ => some (f x y)
  | _ => none

/-- An instruction whose one operand has 32 bits. -/
def oneBlock (f : BitVec 32 → Instr) : List Byte → Option Instr
  | a :: b :: c :: d :: _ => some (f (of32 a b c d))
  | _ => none

/-- An instruction whose one operand is an address. -/
def oneAddr (f : BitVec 64 → Instr) : List Byte → Option Instr
  | a :: b :: c :: d :: e :: g :: h :: k :: _ => some (f (of64 a b c d e g h k))
  | _ => none

/-- An instruction with an index, a buffer and a count. -/
def indexBufCount (f : Byte → BitVec 16 → Nat → Instr) : List Byte → Option Instr
  | x :: t0 :: t1 :: a :: b :: c :: d :: _ => some (f x (of16 t0 t1) (ofCount a b c d))
  | _ => none

/-- `SPI.XFER`: an index, two buffers and a count. -/
def decodeXfer : List Byte → Option Instr
  | x :: t0 :: t1 :: r0 :: r1 :: a :: b :: c :: d :: _ =>
    some (.spiXfer x (of16 t0 t1) (of16 r0 r1) (ofCount a b c d))
  | _ => none

/-- `DMA.START`: an index, the buffers, a count and the blocking flag. `none` when bytes are missing,
`some none` when one names nothing. -/
def decodeDmaStart : List Byte → Option (Option Instr)
  | x :: p :: t0 :: t1 :: r0 :: r1 :: a :: b :: c :: d :: w :: _ =>
    match ofDmaBuffers p (of16 t0 t1) (of16 r0 r1), ofBool w with
    | some (tx, rx), some blocking => some (some (.dmaStart x tx rx (ofCount a b c d) blocking))
    | _, _ => some none
  | _ => none

/-- `UART.BIND_IRQ`: an index, a buffer and a capacity, which may be zero (R224). -/
def decodeBindIrq : List Byte → Option Instr
  | x :: t0 :: t1 :: a :: b :: c :: d :: _ => some (.uartBindIrq x (of16 t0 t1) (of32 a b c d).toNat)
  | _ => none

/-- `FL.READ` and `FL.PROGRAM`: an address, a buffer and a count. -/
def addrBufCount (f : BitVec 64 → BitVec 16 → Nat → Instr) : List Byte → Option Instr
  | p :: q :: r :: t :: e :: g :: h :: k :: t0 :: t1 :: a :: b :: c :: d :: _ =>
    some (f (of64 p q r t e g h k) (of16 t0 t1) (ofCount a b c d))
  | _ => none

/-- `BD.READ` and `BD.PROGRAM`: a block, an offset, a buffer and a count. -/
def blockBufCount (f : BitVec 32 → BitVec 32 → BitVec 16 → Nat → Instr) : List Byte → Option Instr
  | p :: q :: r :: t :: e :: g :: h :: k :: t0 :: t1 :: a :: b :: c :: d :: _ =>
    some (f (of32 p q r t) (of32 e g h k) (of16 t0 t1) (ofCount a b c d))
  | _ => none

/-- `ENV.LINE_BYTE`: an index, a byte and a defect. See `decodeDmaStart` for the result. -/
def decodeLineByte : List Byte → Option (Option Instr)
  | u :: b :: e :: _ => some ((ofLineErr e).map fun d => .envLineByte u b d)
  | _ => none

/-- The operand bytes either give the instruction or are too few. -/
def orTruncated (id : Byte) : Option Instr → Except DecodeError Instr
  | some i => .ok i
  | none => .error (.truncated id)

/-- As `orTruncated`, with operands that may name nothing. -/
def orBad (id : Byte) : Option (Option Instr) → Except DecodeError Instr
  | some (some i) => .ok i
  | some none => .error (.badOperand id)
  | none => .error (.truncated id)

/-- An operation or event from its identifier and operand bytes (R124, R126). Bytes after the last
operand are not read. -/
def decodeOp : List Byte → Except DecodeError Instr
  | [] => .error .empty
  | id :: r =>
    match id.toNat with
    | 0x01 => orTruncated id (twoBytes (fun x b => .rbPush (ofRing x) b) r)
    | 0x02 => orTruncated id (oneByte (fun x => .rbPull (ofRing x)) r)
    | 0x10 => orTruncated id (oneByte .spiSelect r)
    | 0x11 => orTruncated id (oneByte .spiDeselect r)
    | 0x12 => orTruncated id (decodeXfer r)
    | 0x13 => orTruncated id (indexBufCount .spiTx r)
    | 0x14 => orTruncated id (indexBufCount .spiRx r)
    | 0x18 => orBad id (decodeDmaStart r)
    | 0x19 => orTruncated id (oneByte .dmaWait r)
    | 0x20 => orTruncated id (oneByte .uartBindPoll r)
    | 0x21 => orTruncated id (decodeBindIrq r)
    | 0x22 => orTruncated id (oneByte .uartPollRead r)
    | 0x23 => orTruncated id (twoBytes .uartWriteByte r)
    | 0x24 => orTruncated id (indexBufCount .uartDmaTx r)
    | 0x25 => orTruncated id (oneByte .uartDmaWait r)
    | 0x30 => orTruncated id (noOperand .flIdentify r)
    | 0x31 => orTruncated id (noOperand .flDiscover r)
    | 0x32 => orTruncated id (addrBufCount .flRead r)
    | 0x33 => orTruncated id (addrBufCount .flProgram r)
    | 0x34 => orTruncated id (oneAddr .flEraseSector r)
    | 0x35 => orTruncated id (oneAddr .flEraseBlock r)
    | 0x36 => orTruncated id (noOperand .flEraseAll r)
    | 0x37 => orTruncated id (noOperand .flWaitReady r)
    | 0x38 => orTruncated id (noOperand .flWriteEnable r)
    | 0x39 => orTruncated id (noOperand .flReadStatus r)
    | 0x3A => orTruncated id (noOperand .flInit r)
    | 0x40 => orTruncated id (blockBufCount .bdRead r)
    | 0x41 => orTruncated id (blockBufCount .bdProgram r)
    | 0x42 => orTruncated id (oneBlock .bdErase r)
    | 0x43 => orTruncated id (noOperand .bdSync r)
    | 0x80 => orTruncated id (oneByte .evDmaRxDone r)
    | 0x81 => orTruncated id (oneByte .evDmaTxDone r)
    | 0x82 => orTruncated id (oneByte .evUartRxLevel r)
    | 0x83 => orTruncated id (oneByte .evUartRxTimeout r)
    | 0x84 => orTruncated id (oneByte .evUartTxLevel r)
    | 0x85 => orTruncated id (oneByte .evUartLineError r)
    | 0x86 => orTruncated id (oneByte .evUartDmaDone r)
    | 0x87 => orTruncated id (oneByte .evUartEot r)
    | 0xC0 => orTruncated id (oneByte .envDmaRxMove r)
    | 0xC1 => orTruncated id (oneByte .envDmaTxMove r)
    | 0xC2 => orTruncated id (oneByte .envUartDmaMove r)
    | 0xC3 => orBad id (decodeLineByte r)
    | 0xC4 => orTruncated id (oneByte .envLineSilence r)
    | 0xC5 => orTruncated id (oneByte .envTxShift r)
    | 0xC6 => orTruncated id (noOperand .envFlashDone r)
    | _ => .error (.unknownId id)

/-! ## Wire frames -/

/-- A whole frame from the bytes of its selection window (R101, R106). A filler position holds any byte
(R107), and so does the dummy of `FC-OADR` (R93); the address of 0x90 is the constant 0 (R103). -/
def decodeWire : List Byte → Except DecodeError Instr
  | [] => .error .empty
  | opc :: r =>
    match opc.toNat, r with
    | 0x02, a :: b :: c :: d :: ds => .ok (.fcPp (of24 a b c) (d :: ds))
    | 0x03, a :: b :: c :: _ :: xs => .ok (.fcRead (of24 a b c) (xs.length + 1))
    | 0x05, [_] => .ok .fcRdsr
    | 0x06, [] => .ok .fcWren
    | 0x20, [a, b, c] => .ok (.fcSe (of24 a b c))
    | 0x52, [a, b, c] => .ok (.fcBe32 (of24 a b c))
    | 0x5A, a :: b :: c :: _ :: _ :: xs => .ok (.fcRdsfdp (of24 a b c) (xs.length + 1))
    | 0x90, [a, b, c, _, _] =>
      if of24 a b c = 0 then .ok .fcRdid else .error (.badFrame opc)
    | 0x9F, [_, _, _] => .ok .fcJedec
    | 0xC7, [] => .ok .fcCe
    | 0x02, _ | 0x03, _ | 0x05, _ | 0x06, _ | 0x20, _ => .error (.badFrame opc)
    | 0x52, _ | 0x5A, _ | 0x90, _ | 0x9F, _ | 0xC7, _ => .error (.badFrame opc)
    | _, _ => .error (.unknownOpcode opc)

/-- Decoding in the space the bytes were presented in. -/
def decode : Space → List Byte → Except DecodeError Instr
  | .op, bs => decodeOp bs
  | .wire, bs => decodeWire bs

/-! ## The encoder -/

/-- The space and the bytes of an instruction: identifier and operands (R124, R126), or the frame with
its fillers written as zero (R101, R107). -/
def encode : Instr → Space × List Byte
  | .fcPp a data => (.wire, 0x02 :: (be24 a ++ data))
  | .fcRead a n => (.wire, 0x03 :: (be24 a ++ List.replicate n 0))
  | .fcRdsr => (.wire, [0x05, 0])
  | .fcWren => (.wire, [0x06])
  | .fcSe a => (.wire, 0x20 :: be24 a)
  | .fcBe32 a => (.wire, 0x52 :: be24 a)
  | .fcRdsfdp a n => (.wire, 0x5A :: (be24 a ++ 0 :: List.replicate n 0))
  | .fcRdid => (.wire, [0x90, 0, 0, 0, 0, 0])
  | .fcJedec => (.wire, [0x9F, 0, 0, 0])
  | .fcCe => (.wire, [0xC7])
  | .rbPush r b => (.op, [0x01, byteRing r, b])
  | .rbPull r => (.op, [0x02, byteRing r])
  | .spiSelect b => (.op, [0x10, b])
  | .spiDeselect b => (.op, [0x11, b])
  | .spiXfer b tx rx n => (.op, 0x12 :: b :: (bytes16 tx ++ bytes16 rx ++ bytesCount n))
  | .spiTx b tx n => (.op, 0x13 :: b :: (bytes16 tx ++ bytesCount n))
  | .spiRx b rx n => (.op, 0x14 :: b :: (bytes16 rx ++ bytesCount n))
  | .dmaStart b tx rx n w =>
    (.op, 0x18 :: b :: (bytesDmaBuffers tx rx ++ bytesCount n ++ [if w then 1 else 0]))
  | .dmaWait b => (.op, [0x19, b])
  | .uartBindPoll u => (.op, [0x20, u])
  | .uartBindIrq u rx cap => (.op, 0x21 :: u :: (bytes16 rx ++ bytes32 (BitVec.ofNat 32 cap)))
  | .uartPollRead u => (.op, [0x22, u])
  | .uartWriteByte u b => (.op, [0x23, u, b])
  | .uartDmaTx u src n => (.op, 0x24 :: u :: (bytes16 src ++ bytesCount n))
  | .uartDmaWait u => (.op, [0x25, u])
  | .flIdentify => (.op, [0x30])
  | .flDiscover => (.op, [0x31])
  | .flRead a rx n => (.op, 0x32 :: (bytes64 a ++ bytes16 rx ++ bytesCount n))
  | .flProgram a tx n => (.op, 0x33 :: (bytes64 a ++ bytes16 tx ++ bytesCount n))
  | .flEraseSector a => (.op, 0x34 :: bytes64 a)
  | .flEraseBlock a => (.op, 0x35 :: bytes64 a)
  | .flEraseAll => (.op, [0x36])
  | .flWaitReady => (.op, [0x37])
  | .flWriteEnable => (.op, [0x38])
  | .flReadStatus => (.op, [0x39])
  | .flInit => (.op, [0x3A])
  | .bdRead k o r n => (.op, 0x40 :: (bytes32 k ++ bytes32 o ++ bytes16 r ++ bytesCount n))
  | .bdProgram k o r n => (.op, 0x41 :: (bytes32 k ++ bytes32 o ++ bytes16 r ++ bytesCount n))
  | .bdErase k => (.op, 0x42 :: bytes32 k)
  | .bdSync => (.op, [0x43])
  | .evDmaRxDone b => (.op, [0x80, b])
  | .evDmaTxDone b => (.op, [0x81, b])
  | .evUartRxLevel u => (.op, [0x82, u])
  | .evUartRxTimeout u => (.op, [0x83, u])
  | .evUartTxLevel u => (.op, [0x84, u])
  | .evUartLineError u => (.op, [0x85, u])
  | .evUartDmaDone u => (.op, [0x86, u])
  | .evUartEot u => (.op, [0x87, u])
  | .envDmaRxMove b => (.op, [0xC0, b])
  | .envDmaTxMove b => (.op, [0xC1, b])
  | .envUartDmaMove u => (.op, [0xC2, u])
  | .envLineByte u b e => (.op, [0xC3, u, b, byteLineErr e])
  | .envLineSilence u => (.op, [0xC4, u])
  | .envTxShift u => (.op, [0xC5, u])
  | .envFlashDone => (.op, [0xC6])

/-! ## Table words -/

/-- The bytes of a table word, byte 0 first. -/
def tableBytes (nbits w : Nat) : List Byte :=
  (List.range (nbits / 8)).map fun i => BitVec.ofNat 8 (w / 256 ^ i)

/-- The frame a table word stands for, with zero bytes after it: the shortest one its opcode's format
admits (R101, R106; one reply or data byte where the format has `n`). -/
def wireBytes (bs : List Byte) : List Byte :=
  let total := match (bs.headD 0).toNat with
    | 0x02 | 0x03 => 5
    | 0x05 => 2
    | 0x20 | 0x52 | 0x9F => 4
    | 0x5A | 0x90 => 6
    | _ => 1
  bs ++ List.replicate (total - bs.length) 0

/-- The longest operations: `FL.READ`, `FL.PROGRAM`, `BD.READ` and `BD.PROGRAM`, with 15 bytes. -/
def opMaxBytes : Nat := 15

/-- The space and the bytes in which a table word is presented. The table gives a row its first byte
alone, and two rows share 0x02 and two 0x20: the operation is taken before the frame (log 4). -/
def tableTurn (nbits w : Nat) : Space × List Byte :=
  let bs := tableBytes nbits w
  let ops := bs ++ List.replicate (opMaxBytes - bs.length) 0
  match decodeOp ops with
  | .ok _ => (.op, ops)
  | .error _ => (.wire, wireBytes bs)

/-- The instruction the decoder reads from a table word. -/
def decodeTableWord (nbits w : Nat) : Option Instr :=
  match decode (tableTurn nbits w).1 (tableTurn nbits w).2 with
  | .ok i => some i
  | .error _ => none

end Sys2Proof
end

