-- ==== Sys2Proof/Machine/State.lean ====
section
/-! DEFINITION. Everything the spec gives the machine (R20 to R36, R88), as plain data, and the state after
reset (R37, R410 to R414). -/

namespace Sys2Proof.Machine

/-! ## Errors and results -/

/-- Error kinds, R360. -/
inductive ErrKind where
  | alignment
  | discovery
  | unsupportedGeometry
  | overflow
  | line (k : LineErr)
  | backpressure
  deriving DecidableEq, Repr

/-- What an operation returned (R13, R124): the model's own record (log 21). -/
inductive Ret where
  /-- The operation has returned nothing, or has not returned yet. -/
  | none
  /-- `bool`. -/
  | bool (b : Bool)
  /-- `optional byte`. -/
  | optByte (v : Option Byte)
  /-- `Ok` of a `Result`. -/
  | ok
  /-- `Err(e)` of a `Result`. -/
  | err (e : ErrKind)
  /-- `(vendor, device)`. -/
  | ident (vendor device : Byte)
  /-- A status byte. -/
  | status (b : Byte)
  /-- The reply bytes of a wire frame presented by itself (log 13). -/
  | bytes (bs : List Byte)
  deriving DecidableEq, Repr

/-! ## Buffers and descriptors -/

/-- A reference into `BUF` (R70): a caller buffer, or the flash driver's own reply buffer, which holds
the `st`, `id`, `h` and `t` of R285, R306, R310 and R312 (log 14). -/
inductive BufRef where
  | user (id : BitVec 16)
  | loc
  deriving DecidableEq, Repr

/-- Source or destination of a descriptor (R26). -/
inductive Loc where
  | dr
  | scratch
  | buf (r : BufRef) (i : Nat)
  deriving DecidableEq, Repr

/-- Increment mode of a descriptor (R26). -/
inductive Inc where
  | incSrc
  | incDst
  | incNone
  deriving DecidableEq, Repr

/-- A DMA descriptor (R26). -/
structure Desc where
  src : Loc
  dst : Loc
  count : Nat
  inc : Inc
  deriving DecidableEq, Repr

/-! ## Components -/

/-- A Ring Buffer instance (R22), with the owner of each port (R140, R156). -/
structure Ring where
  n : Nat
  storage : List Byte
  head : Nat
  tail : Nat
  producer : Side
  consumer : Side
  deriving DecidableEq, Repr

/-- The DMA Transfer Engine of a bus instance (R25). -/
structure Dma where
  active : Bool
  rxDesc : Desc
  txDesc : Desc
  rxEn : Bool
  txEn : Bool
  rxLeft : Nat
  txLeft : Nat
  rxIrq : Bool
  txIrq : Bool
  deriving DecidableEq, Repr

/-- A Bus Instance (R25). -/
structure Bus where
  cfg : BusCfg
  cs : Bool
  scratch : Word
  rxq : List Word
  dma : Dma
  deriving DecidableEq, Repr

/-- The four states of a UART instance (R24, R226). -/
inductive UartMode where
  | idle
  | pollingBound
  | interruptBound
  | dmaTransmitting
  deriving DecidableEq, Repr

/-- Phase of the UART DMA chunker (R24, R250 to R256). -/
inductive DmaPhase where
  | none
  | chunk
  | drain
  deriving DecidableEq, Repr

/-- A set over framing, parity, break (R28 `line_err`). -/
structure LineErrs where
  framing : Bool
  parity : Bool
  brk : Bool
  deriving DecidableEq, Repr

/-- A Serial Transport instance: driver state (R27) and hardware state (R28). `mode` is the spec's
`state`. -/
structure Uart where
  mode : UartMode
  rxBuf : BufRef
  rxCap : Nat
  rxCount : Nat
  txring : Ring
  dmaSrc : BufRef
  dmaLen : Nat
  dmaCursor : Nat
  dmaRemaining : Nat
  dmaChunk : Nat
  dmaPhase : DmaPhase
  dmaBusy : Bool
  cb : Callbacks
  rxfifo : List Byte
  txfifo : List Byte
  txShifting : Bool
  ieRxLevel : Bool
  ieRxTimeout : Bool
  ieLine : Bool
  ieTxLevel : Bool
  ieDma : Bool
  ieEot : Bool
  rxTimeoutFlag : Bool
  gapArmed : Bool
  lineErr : LineErrs
  fifoOverrun : Bool
  dmaIrq : Bool
  utxEn : Bool
  utxLeft : Nat
  utxIdx : Nat
  deriving DecidableEq, Repr

/-- The Flash Descriptor (R29). -/
structure FlashDesc where
  vendorId : Byte
  deviceId : Byte
  log2Capacity : BitVec 6
  valid : Bool
  deriving DecidableEq, Repr

/-- Phase of the flash command state machine (R24, R284). -/
inductive FlPhase where
  | idle
  | preWait
  | wren
  | cmd
  | postWait
  deriving DecidableEq, Repr

/-- The operation in progress (R30). -/
inductive FlOp where
  | none
  | identify
  | discover
  | read
  | program
  | eraseSector
  | eraseBlock
  | eraseAll
  | wait
  deriving DecidableEq, Repr

/-- A word received in one exchange: a known or free word, or the status byte of R90, whose bit 0 is the
device's busy bit and whose other seven bits are free. -/
inductive Reply where
  | word (w : Word)
  | status (busy : Bool) (rest : BitVec 7)
  deriving DecidableEq, Repr

/-- The flash command state machine (R30). `addr` has `API_ADDR_W` bits, a parameter, and stands as the number
they hold. `st` is the `st[0]` of R285, not yet latched (log 14). -/
structure Fl where
  desc : FlashDesc
  phase : FlPhase
  op : FlOp
  addr : Nat
  len : Nat
  status : Byte
  st : Reply
  deriving DecidableEq, Repr

/-- A program or erase in progress inside the device (R88). -/
inductive Pending where
  | none
  | program (a : Nat) (data : List Byte)
  | erase (a n : Nat)
  deriving DecidableEq, Repr

/-- The flash device (R88). `mem` lists the bytes that differ from the erased byte (log 8). -/
structure Flash where
  k : Nat
  mem : List Host.Cell
  sfdp : List Byte
  vendor : Byte
  device : Byte
  busy : Bool
  wel : Bool
  pending : Pending
  frame : List Byte
  deriving DecidableEq, Repr

/-! ## The trace -/

/-- A callback and its arguments after the instance (R221). -/
inductive Callback where
  | frameReceived (buf : BufRef) (count : Nat)
  | error (e : ErrKind)
  | txDone
  deriving DecidableEq, Repr

/-- An outbound event: the two edges of a select line, one exchange of a bus (R166), a byte on a UART
line (R266), a callback (R392). The model's own record (log 21). -/
inductive Event where
  | select (b : Nat)
  | deselect (b : Nat)
  | exchange (b : Nat) (sent received : Word)
  | lineOut (u : Nat) (v : Byte)
  | call (listener : Nat) (u : Nat) (c : Callback)
  deriving DecidableEq, Repr

/-! ## Micro-steps -/

/-- Where the words of a transfer come from: a buffer, bytes the driver holds, or the filler of a
receive-only transfer (R170, R174, R176, R290). -/
inductive Src where
  | buf (r : BufRef)
  | bytes (bs : List Byte)
  | filler
  deriving DecidableEq, Repr

/-- Where the received words of a transfer go (R170, R174, R176). -/
inductive Dst where
  | buf (r : BufRef)
  | scratch
  deriving DecidableEq, Repr

/-- A ring inside the machine: `RingRef` with plain indices. -/
inductive RingId where
  | own (i : Nat)
  | tx (u : Nat)
  deriving DecidableEq, Repr

/-- On whose behalf a push runs: a presented `RB.PUSH`, or `UART.WRITE_BYTE` (R142, R240). -/
inductive PushFor where
  | caller
  | write (u : Nat)
  deriving DecidableEq, Repr

/-- One micro-step of an operation or a handler (R8), with the values its context has sampled. The label
names the line of the spec's pseudocode. -/
inductive Micro where
  /-- P1 of R142. -/
  | pushSample (r : RingId) (b : Byte) (k : PushFor)
  /-- P2 of R142. -/
  | pushStore (r : RingId) (h n : Nat) (b : Byte) (k : PushFor)
  /-- P3 of R142. -/
  | pushPublish (r : RingId) (n : Nat) (k : PushFor)
  /-- C1 of R146. -/
  | pullSample (r : RingId)
  /-- C2 of R146. -/
  | pullRead (r : RingId) (t : Nat)
  /-- C3 of R146. -/
  | pullPublish (r : RingId) (t : Nat) (v : Byte)
  /-- S1 of R162, D1 of R164. -/
  | spinIdle (b : Nat)
  /-- S2 of R162. -/
  | selectBus (b : Nat)
  /-- D2 of R164. -/
  | deselectBus (b : Nat)
  /-- X0 of R170 to R176, M1 and M4 of R196, W1 of R202. -/
  | spinDma (b : Nat)
  /-- X1 of R170 to R176: exchange `i` of `n`. -/
  | xfer (b : Nat) (src : Src) (dst : Dst) (i n : Nat)
  /-- M2 of R196. -/
  | dmaStage (b : Nat) (tx rx : Option BufRef) (count : Nat)
  /-- M3 of R196. -/
  | dmaEnable (b : Nat)
  /-- B1 of R222. -/
  | bindPoll (u : Nat)
  /-- B1 of R224. -/
  | bindBuffer (u : Nat) (rx : BufRef) (cap : Nat)
  /-- B2 of R224. -/
  | bindEnable (u : Nat)
  /-- L1 of R228. -/
  | pollRead (u : Nat)
  /-- T1 of R240. -/
  | writeDirect (u : Nat) (b : Byte)
  /-- T3 of R240. -/
  | enableTx (u : Nat)
  /-- U1 of R250, W1 of R251. -/
  | spinUart (u : Nat)
  /-- U2 of R250. -/
  | dmaTxSet (u : Nat) (src : BufRef) (len : Nat)
  /-- U3 of R250. -/
  | dmaTxGo (u : Nat)
  /-- `fl.op`, `fl.addr` and `fl.len` at the start of an `FL` operation (R296 to R308). -/
  | flBegin (op : FlOp) (addr : Option Nat) (len : Option Nat)
  /-- `fl.phase <- p` (R284). -/
  | flPhase (p : FlPhase)
  /-- The end of an `FL` operation: `IDLE`, `NONE`, and what it returns. -/
  | flEnd (r : Ret)
  /-- The one exchange of `SPI.RX st, 1` in R285. -/
  | rxStatus
  /-- `fl.status <- st[0]` of R285; `give` when the status byte is what the operation returns. -/
  | latchStatus (give : Bool)
  /-- The `until` of R286. -/
  | waitCheck
  /-- The end of R306. -/
  | identEnd
  /-- The tests of R310, which lead to the second transaction. -/
  | discHeader
  /-- R312 after its frame, R314 and the end of R308. -/
  | discTable
  /-- The reply of a wire frame presented by itself, `n` bytes (log 13). -/
  | giveReply (n : Nat)
  /-- One pop of R232, with `left` still to make; the callback when none is left. -/
  | rxLevel (u : Nat) (left : Nat) (dropped : Bool)
  /-- The first line of R234 (log 12). -/
  | rxTimeout (u : Nat)
  /-- One iteration of the loop of R234, or its end. -/
  | rxFlush (u : Nat) (dropped : Bool)
  /-- One iteration of the loop of R244. -/
  | txDrain (u : Nat)
  /-- R206. -/
  | dmaRxDone (b : Nat)
  /-- R207. -/
  | dmaTxDone (b : Nat)
  /-- R254. -/
  | uartDmaDone (u : Nat)
  /-- R256. -/
  | eot (u : Nat)
  /-- R260. -/
  | lineError (u : Nat)
  deriving DecidableEq, Repr

/-- One item of the schedule, the total order of R83 as the outside world gives it (log 1): bytes
presented in a code space, or a grant of micro-steps to the core (`none`: until its context ends or
waits). -/
inductive Turn where
  | req (sp : Space) (bytes : List Byte)
  | core (n : Option Nat)
  deriving DecidableEq, Repr

/-! ## The state -/

/-- The machine. -/
structure State where
  /-- Parameters (R9, R36), written by nothing. -/
  cfg : Config
  /-- Stand-alone rings (R22, log 11). -/
  rings : List Ring
  /-- Bus Instances (R20, R25). -/
  buses : List Bus
  /-- Serial Transport instances (R20, R27, R28). -/
  uarts : List Uart
  /-- Flash driver (R29, R30). -/
  fl : Fl
  /-- Flash device (R88). -/
  flash : Flash
  /-- Caller buffers and the driver's reply buffer (R70 `BUF`), the elements that are not zero. -/
  buf : List (Nat × Word)
  /-- The micro-steps MAIN has still to take (R378). -/
  main : List Micro
  /-- The micro-steps of the running handler (R382). -/
  irq : List Micro
  /-- What MAIN's last operation returned; `none` from its start until it returns (log 21). -/
  ret : Ret
  /-- What the operations performed in the interrupt context have returned, oldest first (R8, R388, log 21). -/
  irqRets : List Ret
  /-- Outbound events, oldest first. -/
  trace : List Event
  /-- The turns still to come (log 1). -/
  sched : List Turn
  /-- How many free values have been drawn (log 9). -/
  draws : Nat
  deriving DecidableEq, Repr

/-! ## Stops -/

/-- The block has no fault mechanism: "No exceptions: every fallible operation returns a discriminated
result" (R360; `fault` is "not used", 93 section 1). So there is no fault, and no one raises one. -/
inductive Fault where
  deriving DecidableEq, Repr

/-- The situations to which the spec gives no meaning and says `refuse` (R12, 93 section 1), and bytes
that are no instruction. All are safe: the model stops where the spec says nothing. -/
inductive Refusal where
  /-- Raised by `exec`'s arm of an instruction that has no meaning yet. Safe. -/
  | notModelled (mnemonic : String)
  /-- Raised by `step`: the bytes presented are no instruction (U2, R110, R132). Safe. -/
  | undecodable (e : DecodeError)
  /-- Raised by every meaning with an index operand: no such instance (U2, R132). Safe. -/
  | noInstance
  /-- Raised by every operation of MAIN: the one before has not returned (R378, U2). Safe. -/
  | operationInProgress
  /-- Raised by every operation that MAIN alone may perform, presented while a handler runs (U9, R388: "A use
  marked "no" is `refuse`"). Safe. -/
  | interruptContext
  /-- Raised by RB.PUSH and RB.PULL on a ring its UART driver owns (U3, R156, R388). Safe. -/
  | ringDiscipline
  /-- Raised by SPI.SELECT and every frame: the bus is already selected (U4, R162). Safe. -/
  | alreadySelected
  /-- Raised by SPI.DESELECT: the bus is not selected (U4, R164). Safe. -/
  | notSelected
  /-- Raised by transfers, DMA requests, FL and BD operations: a length of 0 (U4, U8, U10, U13). Safe. -/
  | zeroLength
  /-- Raised by DMA.START: neither buffer present (U8, R194). Safe. -/
  | noBuffer
  /-- Raised where an operation starts to use a caller buffer that the block owns for another purpose (U1, R71,
  R186, R430 o). Safe. -/
  | bufferOwned
  /-- Raised where a buffer operand is given: no such buffer, or shorter than the length (U4, U8; for the buffers of
  UART.BIND_IRQ and UART.DMA_TX the model's choice, log 30). Safe. -/
  | shortBuffer
  /-- Raised by DMA.START and by flash payloads on the DMA route: more than `DMA_MAX` elements (U8, R194, R290; those
  of identification and discovery where they are reached). Safe. -/
  | dmaCount
  /-- Raised by DMA.START: `rxq` is not empty (U8, R194). Safe. -/
  | rxqNotEmpty
  /-- Raised by UART operations in a state that does not admit them (U10, R226, R270). Safe. -/
  | uartState
  /-- Raised by UART.DMA_TX: bytes still queued, or the transmit interrupt enabled (U10, R250). Safe. -/
  | txPathBusy
  /-- Raised by flash operations and by the device: a span outside the device (U5, R92, R283). Safe. -/
  | flashSpan
  /-- Raised by FL.PROGRAM, BD.PROGRAM and the device: a program across a page (U6, R95, R300). Safe. -/
  | pageCross
  /-- Raised by BD operations: block or offset out of range (U13, R342). Safe. -/
  | blockRange
  /-- Raised by BD operations: no successful FL.INIT yet (U13, R340, R422). Safe. -/
  | notDiscovered
  /-- Raised by FL.DISCOVER and FL.INIT: `log2_bits` outside 3 to 66 (U11, R314). Safe. -/
  | density
  /-- Raised by a receive handler: a pop of an empty FIFO, which R230 does not define. Safe. -/
  | rxPopEmpty
  deriving DecidableEq, Repr

/-- The outcome of a step of this machine. -/
abbrev Out := Host.Outcome State Fault Refusal

/-! ## Reset -/

/-- A ring at reset (R37): empty; the storage, unspecified there, is zero (log 5). -/
def Ring.reset (n : Nat) (producer consumer : Side) : Ring where
  n := n
  storage := List.replicate n 0
  head := 0
  tail := 0
  producer := producer
  consumer := consumer

/-- The descriptor value of log 5, where R37 says "unspecified". -/
def Desc.reset : Desc where
  src := .scratch
  dst := .scratch
  count := 0
  inc := .incNone

/-- A bus instance at reset (R37). -/
def Bus.reset (c : BusCfg) : Bus where
  cfg := c
  cs := false
  scratch := 0
  rxq := []
  dma := { active := false, rxDesc := .reset, txDesc := .reset, rxEn := false, txEn := false,
           rxLeft := 0, txLeft := 0, rxIrq := false, txIrq := false }

/-- A UART instance at reset (R37). The producer of its ring is the context that calls `UART.WRITE_BYTE`, the
consumer is IRQ (R140). -/
def Uart.reset (ring : TxRingCfg) (cb : Callbacks) : Uart where
  mode := .idle
  rxBuf := .user 0
  rxCap := 0
  rxCount := 0
  txring := Ring.reset ring.n ring.producer .irq
  dmaSrc := .user 0
  dmaLen := 0
  dmaCursor := 0
  dmaRemaining := 0
  dmaChunk := 0
  dmaPhase := .none
  dmaBusy := false
  cb := cb
  rxfifo := []
  txfifo := []
  txShifting := false
  ieRxLevel := false
  ieRxTimeout := false
  ieLine := false
  ieTxLevel := false
  ieDma := false
  ieEot := false
  rxTimeoutFlag := false
  gapArmed := false
  lineErr := { framing := false, parity := false, brk := false }
  fifoOverrun := false
  dmaIrq := false
  utxEn := false
  utxLeft := 0
  utxIdx := 0

/-- The flash driver at reset (R37). -/
def Fl.reset : Fl where
  desc := { vendorId := 0, deviceId := 0, log2Capacity := 0, valid := false }
  phase := .idle
  op := .none
  addr := 0
  len := 0
  status := 0
  st := .word 0

/-- The discovery table image of program P7 (95_test_vectors.md), 0x38 bytes. -/
def sfdpP7 : List Byte :=
  [0x53, 0x46, 0x44, 0x50, 0x06, 0x01, 0x00, 0xFF, 0x00, 0x06, 0x01, 0x10, 0x30, 0x00, 0x00, 0xFF] ++
  List.replicate 32 0xFF ++
  [0xE5, 0x20, 0xF1, 0xFF, 0xFF, 0xFF, 0xFF, 0x00]

/-- The device of program P7, ready and erased: the block does not reset the device (R36, R412), so its
initial state is an argument, and this is the one `State.reset` takes (log 7). -/
def Flash.default : Flash where
  k := 21
  mem := []
  sfdp := sfdpP7
  vendor := 0xEF
  device := 0x14
  busy := false
  wel := false
  pending := .none
  frame := []

/-- The machine right after reset with parameters `c` and a device `f` (R37, R410 to R414). -/
def State.init (c : Config) (f : Flash) : State where
  cfg := c
  rings := c.rings.map fun r => Ring.reset r.n r.producer r.consumer
  buses := c.buses.map Bus.reset
  uarts := List.zipWith Uart.reset c.txRings c.cbs
  fl := Fl.reset
  flash := f
  buf := []
  main := []
  irq := []
  ret := .none
  irqRets := []
  trace := []
  sched := []
  draws := 0

/-- The machine right after reset, with the parameters of log 6 and the device of log 7. -/
def State.reset : State := State.init Config.default Flash.default

end Sys2Proof.Machine
end

