-- ==== Sys2Proof/Machine/Flags.lean ====
section
/-! DEFINITION. Every condition the spec derives from state instead of storing it: of a ring (R23), of a bus
(R25), of an interrupt source (R126, R366, R368), of a hardware agent (R204, R205, R252, R263, R266), and
the numeric error codes (R360). -/

namespace Sys2Proof.Machine

/-! ## Ring (R23) -/

/-- `count(r)`: the bytes held. -/
def Ring.count (r : Ring) : Nat := (r.head + r.n - r.tail) % r.n

/-- `empty(r)`. -/
def Ring.empty (r : Ring) : Bool := r.head == r.tail

/-- `full(r)`. -/
def Ring.full (r : Ring) : Bool := (r.head + 1) % r.n == r.tail

/-! ## Bus (R25) -/

/-- `idle(bus[b])`: drained, and no DMA transfer outstanding. -/
def Bus.idle (b : Bus) : Bool := b.rxq.isEmpty && !b.dma.active

/-- `CH_TX` can make its step (R205). -/
def Bus.txMoveEnabled (b : Bus) (depth : Nat) : Bool :=
  b.dma.txEn && decide (0 < b.dma.txLeft) && decide (b.rxq.length < depth)

/-- `CH_RX` can make its step (R204). -/
def Bus.rxMoveEnabled (b : Bus) : Bool :=
  b.dma.rxEn && decide (0 < b.dma.rxLeft) && !b.rxq.isEmpty

/-! ## UART (R126, R366) -/

/-- The set of line errors is empty. -/
def LineErrs.isEmpty (e : LineErrs) : Bool := !e.framing && !e.parity && !e.brk

/-- The set with one more member (R262). -/
def LineErrs.insert (e : LineErrs) : LineErr → LineErrs
  | .framing => { e with framing := true }
  | .parity => { e with parity := true }
  | .brk => { e with brk := true }

/-- The empty set. -/
def LineErrs.none : LineErrs := { framing := false, parity := false, brk := false }

/-- The members, in the order the handler reports them (R260). -/
def LineErrs.kinds (e : LineErrs) : List LineErr :=
  (if e.framing then [.framing] else []) ++ (if e.parity then [.parity] else []) ++
    (if e.brk then [.brk] else [])

/-- Receive FIFO level, pending and enabled. -/
def Uart.rxLevelReady (u : Uart) (trig : Nat) : Bool :=
  u.ieRxLevel && decide (trig ≤ u.rxfifo.length)

/-- Receive timeout, pending and enabled. -/
def Uart.rxTimeoutReady (u : Uart) : Bool := u.ieRxTimeout && u.rxTimeoutFlag

/-- Transmit level, pending and enabled. -/
def Uart.txLevelReady (u : Uart) (trig : Nat) : Bool :=
  u.ieTxLevel && decide (u.txfifo.length ≤ trig)

/-- Line status, pending and enabled. -/
def Uart.lineErrorReady (u : Uart) : Bool := u.ieLine && (!u.lineErr.isEmpty || u.fifoOverrun)

/-- UART DMA channel done, pending and enabled. -/
def Uart.dmaDoneReady (u : Uart) : Bool := u.ieDma && u.dmaIrq

/-- End of transmission, pending and enabled. -/
def Uart.eotReady (u : Uart) : Bool := u.ieEot && u.txfifo.isEmpty && !u.txShifting

/-- `CH_UTX` can make its step (R252). -/
def Uart.utxMoveEnabled (u : Uart) (depth : Nat) : Bool :=
  u.utxEn && decide (0 < u.utxLeft) && decide (u.txfifo.length < depth)

/-- `SHIFT_TX` can make its step (R266). -/
def Uart.txShiftEnabled (u : Uart) : Bool := u.txShifting || !u.txfifo.isEmpty

/-- The direct path of `UART.WRITE_BYTE` is open (R240 T1). -/
def Uart.directOpen (u : Uart) (depth : Nat) : Bool :=
  !u.ieTxLevel && decide (u.txfifo.length < depth)

/-! ## Buffers the block owns (R71, U1) -/

/-- A UART instance owns its bound receive buffer, and the source of a `UART.DMA_TX` until `tx_done`. -/
def Uart.owns (x : Uart) (q : BufRef) : Bool :=
  ((x.mode == .interruptBound || x.mode == .dmaTransmitting) && x.rxBuf == q) || (x.dmaBusy && x.dmaSrc == q)

/-- A location of a descriptor is in buffer `q`. -/
def Loc.inBuf (l : Loc) (q : BufRef) : Bool :=
  match l with
  | .buf r _ => r == q
  | .dr | .scratch => false

/-- A bus instance owns the buffers of its outstanding DMA request. -/
def Bus.owns (x : Bus) (q : BufRef) : Bool :=
  x.dma.active && (x.dma.txDesc.src.inBuf q || x.dma.rxDesc.dst.inBuf q)

/-- The block owns a caller buffer. The driver's reply buffer is no caller's (log 15). -/
def State.owned (s : State) (q : BufRef) : Bool :=
  match q with
  | .loc => false
  | .user _ => s.uarts.any (·.owns q) || s.buses.any (·.owns q)

/-! ## Contexts -/

/-- No operation and no handler is in progress. -/
def State.coreIdle (s : State) : Bool := s.main.isEmpty && s.irq.isEmpty

/-- Bit 0 of a received word, the busy bit of a status byte (R108, R286). -/
def Reply.bit0 : Reply → Bool
  | .word w => w.getLsbD 0
  | .status busy _ => busy

/-- The received word itself. -/
def Reply.toWord : Reply → Word
  | .word w => w
  | .status busy rest => (rest ++ BitVec.ofBool busy).setWidth 16

/-! ## Codes (R360) -/

/-- The code of a line-error kind. -/
def lineErrCode : LineErr → Nat
  | .framing => 0
  | .parity => 1
  | .brk => 2

/-- The code of an error kind. -/
def ErrKind.code : ErrKind → Nat
  | .alignment => 1
  | .discovery => 2
  | .unsupportedGeometry => 3
  | .overflow => 4
  | .line _ => 5
  | .backpressure => 6

/-- The code of a `Result`, 0 for `Ok`; `none` for a return that is no `Result`. -/
def Ret.code : Ret → Option Nat
  | .ok => some 0
  | .err e => some e.code
  | _ => Option.none

/-- Success as the filesystem sees it (R356). -/
def Ret.success : Ret → Bool
  | .ok => true
  | _ => false

end Sys2Proof.Machine
end

