-- ==== Sys2Proof/Machine/Operands.lean ====
section
/-! DEFINITION. How operands are assembled and looked up: little-endian table words (R11, R73), the density
word (R314), the block translator (R342), spans (R283, R300), buffer capacities (R168) and instances
(R132). -/

namespace Sys2Proof.Machine

/-! ## Table words (R11, R73) -/

/-- `le24(s, o)`. R11 gives `s[o]` no value past the end of `s`; there the model reads 0, which `SfdpLayout.wf`
keeps from being reached (DESIGN CHOICE, log 29). -/
def le24 (s : List Byte) (o : Nat) : BitVec 24 :=
  s.getD (o + 2) 0 ++ s.getD (o + 1) 0 ++ s.getD o 0

/-- `le32(s, o)`. Past the end of `s` as `le24` (DESIGN CHOICE, log 29). -/
def le32 (s : List Byte) (o : Nat) : BitVec 32 :=
  s.getD (o + 3) 0 ++ s.getD (o + 2) 0 ++ s.getD (o + 1) 0 ++ s.getD o 0

/-- The four bytes "SFDP" (R73, R310). -/
def sfdpSignature : List Byte := [0x53, 0x46, 0x44, 0x50]

/-! ## Density (R314) -/

/-- The least `k` with `2^k ≥ n`, for `n ≤ 2^32`: how many powers of two lie below `n`. -/
def ceilLog2 (n : Nat) : Nat := (List.range 32).countP fun k => decide (2 ^ k < n)

/-- `log2_bits` of a density word. -/
def densityLog2 (w2 : BitVec 32) : Nat :=
  if w2.getLsbD 31 then (w2.extractLsb' 0 31).toNat
  else ceilLog2 ((w2.extractLsb' 0 31).toNat + 1)

/-- `log2_capacity`, where R314 defines it. -/
def densityDecode (w2 : BitVec 32) : Option (BitVec 6) :=
  if 3 ≤ densityLog2 w2 ∧ densityLog2 w2 ≤ 66 then some (BitVec.ofNat 6 (densityLog2 w2 - 3))
  else none

/-! ## The block translator (R342) -/

/-- `Translate(block, offset)`, in 32-bit unsigned arithmetic (R342). The driver takes its `API_ADDR_W` low bits
(R122, log 22). -/
def translate (g : Geometry) (block offset : BitVec 32) : BitVec 32 :=
  BitVec.ofNat 32 g.base + block * BitVec.ofNat 32 g.blockSize + offset

/-- The requests R342 gives a meaning. -/
def blockOk (g : Geometry) (block offset : BitVec 32) (size : Nat) : Bool :=
  decide (block.toNat < g.blockCount) && decide (offset.toNat + size ≤ g.blockSize) &&
    decide (g.base + block.toNat * g.blockSize + offset.toNat < 2 ^ 32)

/-! ## Flash spans (R283, R300) -/

/-- Capacity of the device in bytes, `2^k`. -/
def Flash.capacity (f : Flash) : Nat := 2 ^ f.k

/-- The span lies inside `min(2^24, 2^k)` (R283). -/
def flSpanOk (f : Flash) (addr len : Nat) : Bool :=
  decide (addr + len ≤ min (2 ^ 24) f.capacity)

/-- The span lies in one page (R95, R300). -/
def onePage (page a n : Nat) : Bool := decide (a % page + n ≤ page)

/-- A payload of `n` elements takes the DMA route (R290). -/
def dmaRoute (c : Config) (n : Nat) : Bool := decide (c.flDmaThresh ≤ n)

/-- The payload fits the route it takes (R290, U8). -/
def payloadOk (c : Config) (n : Nat) : Bool := !dmaRoute c n || decide (n ≤ c.dmaMax)

/-! ## Buffers (R70, R168) -/

/-- A caller buffer exists and has at least `n` elements. -/
def bufOk (c : Config) (id : BitVec 16) (n : Nat) : Bool :=
  match c.bufCaps[id.toNat]? with
  | some cap => decide (n ≤ cap)
  | none => false

/-- As `bufOk`, an absent buffer being fine. -/
def optBufOk (c : Config) (id : Option (BitVec 16)) (n : Nat) : Bool :=
  match id with
  | some i => bufOk c i n
  | none => true

/-- The cell of element `i` of a buffer in `State.buf`: each caller buffer has `2^32` cells of its own, and the
driver's reply buffer, whose length no rule gives, all that lie above them (DESIGN CHOICE, log 14). -/
def BufRef.cell : BufRef → Nat → Nat
  | .loc, i => (2 ^ 16 + 1) * 2 ^ 32 + i
  | .user id, i => (id.toNat + 1) * 2 ^ 32 + i

/-! ## Instances (R20, R132) -/

/-- The ring an operand names. -/
def ringId : RingRef → RingId
  | .own i => .own i.toNat
  | .tx u => .tx u.toNat

/-- The ring with a given index. -/
def State.ring? (s : State) : RingId → Option Ring
  | .own i => s.rings[i]?
  | .tx u => (s.uarts[u]?).map Uart.txring

/-- Replace a UART instance. -/
def State.setUart (s : State) (u : Nat) (x : Uart) : State := { s with uarts := s.uarts.set u x }

/-- Replace a bus instance. -/
def State.setBus (s : State) (b : Nat) (x : Bus) : State := { s with buses := s.buses.set b x }

/-- Replace the ring with a given index. -/
def State.setRing (s : State) (r : RingId) (x : Ring) : State :=
  match r with
  | .own i => { s with rings := s.rings.set i x }
  | .tx u =>
    match s.uarts[u]? with
    | some y => s.setUart u { y with txring := x }
    | none => s

end Sys2Proof.Machine
end

