-- ==== Sys2Proof/Machine/Mem.lean ====
section
/-! DEFINITION. Sparse memory in one canonical form, over which `FLASH` (bytes that are not erased) and
`BUF` (elements that are not zero) are kept (R70, log 8): addresses strictly rising, and no entry equal to
what an unlisted address reads as. -/

namespace Sys2Proof.Machine

/-- Read: the entry, or `d` for an unlisted address. -/
def memGet {w : Nat} (d : BitVec w) : List (Nat × BitVec w) → Nat → BitVec w
  | [], _ => d
  | (k, x) :: m, a => if a < k then d else if a = k then x else memGet d m a

/-- Write, keeping the form. -/
def memSet {w : Nat} (d : BitVec w) : List (Nat × BitVec w) → Nat → BitVec w → List (Nat × BitVec w)
  | [], a, v => if v = d then [] else [(a, v)]
  | (k, x) :: m, a, v =>
    if a < k then (if v = d then (k, x) :: m else (a, v) :: (k, x) :: m)
    else if a = k then (if v = d then m else (k, v) :: m)
    else (k, x) :: memSet d m a v

/-- Unlist every address of a span: all of it reads as `d`. -/
def memClear {w : Nat} (m : List (Nat × BitVec w)) (a n : Nat) : List (Nat × BitVec w) :=
  m.filter fun c => decide (c.1 < a) || decide (a + n ≤ c.1)

/-- Every listed address is at least `lo`. -/
def memFrom {w : Nat} (lo : Nat) (m : List (Nat × BitVec w)) : Bool :=
  match m with
  | [] => true
  | (k, _) :: _ => decide (lo ≤ k)

/-- The canonical form. -/
def memWf {w : Nat} (d : BitVec w) : List (Nat × BitVec w) → Bool
  | [] => true
  | (k, x) :: m => x != d && memFrom (k + 1) m && memWf d m

/-- What an erased byte reads as (R96). -/
abbrev erased : Byte := 0xFF

/-- One byte of the flash array. -/
def Flash.read (f : Flash) (a : Nat) : Byte := memGet erased f.mem a

/-- One element of `BUF`. -/
def State.bufRead (s : State) (r : BufRef) (i : Nat) : Word := memGet 0 s.buf (r.cell i)

/-- Write one element of `BUF`. -/
def State.bufWrite (s : State) (r : BufRef) (i : Nat) (v : Word) : State :=
  { s with buf := memSet 0 s.buf (r.cell i) v }

/-- The first `n` bytes of the driver's reply buffer. -/
def State.reply (s : State) (n : Nat) : List Byte :=
  (List.range n).map fun i => (s.bufRead .loc i).setWidth 8

/-- Both sparse memories are in canonical form. -/
def State.memOk (s : State) : Bool := memWf erased s.flash.mem && memWf 0 s.buf

end Sys2Proof.Machine
end

