-- ==== Sys2Proof/Machine/Device.lean ====
section
/-! DEFINITION. The flash device (R88 to R97): its reply to each word of a selection window, the effect of
the deselect, and the end of a program or erase. -/

namespace Sys2Proof.Machine

/-- The 24-bit address in positions 1 to 3 of a frame (R72). -/
def frameAddr (frame : List Byte) : Nat :=
  (of24 (frame.getD 1 0) (frame.getD 2 0) (frame.getD 3 0)).toNat

/-- The reply in exchange for the last byte of `frame`, `free` being the word drawn for this exchange
(R89). Only 0x05 is answered by a busy device (R90, R97). A position for which no rule gives a reply is
free; a read past the array is `refuse` (R92). -/
def Flash.answer (f : Flash) (frame : List Byte) (free : Word) : Except Refusal Reply :=
  let p := frame.length - 1
  let any : Reply := .word (free &&& 0x00FF)
  let give (v : Byte) : Reply := .word (v.setWidth 16)
  match (frame.headD 0).toNat with
  | 0x05 => .ok (if 1 ≤ p then .status f.busy (free.extractLsb' 0 7) else any)
  | 0x03 =>
    if f.busy || decide (p < 4) then .ok any
    else if frameAddr frame + (p - 4) < f.capacity then
      .ok (give (f.read (frameAddr frame + (p - 4))))
    else .error .flashSpan
  | 0x5A =>
    if f.busy || decide (p < 5) then .ok any
    else .ok (match f.sfdp[frameAddr frame + (p - 5)]? with
      | some v => give v
      | none => any)
  | 0x90 =>
    if f.busy then .ok any
    else if p = 4 then .ok (give f.vendor)
    else if p = 5 then .ok (give f.device)
    else .ok any
  | _ => .ok any

/-- Start a program or erase (R95, R96), if the device can accept it: latch set and not busy. -/
def Flash.accept (f : Flash) (p : Pending) : Flash := { f with busy := true, pending := p }

/-- The effect of the deselect (R89, R91, R95, R96). A command the device cannot accept changes nothing
(R97, U7); an accepted span outside the array or across a page is `refuse` (U5, U6). The window closes. -/
def Flash.commit (f : Flash) (page : Nat) : Except Refusal Flash :=
  let f' := { f with frame := [] }
  let ready := f.wel && !f.busy
  let a := frameAddr f.frame
  match (f.frame.headD 0).toNat, f.frame.length with
  | 0x06, 1 => .ok (if f.busy then f' else { f' with wel := true })
  | 0x02, len =>
    if ready && decide (5 ≤ len) then
      if !onePage page a (len - 4) then .error .pageCross
      else if f.capacity < a + (len - 4) then .error .flashSpan
      else .ok (f'.accept (.program a (f.frame.drop 4)))
    else .ok f'
  | 0x20, 4 =>
    if ready then
      if f.capacity < a + flSector then .error .flashSpan
      else .ok (f'.accept (.erase a flSector))
    else .ok f'
  | 0x52, 4 =>
    if ready then
      if f.capacity < a + flBlock32 then .error .flashSpan
      else .ok (f'.accept (.erase a flBlock32))
    else .ok f'
  | 0xC7, 1 => .ok (if ready then f'.accept (.erase 0 f.capacity) else f')
  | _, _ => .ok f'

/-- Program the bytes from address `a` on: each stored byte becomes the AND of old and new (R95). -/
def programBytes : List Host.Cell → Nat → List Byte → List Host.Cell
  | m, _, [] => m
  | m, a, d :: ds => programBytes (memSet erased m a (memGet erased m a &&& d)) (a + 1) ds

/-- The device finishes (R96 `ENV.FLASH_DONE`). -/
def Flash.done (f : Flash) : Flash :=
  { f with
    mem := match f.pending with
      | .none => f.mem
      | .program a data => programBytes f.mem a data
      | .erase a n => memClear f.mem a n
    pending := .none
    busy := false
    wel := false }

end Sys2Proof.Machine
end

