-- ==== Sys2Proof/Machine/Ops.lean ====
section
/-! DEFINITION. The operations every micro-step is built from: one exchange on a bus (R166, R89), the two
edges of the select line (R162, R164), the words of a transfer (R170 to R176), the descriptors of a DMA
request (R192), one received byte of a UART (R230), callbacks (R392), and entering the interrupt context
(R380). -/

namespace Sys2Proof.Machine

/-- The outcome of one micro-step, with what its context has still to do. -/
inductive MRes where
  /-- The micro-step is done. -/
  | more (s : State) (prog : List Micro)
  /-- A spin found its condition false, or a poll found the device busy (R433). -/
  | wait (s : State) (prog : List Micro)
  /-- The spec gives the situation no meaning. -/
  | refuse (r : Refusal)
  deriving DecidableEq, Repr

/-! ## Lookups (R132) -/

/-- Go on with a bus instance. -/
def withBus (s : State) (b : Nat) (k : Bus → MRes) : MRes :=
  match s.buses[b]? with
  | some x => k x
  | none => .refuse .noInstance

/-- Go on with a UART instance. -/
def withUart (s : State) (u : Nat) (k : Uart → MRes) : MRes :=
  match s.uarts[u]? with
  | some x => k x
  | none => .refuse .noInstance

/-- Go on with a ring. -/
def withRing (s : State) (r : RingId) (k : Ring → MRes) : MRes :=
  match s.ring? r with
  | some x => k x
  | none => .refuse .noInstance

/-! ## The trace -/

/-- Record an outbound event. -/
def State.emit (s : State) (e : Event) : State := { s with trace := s.trace ++ [e] }

/-- Record what an operation of context `c` returns (R13, log 21). Each context has its own record, so that a
handler that lands in an operation of MAIN (R8) disturbs no result. -/
def State.give (s : State) (c : Side) (r : Ret) : State :=
  match c with
  | .main => { s with ret := r }
  | .irq => { s with irqRets := s.irqRets ++ [r] }

/-! ## Bus exchanges (R166) -/

/-- A word of `SPI_W` bits (log 20). -/
def busClip : Width → Word → Word
  | .w8, w => w &&& 0x00FF
  | .w16, w => w

/-- The bus has the flash device and a select line the device can see (R162, R281). -/
def State.wired (s : State) (b : Nat) (x : Bus) : Bool := b == s.cfg.flashBus && x.cfg.hasCs

/-- `BusExchange(b, w) -> r`. Inside a selection window of the flash bus the device answers; anywhere
else the received word is free (R89, R182, log 19). Every exchange draws one free word, used or not. -/
def State.exchange (s : State) (b : Nat) (w : Word) : Except Refusal (Reply × State) :=
  match s.buses[b]? with
  | none => .error .noInstance
  | some x =>
    let sent := busClip x.cfg.width w
    let free := busClip x.cfg.width (Config.freeWord s.draws)
    if s.wired b x && x.cs then
      let frame := s.flash.frame ++ [sent.setWidth 8]
      match s.flash.answer frame free with
      | .error e => .error e
      | .ok r =>
        .ok (r, { s with
          flash := { s.flash with frame := frame }
          draws := s.draws + 1
          trace := s.trace ++ [.exchange b sent r.toWord] })
    else
      .ok (.word free, { s with
        draws := s.draws + 1
        trace := s.trace ++ [.exchange b sent free] })

/-- A filler: a word no rule constrains (R107, R176). -/
def State.filler (s : State) : Word × State :=
  (Config.freeWord s.draws, { s with draws := s.draws + 1 })

/-- The buffers of a transfer are not the block's (R71, R186, U1). -/
def State.mayTransfer (s : State) (src : Src) (dst : Dst) : Bool :=
  (match src with
    | .buf r => !s.owned r
    | .bytes _ | .filler => true) &&
  (match dst with
    | .buf r => !s.owned r
    | .scratch => true)

/-- The buffers of a DMA request are not the block's already (R71, U1). -/
def State.mayRequest (s : State) (tx rx : Option BufRef) : Bool :=
  !tx.any s.owned && !rx.any s.owned

/-- The `i`-th word a transfer sends. -/
def State.srcWord (s : State) (src : Src) (i : Nat) : Word × State :=
  match src with
  | .buf r => (s.bufRead r i, s)
  | .bytes bs => ((bs.getD i 0).setWidth 16, s)
  | .filler => s.filler

/-- Put the `i`-th received word where the transfer takes it. -/
def State.dstWord (s : State) (b : Nat) (dst : Dst) (i : Nat) (v : Word) : State :=
  match dst with
  | .buf r => s.bufWrite r i v
  | .scratch =>
    match s.buses[b]? with
    | some x => s.setBus b { x with scratch := v }
    | none => s

/-- Exchange `i` of a transfer: read the word, exchange, store (R170 X1, R174 X1, R176 X1). -/
def State.transferWord (s : State) (b : Nat) (src : Src) (dst : Dst) (i : Nat) : Except Refusal State :=
  match (s.srcWord src i).2.exchange b (s.srcWord src i).1 with
  | .error e => .error e
  | .ok (r, s') => .ok (s'.dstWord b dst i r.toWord)

/-! ## Chip select (R162, R164) -/

/-- The select line goes active. A device that sees the line starts a new frame (R89). -/
def State.assertCs (s : State) (b : Nat) (x : Bus) : State :=
  let s' := s.setBus b { x with cs := true }
  if s.wired b x then
    { s' with flash := { s'.flash with frame := [] }, trace := s'.trace ++ [.select b] }
  else s'

/-- The select line goes inactive. A device that sees the line commits the command (R89). -/
def State.releaseCs (s : State) (b : Nat) (x : Bus) : Except Refusal State :=
  let s' := s.setBus b { x with cs := false }
  if s.wired b x then
    match s.flash.commit s.cfg.flPage with
    | .error e => .error e
    | .ok f => .ok { s' with flash := f, trace := s'.trace ++ [.deselect b] }
  else .ok s'

/-! ## DMA descriptors (R192) -/

/-- The transmit descriptor of a request. -/
def txDescOf (tx : Option BufRef) (count : Nat) : Desc :=
  match tx with
  | some r => { src := .buf r 0, dst := .dr, count := count, inc := .incSrc }
  | none => { src := .scratch, dst := .dr, count := count, inc := .incNone }

/-- The receive descriptor of a request. -/
def rxDescOf (rx : Option BufRef) (count : Nat) : Desc :=
  match rx with
  | some r => { src := .dr, dst := .buf r 0, count := count, inc := .incDst }
  | none => { src := .dr, dst := .scratch, count := count, inc := .incNone }

/-- What a transmit channel sends for element `i`: the element of its buffer, or a filler (R205). -/
def Desc.srcOf (d : Desc) (i : Nat) : Src × Nat :=
  match d.src with
  | .buf r k => (.buf r, if d.inc = .incSrc then k + i else k)
  | _ => (.filler, 0)

/-- Where a receive channel puts element `i` (R204). -/
def Desc.dstOf (d : Desc) (i : Nat) : Dst × Nat :=
  match d.dst with
  | .buf r k => (.buf r, if d.inc = .incDst then k + i else k)
  | _ => (.scratch, 0)

/-! ## UART (R230, R392) -/

/-- `RxStore(u, RxPop(u))` with `b` the byte popped and `rest` the FIFO after it; the bool says whether
the byte was dropped. -/
def State.rxTake (s : State) (u : Nat) (x : Uart) (b : Byte) (rest : List Byte) : State × Bool :=
  if x.rxCount < x.rxCap then
    ((s.bufWrite x.rxBuf x.rxCount (b.setWidth 16)).setUart u
      { x with rxfifo := rest, rxCount := x.rxCount + 1 }, false)
  else (s.setUart u { x with rxfifo := rest }, true)

/-- `Callback.error(u, e)`. -/
def State.callError (s : State) (u : Nat) (cb : Callbacks) (e : ErrKind) : State :=
  s.emit (.call cb.error u (.error e))

/-- The overflow callback of a handler run that dropped a byte (R238). -/
def State.reportDropped (s : State) (u : Nat) (cb : Callbacks) (dropped : Bool) : State :=
  if dropped then s.callError u cb .overflow else s

/-- The reports of R260, in its order. -/
def State.reportLine (s : State) (u : Nat) (x : Uart) : State :=
  let calls := (x.lineErr.kinds.map fun k => Event.call x.cb.error u (.error (.line k))) ++
    (if x.fifoOverrun then [Event.call x.cb.error u (.error .overflow)] else [])
  { s with trace := s.trace ++ calls }

/-! ## The interrupt context (R380, R384) -/

/-- Entering the interrupt context: nothing is saved and no state changes; the handler's micro-steps are
the whole effect (R380). What the context is doing already comes first: nothing nests (R382). The context is
left when no micro-step is left (R384). -/
def State.enterIrq (s : State) (handler : List Micro) : State := { s with irq := s.irq ++ handler }

/-- The micro-steps of a context. -/
def State.prog (s : State) : Side → List Micro
  | .main => s.main
  | .irq => s.irq

/-- Replace the micro-steps of a context. -/
def State.setProg (s : State) (c : Side) (p : List Micro) : State :=
  match c with
  | .main => { s with main := p }
  | .irq => { s with irq := p }

/-- The context whose micro-step is next: a running handler goes before MAIN (R382, R384). -/
def State.active (s : State) : Side := if s.irq.isEmpty then .main else .irq

end Sys2Proof.Machine
end

