-- ==== Sys2Proof/Machine/Programs.lean ====
section
/-! DEFINITION. The micro-step sequences of the operations, as the rules write them: chip select (R162, R164),
transfers (R170 to R176), DMA requests (R196), and the composites of R130: frames (R290), status polls
(R285, R286), write-enable (R288), and the `FL` operations (R284 to R318). -/

namespace Sys2Proof.Machine

/-- `SPI.SELECT` (R162). -/
def selectProg (b : Nat) : List Micro := [.spinIdle b, .selectBus b]

/-- `SPI.DESELECT` (R164). -/
def deselectProg (b : Nat) : List Micro := [.spinIdle b, .deselectBus b]

/-- A transfer of `n` words (R170, R174, R176). -/
def transferProg (b : Nat) (src : Src) (dst : Dst) (n : Nat) : List Micro :=
  [.spinDma b, .xfer b src dst 0 n]

/-- `SPI.TX` of bytes the driver holds. -/
def txBytes (b : Nat) (bs : List Byte) : List Micro :=
  transferProg b (.bytes bs) .scratch bs.length

/-- `DMA.START` (R196). -/
def dmaProg (b : Nat) (tx rx : Option BufRef) (count : Nat) (blocking : Bool) : List Micro :=
  [.spinDma b, .dmaStage b tx rx count, .dmaEnable b] ++ if blocking then [.spinDma b] else []

/-- Direction and payload of a frame (R290). -/
inductive Payload where
  | none
  | input (r : BufRef) (n : Nat)
  | output (r : BufRef) (n : Nat)
  deriving DecidableEq, Repr

/-- The payload part of R290. -/
def payloadProg (c : Config) : Payload → List Micro
  | .none => []
  | .input r n =>
    if dmaRoute c n then dmaProg c.flashBus Option.none (some r) n true
    else transferProg c.flashBus .filler (.buf r) n
  | .output r n =>
    if dmaRoute c n then dmaProg c.flashBus (some r) Option.none n true
    else transferProg c.flashBus (.buf r) .scratch n

/-- `Frame(hdr, dir, buf, n)` (R290). -/
def frameProg (c : Config) (hdr : List Byte) (p : Payload) : List Micro :=
  selectProg c.flashBus ++ txBytes c.flashBus hdr ++ payloadProg c p ++ deselectProg c.flashBus

/-- `FL.READ_STATUS` (R285); `give` when the status byte is what is returned. -/
def statusProg (c : Config) (give : Bool) : List Micro :=
  selectProg c.flashBus ++ txBytes c.flashBus [0x05] ++
    [.spinDma c.flashBus, .rxStatus] ++ deselectProg c.flashBus ++ [.latchStatus give]

/-- `FL.WAIT_READY` (R286). -/
def waitProg (c : Config) : List Micro := statusProg c false ++ [.waitCheck]

/-- `FL.WRITE_ENABLE` (R288). -/
def writeEnableProg (c : Config) : List Micro := frameProg c [0x06] .none

/-- The 24 bits of an address that are sent (R103, R283). -/
def wireAddr (a : Nat) : BitVec 24 := BitVec.ofNat 24 a

/-- `FL.READ` after its preconditions (R296), returning `r`. -/
def readProg (c : Config) (addr : Nat) (rx : BufRef) (len : Nat) (r : Ret) : List Micro :=
  [.flBegin .read (some addr) (some len), .flPhase .preWait] ++ waitProg c ++ [.flPhase .cmd] ++
    frameProg c (0x03 :: be24 (wireAddr addr)) (.input rx len) ++ [.flEnd r]

/-- The sequence of every program and erase (R284): wait, enable, command, wait. -/
def writeProg (c : Config) (op : FlOp) (addr : Option Nat) (len : Option Nat)
    (hdr : List Byte) (p : Payload) (r : Ret) : List Micro :=
  [.flBegin op addr len, .flPhase .preWait] ++ waitProg c ++ [.flPhase .wren] ++
    writeEnableProg c ++ [.flPhase .cmd] ++ frameProg c hdr p ++ [.flPhase .postWait] ++
    waitProg c ++ [.flEnd r]

/-- `FL.PROGRAM` after its preconditions (R300), returning `r`. -/
def programProg (c : Config) (addr : Nat) (tx : BufRef) (len : Nat) (r : Ret) : List Micro :=
  writeProg c .program (some addr) (some len) (0x02 :: be24 (wireAddr addr)) (.output tx len) r

/-- `FL.ERASE_SECTOR` after its check (R302). -/
def eraseSectorProg (c : Config) (addr : Nat) : List Micro :=
  writeProg c .eraseSector (some addr) Option.none (0x20 :: be24 (wireAddr addr)) .none .ok

/-- `FL.ERASE_BLOCK` after its check (R303). -/
def eraseBlockProg (c : Config) (addr : Nat) : List Micro :=
  writeProg c .eraseBlock (some addr) Option.none (0x52 :: be24 (wireAddr addr)) .none .ok

/-- `FL.ERASE_ALL` (R304). -/
def eraseAllProg (c : Config) : List Micro :=
  writeProg c .eraseAll Option.none Option.none [0xC7] .none .none

/-- `FL.WAIT_READY` presented by itself (R284, R286, log 24), returning `r`. -/
def waitOpProg (c : Config) (r : Ret) : List Micro :=
  [.flBegin .wait Option.none Option.none, .flPhase .preWait] ++ waitProg c ++ [.flEnd r]

/-- `FL.IDENTIFY` (R306). -/
def identifyProg (c : Config) : List Micro :=
  [.flBegin .identify Option.none Option.none, .flPhase .cmd] ++
    frameProg c [0x90, 0x00, 0x00, 0x00] (.input .loc 2) ++ [.identEnd]

/-- The first transaction of `FL.DISCOVER` and its tests (R308, R310). -/
def discoverProg (c : Config) : List Micro :=
  [.flBegin .discover Option.none Option.none, .flPhase .cmd] ++
    frameProg c (0x5A :: (be24 c.sfdp.sigOff ++ [0x00])) (.input .loc c.sfdp.hdrLen) ++ [.discHeader]

/-- The second transaction of `FL.DISCOVER` and its end (R312). -/
def discTableProg (c : Config) (ptr : BitVec 24) : List Micro :=
  frameProg c (0x5A :: (be24 ptr ++ [0x00])) (.input .loc c.sfdp.tblLen) ++ [.discTable]

/-- A wire frame presented by itself (R100, R101, log 13): the header, the data bytes, then `n` reply
bytes. -/
def wireProg (c : Config) (hdr data : List Byte) (n : Nat) : List Micro :=
  selectProg c.flashBus ++ txBytes c.flashBus hdr ++
    (if data.isEmpty then [] else txBytes c.flashBus data) ++
    (if n = 0 then [] else transferProg c.flashBus .filler (.buf .loc) n) ++
    deselectProg c.flashBus ++ [.giveReply n]

end Sys2Proof.Machine
end

