-- ==== Sys2Proof/Machine/Micro.lean ====
section
/-! DEFINITION. What one micro-step does (R8): one definition per micro-step, and the function that picks it.
`ms` is what its context has still to do after it. -/

namespace Sys2Proof.Machine

/-! ## Ring Buffer (R142, R146) -/

/-- P1 of R142: sample both indices once. A full ring ends the push: `RB.PUSH` returns false, and
`UART.WRITE_BYTE` returns `Err(BackpressureError)` (R240 T2). -/
def stepPushSample (r : RingId) (b : Byte) (k : PushFor) (ms : List Micro) (s : State) : MRes :=
  withRing s r fun x =>
    if x.full then
      .more (s.give x.producer (match k with
        | .caller => .bool false
        | .write _ => .err .backpressure)) ms
    else .more s (.pushStore r x.head ((x.head + 1) % x.n) b k :: ms)

/-- P2 of R142: the slot is written before the index moves. -/
def stepPushStore (r : RingId) (h n : Nat) (b : Byte) (k : PushFor) (ms : List Micro) (s : State) : MRes :=
  withRing s r fun x =>
    .more (s.setRing r { x with storage := x.storage.set h b }) (.pushPublish r n k :: ms)

/-- P3 of R142: publish the index. `UART.WRITE_BYTE` goes on with its T3. -/
def stepPushPublish (r : RingId) (n : Nat) (k : PushFor) (ms : List Micro) (s : State) : MRes :=
  withRing s r fun x =>
    let s' := s.setRing r { x with head := n }
    match k with
    | .caller => .more (s'.give x.producer (.bool true)) ms
    | .write u => .more s' (.enableTx u :: ms)

/-- C1 of R146: an empty ring ends the pull with `none`, no slot being read. -/
def stepPullSample (r : RingId) (ms : List Micro) (s : State) : MRes :=
  withRing s r fun x =>
    if x.empty then .more (s.give x.consumer (.optByte Option.none)) ms
    else .more s (.pullRead r x.tail :: ms)

/-- C2 of R146. -/
def stepPullRead (r : RingId) (t : Nat) (ms : List Micro) (s : State) : MRes :=
  withRing s r fun x => .more s (.pullPublish r t (x.storage.getD t 0) :: ms)

/-- C3 of R146. -/
def stepPullPublish (r : RingId) (t : Nat) (v : Byte) (ms : List Micro) (s : State) : MRes :=
  withRing s r fun x =>
    .more ((s.setRing r { x with tail := (t + 1) % x.n }).give x.consumer (.optByte (some v))) ms

/-! ## Bus (R162 to R176) -/

/-- S1 and D1: spin until the bus is idle. -/
def stepSpinIdle (b : Nat) (ms : List Micro) (s : State) : MRes :=
  withBus s b fun x => if x.idle then .more s ms else .wait s (.spinIdle b :: ms)

/-- S2 of R162. Selecting a selected bus is `refuse`. R162 does not say when that is tested: the model tests it
here, after the spin S1 (DESIGN CHOICE, log 26). -/
def stepSelectBus (b : Nat) (ms : List Micro) (s : State) : MRes :=
  withBus s b fun x => if x.cs then .refuse .alreadySelected else .more (s.assertCs b x) ms

/-- D2 of R164. Deselecting a bus that is not selected is `refuse`, which the model tests here, after the spin D1
(DESIGN CHOICE, log 26). -/
def stepDeselectBus (b : Nat) (ms : List Micro) (s : State) : MRes :=
  withBus s b fun x =>
    if x.cs then
      match s.releaseCs b x with
      | .ok s' => .more s' ms
      | .error e => .refuse e
    else .refuse .notSelected

/-- X0, M1, M4, W1: spin until no DMA transfer is outstanding. -/
def stepSpinDma (b : Nat) (ms : List Micro) (s : State) : MRes :=
  withBus s b fun x => if x.dma.active then .wait s (.spinDma b :: ms) else .more s ms

/-- X1: exchange `i` of `n`. A buffer the block owns is refused where the transfer starts to use it, at its
first exchange (U1, R186; log 15). -/
def stepXfer (b : Nat) (src : Src) (dst : Dst) (i n : Nat) (ms : List Micro) (s : State) : MRes :=
  if i = 0 ∧ s.mayTransfer src dst = false then .refuse .bufferOwned
  else
    match s.transferWord b src dst i with
    | .ok s' => .more s' (if i + 1 < n then .xfer b src dst (i + 1) n :: ms else ms)
    | .error e => .refuse e

/-! ## DMA (R196) -/

/-- M2: stage both descriptors and both counts, at most `DMA_MAX` (R194; a flash payload comes here with its own
count, R290, U8); `rxq` must be empty (R194), and the buffers not the block's already (U1, log 15). -/
def stepDmaStage (b : Nat) (tx rx : Option BufRef) (count : Nat) (ms : List Micro) (s : State) : MRes :=
  withBus s b fun x =>
    if s.cfg.dmaMax < count then .refuse .dmaCount
    else if !x.rxq.isEmpty then .refuse .rxqNotEmpty
    else if !s.mayRequest tx rx then .refuse .bufferOwned
    else
      .more (s.setBus b { x with dma := { x.dma with
        txDesc := txDescOf tx count, rxDesc := rxDescOf rx count
        txLeft := count, rxLeft := count } }) ms

/-- M3: the two enables and the mark, in one micro-step (C5). -/
def stepDmaEnable (b : Nat) (ms : List Micro) (s : State) : MRes :=
  withBus s b fun x =>
    .more (s.setBus b { x with dma := { x.dma with rxEn := true, txEn := true, active := true } }) ms

/-! ## UART, mainline side (R222 to R251) -/

/-- B1 of R222: all six enables cleared. Only from `Idle` (R226). -/
def stepBindPoll (u : Nat) (ms : List Micro) (s : State) : MRes :=
  withUart s u fun x =>
    if x.mode = .idle then
      .more (s.setUart u { x with
        ieRxLevel := false, ieRxTimeout := false, ieLine := false
        ieTxLevel := false, ieDma := false, ieEot := false
        mode := .pollingBound }) ms
    else .refuse .uartState

/-- B1 of R224. Only from `Idle` (R226), with a buffer that is not the block's already (U1, log 15). -/
def stepBindBuffer (u : Nat) (rx : BufRef) (cap : Nat) (ms : List Micro) (s : State) : MRes :=
  withUart s u fun x =>
    if x.mode = .idle then
      if s.owned rx then .refuse .bufferOwned
      else .more (s.setUart u { x with rxBuf := rx, rxCap := cap, rxCount := 0 }) ms
    else .refuse .uartState

/-- B2 of R224. Only from `Idle` (R226). -/
def stepBindEnable (u : Nat) (ms : List Micro) (s : State) : MRes :=
  withUart s u fun x =>
    if x.mode = .idle then
      .more (s.setUart u { x with
        ieRxLevel := true, ieRxTimeout := true, ieLine := true
        ieTxLevel := false, ieDma := false, ieEot := false
        mode := .interruptBound }) ms
    else .refuse .uartState

/-- L1 of R228. -/
def stepPollRead (u : Nat) (ms : List Micro) (s : State) : MRes :=
  withUart s u fun x =>
    match x.rxfifo with
    | [] => .more (s.give .main (.optByte Option.none)) ms
    | v :: rest => .more ((s.setUart u { x with rxfifo := rest }).give .main (.optByte (some v))) ms

/-- T1 of R240; when the direct path is closed, T2 starts. -/
def stepWriteDirect (u : Nat) (b : Byte) (ms : List Micro) (s : State) : MRes :=
  withUart s u fun x =>
    if x.directOpen s.cfg.uartFifoDepth then
      .more ((s.setUart u { x with txfifo := x.txfifo ++ [b] }).give x.txring.producer .ok) ms
    else .more s (.pushSample (.tx u) b (.write u) :: ms)

/-- T3 of R240. -/
def stepEnableTx (u : Nat) (ms : List Micro) (s : State) : MRes :=
  withUart s u fun x =>
    .more ((s.setUart u { x with ieTxLevel := true }).give x.txring.producer .ok) ms

/-- U1 of R250, W1 of R251. -/
def stepSpinUart (u : Nat) (ms : List Micro) (s : State) : MRes :=
  withUart s u fun x => if x.dmaBusy then .wait s (.spinUart u :: ms) else .more s ms

/-- U2 of R250, with the preconditions that hold after U1: bound to interrupts, transmit ring empty,
transmit interrupt disabled, the source not the block's already (U1, log 15). -/
def stepDmaTxSet (u : Nat) (src : BufRef) (len : Nat) (ms : List Micro) (s : State) : MRes :=
  withUart s u fun x =>
    if x.mode = .interruptBound then
      if x.txring.empty && !x.ieTxLevel then
        if s.owned src then .refuse .bufferOwned
        else
          .more (s.setUart u { x with
            dmaSrc := src, dmaLen := len, dmaCursor := 0, dmaRemaining := len
            dmaChunk := min len s.cfg.dmaMax, dmaPhase := .chunk, dmaBusy := true
            mode := .dmaTransmitting }) ms
      else .refuse .txPathBusy
    else .refuse .uartState

/-- U3 of R250: the first chunk starts. -/
def stepDmaTxGo (u : Nat) (ms : List Micro) (s : State) : MRes :=
  withUart s u fun x =>
    .more (s.setUart u { x with utxIdx := 0, utxLeft := x.dmaChunk, ieDma := true, utxEn := true }) ms

/-! ## Flash driver (R284 to R314) -/

/-- `fl.op`, and `fl.addr` and `fl.len` where the operation sets them, in one micro-step (DESIGN CHOICE, log 12). -/
def stepFlBegin (op : FlOp) (addr : Option Nat) (len : Option Nat) (ms : List Micro)
    (s : State) : MRes :=
  .more { s with fl := { s.fl with op := op, addr := addr.getD s.fl.addr, len := len.getD s.fl.len } } ms

/-- `fl.phase <- p`, a micro-step of its own (DESIGN CHOICE, log 12). -/
def stepFlPhase (p : FlPhase) (ms : List Micro) (s : State) : MRes :=
  .more { s with fl := { s.fl with phase := p } } ms

/-- `fl.phase <- IDLE; fl.op <- NONE`, and the result. -/
def State.flReturn (s : State) (r : Ret) : State :=
  { s with fl := { s.fl with phase := .idle, op := .none }, ret := r }

/-- The end of an `FL` operation: phase, operation and result, in one micro-step (DESIGN CHOICE, log 12). -/
def stepFlEnd (r : Ret) (ms : List Micro) (s : State) : MRes := .more (s.flReturn r) ms

/-- The exchange of `SPI.RX st, 1` (R285). -/
def stepRxStatus (ms : List Micro) (s : State) : MRes :=
  match s.filler.2.exchange s.cfg.flashBus s.filler.1 with
  | .ok (r, s') => .more { s' with fl := { s'.fl with st := r } } ms
  | .error e => .refuse e

/-- `fl.status <- st[0]` and the result, if any (R285), in one micro-step (DESIGN CHOICE, log 12). -/
def stepLatchStatus (give : Bool) (ms : List Micro) (s : State) : MRes :=
  let b := s.fl.st.toWord.setWidth 8
  let s' := { s with fl := { s.fl with status := b } }
  .more (if give then s'.give .main (.status b) else s') ms

/-- `until s[0] = 0` (R286): a busy device is polled again, in a frame of its own. -/
def stepWaitCheck (ms : List Micro) (s : State) : MRes :=
  if s.fl.st.bit0 then .wait s (waitProg s.cfg ++ ms) else .more s ms

/-- The end of R306: the two identity bytes, the phase and the result, in one micro-step (DESIGN CHOICE, log 12). -/
def stepIdentEnd (ms : List Micro) (s : State) : MRes :=
  let id := s.reply 2
  let v := id.getD 0 0
  let d := id.getD 1 0
  .more ({ s with fl := { s.fl with desc := { s.fl.desc with vendorId := v, deviceId := d } } }.flReturn
    (.ident v d)) ms

/-- The tests of R310, in its order, and the second transaction, in one micro-step (DESIGN CHOICE, log 12). -/
def stepDiscHeader (ms : List Micro) (s : State) : MRes :=
  let h := s.reply s.cfg.sfdp.hdrLen
  if h.take 4 = sfdpSignature ∧ h.getD s.cfg.sfdp.idOff 0 = 0 then
    .more s (discTableProg s.cfg (le24 h s.cfg.sfdp.ptrOff) ++ ms)
  else .more (s.flReturn (.err .discovery)) ms

/-- The test of R312, the decode of R314, and the end of R308, in one micro-step (DESIGN CHOICE, log 12). -/
def stepDiscTable (ms : List Micro) (s : State) : MRes :=
  let t := s.reply s.cfg.sfdp.tblLen
  if le32 t s.cfg.sfdp.w1Off &&& s.cfg.sfdp.erase4kMask = s.cfg.sfdp.erase4kVal then
    match densityDecode (le32 t s.cfg.sfdp.w2Off) with
    | some k =>
      .more ({ s with fl := { s.fl with
        desc := { s.fl.desc with log2Capacity := k, valid := true } } }.flReturn .ok) ms
    | none => .refuse .density
  else .more (s.flReturn (.err .unsupportedGeometry)) ms

/-- The reply of a wire frame presented by itself (log 13). -/
def stepGiveReply (n : Nat) (ms : List Micro) (s : State) : MRes :=
  .more (s.give .main (.bytes (s.reply n))) ms

/-! ## Handlers (R206, R207, R232, R234, R244, R254, R256, R260) -/

/-- One of the `UART_RX_TRIG − 2` pops of R232; the callback after the last. -/
def stepRxLevel (u left : Nat) (dropped : Bool) (ms : List Micro) (s : State) : MRes :=
  withUart s u fun x =>
    match left with
    | 0 => .more (s.reportDropped u x.cb dropped) ms
    | k + 1 =>
      match x.rxfifo with
      | [] => .refuse .rxPopEmpty
      | b :: rest =>
        .more (s.rxTake u x b rest).1 (.rxLevel u k ((s.rxTake u x b rest).2 || dropped) :: ms)

/-- The first line of R234, a micro-step of its own, so an agent's step may fall before the first pop (DESIGN
CHOICE, log 12). -/
def stepRxTimeout (u : Nat) (ms : List Micro) (s : State) : MRes :=
  withUart s u fun x => .more (s.setUart u { x with rxTimeoutFlag := false }) ms

/-- One iteration of the loop of R234; when the FIFO is empty, the callbacks and the re-arming
(log 12). -/
def stepRxFlush (u : Nat) (dropped : Bool) (ms : List Micro) (s : State) : MRes :=
  withUart s u fun x =>
    match x.rxfifo with
    | [] =>
      let s1 := s.reportDropped u x.cb dropped
      let s2 := s1.emit (.call x.cb.frameReceived u (.frameReceived x.rxBuf x.rxCount))
      .more (s2.setUart u { x with rxCount := 0 }) ms
    | b :: rest =>
      .more (s.rxTake u x b rest).1 (.rxFlush u ((s.rxTake u x b rest).2 || dropped) :: ms)

/-- One iteration of the loop of R244: a full FIFO exits, an empty ring disables and exits. -/
def stepTxDrain (u : Nat) (ms : List Micro) (s : State) : MRes :=
  withUart s u fun x =>
    if x.txfifo.length = s.cfg.uartFifoDepth then .more s ms
    else if x.txring.empty then .more (s.setUart u { x with ieTxLevel := false }) ms
    else
      let v := x.txring.storage.getD x.txring.tail 0
      .more (s.setUart u { x with
        txring := { x.txring with tail := (x.txring.tail + 1) % x.txring.n }
        txfifo := x.txfifo ++ [v] }) (.txDrain u :: ms)

/-- R206. -/
def stepDmaRxDone (b : Nat) (ms : List Micro) (s : State) : MRes :=
  withBus s b fun x =>
    .more (s.setBus b { x with dma := { x.dma with
      rxIrq := false, rxEn := false, active := x.dma.active && x.dma.txEn } }) ms

/-- R207. -/
def stepDmaTxDone (b : Nat) (ms : List Micro) (s : State) : MRes :=
  withBus s b fun x =>
    .more (s.setBus b { x with dma := { x.dma with
      txIrq := false, txEn := false, active := x.dma.active && x.dma.rxEn } }) ms

/-- R254: the chunk is complete; the next one starts at the correct offset, or the drain begins. -/
def stepUartDmaDone (u : Nat) (ms : List Micro) (s : State) : MRes :=
  withUart s u fun x =>
    let cursor := x.dmaCursor + x.dmaChunk
    let remaining := x.dmaRemaining - x.dmaChunk
    let y := { x with dmaIrq := false, utxEn := false, dmaCursor := cursor, dmaRemaining := remaining }
    let chunk := min remaining s.cfg.dmaMax
    .more (s.setUart u
      (if 0 < remaining then
        { y with dmaChunk := chunk, utxIdx := cursor, utxLeft := chunk, utxEn := true }
      else { y with dmaChunk := 0, dmaPhase := .drain, ieDma := false, ieEot := true })) ms

/-- R256. -/
def stepEot (u : Nat) (ms : List Micro) (s : State) : MRes :=
  withUart s u fun x =>
    .more ((s.setUart u { x with
      ieEot := false, dmaPhase := .none, mode := .interruptBound, dmaBusy := false }).emit
        (.call x.cb.txDone u .txDone)) ms

/-- R260. -/
def stepLineError (u : Nat) (ms : List Micro) (s : State) : MRes :=
  withUart s u fun x =>
    .more ((s.reportLine u x).setUart u { x with lineErr := .none, fifoOverrun := false }) ms

/-! ## The micro-step -/

/-- One micro-step. -/
def micro (m : Micro) (ms : List Micro) (s : State) : MRes :=
  match m with
  | .pushSample r b k => stepPushSample r b k ms s
  | .pushStore r h n b k => stepPushStore r h n b k ms s
  | .pushPublish r n k => stepPushPublish r n k ms s
  | .pullSample r => stepPullSample r ms s
  | .pullRead r t => stepPullRead r t ms s
  | .pullPublish r t v => stepPullPublish r t v ms s
  | .spinIdle b => stepSpinIdle b ms s
  | .selectBus b => stepSelectBus b ms s
  | .deselectBus b => stepDeselectBus b ms s
  | .spinDma b => stepSpinDma b ms s
  | .xfer b src dst i n => stepXfer b src dst i n ms s
  | .dmaStage b tx rx count => stepDmaStage b tx rx count ms s
  | .dmaEnable b => stepDmaEnable b ms s
  | .bindPoll u => stepBindPoll u ms s
  | .bindBuffer u rx cap => stepBindBuffer u rx cap ms s
  | .bindEnable u => stepBindEnable u ms s
  | .pollRead u => stepPollRead u ms s
  | .writeDirect u b => stepWriteDirect u b ms s
  | .enableTx u => stepEnableTx u ms s
  | .spinUart u => stepSpinUart u ms s
  | .dmaTxSet u src len => stepDmaTxSet u src len ms s
  | .dmaTxGo u => stepDmaTxGo u ms s
  | .flBegin op addr len => stepFlBegin op addr len ms s
  | .flPhase p => stepFlPhase p ms s
  | .flEnd r => stepFlEnd r ms s
  | .rxStatus => stepRxStatus ms s
  | .latchStatus give => stepLatchStatus give ms s
  | .waitCheck => stepWaitCheck ms s
  | .identEnd => stepIdentEnd ms s
  | .discHeader => stepDiscHeader ms s
  | .discTable => stepDiscTable ms s
  | .giveReply n => stepGiveReply n ms s
  | .rxLevel u left dropped => stepRxLevel u left dropped ms s
  | .rxTimeout u => stepRxTimeout u ms s
  | .rxFlush u dropped => stepRxFlush u dropped ms s
  | .txDrain u => stepTxDrain u ms s
  | .dmaRxDone b => stepDmaRxDone b ms s
  | .dmaTxDone b => stepDmaTxDone b ms s
  | .uartDmaDone u => stepUartDmaDone u ms s
  | .eot u => stepEot u ms s
  | .lineError u => stepLineError u ms s

end Sys2Proof.Machine
end

