-- ==== Sys2Proof/Machine/Run.lean ====
section
/-! DEFINITION. Running a context (R378, R380 to R384): micro-steps are taken one after another until the
context ends, waits, or has used the micro-steps it was granted. -/

namespace Sys2Proof.Machine

/-! ## How many micro-steps are left -/

/-- A bound on the micro-steps a micro-step and all it leads to take, if nothing else runs and nothing
waits (log 23). -/
def Micro.weight (s : State) : Micro → Nat
  | .pushSample .. => 4
  | .pushStore .. => 3
  | .pushPublish .. => 2
  | .pullSample .. => 3
  | .pullRead .. => 2
  | .writeDirect .. => 5
  | .xfer _ _ _ i n => n - i + 1
  | .rxLevel _ left _ => left + 1
  | .rxFlush u _ =>
    match s.uarts[u]? with
    | some x => x.rxfifo.length + 1
    | none => 1
  | .txDrain u =>
    match s.uarts[u]? with
    | some x => x.txring.n + 1
    | none => 1
  | .discHeader => 32 + s.cfg.sfdp.tblLen
  | _ => 1

/-- The same for the micro-steps of a context. -/
def progWeight (s : State) : List Micro → Nat
  | [] => 0
  | m :: ms => m.weight s + progWeight s ms

/-! ## Running -/

/-- At most `n` micro-steps of context `c`. With `stop`, a failed spin or a poll of a busy device ends
the turn. Without it, it counts as one micro-step, and the next is the same spin again (R433). -/
def runCtx (stop : Bool) (c : Side) : Nat → State → Out
  | 0, s => .next s
  | n + 1, s =>
    match s.prog c with
    | [] => .next s
    | m :: ms =>
      match micro m ms s with
      | .more s' p => runCtx stop c n (s'.setProg c p)
      | .wait s' p => if stop then .next (s'.setProg c p) else runCtx stop c n (s'.setProg c p)
      | .refuse r => .refused r

/-- Context `c` runs until it ends or waits. -/
def runAll (c : Side) (s : State) : Out := runCtx true c (progWeight s (s.prog c)) s

/-- Go on with the next state, if there is one. -/
def andThen (o : Out) (k : State → Out) : Out :=
  match o with
  | .next s => k s
  | .fault f => .fault f
  | .refused r => .refused r

/-- The core runs until it waits or has nothing to do: a running handler first (R382), then MAIN
(R384). -/
def runCore (s : State) : Out := andThen (runAll .irq s) (runAll .main)

/-- A turn of the core (log 1): `n` micro-steps of the active context, or as `runCore`. -/
def runTurn (n : Option Nat) (s : State) : Out :=
  match n with
  | some k => runCtx false s.active k s
  | none => runCore s

/-- The next turn grants the core its micro-steps one by one, so nothing runs unasked (log 1). -/
def State.sliced (s : State) : Bool :=
  match s.sched with
  | .core _ :: _ => true
  | _ => false

/-- What a context that has just been given work does: it runs until it ends or waits, unless the
schedule slices it. -/
def launch (c : Side) (s : State) : Out := if s.sliced then .next s else runAll c s

/-- A handler starts (R380): the interrupt context is entered and runs whole, but for the slices the
schedule grants. -/
def startIrq (handler : List Micro) (s : State) : Out := launch .irq (s.enterIrq handler)

/-- A handler starts if it is ready and no handler runs (R368, R382). A handler that is not stays where
it is: nothing happens in this turn (log 10). -/
def dispatchIrq (ready : Bool) (handler : List Micro) (s : State) : Out :=
  if ready && s.irq.isEmpty then startIrq handler s else .next s

end Sys2Proof.Machine
end

