-- ==== Sys2Proof/Machine/Environment.lean ====
section
/-! DEFINITION. The steps of the hardware agents and of the environment (R126): the DMA channels (R204, R205,
R252), the line (R262, R263), the transmitter (R266) and the flash device (R96, R112). They run beside the core,
whatever it is doing (R382). An agent whose step is not enabled does nothing in its turn (log 10). -/

namespace Sys2Proof.Machine

/-- A step of an agent of a bus. -/
def busStep (b : BitVec 8) (k : Bus → Out) (s : State) : Out :=
  match s.buses[b.toNat]? with
  | some x => k x
  | none => .refused .noInstance

/-- A step of an agent of a UART. -/
def uartStep (u : BitVec 8) (k : Uart → Out) (s : State) : Out :=
  match s.uarts[u.toNat]? with
  | some x => k x
  | none => .refused .noInstance

/-- What `CH_TX` does after its exchange (R205): the received word waits in `rxq`. -/
def Bus.txMoved (x : Bus) (r : Word) : Bus :=
  { x with
    rxq := x.rxq ++ [r]
    dma := { x.dma with
      txLeft := x.dma.txLeft - 1
      txIrq := x.dma.txIrq || x.dma.txLeft == 1 } }

/-- `ENV.DMA_TX_MOVE` (R205). -/
def execEnvDmaTxMove (b : BitVec 8) (s : State) : Out :=
  busStep b (fun x =>
    if x.txMoveEnabled s.cfg.busFifoDepth then
      let src := x.dma.txDesc.srcOf (x.dma.txDesc.count - x.dma.txLeft)
      match (s.srcWord src.1 src.2).2.exchange b.toNat (s.srcWord src.1 src.2).1 with
      | .ok (r, s') => .next (s'.setBus b.toNat (x.txMoved r.toWord))
      | .error e => .refused e
    else .next s) s

/-- What `CH_RX` leaves of the bus instance (R204). -/
def Bus.rxMoved (x : Bus) (rest : List Word) : Bus :=
  { x with
    rxq := rest
    dma := { x.dma with
      rxLeft := x.dma.rxLeft - 1
      rxIrq := x.dma.rxIrq || x.dma.rxLeft == 1 } }

/-- `ENV.DMA_RX_MOVE` (R204): the element is stored before the interrupt becomes pending (R85). -/
def execEnvDmaRxMove (b : BitVec 8) (s : State) : Out :=
  busStep b (fun x =>
    if x.rxMoveEnabled then
      match x.rxq with
      | r :: rest =>
        let dst := x.dma.rxDesc.dstOf (x.dma.rxDesc.count - x.dma.rxLeft)
        .next ((s.setBus b.toNat (x.rxMoved rest)).dstWord b.toNat dst.1 dst.2 r)
      | [] => .next s
    else .next s) s

/-- `ENV.UART_DMA_MOVE` (R252). -/
def execEnvUartDmaMove (u : BitVec 8) (s : State) : Out :=
  uartStep u (fun x =>
    if x.utxMoveEnabled s.cfg.uartFifoDepth then
      .next (s.setUart u.toNat { x with
        txfifo := x.txfifo ++ [(s.bufRead x.dmaSrc x.utxIdx).setWidth 8]
        utxIdx := x.utxIdx + 1
        utxLeft := x.utxLeft - 1
        dmaIrq := x.dmaIrq || x.utxLeft == 1 })
    else .next s) s

/-- `ENV.LINE_BYTE` (R262): always enabled. -/
def execEnvLineByte (u : BitVec 8) (b : Byte) (e : Option LineErr) (s : State) : Out :=
  uartStep u (fun x =>
    let room := decide (x.rxfifo.length < s.cfg.uartFifoDepth)
    .next (s.setUart u.toNat { x with
      rxfifo := if room then x.rxfifo ++ [b] else x.rxfifo
      fifoOverrun := x.fifoOverrun || !room
      lineErr := match e with
        | some k => x.lineErr.insert k
        | none => x.lineErr
      gapArmed := true })) s

/-- `ENV.LINE_SILENCE` (R263): at most once after a byte. -/
def execEnvLineSilence (u : BitVec 8) (s : State) : Out :=
  uartStep u (fun x =>
    if x.gapArmed then
      .next (s.setUart u.toNat { x with
        gapArmed := false
        rxTimeoutFlag := x.rxTimeoutFlag || !x.rxfifo.isEmpty })
    else .next s) s

/-- `ENV.TX_SHIFT` (R266): the stop bit goes, or the next byte enters the shift register. -/
def execEnvTxShift (u : BitVec 8) (s : State) : Out :=
  uartStep u (fun x =>
    if x.txShifting then .next (s.setUart u.toNat { x with txShifting := false })
    else
      match x.txfifo with
      | v :: rest =>
        .next ((s.setUart u.toNat { x with txfifo := rest, txShifting := true }).emit
          (.lineOut u.toNat v))
      | [] => .next s) s

/-- `ENV.FLASH_DONE` (R96): enabled when the device is busy. -/
def execEnvFlashDone (s : State) : Out :=
  .next (if s.flash.busy then { s with flash := s.flash.done } else s)

/-- `FC.JEDEC` (R94, R112). The block is the one master of its buses (R7) and the sender of byte 0 of every frame
(R100), and it sends no frame of 0x9F (R110): no one does. The device would accept one, with free replies and no
effect (`Flash.answer`, `Flash.commit`), so nothing happens in a turn that presents it (DESIGN CHOICE, log 13). -/
def execFcJedec (s : State) : Out := .next s

end Sys2Proof.Machine
end

