-- ==== Sys2Proof/Machine/Interrupts.lean ====
section
/-! DEFINITION. The eight interrupt handlers (R126, R366): each starts when its source is pending and enabled
and no handler runs, and its rule is its whole effect (R380). -/

namespace Sys2Proof.Machine

/-- A handler of a bus source. -/
def busHandler (b : BitVec 8) (ready : Bus → Bool) (handler : Nat → List Micro) (s : State) : Out :=
  match s.buses[b.toNat]? with
  | some x => dispatchIrq (ready x) (handler b.toNat) s
  | none => .refused .noInstance

/-- A handler of a UART source. -/
def uartHandler (u : BitVec 8) (ready : Uart → Bool) (handler : Nat → List Micro) (s : State) : Out :=
  match s.uarts[u.toNat]? with
  | some x => dispatchIrq (ready x) (handler u.toNat) s
  | none => .refused .noInstance

/-- `EV.DMA_RX_DONE` (R206). -/
def execEvDmaRxDone (b : BitVec 8) (s : State) : Out :=
  busHandler b (fun x => x.dma.rxIrq) (fun b => [.dmaRxDone b]) s

/-- `EV.DMA_TX_DONE` (R207). -/
def execEvDmaTxDone (b : BitVec 8) (s : State) : Out :=
  busHandler b (fun x => x.dma.txIrq) (fun b => [.dmaTxDone b]) s

/-- `EV.UART_RX_LEVEL` (R232): `UART_RX_TRIG − 2` pops. -/
def execEvUartRxLevel (u : BitVec 8) (s : State) : Out :=
  uartHandler u (fun x => x.rxLevelReady s.cfg.uartRxTrig)
    (fun u => [.rxLevel u (s.cfg.uartRxTrig - 2) false]) s

/-- `EV.UART_RX_TIMEOUT` (R234): its first line, then the loop, in micro-steps of their own (DESIGN CHOICE,
log 12). -/
def execEvUartRxTimeout (u : BitVec 8) (s : State) : Out :=
  uartHandler u Uart.rxTimeoutReady (fun u => [.rxTimeout u, .rxFlush u false]) s

/-- `EV.UART_TX_LEVEL` (R244). -/
def execEvUartTxLevel (u : BitVec 8) (s : State) : Out :=
  uartHandler u (fun x => x.txLevelReady s.cfg.uartTxTrig) (fun u => [.txDrain u]) s

/-- `EV.UART_LINE_ERROR` (R260). -/
def execEvUartLineError (u : BitVec 8) (s : State) : Out :=
  uartHandler u Uart.lineErrorReady (fun u => [.lineError u]) s

/-- `EV.UART_DMA_DONE` (R254). -/
def execEvUartDmaDone (u : BitVec 8) (s : State) : Out :=
  uartHandler u Uart.dmaDoneReady (fun u => [.uartDmaDone u]) s

/-- `EV.UART_EOT` (R256). -/
def execEvUartEot (u : BitVec 8) (s : State) : Out :=
  uartHandler u Uart.eotReady (fun u => [.eot u]) s

end Sys2Proof.Machine
end

