-- ==== Sys2Proof/Machine/Schedule.lean ====
section
/-! DEFINITION. An operation of MAIN under the schedule (R83, R378 to R384): its micro-steps run, and the
turns of the other agents land in the gaps the schedule gives them. -/

namespace Sys2Proof.Machine

/-- The ring whose port a presented `RB.PUSH` uses belongs to the interrupt context. -/
def State.pushInIrq (s : State) (r : RingRef) : Bool :=
  match s.ring? (ringId r) with
  | some x => x.producer == .irq
  | none => false

/-- As `pushInIrq`, for the consumer port. -/
def State.pullInIrq (s : State) (r : RingRef) : Bool :=
  match s.ring? (ringId r) with
  | some x => x.consumer == .irq
  | none => false

/-- The one context that calls `UART.WRITE_BYTE` on UART `u` is the interrupt context (R140, R388). -/
def State.writeInIrq (s : State) (u : BitVec 8) : Bool :=
  match s.uarts[u.toNat]? with
  | some x => x.txring.producer == .irq
  | none => false

/-- `RB.PUSH` by an interrupt-context producer (R142, log 25). -/
def pushInIrq (r : RingRef) (b : Byte) (s : State) : Out :=
  match r with
  | .own _ => startIrq [.pushSample (ringId r) b .caller] s
  | .tx _ => .refused .ringDiscipline

/-- `RB.PULL` by an interrupt-context consumer (R146, log 25). -/
def pullInIrq (r : RingRef) (s : State) : Out :=
  match r with
  | .own _ => startIrq [.pullSample (ringId r)] s
  | .tx _ => .refused .ringDiscipline

/-- `UART.WRITE_BYTE` by a callback that is the single producer (R240, R388, log 25), in the state that admits
it (R226). -/
def writeInIrq (u : BitVec 8) (b : Byte) (s : State) : Out :=
  match s.uarts[u.toNat]? with
  | some x =>
    if x.mode = .interruptBound then startIrq [.writeDirect u.toNat b] s else .refused .uartState
  | none => .refused .noInstance

/-- What an instruction that MAIN does not perform does: a handler, a hardware agent, the device, the
environment, or an operation of the interrupt context. `none` for an operation of MAIN. -/
def eventOf (i : Instr) (s : State) : Option (State → Out) :=
  match i with
  | .evDmaRxDone b => some (execEvDmaRxDone b)
  | .evDmaTxDone b => some (execEvDmaTxDone b)
  | .evUartRxLevel u => some (execEvUartRxLevel u)
  | .evUartRxTimeout u => some (execEvUartRxTimeout u)
  | .evUartTxLevel u => some (execEvUartTxLevel u)
  | .evUartLineError u => some (execEvUartLineError u)
  | .evUartDmaDone u => some (execEvUartDmaDone u)
  | .evUartEot u => some (execEvUartEot u)
  | .envDmaRxMove b => some (execEnvDmaRxMove b)
  | .envDmaTxMove b => some (execEnvDmaTxMove b)
  | .envUartDmaMove u => some (execEnvUartDmaMove u)
  | .envLineByte u b e => some (execEnvLineByte u b e)
  | .envLineSilence u => some (execEnvLineSilence u)
  | .envTxShift u => some (execEnvTxShift u)
  | .envFlashDone => some execEnvFlashDone
  | .fcJedec => some execFcJedec
  | .uartWriteByte u b => if s.writeInIrq u then some (writeInIrq u b) else none
  | .rbPush r b => if s.pushInIrq r then some (pushInIrq r b) else none
  | .rbPull r => if s.pullInIrq r then some (pullInIrq r) else none
  | .fcPp _ _ | .fcRead _ _ | .fcRdsr | .fcWren | .fcSe _ | .fcBe32 _ => none
  | .fcRdsfdp _ _ | .fcRdid | .fcCe => none
  | .spiSelect _ | .spiDeselect _ | .spiXfer _ _ _ _ | .spiTx _ _ _ | .spiRx _ _ _ => none
  | .dmaStart _ _ _ _ _ | .dmaWait _ => none
  | .uartBindPoll _ | .uartBindIrq _ _ _ | .uartPollRead _ => none
  | .uartDmaTx _ _ _ | .uartDmaWait _ => none
  | .flIdentify | .flDiscover | .flRead _ _ _ | .flProgram _ _ _ | .flEraseSector _ => none
  | .flEraseBlock _ | .flEraseAll | .flWaitReady | .flWriteEnable | .flReadStatus | .flInit => none
  | .bdRead _ _ _ _ | .bdProgram _ _ _ _ | .bdErase _ | .bdSync => none

/-- The next turn presents something an agent other than MAIN does. -/
def eventTurn (t : Turn) (s : State) : Option (State → Out) :=
  match t with
  | .core _ => none
  | .req sp bs =>
    match decode sp bs with
    | .ok i => eventOf i s
    | .error _ => none

/-- An operation in progress goes on under the schedule `ts`, until nothing is in progress, or the next
turn is for neither the core nor another agent. The core then runs until it ends or waits (log 1). -/
def drive : List Turn → State → Out
  | [], s => runCore { s with sched := [] }
  | t :: ts, s =>
    if s.coreIdle then .next { s with sched := t :: ts }
    else
      match t with
      | .core n => andThen (runTurn n { s with sched := ts }) (drive ts)
      | .req sp bs =>
        match eventTurn (.req sp bs) s with
        | some f => andThen (f { s with sched := ts }) (drive ts)
        | none => runCore { s with sched := t :: ts }

/-- What MAIN may do with an operation presented now (R378): nothing from interrupt context, where R388 and U9
say `refuse` of every operation that MAIN alone performs, and nothing before the last operation has
returned. -/
def whenMain (k : Out) (s : State) : Out :=
  if !s.irq.isEmpty then .refused .interruptContext
  else if !s.main.isEmpty then .refused .operationInProgress
  else k

/-- MAIN starts an operation (R378), which runs under the schedule. -/
def startMain (prog : List Micro) (s : State) : Out :=
  whenMain (andThen (launch .main { s with main := prog, ret := .none }) fun s' => drive s'.sched s') s

/-- An operation that returns at once, with no other effect (R362). -/
def returnNow (r : Ret) (s : State) : Out := whenMain (.next (s.give .main r)) s

/-- Refuse unless a condition holds. -/
def need (c : Bool) (r : Refusal) (k : Out) : Out := if c then k else .refused r

end Sys2Proof.Machine
end

