-- ==== Sys2Proof/Machine/FlashDriver.lean ====
section
/-! DEFINITION. The NOR Flash Driver's operations (R280 to R326). A request is given a meaning only when its
whole span lies inside the device (R283) and its payloads fit the routes they take (R290). -/

namespace Sys2Proof.Machine

/-- A read of the flash array that returns `r` when done (R283, R290, R296, R326). -/
def flashRead (addr : Nat) (rx : BitVec 16) (len : Nat) (r : Ret) (s : State) : Out :=
  need (decide (1 ≤ len)) .zeroLength <|
  need (bufOk s.cfg rx len) .shortBuffer <|
  need (flSpanOk s.flash addr len) .flashSpan <|
  need (payloadOk s.cfg len) .dmaCount <|
  startMain (readProg s.cfg addr (.user rx) len r) s

/-- A program of the flash array that returns `r` when done (R283, R290, R300, R326). -/
def flashProgram (addr : Nat) (tx : BitVec 16) (len : Nat) (r : Ret) (s : State) : Out :=
  need (decide (1 ≤ len)) .zeroLength <|
  need (bufOk s.cfg tx len) .shortBuffer <|
  need (flSpanOk s.flash addr len) .flashSpan <|
  need (onePage s.cfg.flPage addr len) .pageCross <|
  need (payloadOk s.cfg len) .dmaCount <|
  startMain (programProg s.cfg addr (.user tx) len r) s

/-- An erase of `size` bytes: the alignment test on all of the address comes first and stops the operation with
no state changed (R77, R78, R302, R303, R362). -/
def flashErase (addr : Nat) (size : Nat) (prog : List Micro) (s : State) : Out :=
  if addr % size = 0 then
    need (flSpanOk s.flash addr size) .flashSpan (startMain prog s)
  else returnNow (.err .alignment) s

/-- `FL.IDENTIFY() -> (vendor, device)` (R306). A payload that does not fit its route is refused where it is
requested (`stepDmaStage`); so in the next two. -/
def execFlIdentify (s : State) : Out := startMain (identifyProg s.cfg) s

/-- `FL.DISCOVER() -> Result` (R308 to R316). -/
def execFlDiscover (s : State) : Out := startMain (discoverProg s.cfg) s

/-- `FL.INIT() -> Result` (R318). -/
def execFlInit (s : State) : Out := startMain (identifyProg s.cfg ++ discoverProg s.cfg) s

/-- `FL.READ(addr, rx, len)` (R296). -/
def execFlRead (addr : BitVec 64) (rx : BitVec 16) (len : Nat) (s : State) : Out :=
  flashRead (s.cfg.addrOf addr.toNat) rx len .none s

/-- `FL.PROGRAM(addr, tx, len)` (R300). -/
def execFlProgram (addr : BitVec 64) (tx : BitVec 16) (len : Nat) (s : State) : Out :=
  flashProgram (s.cfg.addrOf addr.toNat) tx len .none s

/-- `FL.ERASE_SECTOR(addr) -> Result` (R302). -/
def execFlEraseSector (addr : BitVec 64) (s : State) : Out :=
  flashErase (s.cfg.addrOf addr.toNat) flSector (eraseSectorProg s.cfg (s.cfg.addrOf addr.toNat)) s

/-- `FL.ERASE_BLOCK(addr) -> Result` (R303). -/
def execFlEraseBlock (addr : BitVec 64) (s : State) : Out :=
  flashErase (s.cfg.addrOf addr.toNat) flBlock32 (eraseBlockProg s.cfg (s.cfg.addrOf addr.toNat)) s

/-- `FL.ERASE_ALL()` (R304): no alignment check. -/
def execFlEraseAll (s : State) : Out := startMain (eraseAllProg s.cfg) s

/-- `FL.WAIT_READY()` (R286). -/
def execFlWaitReady (s : State) : Out := startMain (waitOpProg s.cfg .none) s

/-- `FL.WRITE_ENABLE()` (R288). -/
def execFlWriteEnable (s : State) : Out := startMain (writeEnableProg s.cfg) s

/-- `FL.READ_STATUS() -> byte` (R285). -/
def execFlReadStatus (s : State) : Out := startMain (statusProg s.cfg true) s

end Sys2Proof.Machine
end

