-- ==== Sys2Proof/Machine/BlockAdapter.lean ====
section
/-! DEFINITION. The Block Device Adapter (R340 to R356): the translator and the four operations, each after a
successful `FL.INIT` (R340, R422). -/

namespace Sys2Proof.Machine

/-- The flash address of a request, as the driver takes it (R122, R342). -/
def bdAddr (c : Config) (block offset : BitVec 32) : Nat := c.addrOf (translate c.geom block offset).toNat

/-- The preconditions of a request: a discovered flash, and a location R342 gives a meaning (U13). -/
def bdNeed (block offset : BitVec 32) (size : Nat) (s : State) (k : Out) : Out :=
  need s.fl.desc.valid .notDiscovered <|
  need (blockOk s.cfg.geom block offset size) .blockRange k

/-- `BD.READ(block, offset, buffer, size) -> Result` (R344). -/
def execBdRead (block offset : BitVec 32) (buffer : BitVec 16) (size : Nat) (s : State) : Out :=
  bdNeed block offset size s (flashRead (bdAddr s.cfg block offset) buffer size .ok s)

/-- `BD.PROGRAM(block, offset, buffer, size) -> Result` (R346). -/
def execBdProgram (block offset : BitVec 32) (buffer : BitVec 16) (size : Nat) (s : State) : Out :=
  bdNeed block offset size s (flashProgram (bdAddr s.cfg block offset) buffer size .ok s)

/-- `BD.ERASE(block) -> Result` (R348): one sector erase. -/
def execBdErase (block : BitVec 32) (s : State) : Out :=
  bdNeed block 0 0 s
    (flashErase (bdAddr s.cfg block 0) flSector (eraseSectorProg s.cfg (bdAddr s.cfg block 0)) s)

/-- `BD.SYNC() -> Result` (R352): the driver's busy-wait. -/
def execBdSync (s : State) : Out :=
  need s.fl.desc.valid .notDiscovered (startMain (waitOpProg s.cfg .ok) s)

end Sys2Proof.Machine
end

