-- ==== Sys2Proof/Machine/DmaEngine.lean ====
section
/-! DEFINITION. The DMA Transfer Engine's operations (R190 to R202, R210). Count and buffers are tested first, and
whether there is such a bus in the first micro-step (DESIGN CHOICE, log 26). -/

namespace Sys2Proof.Machine

/-- `DMA.START(b, tx?, rx?, count, blocking)` (R194, R196). -/
def execDmaStart (b : BitVec 8) (tx rx : Option (BitVec 16)) (count : Nat) (blocking : Bool)
    (s : State) : Out :=
  need (decide (1 ≤ count)) .zeroLength <|
  need (decide (count ≤ s.cfg.dmaMax)) .dmaCount <|
  need (tx.isSome || rx.isSome) .noBuffer <|
  need (optBufOk s.cfg tx count && optBufOk s.cfg rx count) .shortBuffer <|
  startMain (dmaProg b.toNat (tx.map .user) (rx.map .user) count blocking) s

/-- `DMA.WAIT(b)` (R202). -/
def execDmaWait (b : BitVec 8) (s : State) : Out := startMain [.spinDma b.toNat] s

end Sys2Proof.Machine
end

