-- ==== Sys2Proof/Machine/FlashCommand.lean ====
section
/-! DEFINITION. Nine of the ten flash wire commands (R104), each as one selection window on the flash bus (R100,
R101, log 13): the master sends the frame, the device answers (R90 to R94) and takes the command at the
deselect (R91, R95, R96), or ignores what it cannot accept (R97). The tenth, 0x9F, the block never issues: see
Environment. -/

namespace Sys2Proof.Machine

/-- `FC.PP`, format `FC-OAW` (R95). -/
def execFcPp (addr : BitVec 24) (data : List Byte) (s : State) : Out :=
  need (!data.isEmpty) .zeroLength (startMain (wireProg s.cfg (0x02 :: be24 addr) data 0) s)

/-- `FC.READ`, format `FC-OAR` (R92). -/
def execFcRead (addr : BitVec 24) (n : Nat) (s : State) : Out :=
  need (decide (1 ≤ n)) .zeroLength (startMain (wireProg s.cfg (0x03 :: be24 addr) [] n) s)

/-- `FC.RDSR`, format `FC-OR` with one reply byte (R90). -/
def execFcRdsr (s : State) : Out := startMain (wireProg s.cfg [0x05] [] 1) s

/-- `FC.WREN`, format `FC-O` (R91). -/
def execFcWren (s : State) : Out := startMain (wireProg s.cfg [0x06] [] 0) s

/-- `FC.SE`, format `FC-OA` (R96). -/
def execFcSe (addr : BitVec 24) (s : State) : Out := startMain (wireProg s.cfg (0x20 :: be24 addr) [] 0) s

/-- `FC.BE32`, format `FC-OA` (R96). -/
def execFcBe32 (addr : BitVec 24) (s : State) : Out :=
  startMain (wireProg s.cfg (0x52 :: be24 addr) [] 0) s

/-- `FC.RDSFDP`, format `FC-OADR`, the dummy byte sent as 0x00 (R93, R103). -/
def execFcRdsfdp (addr : BitVec 24) (n : Nat) (s : State) : Out :=
  need (decide (1 ≤ n)) .zeroLength
    (startMain (wireProg s.cfg (0x5A :: (be24 addr ++ [0x00])) [] n) s)

/-- `FC.RDID`, format `FC-OAR` with address 0 and two reply bytes (R94, R103). -/
def execFcRdid (s : State) : Out := startMain (wireProg s.cfg [0x90, 0x00, 0x00, 0x00] [] 2) s

/-- `FC.CE`, format `FC-O` (R96). -/
def execFcCe (s : State) : Out := startMain (wireProg s.cfg [0xC7] [] 0) s

end Sys2Proof.Machine
end

