-- ==== Sys2Proof/Machine/RingBuffer.lean ====
section
/-! DEFINITION. The Ring Buffer operations as presented (R140 to R156). A ring that a UART driver owns is
reached through the driver alone (R22, R156, R388, log 11). The context that owns the port performs the
operation (R140). -/

namespace Sys2Proof.Machine

/-- `RB.PUSH(r, b) -> bool` (R142). -/
def execRbPush (r : RingRef) (b : Byte) (s : State) : Out :=
  match s.ring? (ringId r) with
  | none => .refused .noInstance
  | some _ =>
    match r with
    | .tx _ => .refused .ringDiscipline
    | .own _ =>
      if s.pushInIrq r then pushInIrq r b s
      else startMain [.pushSample (ringId r) b .caller] s

/-- `RB.PULL(r) -> optional byte` (R146). -/
def execRbPull (r : RingRef) (s : State) : Out :=
  match s.ring? (ringId r) with
  | none => .refused .noInstance
  | some _ =>
    match r with
    | .tx _ => .refused .ringDiscipline
    | .own _ =>
      if s.pullInIrq r then pullInIrq r s
      else startMain [.pullSample (ringId r)] s

end Sys2Proof.Machine
end

