-- ==== Sys2Proof/Machine/SyncTransfer.lean ====
section
/-! DEFINITION. The Synchronous Transfer Engine (R160 to R186). Length and buffers are tested first, and whether
there is such a bus in the first micro-step (DESIGN CHOICE, log 26). -/

namespace Sys2Proof.Machine

/-- `SPI.SELECT(b)` (R162). -/
def execSpiSelect (b : BitVec 8) (s : State) : Out := startMain (selectProg b.toNat) s

/-- `SPI.DESELECT(b)` (R164). -/
def execSpiDeselect (b : BitVec 8) (s : State) : Out := startMain (deselectProg b.toNat) s

/-- `SPI.XFER(b, tx, rx, length)` (R168, R170). -/
def execSpiXfer (b : BitVec 8) (tx rx : BitVec 16) (length : Nat) (s : State) : Out :=
  need (decide (1 ≤ length)) .zeroLength <|
  need (bufOk s.cfg tx length && bufOk s.cfg rx length) .shortBuffer <|
  startMain (transferProg b.toNat (.buf (.user tx)) (.buf (.user rx)) length) s

/-- `SPI.TX(b, tx, length)` (R168, R174). -/
def execSpiTx (b : BitVec 8) (tx : BitVec 16) (length : Nat) (s : State) : Out :=
  need (decide (1 ≤ length)) .zeroLength <|
  need (bufOk s.cfg tx length) .shortBuffer <|
  startMain (transferProg b.toNat (.buf (.user tx)) .scratch length) s

/-- `SPI.RX(b, rx, length)` (R168, R176). -/
def execSpiRx (b : BitVec 8) (rx : BitVec 16) (length : Nat) (s : State) : Out :=
  need (decide (1 ≤ length)) .zeroLength <|
  need (bufOk s.cfg rx length) .shortBuffer <|
  startMain (transferProg b.toNat .filler (.buf (.user rx)) length) s

end Sys2Proof.Machine
end

