-- ==== Sys2Proof/Machine/UartTransport.lean ====
section
/-! DEFINITION. The Serial Transport Driver's operations (R222 to R251), each in the states that admit it
(R226, R270). -/

namespace Sys2Proof.Machine

/-- An operation on a UART instance, admitted in the states `ok` accepts (R226, U10). -/
def uartOp (u : BitVec 8) (ok : UartMode → Bool) (k : Uart → Out) (s : State) : Out :=
  match s.uarts[u.toNat]? with
  | some x => need (ok x.mode) .uartState (k x)
  | none => .refused .noInstance

/-- `UART.BIND_POLL(u)` (R222). -/
def execUartBindPoll (u : BitVec 8) (s : State) : Out :=
  uartOp u (· == .idle) (fun _ => startMain [.bindPoll u.toNat] s) s

/-- `UART.BIND_IRQ(u, rx_buf, rx_cap)` (R224); a capacity of 0 is allowed. A buffer that is absent or shorter than
`rx_cap` is refused (DESIGN CHOICE, log 30). -/
def execUartBindIrq (u : BitVec 8) (rxBuf : BitVec 16) (rxCap : Nat) (s : State) : Out :=
  uartOp u (· == .idle) (fun _ =>
    need (bufOk s.cfg rxBuf rxCap) .shortBuffer <|
    startMain [.bindBuffer u.toNat (.user rxBuf) rxCap, .bindEnable u.toNat] s) s

/-- `UART.POLL_READ(u) -> optional byte` (R228). -/
def execUartPollRead (u : BitVec 8) (s : State) : Out :=
  uartOp u (· == .pollingBound) (fun _ => startMain [.pollRead u.toNat] s) s

/-- `UART.WRITE_BYTE(u, b) -> Result` (R240), by the context that is the ring's one producer (R140, R388). -/
def execUartWriteByte (u : BitVec 8) (b : Byte) (s : State) : Out :=
  if s.writeInIrq u then writeInIrq u b s
  else uartOp u (· == .interruptBound) (fun _ => startMain [.writeDirect u.toNat b] s) s

/-- `UART.DMA_TX(u, src, len)` (R250). A source that is absent or shorter than `len` is refused (DESIGN CHOICE,
log 30). -/
def execUartDmaTx (u : BitVec 8) (src : BitVec 16) (len : Nat) (s : State) : Out :=
  uartOp u (fun m => m == .interruptBound || m == .dmaTransmitting) (fun _ =>
    need (decide (1 ≤ len)) .zeroLength <|
    need (bufOk s.cfg src len) .shortBuffer <|
    startMain [.spinUart u.toNat, .dmaTxSet u.toNat (.user src) len, .dmaTxGo u.toNat] s) s

/-- `UART.DMA_WAIT(u)` (R251). -/
def execUartDmaWait (u : BitVec 8) (s : State) : Out :=
  uartOp u (fun m => m == .interruptBound || m == .dmaTransmitting) (fun _ =>
    startMain [.spinUart u.toNat] s) s

end Sys2Proof.Machine
end

