-- ==== Sys2Proof/Machine/Dispatch.lean ====
section
/-! DEFINITION. The meaning of every instruction: one arm per row of the opcode table. -/

namespace Sys2Proof.Machine

def exec (i : Instr) (s : State) : Host.Outcome State Fault Refusal :=
  match i with
  | .fcPp addr data => Sys2Proof.Machine.execFcPp addr data s
  | .fcRead addr n => Sys2Proof.Machine.execFcRead addr n s
  | .fcRdsr => Sys2Proof.Machine.execFcRdsr s
  | .fcWren => Sys2Proof.Machine.execFcWren s
  | .fcSe addr => Sys2Proof.Machine.execFcSe addr s
  | .fcBe32 addr => Sys2Proof.Machine.execFcBe32 addr s
  | .fcRdsfdp addr n => Sys2Proof.Machine.execFcRdsfdp addr n s
  | .fcRdid => Sys2Proof.Machine.execFcRdid s
  | .fcJedec => Sys2Proof.Machine.execFcJedec s
  | .fcCe => Sys2Proof.Machine.execFcCe s
  | .rbPush r b => Sys2Proof.Machine.execRbPush r b s
  | .rbPull r => Sys2Proof.Machine.execRbPull r s
  | .spiSelect b => Sys2Proof.Machine.execSpiSelect b s
  | .spiDeselect b => Sys2Proof.Machine.execSpiDeselect b s
  | .spiXfer b tx rx length => Sys2Proof.Machine.execSpiXfer b tx rx length s
  | .spiTx b tx length => Sys2Proof.Machine.execSpiTx b tx length s
  | .spiRx b rx length => Sys2Proof.Machine.execSpiRx b rx length s
  | .dmaStart b tx rx count blocking => Sys2Proof.Machine.execDmaStart b tx rx count blocking s
  | .dmaWait b => Sys2Proof.Machine.execDmaWait b s
  | .uartBindPoll u => Sys2Proof.Machine.execUartBindPoll u s
  | .uartBindIrq u rxBuf rxCap => Sys2Proof.Machine.execUartBindIrq u rxBuf rxCap s
  | .uartPollRead u => Sys2Proof.Machine.execUartPollRead u s
  | .uartWriteByte u b => Sys2Proof.Machine.execUartWriteByte u b s
  | .uartDmaTx u src len => Sys2Proof.Machine.execUartDmaTx u src len s
  | .uartDmaWait u => Sys2Proof.Machine.execUartDmaWait u s
  | .flIdentify => Sys2Proof.Machine.execFlIdentify s
  | .flDiscover => Sys2Proof.Machine.execFlDiscover s
  | .flRead addr rx len => Sys2Proof.Machine.execFlRead addr rx len s
  | .flProgram addr tx len => Sys2Proof.Machine.execFlProgram addr tx len s
  | .flEraseSector addr => Sys2Proof.Machine.execFlEraseSector addr s
  | .flEraseBlock addr => Sys2Proof.Machine.execFlEraseBlock addr s
  | .flEraseAll => Sys2Proof.Machine.execFlEraseAll s
  | .flWaitReady => Sys2Proof.Machine.execFlWaitReady s
  | .flWriteEnable => Sys2Proof.Machine.execFlWriteEnable s
  | .flReadStatus => Sys2Proof.Machine.execFlReadStatus s
  | .flInit => Sys2Proof.Machine.execFlInit s
  | .bdRead block offset buffer size => Sys2Proof.Machine.execBdRead block offset buffer size s
  | .bdProgram block offset buffer size => Sys2Proof.Machine.execBdProgram block offset buffer size s
  | .bdErase block => Sys2Proof.Machine.execBdErase block s
  | .bdSync => Sys2Proof.Machine.execBdSync s
  | .evDmaRxDone b => Sys2Proof.Machine.execEvDmaRxDone b s
  | .evDmaTxDone b => Sys2Proof.Machine.execEvDmaTxDone b s
  | .evUartRxLevel u => Sys2Proof.Machine.execEvUartRxLevel u s
  | .evUartRxTimeout u => Sys2Proof.Machine.execEvUartRxTimeout u s
  | .evUartTxLevel u => Sys2Proof.Machine.execEvUartTxLevel u s
  | .evUartLineError u => Sys2Proof.Machine.execEvUartLineError u s
  | .evUartDmaDone u => Sys2Proof.Machine.execEvUartDmaDone u s
  | .evUartEot u => Sys2Proof.Machine.execEvUartEot u s
  | .envDmaRxMove b => Sys2Proof.Machine.execEnvDmaRxMove b s
  | .envDmaTxMove b => Sys2Proof.Machine.execEnvDmaTxMove b s
  | .envUartDmaMove u => Sys2Proof.Machine.execEnvUartDmaMove u s
  | .envLineByte u b e => Sys2Proof.Machine.execEnvLineByte u b e s
  | .envLineSilence u => Sys2Proof.Machine.execEnvLineSilence u s
  | .envTxShift u => Sys2Proof.Machine.execEnvTxShift u s
  | .envFlashDone => Sys2Proof.Machine.execEnvFlashDone s

end Sys2Proof.Machine
end

