-- ==== Sys2Proof/Machine/Step.lean ====
section
/-! DEFINITION. One step of the machine: the next turn of the schedule (R83, log 1, log 2). The block fetches
no instructions (R24, R98): what it does next is what is presented to it. -/

namespace Sys2Proof.Machine

/-- One step. A presented event is performed at once. A presented operation is performed when MAIN is
free, and until then the core goes on with the one in progress (R378). With no turn left, the core goes on
with what is in progress; with nothing in progress, nothing happens (R414). -/
def step (s : State) : Host.Outcome State Fault Refusal :=
  match s.sched with
  | [] => runCore s
  | .core n :: ts => runTurn n { s with sched := ts }
  | .req sp bs :: ts =>
    match decode sp bs with
    | .error e => if s.coreIdle then .refused (.undecodable e) else runCore s
    | .ok i =>
      if s.coreIdle || (eventOf i s).isSome then exec i { s with sched := ts } else runCore s

/-- The instruction of a table word presented as the very next turn (log 2). -/
def State.withFetchWord (s : State) (nbits w : Nat) : State :=
  { s with sched := .req (tableTurn nbits w).1 (tableTurn nbits w).2 :: s.sched }

end Sys2Proof.Machine
end

