-- ==== Sys2Proof/Safety.lean ====
section
/-! DEFINITION. The terms in which claims speak of the machine: when an operation can run undisturbed, what a
ring holds, which frames a trace shows, and the two invariants of R38. -/

namespace Sys2Proof.Machine

/-! ## Undisturbed operations -/

/-- Nothing is in progress, and the schedule does not slice what comes next: an operation presented now
runs until it returns or waits (R378, log 1). -/
def State.quiet (s : State) : Prop := s.main = [] ∧ s.irq = [] ∧ s.sliced = false

/-- The schedule presents the end of the device's work and nothing else. -/
def flashDoneTurn : Turn := .req .op [0xC6]

/-- The flash bus is `x`, and it is as R281 says and free: 8 bits, a select line, not selected, drained,
no DMA transfer outstanding. -/
structure State.FlashBusFree (s : State) (x : Bus) : Prop where
  bus : s.buses[s.cfg.flashBus]? = some x
  width : x.cfg.width = .w8
  hasCs : x.cfg.hasCs = true
  cs : x.cs = false
  drained : x.rxq = []
  inactive : x.dma.active = false

/-- Bus `b` is `x` and no device answers on it: either it is not the flash bus, or it has no select line,
or it is not selected (R89, R182). -/
def State.Unanswered (s : State) (b : Nat) (x : Bus) : Prop :=
  s.buses[b]? = some x ∧ (s.wired b x && x.cs) = false

/-- The next `n` words on bus `b`, which is `x`, all have a reply: no device answers, or the device has one
for every frame that continues its own by up to `n` words (R89, R92: what has none is a read past the
array). -/
def State.Replies (s : State) (b : Nat) (x : Bus) (n : Nat) : Prop :=
  (s.wired b x && x.cs) = true → ∀ (fr : List Byte) (free : Word), s.flash.frame <+: fr →
    fr.length ≤ s.flash.frame.length + n → ∃ r, s.flash.answer fr free = .ok r

/-- The device's frame after `sent` has crossed bus `b`, which is `x`. -/
def State.frameAfter (s : State) (b : Nat) (x : Bus) (sent : List Word) : List Byte :=
  if s.wired b x && x.cs then s.flash.frame ++ sent.map (·.setWidth 8) else s.flash.frame

/-- The exchanges of bus `b` that send and receive these words. -/
def exchanges (b : Nat) (sent received : List Word) : List Event :=
  List.zipWith (fun w r => .exchange b w r) sent received

/-- The first `n` elements of a buffer, as a bus of width `w` sends them. -/
def State.wordsOf (s : State) (w : Width) (q : BufRef) (n : Nat) : List Word :=
  (List.range n).map fun i => busClip w (s.bufRead q i)

/-- The low bytes of the first `n` elements of a buffer. -/
def State.bytesOf (s : State) (q : BufRef) (n : Nat) : List Byte :=
  (List.range n).map fun i => (s.bufRead q i).setWidth 8

/-- `BUF` reads the same in `s` and `t` at every cell but the `n` that start at element `i` of `q`. -/
def sameBufBut (s t : State) (q : BufRef) (i n : Nat) : Prop :=
  ∀ a, (a < q.cell i ∨ q.cell i + n ≤ a) → memGet 0 t.buf a = memGet 0 s.buf a

/-- The turns in which a whole DMA transfer of `n` elements on bus `b` takes place: each word is sent and
taken, then both handlers run (R204 to R207, R214). -/
def dmaTurns (b : BitVec 8) (n : Nat) : List Turn :=
  (List.replicate n [Turn.req .op [0xC1, b], .req .op [0xC0, b]]).flatten ++
    [.req .op [0x81, b], .req .op [0x80, b]]

/-- The turns in which a payload of `n` elements of the flash driver's is transferred, by its route (R290). -/
def payloadTurns (c : Config) (b : BitVec 8) (n : Nat) : List Turn := if dmaRoute c n then dmaTurns b n else []

/-- The same for a program: the device finishes while MAIN polls (R290, R300). -/
def programTurns (c : Config) (b : BitVec 8) (n : Nat) : List Turn :=
  payloadTurns c b n ++ if dmaRoute c n then [.core none, flashDoneTurn] else [flashDoneTurn]

/-! ## Rings -/

/-- The bytes a ring holds, the oldest first. -/
def Ring.contents (r : Ring) : List Byte :=
  (List.range r.count).map fun i => r.storage.getD ((r.tail + i) % r.n) 0

/-- The bounds of R38 (a). -/
def Ring.ok (r : Ring) : Bool :=
  decide (1 ≤ r.n) && decide (r.head < r.n) && decide (r.tail < r.n) && r.storage.length == r.n

/-- The ring after an accepted push (R142). -/
def Ring.pushed (r : Ring) (b : Byte) : Ring :=
  { r with storage := r.storage.set r.head b, head := (r.head + 1) % r.n }

/-- The ring after a pull of a byte (R146). -/
def Ring.pulled (r : Ring) : Ring := { r with tail := (r.tail + 1) % r.n }

/-- What context `c` was last told an operation of its own returned (log 21). -/
def State.retOf (s : State) : Side → Ret
  | .main => s.ret
  | .irq => s.irqRets.getLastD .none

/-- What is done to a ring: a push, a pull, or one of each, in which the interrupt context's operation lands after
`k` micro-steps of MAIN's (R150). -/
inductive RingOp where
  | push (b : Byte)
  | pull
  | both (b : Byte) (k : Nat)
  deriving DecidableEq, Repr

/-- Operation `i` of MAIN with the turn `t` of the interrupt context after `k` of its micro-steps, or after its
end if it has fewer. -/
def preempted (i : Instr) (k : Nat) (t : Turn) (s : State) : Out :=
  andThen (exec i { s with sched := [.core (some k), t] }) fun u => if u.sched = [] then .next u else step u

/-- One operation on stand-alone ring `i`, whose producer is `p`. -/
def ringStep (i : BitVec 7) (p : Side) : RingOp → State → Out
  | .push b, s => exec (.rbPush (.own i) b) s
  | .pull, s => exec (.rbPull (.own i)) s
  | .both b k, s =>
    match p with
    | .main => preempted (.rbPush (.own i) b) k (.req .op [0x02, byteRing (.own i)]) s
    | .irq => preempted (.rbPull (.own i)) k (.req .op [0x01, byteRing (.own i), b]) s

/-- The byte an operation had the ring accept: the one pushed, if the producer `p` was told true. -/
def RingOp.accepted (p : Side) (t : State) : RingOp → List Byte
  | .push b | .both b _ => if t.retOf p = .bool true then [b] else []
  | .pull => []

/-- The byte an operation got out of the ring: the one the consumer `c` was told. -/
def RingOp.given (c : Side) (t : State) : RingOp → List Byte
  | .pull | .both _ _ =>
    match t.retOf c with
    | .optByte (some v) => [v]
    | _ => []
  | .push _ => []

/-- A sequence of operations on stand-alone ring `i` with producer `p` and consumer `c`: the state after them, the
bytes the ring accepted, and the bytes it gave out. -/
def ringRun (i : BitVec 7) (p c : Side) : List RingOp → State → Option (State × List Byte × List Byte)
  | [], s => some (s, [], [])
  | op :: ops, s =>
    match ringStep i p op s with
    | .next t => (ringRun i p c ops t).map fun (u, acc, out) => (u, op.accepted p t ++ acc, op.given c t ++ out)
    | _ => none

/-! ## UART -/

/-- The lengths of the chunks of a DMA transmit of `len` bytes (R258): `ceil(len / max)` of them, all `max`
but the last. -/
def chunkLengths (len max : Nat) : List Nat :=
  List.replicate ((len - 1) / max) max ++ [len - max * ((len - 1) / max)]

/-- The turns in which the chunks of a DMA transmit of UART `u` go out: each byte is moved to the FIFO and
leaves on the line, each chunk ends in its completion handler, and the end-of-transmission handler comes
last (R252, R254, R256, R266). -/
def uartDmaTurns (u : BitVec 8) : List Nat → List Turn
  | [] => [.req .op [0x87, u]]
  | c :: cs =>
    (List.replicate c [Turn.req .op [0xC2, u], .req .op [0xC5, u], .req .op [0xC5, u]]).flatten ++
      .req .op [0x86, u] :: uartDmaTurns u cs

/-- The turns in which the bytes `bs` arrive on UART `u`, each followed by a chance for the fill-level handler
to run, and then a silence with its handler (R232, R234, R262, R263). -/
def receiveTurns (u : BitVec 8) : List Byte → List Turn
  | [] => [.req .op [0xC4, u], .req .op [0x83, u]]
  | b :: bs => .req .op [0xC3, u, b, 0x00] :: .req .op [0x82, u] :: receiveTurns u bs

/-! ## Transfers -/

/-- The exchanges `i` to `i + k - 1` of a transfer, one after another (R170, R174, R176). -/
def State.transferAll (b : Nat) (src : Src) (dst : Dst) : Nat → Nat → State → Except Refusal State
  | _, 0, s => .ok s
  | i, k + 1, s =>
    match s.transferWord b src dst i with
    | .ok s' => State.transferAll b src dst (i + 1) k s'
    | .error e => .error e

/-! ## Discovery -/

/-- `n` bytes of the discovery table from position `a` (R93). -/
def Flash.sfdpBytes (f : Flash) (a n : Nat) : List Byte := (List.range n).map fun i => f.sfdp.getD (a + i) 0

/-- The header of the device's table (R310). -/
def Flash.sfdpHeader (f : Flash) (l : SfdpLayout) : List Byte := f.sfdpBytes l.sigOff.toNat l.hdrLen

/-- The two words of the first parameter table of the device, as bytes (R312). -/
def Flash.sfdpTable (f : Flash) (l : SfdpLayout) : List Byte :=
  f.sfdpBytes (le24 (f.sfdpHeader l) l.ptrOff).toNat l.tblLen

/-- The header is the one R310 asks for. -/
def headerOk (l : SfdpLayout) (h : List Byte) : Bool :=
  h.take 4 == sfdpSignature && h.getD l.idOff 0 == 0

/-- The table flags 4-KiB erase (R312). -/
def tableOk (l : SfdpLayout) (t : List Byte) : Bool := le32 t l.w1Off &&& l.erase4kMask == l.erase4kVal

/-! ## Traces -/

/-- The first byte sent in each selection window of bus `b`; `fresh` says a window has just opened. -/
def windowHeads (b : Nat) : Bool → List Event → List Byte
  | _, [] => []
  | fresh, .select c :: es => windowHeads b (fresh || c == b) es
  | fresh, .exchange c w _ :: es =>
    if fresh && c == b then w.setWidth 8 :: windowHeads b false es else windowHeads b fresh es
  | fresh, .deselect _ :: es => windowHeads b fresh es
  | fresh, .lineOut _ _ :: es => windowHeads b fresh es
  | fresh, .call _ _ _ :: es => windowHeads b fresh es

/-- What a step added to the trace. -/
def newEvents (s t : State) : List Event := t.trace.drop s.trace.length

/-- The opcodes of the frames a step put on the flash bus, in order. -/
def newOpcodes (s t : State) : List Byte := windowHeads s.cfg.flashBus false (newEvents s t)

/-- Between `s` and `t` the flash driver has worked on its bus, which was `x`: of the bus the scratch cell may
have changed, of the rest only what the driver and its device touch, and the trace has grown. What became of
each of those is for a claim to say. -/
def DriverFrame (s t : State) (x : Bus) : Prop :=
  ∃ sc, t = { s with
    buses := s.buses.set s.cfg.flashBus { x with scratch := sc }
    flash := t.flash, fl := t.fl, buf := t.buf, draws := t.draws
    trace := s.trace ++ newEvents s t, ret := t.ret, sched := t.sched }

/-! ## The invariant (R38) -/

/-- R38 (e). -/
def Bus.ok (x : Bus) : Bool := !(x.dma.rxEn || x.dma.txEn) || x.dma.active

/-- R38 (a) to (d) and (h), for one UART instance. -/
def Uart.ok (dmaMax : Nat) (x : Uart) : Bool :=
  x.txring.ok && decide (x.rxCount ≤ x.rxCap) &&
  x.dmaCursor + x.dmaRemaining == x.dmaLen &&
  decide (x.dmaChunk ≤ dmaMax) && decide (x.dmaChunk ≤ x.dmaRemaining) &&
  (x.mode == .dmaTransmitting) == x.dmaBusy

/-- A push in progress publishes an index of its ring (R142), and an address has `API_ADDR_W` bits (R30). -/
def Micro.ok (s : State) : Micro → Bool
  | .pushStore r _ n _ _ | .pushPublish r n _ =>
    match s.ring? r with
    | some x => decide (n < x.n)
    | none => true
  | .flBegin _ (some a) _ => decide (a < 2 ^ s.cfg.apiAddrW)
  | _ => true

/-- The invariant of the machine: R38 (a) to (e) and (h), the width of `fl.addr` (R30), and the canonical form of
both memories. -/
def State.Inv (s : State) : Prop :=
  s.rings.all Ring.ok = true ∧ s.buses.all Bus.ok = true ∧
  s.uarts.all (Uart.ok s.cfg.dmaMax) = true ∧
  s.main.all (Micro.ok s) = true ∧ s.irq.all (Micro.ok s) = true ∧
  s.fl.addr < 2 ^ s.cfg.apiAddrW ∧ s.memOk = true

/-! ## What lies behind R38 (f) and (g) -/

/-- What the interrupt context may be doing: a handler, an operation of a caller's on a stand-alone ring, or the
`UART.WRITE_BYTE` of a callback (R388, log 25). -/
def Micro.irqOk : Micro → Bool
  | .pushSample r _ k | .pushStore r _ _ _ k | .pushPublish r _ k =>
    k == (match r with
      | .own _ => .caller
      | .tx u => .write u)
  | .pullSample r | .pullRead r _ | .pullPublish r _ _ =>
    match r with
    | .own _ => true
    | .tx _ => false
  | .rxLevel _ _ _ | .rxTimeout _ | .rxFlush _ _ | .txDrain _ | .dmaRxDone _ | .dmaTxDone _ => true
  | .uartDmaDone _ | .eot _ | .lineError _ | .writeDirect _ _ | .enableTx _ => true
  | _ => false

/-- What MAIN may be doing to a ring: a push to a UART's ring is part of `UART.WRITE_BYTE`, and MAIN does not
pull from it (R388). -/
def Micro.mainOk : Micro → Bool
  | .pushSample r _ k | .pushStore r _ _ _ k | .pushPublish r _ k =>
    k == (match r with
      | .own _ => .caller
      | .tx u => .write u)
  | .pullSample r | .pullRead r _ | .pullPublish r _ _ =>
    match r with
    | .own _ => true
    | .tx _ => false
  | .txDrain _ => false
  | _ => true

/-- A micro-step of a `UART.WRITE_BYTE` on UART `u` (R240). -/
def Micro.writes (u : Nat) : Micro → Bool
  | .writeDirect v _ | .enableTx v => v == u
  | .pushSample r _ _ | .pushStore r _ _ _ _ | .pushPublish r _ _ => r == .tx u
  | _ => false

/-- The micro-steps that end an `FL` operation, or decide its end (R308). -/
def Micro.flEnds : Micro → Bool
  | .flEnd _ | .identEnd | .discHeader | .discTable => true
  | _ => false

/-- Whatever starts an `FL` operation or changes its phase is followed by an end of it. -/
def flTail : List Micro → Bool
  | [] => true
  | m :: ms =>
    (match m with
    | .flBegin _ _ _ | .flPhase _ => ms.any Micro.flEnds
    | _ => true) && flTail ms

/-- R38 (f): bytes in the transmit ring have the interrupt enabled, but between the push and the enable of
`UART.WRITE_BYTE`; and an instance that is not bound to interrupts has none (R226). -/
def State.txInv (s : State) : Prop :=
  ∀ (u : Nat) (x : Uart), s.uarts[u]? = some x →
    (x.txring.empty = false → x.ieTxLevel = true ∨ Micro.enableTx u ∈ s.main ++ s.irq) ∧
    (x.mode = .idle ∨ x.mode = .pollingBound → x.txring.empty = true ∧ (s.main ++ s.irq).all (!·.writes u) = true)

/-- R38 (g): the phase is `IDLE`, and the operation `NONE`, whenever no `FL` operation is in progress. -/
def State.flInv (s : State) : Prop :=
  flTail s.main = true ∧
    (s.main.any Micro.flEnds = true ∨ (s.fl.phase = .idle ∧ s.fl.op = .none))

/-- R38 (f) and (g), with what the two contexts may be doing. -/
def State.DriverInv (s : State) : Prop :=
  s.main.all Micro.mainOk = true ∧ s.irq.all Micro.irqOk = true ∧ s.txInv ∧ s.flInv

end Sys2Proof.Machine
end

