-- ==== Sys2Proof/Certificates/Slice0/Obligations.lean ====
section
/-! DEFINITION. The statements for the provers, in the order of OBLIGATIONS.json. An operation is stated for a
quiet state: nothing in progress, and the schedule does not slice it (log 1). A statement whose clauses are the
model's own choice names the log entry. -/

open Sys2Proof Sys2Proof.Machine

/-! ## Ring Buffer -/

/-- R142, R140: a push stores the byte at `head` and advances `head`, unless that would catch `tail`. The context
that owns the producer port performs it and has its result, also while MAIN is at work if that is IRQ (log 25). -/
def Obligations.RbPushResult : Prop :=
  ∀ (s : State) (i : BitVec 7) (b : Byte) (r : Ring), s.irq = [] → s.sliced = false →
    s.rings[i.toNat]? = some r → (r.producer = .main → s.main = []) →
    exec (.rbPush (.own i) b) s = .next
      (if (r.head + 1) % r.n = r.tail then s.give r.producer (.bool false)
      else ({ s with
        rings := s.rings.set i.toNat
          { r with storage := r.storage.set r.head b, head := (r.head + 1) % r.n } } : State).give
        r.producer (.bool true))

/-- R146, R140: a pull returns the byte at `tail` and advances `tail`, unless `head = tail`. The context that owns
the consumer port performs it and has its result (log 25). -/
def Obligations.RbPullResult : Prop :=
  ∀ (s : State) (i : BitVec 7) (r : Ring), s.irq = [] → s.sliced = false →
    s.rings[i.toNat]? = some r → (r.consumer = .main → s.main = []) →
    exec (.rbPull (.own i)) s = .next
      (if r.head = r.tail then s.give r.consumer (.optByte none)
      else ({ s with
        rings := s.rings.set i.toNat { r with tail := (r.tail + 1) % r.n } } : State).give
        r.consumer (.optByte (some (r.storage.getD r.tail 0))))

/-- R152, R150: what the pulls of any sequence of operations return, followed by what the ring still holds, is what
it held at the start followed by the bytes whose push returned true; the operations of the two contexts may land
inside each other, at any micro-step. -/
def Obligations.RbFifoOrder : Prop :=
  ∀ (s : State) (i : BitVec 7) (r : Ring) (ops : List RingOp), s.quiet →
    s.rings[i.toNat]? = some r → r.ok = true → (r.producer = r.consumer → ∀ b k, RingOp.both b k ∉ ops) →
    ∃ t acc out r', ringRun i r.producer r.consumer ops s = some (t, acc, out) ∧
      t.rings[i.toNat]? = some r' ∧ r'.ok = true ∧ r.contents ++ acc = out ++ r'.contents

/-- R154: an empty ring accepts its first `N - 1` pushes and refuses the next, and after one pull one push
succeeds again. -/
def Obligations.RbCapacity : Prop :=
  ∀ (s : State) (i : BitVec 7) (r : Ring) (bs : List Byte) (c : Byte), s.quiet →
    s.rings[i.toNat]? = some r → r.ok = true → 2 ≤ r.n → r.head = r.tail → bs.length = r.n →
    ∃ t, ringRun i r.producer r.consumer (bs.map RingOp.push ++ [.pull, .push c]) s =
      some (t, bs.take (r.n - 1) ++ [c], bs.take 1)

/-- R150: the placements of an interrupt-context operation inside one of MAIN, after `k` of its micro-steps. A
push that saw room, or comes after the pull, takes effect; one that saw a full ring has already returned false,
and the pull is still to come. Likewise a pull, with an empty ring and a push. Each context has its own result. -/
def Obligations.RbPreemption : Prop :=
  ∀ (s : State) (i : BitVec 7) (b : Byte) (r : Ring) (k : Nat), s.main = [] → s.irq = [] → k ≤ 2 →
    s.rings[i.toNat]? = some r → r.ok = true → 2 ≤ r.n →
    (∀ pull, pull = Turn.req .op [0x02, byteRing (.own i)] → s.sched = [.core (some k), pull] →
      r.producer = .main → r.consumer = .irq →
      (k = 0 ∨ r.full = false → ∃ r', exec (.rbPush (.own i) b) s =
          .next { s with
            rings := s.rings.set i.toNat r', ret := .bool true
            irqRets := s.irqRets ++ [.optByte r.contents.head?], sched := [] } ∧
        r'.ok = true ∧ r'.contents = r.contents.drop 1 ++ [b]) ∧
      (k ≠ 0 → r.full = true → exec (.rbPush (.own i) b) s =
        .next { s with ret := .bool false, sched := [pull] })) ∧
    (∀ push, push = Turn.req .op [0x01, byteRing (.own i), b] → s.sched = [.core (some k), push] →
      r.producer = .irq → r.consumer = .main →
      (k = 0 ∨ r.empty = false → ∃ r' v, exec (.rbPull (.own i)) s =
          .next { s with
            rings := s.rings.set i.toNat r', ret := .optByte (some v)
            irqRets := s.irqRets ++ [.bool (!r.full)], sched := [] } ∧
        r'.ok = true ∧ v :: r'.contents = r.contents ++ if r.full then [] else [b]) ∧
      (k ≠ 0 → r.empty = true → exec (.rbPull (.own i)) s =
        .next { s with ret := .optByte none, sched := [push] }))

/-! ## Synchronous Transfer Engine -/

/-- R162, R164, R89: on an idle bus the select line goes active, and the device starts a new frame; or it goes
inactive, and the device's command takes effect. A bus the device does not see changes the line alone. -/
def Obligations.SpiSelectLine : Prop :=
  ∀ (s : State) (b : BitVec 8) (x : Bus), s.quiet → s.buses[b.toNat]? = some x → x.rxq = [] →
    x.dma.active = false →
    (x.cs = false → s.wired b.toNat x = true → exec (.spiSelect b) s = .next { s with
      buses := s.buses.set b.toNat { x with cs := true }
      flash := { s.flash with frame := [] }
      trace := s.trace ++ [.select b.toNat], ret := .none }) ∧
    (x.cs = false → s.wired b.toNat x = false → exec (.spiSelect b) s = .next { s with
      buses := s.buses.set b.toNat { x with cs := true }, ret := .none }) ∧
    (∀ f, x.cs = true → s.wired b.toNat x = true → s.flash.commit s.cfg.flPage = .ok f →
      exec (.spiDeselect b) s = .next { s with
        buses := s.buses.set b.toNat { x with cs := false }
        flash := f
        trace := s.trace ++ [.deselect b.toNat], ret := .none }) ∧
    (x.cs = true → s.wired b.toNat x = false → exec (.spiDeselect b) s = .next { s with
      buses := s.buses.set b.toNat { x with cs := false }, ret := .none })

/-- R162, R164: while a DMA transfer is outstanding both operations spin, and the line stays as it is. -/
def Obligations.SpiSelectLineWaits : Prop :=
  ∀ (s : State) (b : BitVec 8) (x : Bus), s.quiet → s.sched = [] → s.buses[b.toNat]? = some x →
    (x.rxq ≠ [] ∨ x.dma.active = true) →
    exec (.spiSelect b) s =
      .next { s with main := [.spinIdle b.toNat, .selectBus b.toNat], ret := .none } ∧
    exec (.spiDeselect b) s =
      .next { s with main := [.spinIdle b.toNat, .deselectBus b.toNat], ret := .none }

/-- R170: `SPI.XFER` exchanges the elements of `tx` in order and stores the words received in `rx`; `tx` and
`rx` may be one buffer. -/
def Obligations.SpiXferResult : Prop :=
  ∀ (s : State) (b : BitVec 8) (tx rx : BitVec 16) (n : Nat) (x : Bus), s.quiet →
    s.buses[b.toNat]? = some x → x.dma.active = false → s.Replies b.toNat x n → 1 ≤ n → n ≤ 2 ^ 32 →
    bufOk s.cfg tx n = true → bufOk s.cfg rx n = true → s.owned (.user tx) = false →
    s.owned (.user rx) = false → s.memOk = true →
    ∃ t rs, rs.length = n ∧ exec (.spiXfer b tx rx n) s = .next t ∧
      (∀ i, i < n → t.bufRead (.user rx) i = rs.getD i 0) ∧ sameBufBut s t (.user rx) 0 n ∧
      t = { s with
        flash := { s.flash with
          frame := s.frameAfter b.toNat x (s.wordsOf x.cfg.width (.user tx) n) }
        buf := t.buf, draws := t.draws, ret := .none
        trace := s.trace ++ exchanges b.toNat (s.wordsOf x.cfg.width (.user tx) n) rs }

/-- R174: `SPI.TX` exchanges the elements of `tx` in order; the words received go to the scratch cell, which
holds the last. -/
def Obligations.SpiTxResult : Prop :=
  ∀ (s : State) (b : BitVec 8) (tx : BitVec 16) (n : Nat) (x : Bus), s.quiet →
    s.buses[b.toNat]? = some x → x.dma.active = false → s.Replies b.toNat x n → 1 ≤ n →
    bufOk s.cfg tx n = true → s.owned (.user tx) = false →
    ∃ d rs, rs.length = n ∧ exec (.spiTx b tx n) s = .next { s with
      buses := s.buses.set b.toNat { x with scratch := rs.getD (n - 1) 0 }
      flash := { s.flash with
        frame := s.frameAfter b.toNat x (s.wordsOf x.cfg.width (.user tx) n) }
      draws := d, ret := .none
      trace := s.trace ++ exchanges b.toNat (s.wordsOf x.cfg.width (.user tx) n) rs }

/-- R176: `SPI.RX` exchanges `n` fillers, whatever they are, and stores the words received in `rx`. -/
def Obligations.SpiRxResult : Prop :=
  ∀ (s : State) (b : BitVec 8) (rx : BitVec 16) (n : Nat) (x : Bus), s.quiet →
    s.buses[b.toNat]? = some x → x.dma.active = false → s.Replies b.toNat x n → 1 ≤ n →
    bufOk s.cfg rx n = true → s.owned (.user rx) = false → s.memOk = true →
    ∃ t sent rs, sent.length = n ∧ rs.length = n ∧ exec (.spiRx b rx n) s = .next t ∧
      (∀ i, i < n → t.bufRead (.user rx) i = rs.getD i 0) ∧ sameBufBut s t (.user rx) 0 n ∧
      t = { s with
        flash := { s.flash with frame := s.frameAfter b.toNat x sent }
        buf := t.buf, draws := t.draws, ret := .none
        trace := s.trace ++ exchanges b.toNat sent rs }

/-- R176's example, R92: after the header of a read, `SPI.RX` stores the bytes of the array. -/
def Obligations.SpiRxInReadWindow : Prop :=
  ∀ (s : State) (b : BitVec 8) (rx : BitVec 16) (n : Nat) (x : Bus) (a : BitVec 24), s.quiet →
    b.toNat = s.cfg.flashBus → s.buses[b.toNat]? = some x → x.cfg.hasCs = true → x.cs = true →
    x.dma.active = false → s.flash.busy = false → s.flash.frame = 0x03 :: be24 a →
    a.toNat + n ≤ s.flash.capacity → 1 ≤ n → bufOk s.cfg rx n = true →
    s.owned (.user rx) = false → s.memOk = true →
    ∃ t, exec (.spiRx b rx n) s = .next t ∧
      (∀ i, i < n → t.bufRead (.user rx) i = (s.flash.read (a.toNat + i)).setWidth 16) ∧
      sameBufBut s t (.user rx) 0 n ∧ t.flash.mem = s.flash.mem ∧ t.buses = s.buses

/-- R168, R162, R164, R194, R186, R71, R132, U1, U2: the situations in which the bus operations have no meaning, each
by its name; a buffer that the block owns is one (log 15), and so is a bus that does not exist. -/
def Obligations.BusRefusals : Prop :=
  ∀ (s : State) (b : BitVec 8) (tx rx : BitVec 16) (n : Nat) (w : Bool), s.quiet →
    exec (.spiXfer b tx rx 0) s = .refused .zeroLength ∧
    exec (.spiTx b tx 0) s = .refused .zeroLength ∧
    exec (.spiRx b rx 0) s = .refused .zeroLength ∧
    (1 ≤ n → (bufOk s.cfg tx n = false ∨ bufOk s.cfg rx n = false) →
      exec (.spiXfer b tx rx n) s = .refused .shortBuffer) ∧
    (1 ≤ n → bufOk s.cfg tx n = false → exec (.spiTx b tx n) s = .refused .shortBuffer) ∧
    (1 ≤ n → bufOk s.cfg rx n = false → exec (.spiRx b rx n) s = .refused .shortBuffer) ∧
    (∀ otx orx, exec (.dmaStart b otx orx 0 w) s = .refused .zeroLength ∧
      (s.cfg.dmaMax < n → exec (.dmaStart b otx orx n w) s = .refused .dmaCount)) ∧
    (1 ≤ n → n ≤ s.cfg.dmaMax → exec (.dmaStart b none none n w) s = .refused .noBuffer) ∧
    (∀ otx orx, 1 ≤ n → n ≤ s.cfg.dmaMax →
      ((otx = some tx ∧ bufOk s.cfg tx n = false) ∨ (orx = some rx ∧ bufOk s.cfg rx n = false)) →
      exec (.dmaStart b otx orx n w) s = .refused .shortBuffer) ∧
    (∀ x : Bus, s.buses[b.toNat]? = some x → x.dma.active = false →
      (x.rxq = [] → x.cs = true → exec (.spiSelect b) s = .refused .alreadySelected) ∧
      (x.rxq = [] → x.cs = false → exec (.spiDeselect b) s = .refused .notSelected) ∧
      (1 ≤ n → bufOk s.cfg tx n = true → bufOk s.cfg rx n = true →
        (s.owned (.user tx) = true ∨ s.owned (.user rx) = true) →
        exec (.spiXfer b tx rx n) s = .refused .bufferOwned) ∧
      (1 ≤ n → bufOk s.cfg tx n = true → s.owned (.user tx) = true →
        exec (.spiTx b tx n) s = .refused .bufferOwned) ∧
      (1 ≤ n → bufOk s.cfg rx n = true → s.owned (.user rx) = true →
        exec (.spiRx b rx n) s = .refused .bufferOwned) ∧
      (∀ otx orx, 1 ≤ n → n ≤ s.cfg.dmaMax → (otx.isSome || orx.isSome) = true →
        optBufOk s.cfg otx n = true → optBufOk s.cfg orx n = true →
        (x.rxq ≠ [] → exec (.dmaStart b otx orx n w) s = .refused .rxqNotEmpty) ∧
        (x.rxq = [] → ((otx = some tx ∧ s.owned (.user tx) = true) ∨
          (orx = some rx ∧ s.owned (.user rx) = true)) →
          exec (.dmaStart b otx orx n w) s = .refused .bufferOwned))) ∧
    (s.buses[b.toNat]? = none →
      (∀ i ∈ [.spiSelect b, .spiDeselect b, .dmaWait b, .evDmaRxDone b, .evDmaTxDone b, .envDmaRxMove b,
        .envDmaTxMove b], exec i s = .refused .noInstance) ∧
      (1 ≤ n → bufOk s.cfg tx n = true → exec (.spiTx b tx n) s = .refused .noInstance ∧
        (bufOk s.cfg rx n = true → exec (.spiXfer b tx rx n) s = .refused .noInstance)) ∧
      (1 ≤ n → bufOk s.cfg rx n = true → exec (.spiRx b rx n) s = .refused .noInstance) ∧
      (∀ otx orx, 1 ≤ n → n ≤ s.cfg.dmaMax → (otx.isSome || orx.isSome) = true →
        optBufOk s.cfg otx n = true → optBufOk s.cfg orx n = true →
        exec (.dmaStart b otx orx n w) s = .refused .noInstance))

/-! ## DMA Transfer Engine -/

/-- R192, R196: `DMA.START` stages both descriptors and both counts, enables both channels and marks the bus.
Without `blocking` it returns; with it, it spins, here with no turn left. -/
def Obligations.DmaStartResult : Prop :=
  ∀ (s : State) (b : BitVec 8) (tx rx : Option (BitVec 16)) (n : Nat) (x : Bus), s.quiet →
    s.buses[b.toNat]? = some x → x.dma.active = false → x.rxq = [] → 1 ≤ n → n ≤ s.cfg.dmaMax →
    (tx.isSome || rx.isSome) = true → optBufOk s.cfg tx n = true → optBufOk s.cfg rx n = true →
    (∀ q, tx = some q ∨ rx = some q → s.owned (.user q) = false) →
    ∃ y : Bus, y = { x with dma := { x.dma with
        txDesc := match tx with
          | some q => { src := .buf (.user q) 0, dst := .dr, count := n, inc := .incSrc }
          | none => { src := .scratch, dst := .dr, count := n, inc := .incNone }
        rxDesc := match rx with
          | some q => { src := .dr, dst := .buf (.user q) 0, count := n, inc := .incDst }
          | none => { src := .dr, dst := .scratch, count := n, inc := .incNone }
        txLeft := n, rxLeft := n, rxEn := true, txEn := true, active := true } } ∧
      exec (.dmaStart b tx rx n false) s =
        .next { s with buses := s.buses.set b.toNat y, ret := .none } ∧
      (s.sched = [] → exec (.dmaStart b tx rx n true) s =
        .next { s with buses := s.buses.set b.toNat y, ret := .none, main := [.spinDma b.toNat] })

/-- R196, R204 to R207, R214: a blocking `DMA.START`, with the steps of the channels and the two handlers in
the schedule, returns with every element moved and the bus drained; every other field is as it was. -/
def Obligations.DmaBlockingTransfer : Prop :=
  ∀ (s : State) (b : BitVec 8) (tx rx : Option (BitVec 16)) (n : Nat) (x : Bus), s.main = [] → s.irq = [] →
    s.sched = dmaTurns b n → s.buses[b.toNat]? = some x → x.dma.active = false → x.rxq = [] →
    s.Replies b.toNat x n → 1 ≤ n → n ≤ 2 ^ 32 → n ≤ s.cfg.dmaMax → 1 ≤ s.cfg.busFifoDepth →
    (tx.isSome || rx.isSome) = true → optBufOk s.cfg tx n = true → optBufOk s.cfg rx n = true →
    (∀ q, tx = some q ∨ rx = some q → s.owned (.user q) = false) → s.memOk = true →
    ∃ t sent rs, sent.length = n ∧ rs.length = n ∧ exec (.dmaStart b tx rx n true) s = .next t ∧
      (∀ q, tx = some q → sent = s.wordsOf x.cfg.width (.user q) n) ∧
      (∀ q, rx = some q → (∀ i, i < n → t.bufRead (.user q) i = rs.getD i 0) ∧
        sameBufBut s t (.user q) 0 n) ∧
      (rx = none → t.buf = s.buf) ∧
      t = { s with
        buses := s.buses.set b.toNat { x with
          scratch := if rx = none then rs.getD (n - 1) 0 else x.scratch
          dma := {
            active := false, rxEn := false, txEn := false, rxLeft := 0, txLeft := 0
            rxIrq := false, txIrq := false
            txDesc := match tx with
              | some q => { src := .buf (.user q) 0, dst := .dr, count := n, inc := .incSrc }
              | none => { src := .scratch, dst := .dr, count := n, inc := .incNone }
            rxDesc := match rx with
              | some q => { src := .dr, dst := .buf (.user q) 0, count := n, inc := .incDst }
              | none => { src := .dr, dst := .scratch, count := n, inc := .incNone } } }
        flash := { s.flash with frame := s.frameAfter b.toNat x sent }
        buf := t.buf, draws := t.draws, ret := .none, sched := []
        trace := s.trace ++ exchanges b.toNat sent rs }

/-- R202, R251: `DMA.WAIT` and `UART.DMA_WAIT` return at once when no request is outstanding, and otherwise
spin, here with no turn left. -/
def Obligations.WaitOperations : Prop :=
  ∀ (s : State), s.quiet →
    (∀ (b : BitVec 8) (x : Bus), s.buses[b.toNat]? = some x →
      (x.dma.active = false → exec (.dmaWait b) s = .next { s with ret := .none }) ∧
      (x.dma.active = true → s.sched = [] →
        exec (.dmaWait b) s = .next { s with main := [.spinDma b.toNat], ret := .none })) ∧
    (∀ (u : BitVec 8) (x : Uart), s.uarts[u.toNat]? = some x →
      (x.mode = .interruptBound ∨ x.mode = .dmaTransmitting) →
      (x.dmaBusy = false → exec (.uartDmaWait u) s = .next { s with ret := .none }) ∧
      (x.dmaBusy = true → s.sched = [] →
        exec (.uartDmaWait u) s = .next { s with main := [.spinUart u.toNat], ret := .none }))

/-- R205: an enabled `CH_TX` exchanges element `count - tx_left` of its buffer, or a filler, and the word
received waits in `rxq`. -/
def Obligations.DmaTxMoveResult : Prop :=
  ∀ (s : State) (b : BitVec 8) (x : Bus), s.buses[b.toNat]? = some x → x.dma.txEn = true →
    0 < x.dma.txLeft → x.rxq.length < s.cfg.busFifoDepth → s.Replies b.toNat x 1 →
    ∃ w r d, (∀ q, x.dma.txDesc.src = .buf q 0 → x.dma.txDesc.inc = .incSrc →
        w = busClip x.cfg.width (s.bufRead q (x.dma.txDesc.count - x.dma.txLeft))) ∧
      exec (.envDmaTxMove b) s = .next { s with
        buses := s.buses.set b.toNat { x with
          rxq := x.rxq ++ [r]
          dma := { x.dma with
            txLeft := x.dma.txLeft - 1
            txIrq := x.dma.txIrq || decide (x.dma.txLeft = 1) } }
        flash := { s.flash with frame := s.frameAfter b.toNat x [w] }
        draws := d
        trace := s.trace ++ [.exchange b.toNat w r] }

/-- R204: an enabled `CH_RX` takes the oldest word of `rxq` to element `count - rx_left` of its buffer, or to
the scratch cell. -/
def Obligations.DmaRxMoveResult : Prop :=
  ∀ (s : State) (b : BitVec 8) (x : Bus) (r : Word) (rest : List Word), s.buses[b.toNat]? = some x →
    x.dma.rxEn = true → 0 < x.dma.rxLeft → x.rxq = r :: rest → s.memOk = true →
    ∃ y : Bus, y = { x with
        rxq := rest
        dma := { x.dma with
          rxLeft := x.dma.rxLeft - 1
          rxIrq := x.dma.rxIrq || decide (x.dma.rxLeft = 1) } } ∧
      (x.dma.rxDesc.dst = .scratch → exec (.envDmaRxMove b) s =
        .next { s with buses := s.buses.set b.toNat { y with scratch := r } }) ∧
      (∀ q, x.dma.rxDesc.dst = .buf q 0 → x.dma.rxDesc.inc = .incDst →
        ∃ t, exec (.envDmaRxMove b) s = .next t ∧
          t = { s with buses := s.buses.set b.toNat y, buf := t.buf } ∧
          t.bufRead q (x.dma.rxDesc.count - x.dma.rxLeft) = r ∧
          sameBufBut s t q (x.dma.rxDesc.count - x.dma.rxLeft) 1)

/-- R206, R207: a completion handler disables its channel and clears its flag, and the one that finds the
other channel disabled clears `active`. In either order both leave the same. -/
def Obligations.DmaDoneResult : Prop :=
  ∀ (s : State) (b : BitVec 8) (x : Bus), s.irq = [] → s.sliced = false → s.buses[b.toNat]? = some x →
    (x.dma.rxIrq = true → exec (.evDmaRxDone b) s = .next { s with
      buses := s.buses.set b.toNat { x with dma := { x.dma with
        rxIrq := false, rxEn := false
        active := if x.dma.txEn then x.dma.active else false } } }) ∧
    (x.dma.txIrq = true → exec (.evDmaTxDone b) s = .next { s with
      buses := s.buses.set b.toNat { x with dma := { x.dma with
        txIrq := false, txEn := false
        active := if x.dma.rxEn then x.dma.active else false } } }) ∧
    (x.dma.rxIrq = true → x.dma.txIrq = true →
      andThen (exec (.evDmaRxDone b) s) (exec (.evDmaTxDone b)) =
        andThen (exec (.evDmaTxDone b) s) (exec (.evDmaRxDone b)))

/-! ## Serial Transport Driver -/

/-- R222, R224: binding, from `Idle`, to polling or to interrupts with a receive buffer. -/
def Obligations.UartBindResult : Prop :=
  ∀ (s : State) (u : BitVec 8) (buf : BitVec 16) (cap : Nat) (x : Uart), s.quiet →
    s.uarts[u.toNat]? = some x → x.mode = .idle →
    exec (.uartBindPoll u) s = .next { s with
      uarts := s.uarts.set u.toNat { x with
        ieRxLevel := false, ieRxTimeout := false, ieLine := false
        ieTxLevel := false, ieDma := false, ieEot := false
        mode := .pollingBound }
      ret := .none } ∧
    (bufOk s.cfg buf cap = true → s.owned (.user buf) = false →
      exec (.uartBindIrq u buf cap) s = .next { s with
      uarts := s.uarts.set u.toNat { x with
        rxBuf := .user buf, rxCap := cap, rxCount := 0
        ieRxLevel := true, ieRxTimeout := true, ieLine := true
        ieTxLevel := false, ieDma := false, ieEot := false
        mode := .interruptBound }
      ret := .none })

/-- R228: a poll read takes the oldest byte of the receive FIFO, if there is one. -/
def Obligations.UartPollReadResult : Prop :=
  ∀ (s : State) (u : BitVec 8) (x : Uart), s.quiet → s.uarts[u.toNat]? = some x → x.mode = .pollingBound →
    exec (.uartPollRead u) s = .next (match x.rxfifo with
      | [] => { s with ret := .optByte none }
      | v :: rest => { s with
        uarts := s.uarts.set u.toNat { x with rxfifo := rest }
        ret := .optByte (some v) })

/-- R240, R140, R388: a byte write goes to the FIFO when it has room and the transmit interrupt is off, else to the
ring with the interrupt then enabled, and fails when the ring is full. The ring's one producer performs it: MAIN,
or a callback, also while MAIN is at work (log 25). -/
def Obligations.UartWriteByteResult : Prop :=
  ∀ (s : State) (u : BitVec 8) (b : Byte) (x : Uart), s.irq = [] → s.sliced = false →
    s.uarts[u.toNat]? = some x → (x.txring.producer = .main → s.main = []) → x.mode = .interruptBound →
    exec (.uartWriteByte u b) s = .next
      (if x.ieTxLevel = false ∧ x.txfifo.length < s.cfg.uartFifoDepth then
        ({ s with uarts := s.uarts.set u.toNat { x with txfifo := x.txfifo ++ [b] } } : State).give
          x.txring.producer .ok
      else if (x.txring.head + 1) % x.txring.n = x.txring.tail then
        s.give x.txring.producer (.err .backpressure)
      else ({ s with
        uarts := s.uarts.set u.toNat { x with
          txring := { x.txring with
            storage := x.txring.storage.set x.txring.head b
            head := (x.txring.head + 1) % x.txring.n }
          ieTxLevel := true } } : State).give x.txring.producer .ok)

/-- R250: a DMA transmit sets its progress, starts the first chunk and returns; while another is outstanding
it spins, here with no turn left. -/
def Obligations.UartDmaTxResult : Prop :=
  ∀ (s : State) (u : BitVec 8) (src : BitVec 16) (len : Nat) (x : Uart), s.quiet →
    s.uarts[u.toNat]? = some x → 1 ≤ len → bufOk s.cfg src len = true →
    (x.mode = .interruptBound → x.dmaBusy = false → x.txring.head = x.txring.tail → x.ieTxLevel = false →
      s.owned (.user src) = false →
      exec (.uartDmaTx u src len) s = .next { s with
        uarts := s.uarts.set u.toNat { x with
          dmaSrc := .user src, dmaLen := len, dmaCursor := 0, dmaRemaining := len
          dmaChunk := min len s.cfg.dmaMax, dmaPhase := .chunk, dmaBusy := true
          mode := .dmaTransmitting
          utxIdx := 0, utxLeft := min len s.cfg.dmaMax, ieDma := true, utxEn := true }
        ret := .none }) ∧
    ((x.mode = .interruptBound ∨ x.mode = .dmaTransmitting) → x.dmaBusy = true → s.sched = [] →
      exec (.uartDmaTx u src len) s = .next { s with
        main := [.spinUart u.toNat, .dmaTxSet u.toNat (.user src) len, .dmaTxGo u.toNat]
        ret := .none })

/-- R226, R250, R270: an operation in a state that does not admit it, or a DMA transmit with bytes still
queued, is refused; so is a buffer that the block owns (R71, U1, log 15), or that is absent or too short (log 30); so
is a ring operation presented on the driver's own ring (R156, R388, log 11); and so is an instance that does not exist
(R132, U2). -/
def Obligations.UartAdmission : Prop :=
  ∀ (s : State) (u : BitVec 8) (v : BitVec 7) (b : Byte) (buf : BitVec 16) (n : Nat) (e : Option LineErr), s.quiet →
    (∀ x : Uart, s.uarts[u.toNat]? = some x →
      (v.toNat = u.toNat → exec (.rbPush (.tx v) b) s = .refused .ringDiscipline ∧
        exec (.rbPull (.tx v)) s = .refused .ringDiscipline) ∧
      (x.mode ≠ .idle → exec (.uartBindPoll u) s = .refused .uartState ∧
        exec (.uartBindIrq u buf n) s = .refused .uartState) ∧
      (x.mode = .idle → bufOk s.cfg buf n = false → exec (.uartBindIrq u buf n) s = .refused .shortBuffer) ∧
      (x.mode = .idle → bufOk s.cfg buf n = true → s.owned (.user buf) = true →
        exec (.uartBindIrq u buf n) s = .refused .bufferOwned) ∧
      (x.mode ≠ .pollingBound → exec (.uartPollRead u) s = .refused .uartState) ∧
      (x.mode ≠ .interruptBound → exec (.uartWriteByte u b) s = .refused .uartState) ∧
      (x.mode = .idle ∨ x.mode = .pollingBound → exec (.uartDmaTx u buf n) s = .refused .uartState ∧
        exec (.uartDmaWait u) s = .refused .uartState) ∧
      (x.mode = .interruptBound ∨ x.mode = .dmaTransmitting →
        exec (.uartDmaTx u buf 0) s = .refused .zeroLength ∧
        (1 ≤ n → bufOk s.cfg buf n = false → exec (.uartDmaTx u buf n) s = .refused .shortBuffer)) ∧
      (x.mode = .interruptBound → 1 ≤ n → bufOk s.cfg buf n = true → x.dmaBusy = false →
        (x.txring.head ≠ x.txring.tail ∨ x.ieTxLevel = true) →
        exec (.uartDmaTx u buf n) s = .refused .txPathBusy) ∧
      (x.mode = .interruptBound → 1 ≤ n → bufOk s.cfg buf n = true → x.dmaBusy = false →
        x.txring.head = x.txring.tail → x.ieTxLevel = false → s.owned (.user buf) = true →
        exec (.uartDmaTx u buf n) s = .refused .bufferOwned)) ∧
    (s.uarts[u.toNat]? = none →
      ∀ i ∈ [.uartBindPoll u, .uartBindIrq u buf n, .uartPollRead u, .uartWriteByte u b, .uartDmaTx u buf n,
        .uartDmaWait u, .evUartRxLevel u, .evUartRxTimeout u, .evUartTxLevel u, .evUartLineError u,
        .evUartDmaDone u, .evUartEot u, .envUartDmaMove u, .envLineByte u b e, .envLineSilence u,
        .envTxShift u], exec i s = .refused .noInstance) ∧
    (∀ r : RingRef, s.ring? (ringId r) = none →
      exec (.rbPush r b) s = .refused .noInstance ∧ exec (.rbPull r) s = .refused .noInstance)

/-- R230, R232, R238: the fill-level handler takes `UART_RX_TRIG - 2` bytes; those that fit are stored in
order, the others are dropped and reported once. -/
def Obligations.UartRxLevelResult : Prop :=
  ∀ (s : State) (u : BitVec 8) (x : Uart) (m k : Nat), s.irq = [] → s.sliced = false →
    s.uarts[u.toNat]? = some x → x.ieRxLevel = true → s.cfg.uartRxTrig ≤ x.rxfifo.length →
    m = s.cfg.uartRxTrig - 2 → k = min m (x.rxCap - x.rxCount) → s.memOk = true →
    ∃ t, exec (.evUartRxLevel u) s = .next t ∧
      (∀ i, i < k → t.bufRead x.rxBuf (x.rxCount + i) = (x.rxfifo.getD i 0).setWidth 16) ∧
      sameBufBut s t x.rxBuf x.rxCount k ∧
      t = { s with
        uarts := s.uarts.set u.toNat { x with rxfifo := x.rxfifo.drop m, rxCount := x.rxCount + k }
        buf := t.buf
        trace := s.trace ++ if k < m then [.call x.cb.error u.toNat (.error .overflow)] else [] }

/-- R234, R238: the timeout handler flushes the FIFO, reports dropped bytes once, invokes `frame_received` once
with the count, and re-arms the buffer. -/
def Obligations.UartRxTimeoutResult : Prop :=
  ∀ (s : State) (u : BitVec 8) (x : Uart) (m k : Nat), s.irq = [] → s.sliced = false →
    s.uarts[u.toNat]? = some x → x.ieRxTimeout = true → x.rxTimeoutFlag = true →
    m = x.rxfifo.length → k = min m (x.rxCap - x.rxCount) → s.memOk = true →
    ∃ t, exec (.evUartRxTimeout u) s = .next t ∧
      (∀ i, i < k → t.bufRead x.rxBuf (x.rxCount + i) = (x.rxfifo.getD i 0).setWidth 16) ∧
      sameBufBut s t x.rxBuf x.rxCount k ∧
      t = { s with
        uarts := s.uarts.set u.toNat { x with rxTimeoutFlag := false, rxfifo := [], rxCount := 0 }
        buf := t.buf
        trace := s.trace ++ (if k < m then [.call x.cb.error u.toNat (.error .overflow)] else []) ++
          [.call x.cb.frameReceived u.toNat (.frameReceived x.rxBuf (x.rxCount + k))] }

/-- R244: the transmit handler moves bytes from the ring to the FIFO, oldest first, until the FIFO is full or
the ring is empty; only in the second case it disables itself. -/
def Obligations.UartTxLevelResult : Prop :=
  ∀ (s : State) (u : BitVec 8) (x : Uart) (k : Nat), s.irq = [] → s.sliced = false →
    s.uarts[u.toNat]? = some x → x.ieTxLevel = true → x.txfifo.length ≤ s.cfg.uartTxTrig →
    x.txfifo.length ≤ s.cfg.uartFifoDepth → x.txring.ok = true →
    k = min x.txring.count (s.cfg.uartFifoDepth - x.txfifo.length) →
    exec (.evUartTxLevel u) s = .next { s with
      uarts := s.uarts.set u.toNat { x with
        txring := { x.txring with tail := (x.txring.tail + k) % x.txring.n }
        txfifo := x.txfifo ++ x.txring.contents.take k
        ieTxLevel := decide (s.cfg.uartFifoDepth ≤ x.txfifo.length + x.txring.count) } }

/-- R260: the line handler reports each latched error in the fixed order, then an overrun, and clears both. -/
def Obligations.UartLineErrorResult : Prop :=
  ∀ (s : State) (u : BitVec 8) (x : Uart), s.irq = [] → s.sliced = false → s.uarts[u.toNat]? = some x →
    x.ieLine = true →
    (x.lineErr.framing = true ∨ x.lineErr.parity = true ∨ x.lineErr.brk = true ∨ x.fifoOverrun = true) →
    exec (.evUartLineError u) s = .next { s with
      uarts := s.uarts.set u.toNat { x with
        lineErr := { framing := false, parity := false, brk := false }, fifoOverrun := false }
      trace := s.trace ++
        (if x.lineErr.framing then [.call x.cb.error u.toNat (.error (.line .framing))] else []) ++
        (if x.lineErr.parity then [.call x.cb.error u.toNat (.error (.line .parity))] else []) ++
        (if x.lineErr.brk then [.call x.cb.error u.toNat (.error (.line .brk))] else []) ++
        (if x.fifoOverrun then [.call x.cb.error u.toNat (.error .overflow)] else []) }

/-- R254, R256: the chunk's completion adds it to the cumulative count and starts the next at that offset, or
begins the drain; end of transmission returns the instance to `InterruptBound` and signals done. -/
def Obligations.UartDmaHandlers : Prop :=
  ∀ (s : State) (u : BitVec 8) (x : Uart), s.irq = [] → s.sliced = false → s.uarts[u.toNat]? = some x →
    (x.ieDma = true → x.dmaIrq = true → exec (.evUartDmaDone u) s = .next { s with
      uarts := s.uarts.set u.toNat
        (if 0 < x.dmaRemaining - x.dmaChunk then { x with
          dmaIrq := false
          dmaCursor := x.dmaCursor + x.dmaChunk, dmaRemaining := x.dmaRemaining - x.dmaChunk
          dmaChunk := min (x.dmaRemaining - x.dmaChunk) s.cfg.dmaMax
          utxIdx := x.dmaCursor + x.dmaChunk
          utxLeft := min (x.dmaRemaining - x.dmaChunk) s.cfg.dmaMax, utxEn := true }
        else { x with
          dmaIrq := false, utxEn := false
          dmaCursor := x.dmaCursor + x.dmaChunk, dmaRemaining := x.dmaRemaining - x.dmaChunk
          dmaChunk := 0, dmaPhase := .drain, ieDma := false, ieEot := true }) }) ∧
    (x.ieEot = true → x.txfifo = [] → x.txShifting = false → exec (.evUartEot u) s = .next { s with
      uarts := s.uarts.set u.toNat { x with
        ieEot := false, dmaPhase := .none, mode := .interruptBound, dmaBusy := false }
      trace := s.trace ++ [.call x.cb.txDone u.toNat .txDone] })

/-- R252: an enabled `CH_UTX` appends the next byte of the source to the FIFO. -/
def Obligations.UartDmaMoveResult : Prop :=
  ∀ (s : State) (u : BitVec 8) (x : Uart), s.uarts[u.toNat]? = some x → x.utxEn = true → 0 < x.utxLeft →
    x.txfifo.length < s.cfg.uartFifoDepth →
    exec (.envUartDmaMove u) s = .next { s with
      uarts := s.uarts.set u.toNat { x with
        txfifo := x.txfifo ++ [(s.bufRead x.dmaSrc x.utxIdx).setWidth 8]
        utxIdx := x.utxIdx + 1
        utxLeft := x.utxLeft - 1
        dmaIrq := x.dmaIrq || decide (x.utxLeft = 1) } }

/-- R262, R263: a byte arrives, with or without a defect, and is lost if the FIFO is full, and arms the gap; a
silence after it disarms the gap, and sets the timeout flag if bytes are queued. -/
def Obligations.UartLineEvents : Prop :=
  ∀ (s : State) (u : BitVec 8) (x : Uart) (b : Byte) (e : Option LineErr), s.uarts[u.toNat]? = some x →
    exec (.envLineByte u b e) s = .next { s with
      uarts := s.uarts.set u.toNat { x with
        rxfifo := if x.rxfifo.length < s.cfg.uartFifoDepth then x.rxfifo ++ [b] else x.rxfifo
        fifoOverrun := if x.rxfifo.length < s.cfg.uartFifoDepth then x.fifoOverrun else true
        lineErr :=
          { framing := x.lineErr.framing || decide (e = some .framing)
            parity := x.lineErr.parity || decide (e = some .parity)
            brk := x.lineErr.brk || decide (e = some .brk) }
        gapArmed := true } } ∧
    (x.gapArmed = true → exec (.envLineSilence u) s = .next { s with
      uarts := s.uarts.set u.toNat { x with
        gapArmed := false
        rxTimeoutFlag := if x.rxfifo = [] then x.rxTimeoutFlag else true } })

/-- R266: the stop bit of a byte in the shift register goes; or the oldest byte of the FIFO enters it and is
recorded as leaving on the line. -/
def Obligations.UartTxShiftResult : Prop :=
  ∀ (s : State) (u : BitVec 8) (x : Uart), s.uarts[u.toNat]? = some x →
    (x.txShifting = true → exec (.envTxShift u) s = .next { s with
      uarts := s.uarts.set u.toNat { x with txShifting := false } }) ∧
    (∀ v rest, x.txShifting = false → x.txfifo = v :: rest → exec (.envTxShift u) s = .next { s with
      uarts := s.uarts.set u.toNat { x with txfifo := rest, txShifting := true }
      trace := s.trace ++ [.lineOut u.toNat v] })

/-- R258, R250 to R256: a DMA transmit goes out in `ceil(len / DMA_MAX)` chunks of the lengths R258 gives: after the
turns of the first chunks, whatever their number, their bytes have left on the line, the progress fields stand at
the next chunk, and it is under way. All bytes leave once each and in order, and `tx_done` comes once, after the
last. -/
def Obligations.UartChunkLaw : Prop :=
  ∀ (s : State) (u : BitVec 8) (src : BitVec 16) (len : Nat) (x : Uart), s.main = [] → s.irq = [] →
    s.sched = uartDmaTurns u (chunkLengths len s.cfg.dmaMax) → s.uarts[u.toNat]? = some x →
    x.mode = .interruptBound → x.dmaBusy = false → x.txring.head = x.txring.tail → x.ieTxLevel = false →
    x.txfifo = [] → x.txShifting = false → 1 ≤ s.cfg.uartFifoDepth → 1 ≤ s.cfg.dmaMax → 1 ≤ len →
    bufOk s.cfg src len = true → s.owned (.user src) = false →
    ∃ t u', exec (.uartDmaTx u src len) s = .next t ∧ t.sched = s.sched ∧
      (∀ cs ds, chunkLengths len s.cfg.dmaMax = cs ++ ds →
        ∃ v y, Sys2Proof.core.run ((uartDmaTurns u cs).length - 1) t = .next v ∧
          v.uarts[u.toNat]? = some y ∧ y.dmaCursor = cs.sum ∧ y.dmaRemaining = ds.sum ∧
          y.dmaChunk = ds.headD 0 ∧ y.utxLeft = ds.headD 0 ∧ y.dmaBusy = true ∧
          y.dmaPhase = (if ds = [] then .drain else .chunk) ∧ y.utxEn = decide (ds ≠ []) ∧
          v.trace = s.trace ++ ((s.bytesOf (.user src) len).take cs.sum).map (Event.lineOut u.toNat)) ∧
      Sys2Proof.core.run s.sched.length t = .next u' ∧
      u'.trace = s.trace ++ (s.bytesOf (.user src) len).map (Event.lineOut u.toNat) ++
        [.call x.cb.txDone u.toNat .txDone] ∧
      u' = { s with
        uarts := s.uarts.set u.toNat { x with
          dmaSrc := .user src, dmaLen := len, dmaCursor := len, dmaRemaining := 0, dmaChunk := 0
          dmaPhase := .none, ieDma := false, ieEot := false, dmaIrq := false
          utxEn := false, utxLeft := 0, utxIdx := len }
        ret := .none, trace := u'.trace, sched := [] }

/-- R236: a burst with no silence inside it that fits the receive buffer arrives as one frame, over however many
fill-level interrupts: one callback, whose buffer holds the bytes in line order. -/
def Obligations.UartFrameLaw : Prop :=
  ∀ (s : State) (u : BitVec 8) (bs : List Byte) (x : Uart), s.main = [] → s.irq = [] →
    s.sched = receiveTurns u bs → s.uarts[u.toNat]? = some x → x.ieRxLevel = true → x.ieRxTimeout = true →
    x.rxfifo = [] → x.rxCount = 0 → bs ≠ [] → bs.length ≤ x.rxCap →
    3 ≤ s.cfg.uartRxTrig → s.cfg.uartRxTrig ≤ s.cfg.uartFifoDepth → s.memOk = true →
    ∃ t, Sys2Proof.core.run s.sched.length s = .next t ∧
      t.trace = s.trace ++
        [.call x.cb.frameReceived u.toNat (.frameReceived x.rxBuf bs.length)] ∧
      (∀ i, i < bs.length → t.bufRead x.rxBuf i = (bs.getD i 0).setWidth 16) ∧
      sameBufBut s t x.rxBuf 0 bs.length ∧
      t = { s with
        uarts := s.uarts.set u.toNat { x with rxTimeoutFlag := false, gapArmed := false }
        buf := t.buf, trace := t.trace, sched := [] }

/-! ## NOR Flash Driver

The preconditions of R281 (the bus is the driver's, 8 bits wide, with a select line, free) are
`State.FlashBusFree`. -/

/-- R288, R285, R91, R90: a write enable is one window that sets the latch of a ready device; a status read is
one window whose byte has the busy bit, latched in `fl.status` and returned. -/
def Obligations.FlSingleFrames : Prop :=
  ∀ (s : State) (x : Bus), s.quiet → s.FlashBusFree x →
    (∃ t, exec .flWriteEnable s = .next t ∧ DriverFrame s t x ∧ newOpcodes s t = [0x06] ∧
      t.flash = { s.flash with frame := [], wel := if s.flash.busy then s.flash.wel else true } ∧
      t.fl = s.fl ∧ t.buf = s.buf ∧ t.ret = .none ∧ t.sched = s.sched) ∧
    (∃ t v, exec .flReadStatus s = .next t ∧ DriverFrame s t x ∧ newOpcodes s t = [0x05] ∧
      t.flash = { s.flash with frame := [] } ∧ t.fl = { s.fl with status := v, st := t.fl.st } ∧
      t.buf = s.buf ∧ t.ret = .status v ∧ v.getLsbD 0 = s.flash.busy ∧ t.sched = s.sched)

/-- R286, R352: with a ready device `FL.WAIT_READY` returns after one poll; with a busy one it polls on, and
returns after the poll that follows the end of the device's work. `BD.SYNC` is the same, returning `Ok`. -/
def Obligations.FlWaitReadyResult : Prop :=
  ∀ (s : State) (x : Bus), s.quiet → s.FlashBusFree x →
    (s.flash.busy = false → ∃ t, exec .flWaitReady s = .next t ∧ DriverFrame s t x ∧
      newOpcodes s t = [0x05] ∧ t.flash = { s.flash with frame := [] } ∧
      t.fl = { s.fl with phase := .idle, op := .none, status := t.fl.status, st := t.fl.st } ∧
      t.buf = s.buf ∧ t.ret = .none ∧ t.main = [] ∧ t.sched = s.sched) ∧
    (s.flash.busy = false → s.fl.desc.valid = true → ∃ t, exec .bdSync s = .next t ∧ DriverFrame s t x ∧
      newOpcodes s t = [0x05] ∧ t.flash = { s.flash with frame := [] } ∧
      t.fl = { s.fl with phase := .idle, op := .none, status := t.fl.status, st := t.fl.st } ∧
      t.buf = s.buf ∧ t.ret = .ok ∧ t.main = [] ∧ t.sched = s.sched) ∧
    (s.flash.busy = true → s.sched = [] → ∃ t, exec .flWaitReady s = .next t ∧ t.main ≠ [] ∧
      (∀ o ∈ newOpcodes s t, o = 0x05) ∧ t.flash = { s.flash with frame := [] } ∧ t.buf = s.buf) ∧
    (s.flash.busy = true → s.sched = [flashDoneTurn] → ∃ t, exec .flWaitReady s = .next t ∧
      DriverFrame s t x ∧ newOpcodes s t = [0x05, 0x05] ∧ t.flash = { s.flash.done with frame := [] } ∧
      t.buf = s.buf ∧ t.ret = .none ∧ t.main = [] ∧ t.sched = [])

/-- R306, R94: identification stores and returns the device's two bytes. Where its payload takes the DMA route and
is too long for it, it is refused (R290, U8). -/
def Obligations.FlIdentifyResult : Prop :=
  ∀ (s : State) (x : Bus), s.quiet → s.FlashBusFree x → s.flash.busy = false →
    (dmaRoute s.cfg 2 = true → s.cfg.dmaMax < 2 → exec .flIdentify s = .refused .dmaCount) ∧
    (dmaRoute s.cfg 2 = false → s.memOk = true →
      ∃ t, exec .flIdentify s = .next t ∧ DriverFrame s t x ∧ newOpcodes s t = [0x90] ∧
      t.flash = { s.flash with frame := [] } ∧
      t.fl = { s.fl with
        phase := .idle, op := .none
        desc := { s.fl.desc with vendorId := s.flash.vendor, deviceId := s.flash.device } } ∧
      sameBufBut s t .loc 0 2 ∧ t.ret = .ident s.flash.vendor s.flash.device ∧ t.sched = s.sched)

/-- R308, R310, R312, R362, R374: discovery reads the header, then, if its signature and identifier are right,
the table; it fails on the first test that fails and leaves the descriptor as it was, and on success stores
the capacity R314 gives. A payload that is too long for its route is refused when it is reached (R290, U8), and so is
a density R314 gives no meaning (U11). -/
def Obligations.FlDiscoverResult : Prop :=
  ∀ (s : State) (x : Bus) (h tb : List Byte), s.quiet → s.FlashBusFree x → s.flash.busy = false →
    s.memOk = true → h = s.flash.sfdpHeader s.cfg.sfdp → tb = s.flash.sfdpTable s.cfg.sfdp →
    1 ≤ s.cfg.sfdp.hdrLen →
    (dmaRoute s.cfg s.cfg.sfdp.hdrLen = true → s.cfg.dmaMax < s.cfg.sfdp.hdrLen →
      exec .flDiscover s = .refused .dmaCount) ∧
    (dmaRoute s.cfg s.cfg.sfdp.hdrLen = false →
      s.cfg.sfdp.sigOff.toNat + s.cfg.sfdp.hdrLen ≤ s.flash.sfdp.length →
      (headerOk s.cfg.sfdp h = false → ∃ t, exec .flDiscover s = .next t ∧ DriverFrame s t x ∧
        newOpcodes s t = [0x5A] ∧ t.ret = .err .discovery ∧ t.flash = { s.flash with frame := [] } ∧
        t.fl = { s.fl with phase := .idle, op := .none } ∧
        sameBufBut s t .loc 0 s.cfg.sfdp.hdrLen ∧ t.sched = s.sched) ∧
      (headerOk s.cfg.sfdp h = true → dmaRoute s.cfg s.cfg.sfdp.tblLen = true →
        s.cfg.dmaMax < s.cfg.sfdp.tblLen → exec .flDiscover s = .refused .dmaCount) ∧
      (headerOk s.cfg.sfdp h = true → 1 ≤ s.cfg.sfdp.tblLen → dmaRoute s.cfg s.cfg.sfdp.tblLen = false →
        (le24 h s.cfg.sfdp.ptrOff).toNat + s.cfg.sfdp.tblLen ≤ s.flash.sfdp.length →
        (tableOk s.cfg.sfdp tb = false → ∃ t, exec .flDiscover s = .next t ∧ DriverFrame s t x ∧
          newOpcodes s t = [0x5A, 0x5A] ∧ t.ret = .err .unsupportedGeometry ∧
          t.flash = { s.flash with frame := [] } ∧
          t.fl = { s.fl with phase := .idle, op := .none } ∧
          sameBufBut s t .loc 0 (max s.cfg.sfdp.hdrLen s.cfg.sfdp.tblLen) ∧ t.sched = s.sched) ∧
        (tableOk s.cfg.sfdp tb = true → densityDecode (le32 tb s.cfg.sfdp.w2Off) = none →
          exec .flDiscover s = .refused .density) ∧
        (∀ k, tableOk s.cfg.sfdp tb = true → densityDecode (le32 tb s.cfg.sfdp.w2Off) = some k →
          ∃ t, exec .flDiscover s = .next t ∧ DriverFrame s t x ∧ newOpcodes s t = [0x5A, 0x5A] ∧ t.ret = .ok ∧
          t.flash = { s.flash with frame := [] } ∧
          t.fl = { s.fl with
            phase := .idle, op := .none
            desc := { s.fl.desc with log2Capacity := k, valid := true } } ∧
          sameBufBut s t .loc 0 (max s.cfg.sfdp.hdrLen s.cfg.sfdp.tblLen) ∧ t.sched = s.sched)))

/-- R318, C11: initialisation is identification, then discovery, whose result it returns: also where discovery fails,
the identity bytes are set, and the capacity and the valid mark are as before. It is refused where discovery is. -/
def Obligations.FlInitResult : Prop :=
  ∀ (s : State) (x : Bus) (h tb : List Byte), s.quiet → s.FlashBusFree x → s.flash.busy = false →
    s.memOk = true → h = s.flash.sfdpHeader s.cfg.sfdp → tb = s.flash.sfdpTable s.cfg.sfdp →
    1 ≤ s.cfg.sfdp.hdrLen →
    (dmaRoute s.cfg 2 = true → s.cfg.dmaMax < 2 → exec .flInit s = .refused .dmaCount) ∧
    (dmaRoute s.cfg 2 = false → s.cfg.dmaMax < s.cfg.sfdp.hdrLen →
      dmaRoute s.cfg s.cfg.sfdp.hdrLen = true → exec .flInit s = .refused .dmaCount) ∧
    (dmaRoute s.cfg 2 = false → dmaRoute s.cfg s.cfg.sfdp.hdrLen = false →
      s.cfg.sfdp.sigOff.toNat + s.cfg.sfdp.hdrLen ≤ s.flash.sfdp.length →
      (headerOk s.cfg.sfdp h = false → ∃ t, exec .flInit s = .next t ∧ DriverFrame s t x ∧
        newOpcodes s t = [0x90, 0x5A] ∧ t.ret = .err .discovery ∧ t.flash = { s.flash with frame := [] } ∧
        t.fl = { s.fl with
          phase := .idle, op := .none
          desc := { s.fl.desc with vendorId := s.flash.vendor, deviceId := s.flash.device } } ∧
        sameBufBut s t .loc 0 (max 2 s.cfg.sfdp.hdrLen) ∧ t.sched = s.sched) ∧
      (headerOk s.cfg.sfdp h = true → dmaRoute s.cfg s.cfg.sfdp.tblLen = true →
        s.cfg.dmaMax < s.cfg.sfdp.tblLen → exec .flInit s = .refused .dmaCount) ∧
      (headerOk s.cfg.sfdp h = true → 1 ≤ s.cfg.sfdp.tblLen → dmaRoute s.cfg s.cfg.sfdp.tblLen = false →
        (le24 h s.cfg.sfdp.ptrOff).toNat + s.cfg.sfdp.tblLen ≤ s.flash.sfdp.length →
        (tableOk s.cfg.sfdp tb = false → ∃ t, exec .flInit s = .next t ∧ DriverFrame s t x ∧
          newOpcodes s t = [0x90, 0x5A, 0x5A] ∧ t.ret = .err .unsupportedGeometry ∧
          t.flash = { s.flash with frame := [] } ∧
          t.fl = { s.fl with
            phase := .idle, op := .none
            desc := { s.fl.desc with vendorId := s.flash.vendor, deviceId := s.flash.device } } ∧
          sameBufBut s t .loc 0 (max 2 (max s.cfg.sfdp.hdrLen s.cfg.sfdp.tblLen)) ∧ t.sched = s.sched) ∧
        (tableOk s.cfg.sfdp tb = true → densityDecode (le32 tb s.cfg.sfdp.w2Off) = none →
          exec .flInit s = .refused .density) ∧
        (∀ k, tableOk s.cfg.sfdp tb = true → densityDecode (le32 tb s.cfg.sfdp.w2Off) = some k →
          ∃ t, exec .flInit s = .next t ∧ DriverFrame s t x ∧ newOpcodes s t = [0x90, 0x5A, 0x5A] ∧ t.ret = .ok ∧
          t.flash = { s.flash with frame := [] } ∧
          t.fl = { s.fl with
            phase := .idle, op := .none
            desc := { vendorId := s.flash.vendor, deviceId := s.flash.device, log2Capacity := k, valid := true } } ∧
          sameBufBut s t .loc 0 (max 2 (max s.cfg.sfdp.hdrLen s.cfg.sfdp.tblLen)) ∧ t.sched = s.sched)))

/-- R314: a density word with bit 31 set holds `log2_bits`; one with it clear holds a bit count less one, and
`log2_bits` is the least `k` with `2^k` not below the count; the capacity is `2^(log2_bits - 3)` bytes, and
outside 3 to 66 there is none. -/
def Obligations.DensityDecode : Prop :=
  ∀ w2 : BitVec 32,
    (w2.getLsbD 31 = true → densityLog2 w2 = w2.toNat - 2 ^ 31) ∧
    (w2.getLsbD 31 = false → w2.toNat + 1 ≤ 2 ^ densityLog2 w2 ∧
      ∀ k, w2.toNat + 1 ≤ 2 ^ k → densityLog2 w2 ≤ k) ∧
    (3 ≤ densityLog2 w2 → densityLog2 w2 ≤ 66 →
      ∃ c, densityDecode w2 = some c ∧ c.toNat + 3 = densityLog2 w2) ∧
    (densityLog2 w2 < 3 ∨ 66 < densityLog2 w2 → densityDecode w2 = none)

/-- R296, R290, R283: a read by the synchronous route polls, sends the header, and stores the bytes of the
array in order; nothing of the array changes. -/
def Obligations.FlReadResult : Prop :=
  ∀ (s : State) (x : Bus) (addr : BitVec 64) (a : Nat) (rx : BitVec 16) (len : Nat), s.quiet →
    s.FlashBusFree x → a = addr.toNat % 2 ^ s.cfg.apiAddrW →
    s.flash.busy = false → 1 ≤ len → bufOk s.cfg rx len = true → flSpanOk s.flash a len = true →
    s.owned (.user rx) = false → dmaRoute s.cfg len = false → s.memOk = true →
    ∃ t, exec (.flRead addr rx len) s = .next t ∧ DriverFrame s t x ∧ newOpcodes s t = [0x05, 0x03] ∧
      (∀ i, i < len → t.bufRead (.user rx) i = (s.flash.read (a + i)).setWidth 16) ∧
      sameBufBut s t (.user rx) 0 len ∧ t.flash = { s.flash with frame := [] } ∧
      t.fl = { s.fl with
        phase := .idle, op := .none, addr := a, len := len, status := t.fl.status, st := t.fl.st } ∧
      t.ret = .none ∧ t.sched = s.sched

/-- R290, R296, R300: a read or a program whose payload takes the DMA route, with the channels and the handlers
in the schedule, puts the same opcodes on the wire and leaves the same bytes as by the synchronous route. -/
def Obligations.FlPayloadByDma : Prop :=
  ∀ (s : State) (x : Bus) (b : BitVec 8) (addr : BitVec 64) (a : Nat) (q : BitVec 16) (len : Nat),
    s.main = [] → s.irq = [] → a = addr.toNat % 2 ^ s.cfg.apiAddrW →
    s.FlashBusFree x → s.cfg.flashBus = b.toNat → s.flash.busy = false → 1 ≤ len →
    len ≤ s.cfg.dmaMax → 1 ≤ s.cfg.busFifoDepth → bufOk s.cfg q len = true →
    flSpanOk s.flash a len = true → dmaRoute s.cfg len = true → s.owned (.user q) = false →
    s.memOk = true →
    (s.sched = dmaTurns b len → ∃ t y, exec (.flRead addr q len) s = .next t ∧
      newOpcodes s t = [0x05, 0x03] ∧
      (∀ i, i < len → t.bufRead (.user q) i = (s.flash.read (a + i)).setWidth 16) ∧
      sameBufBut s t (.user q) 0 len ∧ t.flash = { s.flash with frame := [] } ∧
      t.fl = { s.fl with
        phase := .idle, op := .none, addr := a, len := len, status := t.fl.status, st := t.fl.st } ∧
      t.buses = s.buses.set s.cfg.flashBus y ∧ y.cs = false ∧ y.rxq = [] ∧ y.dma.active = false ∧
      t.main = [] ∧ t.ret = .none ∧ t.uarts = s.uarts ∧ t.rings = s.rings ∧ t.sched = []) ∧
    (s.sched = dmaTurns b len ++ [.core none, flashDoneTurn] →
      onePage s.cfg.flPage a len = true →
      ∃ t y, exec (.flProgram addr q len) s = .next t ∧
      newOpcodes s t = [0x05, 0x06, 0x02, 0x05, 0x05] ∧
      (∀ c, t.flash.read c = if a ≤ c ∧ c < a + len then
        s.flash.read c &&& (s.bufRead (.user q) (c - a)).setWidth 8 else s.flash.read c) ∧
      t.flash.busy = false ∧ t.flash.wel = false ∧ t.buf = s.buf ∧
      t.buses = s.buses.set s.cfg.flashBus y ∧ y.cs = false ∧ y.rxq = [] ∧ y.dma.active = false ∧
      t.main = [] ∧ t.ret = .none ∧ t.uarts = s.uarts ∧ t.rings = s.rings ∧ t.sched = [])

/-- R300, R95, R96, R322, R74: a program by the synchronous route polls, enables, sends the bytes and waits;
each byte of the span becomes the AND of old and new, and no other byte of the array changes. -/
def Obligations.FlProgramResult : Prop :=
  ∀ (s : State) (x : Bus) (addr : BitVec 64) (a : Nat) (tx : BitVec 16) (len : Nat), s.quiet →
    s.FlashBusFree x → a = addr.toNat % 2 ^ s.cfg.apiAddrW →
    s.sched = [flashDoneTurn] → s.flash.busy = false → 1 ≤ len → bufOk s.cfg tx len = true →
    flSpanOk s.flash a len = true → onePage s.cfg.flPage a len = true →
    s.owned (.user tx) = false → dmaRoute s.cfg len = false → s.memOk = true →
    ∃ t, exec (.flProgram addr tx len) s = .next t ∧ DriverFrame s t x ∧
      newOpcodes s t = [0x05, 0x06, 0x02, 0x05, 0x05] ∧
      (∀ c, t.flash.read c = if a ≤ c ∧ c < a + len then
        s.flash.read c &&& (s.bufRead (.user tx) (c - a)).setWidth 8 else s.flash.read c) ∧
      t.flash = { s.flash with
        mem := t.flash.mem, busy := false, wel := false, pending := .none, frame := [] } ∧
      t.fl = { s.fl with
        phase := .idle, op := .none, addr := a, len := len, status := t.fl.status, st := t.fl.st } ∧
      t.buf = s.buf ∧ t.ret = .none ∧ t.main = [] ∧ t.sched = []

/-- R302, R303, R304, R96, R322: an aligned erase polls, enables, sends its command and waits; its span reads
0xFF, and no other byte of the array changes. -/
def Obligations.FlEraseResult : Prop :=
  ∀ (s : State) (x : Bus) (addr : BitVec 64) (i : Instr) (opc : Byte) (a base size : Nat) (r : Ret),
    s.quiet → s.FlashBusFree x → a = addr.toNat % 2 ^ s.cfg.apiAddrW → s.sched = [flashDoneTurn] →
    s.flash.busy = false → s.memOk = true →
    ((i, opc, base, size, r) = (.flEraseSector addr, 0x20, a, 4096, .ok) ∨
      (i, opc, base, size, r) = (.flEraseBlock addr, 0x52, a, 32768, .ok) ∨
      (i, opc, base, size, r) = (.flEraseAll, 0xC7, 0, s.flash.capacity, .none)) →
    (i ≠ .flEraseAll → base % size = 0 ∧ flSpanOk s.flash a size = true) →
    ∃ t, exec i s = .next t ∧ DriverFrame s t x ∧ newOpcodes s t = [0x05, 0x06, opc, 0x05, 0x05] ∧
      (∀ c, t.flash.read c = if base ≤ c ∧ c < base + size then 0xFF else s.flash.read c) ∧
      t.flash = { s.flash with
        mem := t.flash.mem, busy := false, wel := false, pending := .none, frame := [] } ∧
      t.fl = { s.fl with
        phase := .idle, op := .none, addr := t.fl.addr, status := t.fl.status, st := t.fl.st } ∧
      t.fl.addr = (if i = .flEraseAll then s.fl.addr else a) ∧
      t.buf = s.buf ∧ t.ret = r ∧ t.main = [] ∧ t.sched = []

/-- R286, R320: with nothing to end the device's work, a program, by whichever route its payload takes, or an erase,
of whatever size, has given its command to the device and polls on; it does not return. -/
def Obligations.FlWritesWait : Prop :=
  ∀ (s : State) (x : Bus) (c : BitVec 8) (addr : BitVec 64) (a : Nat) (tx : BitVec 16) (len : Nat), s.quiet →
    s.FlashBusFree x → a = addr.toNat % 2 ^ s.cfg.apiAddrW → s.flash.busy = false →
    (s.cfg.flashBus = c.toNat → s.sched = payloadTurns s.cfg c len → 1 ≤ s.cfg.busFifoDepth → 1 ≤ len →
      payloadOk s.cfg len = true → bufOk s.cfg tx len = true → flSpanOk s.flash a len = true →
      onePage s.cfg.flPage a len = true → s.owned (.user tx) = false →
      ∃ t, exec (.flProgram addr tx len) s = .next t ∧ t.main ≠ [] ∧ t.ret = .none ∧ t.sched = [] ∧
        t.fl.phase = .postWait ∧ t.fl.op = .program ∧
        t.flash = { s.flash with
          busy := true, wel := true, pending := .program a (s.bytesOf (.user tx) len)
          frame := [] }) ∧
    (∀ i op base size, s.sched = [] →
      ((i, op, base, size) = (.flEraseSector addr, .eraseSector, a, 4096) ∨
        (i, op, base, size) = (.flEraseBlock addr, .eraseBlock, a, 32768) ∨
        (i, op, base, size) = (.flEraseAll, .eraseAll, 0, s.flash.capacity)) →
      (i ≠ .flEraseAll → base % size = 0 ∧ flSpanOk s.flash a size = true) →
      ∃ t, exec i s = .next t ∧ t.main ≠ [] ∧ t.ret = .none ∧ t.fl.phase = .postWait ∧ t.fl.op = op ∧
        t.flash = { s.flash with busy := true, wel := true, pending := .erase base size, frame := [] })

/-- R302, R303, R362, R78: a misaligned erase returns `AlignmentError`, tested on the whole address, with no other
state changed and no bus word sent. -/
def Obligations.FlMisaligned : Prop :=
  ∀ (s : State) (addr : BitVec 64) (a : Nat), s.quiet → a = addr.toNat % 2 ^ s.cfg.apiAddrW →
    (a % 4096 ≠ 0 → exec (.flEraseSector addr) s = .next { s with ret := .err .alignment }) ∧
    (a % 32768 ≠ 0 → exec (.flEraseBlock addr) s = .next { s with ret := .err .alignment })

/-- R324: erase, program, read returns exactly the data programmed, by whichever route the payload takes. -/
def Obligations.FlRoundTrip : Prop :=
  ∀ (s : State) (x : Bus) (c : BitVec 8) (addr : BitVec 64) (a : Nat) (tx rx : BitVec 16) (len : Nat),
    s.quiet → s.FlashBusFree x → a = addr.toNat % 2 ^ s.cfg.apiAddrW →
    s.cfg.flashBus = c.toNat → s.sched = [flashDoneTurn] → s.flash.busy = false →
    s.memOk = true → a % 4096 = 0 → flSpanOk s.flash a 4096 = true → 1 ≤ len →
    len ≤ s.cfg.flPage → 4096 % s.cfg.flPage = 0 → payloadOk s.cfg len = true → 1 ≤ s.cfg.busFifoDepth →
    bufOk s.cfg tx len = true → bufOk s.cfg rx len = true → s.owned (.user tx) = false →
    s.owned (.user rx) = false →
    ∃ t₁ t₂ t₃, exec (.flEraseSector addr) s = .next t₁ ∧
      exec (.flProgram addr tx len) { t₁ with sched := programTurns s.cfg c len } = .next t₂ ∧
      exec (.flRead addr rx len) { t₂ with sched := payloadTurns s.cfg c len } = .next t₃ ∧
      ∀ i, i < len → t₃.bufRead (.user rx) i = ((s.bufRead (.user tx) i).setWidth 8).setWidth 16

/-! ## Block Device Adapter -/

/-- R342, R344, R346, R348, R356: the adapter's read, program and erase are the driver's at
`BD_BASE + block * BD_BLOCK_SIZE + offset`, and return `Ok`, in a configuration `Config.wf` admits (R347; log 31). -/
def Obligations.BdResult : Prop :=
  ∀ (s : State) (x : Bus) (block off : BitVec 32) (buf : BitVec 16) (n a : Nat), s.quiet →
    s.FlashBusFree x → s.cfg.wf = true → s.fl.desc.valid = true → s.flash.busy = false → s.memOk = true →
    block.toNat < s.cfg.geom.blockCount → off.toNat + n ≤ s.cfg.geom.blockSize →
    a = s.cfg.geom.base + block.toNat * s.cfg.geom.blockSize + off.toNat →
    s.cfg.geom.base + s.cfg.geom.blockCount * s.cfg.geom.blockSize ≤ s.flash.capacity →
    (1 ≤ n → dmaRoute s.cfg n = false → bufOk s.cfg buf n = true → s.owned (.user buf) = false →
      ∃ t, exec (.bdRead block off buf n) s = .next t ∧ DriverFrame s t x ∧
        newOpcodes s t = [0x05, 0x03] ∧
        (∀ i, i < n → t.bufRead (.user buf) i = (s.flash.read (a + i)).setWidth 16) ∧
        sameBufBut s t (.user buf) 0 n ∧ t.flash = { s.flash with frame := [] } ∧
        t.fl = { s.fl with
          phase := .idle, op := .none, addr := a, len := n, status := t.fl.status
          st := t.fl.st } ∧
        t.ret = .ok ∧ t.sched = s.sched) ∧
    (1 ≤ n → dmaRoute s.cfg n = false → bufOk s.cfg buf n = true → s.owned (.user buf) = false →
      a % s.cfg.flPage + n ≤ s.cfg.flPage → s.sched = [flashDoneTurn] →
      ∃ t, exec (.bdProgram block off buf n) s = .next t ∧ DriverFrame s t x ∧
        newOpcodes s t = [0x05, 0x06, 0x02, 0x05, 0x05] ∧
        (∀ c, t.flash.read c = if a ≤ c ∧ c < a + n then
          s.flash.read c &&& (s.bufRead (.user buf) (c - a)).setWidth 8 else s.flash.read c) ∧
        t.buf = s.buf ∧ t.fl.phase = .idle ∧ t.fl.desc = s.fl.desc ∧
        t.flash.busy = false ∧ t.flash.wel = false ∧ t.ret = .ok ∧ t.sched = []) ∧
    (s.sched = [flashDoneTurn] → ∃ t, exec (.bdErase block) s = .next t ∧ DriverFrame s t x ∧
        newOpcodes s t = [0x05, 0x06, 0x20, 0x05, 0x05] ∧
        (∀ c, t.flash.read c =
          if s.cfg.geom.base + block.toNat * s.cfg.geom.blockSize ≤ c ∧
            c < s.cfg.geom.base + (block.toNat + 1) * s.cfg.geom.blockSize
          then 0xFF else s.flash.read c) ∧
        t.buf = s.buf ∧ t.fl.phase = .idle ∧ t.fl.desc = s.fl.desc ∧
        t.flash.busy = false ∧ t.flash.wel = false ∧ t.ret = .ok ∧ t.sched = [])

/-- R326, R283, R290, R300, R340, R342, R344, U13: the requests the driver and the adapter give no meaning, each by
its name; a buffer that the block owns is one (R71, U1, log 15). -/
def Obligations.FlashRefusals : Prop :=
  ∀ (s : State) (addr : BitVec 64) (block off : BitVec 32) (q : BitVec 16) (n a : Nat), s.quiet →
    a = addr.toNat % 2 ^ s.cfg.apiAddrW →
    exec (.flRead addr q 0) s = .refused .zeroLength ∧
    exec (.flProgram addr q 0) s = .refused .zeroLength ∧
    (1 ≤ n → bufOk s.cfg q n = false → exec (.flRead addr q n) s = .refused .shortBuffer ∧
      exec (.flProgram addr q n) s = .refused .shortBuffer) ∧
    (1 ≤ n → bufOk s.cfg q n = true → flSpanOk s.flash a n = false →
      exec (.flRead addr q n) s = .refused .flashSpan ∧
      exec (.flProgram addr q n) s = .refused .flashSpan) ∧
    (1 ≤ n → bufOk s.cfg q n = true → flSpanOk s.flash a n = true →
      onePage s.cfg.flPage a n = false → exec (.flProgram addr q n) s = .refused .pageCross) ∧
    (1 ≤ n → bufOk s.cfg q n = true → flSpanOk s.flash a n = true → dmaRoute s.cfg n = true →
      s.cfg.dmaMax < n → exec (.flRead addr q n) s = .refused .dmaCount ∧
      (onePage s.cfg.flPage a n = true → exec (.flProgram addr q n) s = .refused .dmaCount)) ∧
    (a % 4096 = 0 → flSpanOk s.flash a 4096 = false →
      exec (.flEraseSector addr) s = .refused .flashSpan) ∧
    (a % 32768 = 0 → flSpanOk s.flash a 32768 = false →
      exec (.flEraseBlock addr) s = .refused .flashSpan) ∧
    (s.fl.desc.valid = false → exec (.bdRead block off q n) s = .refused .notDiscovered ∧
      exec (.bdProgram block off q n) s = .refused .notDiscovered ∧
      exec (.bdErase block) s = .refused .notDiscovered ∧ exec .bdSync s = .refused .notDiscovered) ∧
    (s.fl.desc.valid = true → s.cfg.geom.blockCount ≤ block.toNat →
      exec (.bdRead block off q n) s = .refused .blockRange ∧
      exec (.bdProgram block off q n) s = .refused .blockRange ∧
      exec (.bdErase block) s = .refused .blockRange) ∧
    (s.fl.desc.valid = true → s.cfg.geom.blockSize < off.toNat + n →
      exec (.bdRead block off q n) s = .refused .blockRange ∧
      exec (.bdProgram block off q n) s = .refused .blockRange) ∧
    (s.fl.desc.valid = true → blockOk s.cfg.geom block off 0 = true →
      exec (.bdRead block off q 0) s = .refused .zeroLength ∧
      exec (.bdProgram block off q 0) s = .refused .zeroLength) ∧
    (s.fl.desc.valid = true → blockOk s.cfg.geom block off n = true → 1 ≤ n → bufOk s.cfg q n = false →
      exec (.bdRead block off q n) s = .refused .shortBuffer ∧
      exec (.bdProgram block off q n) s = .refused .shortBuffer) ∧
    (∀ x, s.FlashBusFree x → s.flash.busy = false → 1 ≤ n → bufOk s.cfg q n = true →
      payloadOk s.cfg n = true → s.owned (.user q) = true →
      (flSpanOk s.flash a n = true → exec (.flRead addr q n) s = .refused .bufferOwned ∧
        (onePage s.cfg.flPage a n = true → exec (.flProgram addr q n) s = .refused .bufferOwned)) ∧
      (s.fl.desc.valid = true → blockOk s.cfg.geom block off n = true →
        flSpanOk s.flash (bdAddr s.cfg block off) n = true →
        exec (.bdRead block off q n) s = .refused .bufferOwned ∧
        (onePage s.cfg.flPage (bdAddr s.cfg block off) n = true →
          exec (.bdProgram block off q n) s = .refused .bufferOwned)))

/-! ## Flash wire commands -/

/-- R90, R92, R93, R94, R112: what the device replies to a frame presented by itself (log 13). A busy device answers
0x05 alone; a position for which no rule gives a reply has a free byte. A frame of 0x9F, which no one sends, the
device would accept, with a free byte at every position and no effect at the deselect; its turn does nothing. -/
def Obligations.FcReplies : Prop :=
  ∀ (s : State) (x : Bus) (a : BitVec 24) (n : Nat), s.quiet → s.FlashBusFree x → s.memOk = true →
    (∃ t v, exec .fcRdsr s = .next t ∧ DriverFrame s t x ∧ t.flash = { s.flash with frame := [] } ∧
      t.fl = s.fl ∧ sameBufBut s t .loc 0 1 ∧ t.ret = .bytes [v] ∧ v.getLsbD 0 = s.flash.busy ∧
      t.sched = s.sched) ∧
    (1 ≤ n → (s.flash.busy = false → a.toNat + n ≤ s.flash.capacity) →
      ∃ t bs, exec (.fcRead a n) s = .next t ∧ DriverFrame s t x ∧
        t.flash = { s.flash with frame := [] } ∧ t.fl = s.fl ∧ t.sched = s.sched ∧ sameBufBut s t .loc 0 n ∧
        t.ret = .bytes bs ∧ bs.length = n ∧
        (s.flash.busy = false → ∀ i, i < n → bs.getD i 0 = s.flash.read (a.toNat + i))) ∧
    (1 ≤ n → ∃ t bs, exec (.fcRdsfdp a n) s = .next t ∧ DriverFrame s t x ∧
      t.flash = { s.flash with frame := [] } ∧ t.fl = s.fl ∧ t.sched = s.sched ∧ sameBufBut s t .loc 0 n ∧
      t.ret = .bytes bs ∧ bs.length = n ∧ (s.flash.busy = false → ∀ i, i < n →
        a.toNat + i < s.flash.sfdp.length → bs.getD i 0 = s.flash.sfdp.getD (a.toNat + i) 0)) ∧
    (∃ t bs, exec .fcRdid s = .next t ∧ DriverFrame s t x ∧ t.flash = { s.flash with frame := [] } ∧
      t.fl = s.fl ∧ t.sched = s.sched ∧ sameBufBut s t .loc 0 2 ∧ t.ret = .bytes bs ∧ bs.length = 2 ∧
      (s.flash.busy = false → bs = [s.flash.vendor, s.flash.device])) ∧
    exec .fcJedec s = .next s ∧
    (∀ fr free, s.flash.answer (0x9F :: fr) free = .ok (.word (free &&& 0x00FF)) ∧
      ({ s.flash with frame := 0x9F :: fr } : Flash).commit s.cfg.flPage = .ok { s.flash with frame := [] })

/-- R91, R95, R96, R97: a write enable sets the latch of a ready device; a program or erase starts its work in
a device whose latch is set and which is ready, and is ignored by any other. -/
def Obligations.FcCommands : Prop :=
  ∀ (s : State) (x : Bus) (a : BitVec 24) (data : List Byte) (i : Instr) (p : Pending), s.quiet →
    s.FlashBusFree x →
    (∃ t, exec .fcWren s = .next t ∧ DriverFrame s t x ∧ t.fl = s.fl ∧ t.buf = s.buf ∧ t.sched = s.sched ∧
      t.ret = .bytes [] ∧
      t.flash = { s.flash with frame := [], wel := if s.flash.busy then s.flash.wel else true }) ∧
    (data ≠ [] →
      ((i, p) = (.fcPp a data, .program a.toNat data) ∨ (i, p) = (.fcSe a, .erase a.toNat 4096) ∨
        (i, p) = (.fcBe32 a, .erase a.toNat 32768) ∨ (i, p) = (.fcCe, .erase 0 s.flash.capacity)) →
      (s.flash.wel = true → s.flash.busy = false →
        (∀ b ds, p = .program b ds → b % s.cfg.flPage + ds.length ≤ s.cfg.flPage ∧
          b + ds.length ≤ s.flash.capacity) →
        (∀ b m, p = .erase b m → b + m ≤ s.flash.capacity) →
        ∃ t, exec i s = .next t ∧ DriverFrame s t x ∧ t.fl = s.fl ∧ t.buf = s.buf ∧
          t.sched = s.sched ∧ t.ret = .bytes [] ∧
          t.flash = { s.flash with frame := [], busy := true, pending := p }) ∧
      (s.flash.wel = false ∨ s.flash.busy = true →
        ∃ t, exec i s = .next t ∧ DriverFrame s t x ∧ t.fl = s.fl ∧ t.buf = s.buf ∧
          t.sched = s.sched ∧ t.ret = .bytes [] ∧
          t.flash = { s.flash with frame := [] }))

/-- R96, R95: when the device finishes, a program has ANDed its bytes into the array or an erase has set its
span to 0xFF, and busy, latch and the pending work are cleared. -/
def Obligations.FlashDoneResult : Prop :=
  ∀ (s : State), s.flash.busy = true → s.memOk = true →
    ∃ t, exec .envFlashDone s = .next t ∧
      t = { s with flash := { s.flash with
        mem := t.flash.mem, busy := false, wel := false, pending := .none } } ∧
      (s.flash.pending = .none → ∀ c, t.flash.read c = s.flash.read c) ∧
      (∀ a data, s.flash.pending = .program a data → ∀ c, t.flash.read c =
        if a ≤ c ∧ c < a + data.length then s.flash.read c &&& data.getD (c - a) 0
        else s.flash.read c) ∧
      (∀ a n, s.flash.pending = .erase a n → ∀ c, t.flash.read c =
        if a ≤ c ∧ c < a + n then 0xFF else s.flash.read c)

/-! ## The machine -/

/-- Log 1, log 2: when the bytes of the next turn decode to a well-formed instruction, a step with nothing in
progress is that instruction, performed with the turn taken from the schedule. A handler or an agent's step is
performed in its turn also while MAIN waits. -/
def Obligations.StepRunsPresented : Prop :=
  ∀ (s : State) (sp : Space) (bs : List Byte) (ts : List Turn) (i : Instr),
    s.sched = .req sp bs :: ts → decode sp bs = .ok i → i.wf = true →
    (s.main = [] → s.irq = [] → step s = exec i { s with sched := ts }) ∧
    ((eventOf i s).isSome = true → step s = exec i { s with sched := ts })

/-- Log 3, R101 to R106: every well-formed instruction is what its own bytes decode to. -/
def Obligations.DecodeEncode : Prop :=
  ∀ i : Instr, i.wf = true → decode (encode i).1 (encode i).2 = .ok i

/-- R104, R124, R126, R72, with the operand layout of log 3 after an identifier and the code spaces of log 4: words
written out from the tables decode to the rows they stand for. -/
def Obligations.DecodeTableWords : Prop :=
  decode .wire [0x20, 0x00, 0x10, 0x00] = .ok (.fcSe 0x001000) ∧
  decode .wire [0x02, 0x00, 0x10, 0x00, 0xDE, 0xAD] = .ok (.fcPp 0x001000 [0xDE, 0xAD]) ∧
  decode .wire [0x5A, 0x00, 0x00, 0x30, 0x00, 0x00] = .ok (.fcRdsfdp 0x000030 1) ∧
  decode .op [0x01, 0x00, 0xAB] = .ok (.rbPush (.own 0) 0xAB) ∧
  decode .op [0x23, 0x01, 0x41] = .ok (.uartWriteByte 1 0x41) ∧
  decode .op [0x34, 0x00, 0x10, 0x00, 0x00, 0x00, 0x00, 0x00, 0x00] = .ok (.flEraseSector 0x1000) ∧
  decode .op [0x84, 0x00] = .ok (.evUartTxLevel 0) ∧
  decode .op [0xC6] = .ok .envFlashDone ∧
  decode .op [0x03] = .error (.unknownId 0x03) ∧ decode .wire [0x01] = .error (.unknownOpcode 0x01)

/-- R38, with the width of `fl.addr` (R30) and the canonical form of both memories: every step keeps the
invariant. -/
def Obligations.InvariantStep : Prop :=
  ∀ s t : State, s.Inv → step s = .next t → t.Inv

/-- R38 (f) and (g), with what lies behind them (R226, R240, R308, R388): every step keeps them, whatever turn
it takes. -/
def Obligations.DriverInvariantStep : Prop :=
  ∀ s t : State, s.DriverInv → step s = .next t → t.DriverInv

/-- R37, R38, R412: after reset both invariants hold, and every field R37 gives a value has it, for whatever
parameters and device; the parameters are kept, and there is one instance for each that they name. The invariants
are those of `State.reset`, whose parameters are log 6's and whose device is log 7's. -/
def Obligations.ResetState : Prop :=
  State.reset.Inv ∧ State.reset.DriverInv ∧
  ∀ (c : Config) (f : Flash),
    (State.init c f).cfg = c ∧ (State.init c f).flash = f ∧ (State.init c f).main = [] ∧
    (State.init c f).irq = [] ∧ (State.init c f).rings.length = c.rings.length ∧
    (State.init c f).buses.length = c.buses.length ∧
    (State.init c f).uarts.length = min c.txRings.length c.cbs.length ∧
    (∀ (i : Nat) (r : Ring), (State.init c f).rings[i]? = some r → ∃ k, c.rings[i]? = some k ∧
      r.n = k.n ∧ r.producer = k.producer ∧ r.consumer = k.consumer ∧ r.head = 0 ∧ r.tail = 0 ∧
      r.storage.length = k.n) ∧
    (∀ (b : Nat) (x : Bus), (State.init c f).buses[b]? = some x → c.buses[b]? = some x.cfg ∧
      x.cs = false ∧ x.rxq = [] ∧
      x.dma.active = false ∧ x.dma.rxEn = false ∧ x.dma.txEn = false ∧ x.dma.rxIrq = false ∧
      x.dma.txIrq = false ∧ x.dma.rxLeft = 0 ∧ x.dma.txLeft = 0) ∧
    (∀ (u : Nat) (x : Uart), (State.init c f).uarts[u]? = some x → c.cbs[u]? = some x.cb ∧
      (∃ k, c.txRings[u]? = some k ∧ x.txring.n = k.n ∧ x.txring.producer = k.producer ∧
        x.txring.storage.length = k.n) ∧ x.txring.consumer = .irq ∧
      x.mode = .idle ∧ x.rxCap = 0 ∧ x.rxCount = 0 ∧
      x.txring.head = 0 ∧ x.txring.tail = 0 ∧ x.dmaLen = 0 ∧ x.dmaCursor = 0 ∧ x.dmaRemaining = 0 ∧
      x.dmaChunk = 0 ∧ x.dmaPhase = .none ∧ x.dmaBusy = false ∧ x.rxfifo = [] ∧
      x.txfifo = [] ∧ x.txShifting = false ∧ x.ieRxLevel = false ∧ x.ieRxTimeout = false ∧
      x.ieLine = false ∧ x.ieTxLevel = false ∧ x.ieDma = false ∧ x.ieEot = false ∧
      x.rxTimeoutFlag = false ∧ x.gapArmed = false ∧ x.fifoOverrun = false ∧ x.dmaIrq = false ∧
      x.utxEn = false ∧ x.lineErr = { framing := false, parity := false, brk := false } ∧
      x.utxLeft = 0 ∧ x.utxIdx = 0) ∧
    (State.init c f).fl.desc.valid = false ∧ (State.init c f).fl.phase = .idle ∧
    (State.init c f).fl.op = .none

/-- R378, R382, R388: while a handler runs, or an operation of MAIN has not returned, no operation of MAIN
starts. -/
def Obligations.MainBusyRefuses : Prop :=
  ∀ (i : Instr) (s : State), eventOf i s = none → (s.irq ≠ [] ∨ s.main ≠ []) →
    ∃ r, exec i s = .refused r

/-- R320, R33, R186, R384: no handler touches the flash driver, the device, a select line, a scratch cell, or
the operation of MAIN it interrupts. -/
def Obligations.HandlersLeaveFlash : Prop :=
  ∀ (i : Instr) (s t : State) (n : BitVec 8),
    i ∈ [.evDmaRxDone n, .evDmaTxDone n, .evUartRxLevel n, .evUartRxTimeout n, .evUartTxLevel n,
      .evUartLineError n, .evUartDmaDone n, .evUartEot n] → exec i s = .next t →
    t.fl = s.fl ∧ t.flash = s.flash ∧ t.main = s.main ∧ t.ret = s.ret ∧ t.irqRets = s.irqRets ∧
      t.rings = s.rings ∧
      t.buses.map (fun x => (x.cs, x.scratch, x.rxq)) = s.buses.map (fun x => (x.cs, x.scratch, x.rxq))

/-- Log 10: a handler whose source is not pending, not enabled, or that comes while the interrupt context is busy,
and an agent's step that is not enabled, do nothing in their turn; nor does the frame of 0x9F, which no one sends
(log 13). -/
def Obligations.DisabledEventsStutter : Prop :=
  ∀ s : State,
    (∀ (b : BitVec 8) (x : Bus), s.buses[b.toNat]? = some x →
      (x.dma.rxIrq = false ∨ s.irq ≠ [] → exec (.evDmaRxDone b) s = .next s) ∧
      (x.dma.txIrq = false ∨ s.irq ≠ [] → exec (.evDmaTxDone b) s = .next s) ∧
      (x.dma.txEn = false ∨ x.dma.txLeft = 0 ∨ s.cfg.busFifoDepth ≤ x.rxq.length →
        exec (.envDmaTxMove b) s = .next s) ∧
      (x.dma.rxEn = false ∨ x.dma.rxLeft = 0 ∨ x.rxq = [] → exec (.envDmaRxMove b) s = .next s)) ∧
    (∀ (u : BitVec 8) (y : Uart), s.uarts[u.toNat]? = some y →
      (y.ieRxLevel = false ∨ y.rxfifo.length < s.cfg.uartRxTrig ∨ s.irq ≠ [] →
        exec (.evUartRxLevel u) s = .next s) ∧
      (y.ieRxTimeout = false ∨ y.rxTimeoutFlag = false ∨ s.irq ≠ [] → exec (.evUartRxTimeout u) s = .next s) ∧
      (y.ieTxLevel = false ∨ s.cfg.uartTxTrig < y.txfifo.length ∨ s.irq ≠ [] →
        exec (.evUartTxLevel u) s = .next s) ∧
      (y.ieLine = false ∨ (y.lineErr = { framing := false, parity := false, brk := false } ∧
          y.fifoOverrun = false) ∨ s.irq ≠ [] → exec (.evUartLineError u) s = .next s) ∧
      (y.ieDma = false ∨ y.dmaIrq = false ∨ s.irq ≠ [] → exec (.evUartDmaDone u) s = .next s) ∧
      (y.ieEot = false ∨ y.txfifo ≠ [] ∨ y.txShifting = true ∨ s.irq ≠ [] →
        exec (.evUartEot u) s = .next s) ∧
      (y.utxEn = false ∨ y.utxLeft = 0 ∨ s.cfg.uartFifoDepth ≤ y.txfifo.length →
        exec (.envUartDmaMove u) s = .next s) ∧
      (y.gapArmed = false → exec (.envLineSilence u) s = .next s) ∧
      (y.txShifting = false → y.txfifo = [] → exec (.envTxShift u) s = .next s)) ∧
    (s.flash.busy = false → exec .envFlashDone s = .next s) ∧
    exec .fcJedec s = .next s
end

