-- ==== Sys2Proof/Laws/State.lean ====
section
/-! SUPPORT. One lemma per field per named update of the state: later proofs cite these and unfold no record
update. -/

namespace Sys2Proof.Machine

variable (s : State)

/-! ## `setUart` -/

@[simp] theorem setUart_cfg (u : Nat) (x : Uart) : (s.setUart u x).cfg = s.cfg := rfl
@[simp] theorem setUart_rings (u : Nat) (x : Uart) : (s.setUart u x).rings = s.rings := rfl
@[simp] theorem setUart_buses (u : Nat) (x : Uart) : (s.setUart u x).buses = s.buses := rfl
@[simp] theorem setUart_uarts (u : Nat) (x : Uart) : (s.setUart u x).uarts = s.uarts.set u x := rfl
@[simp] theorem setUart_fl (u : Nat) (x : Uart) : (s.setUart u x).fl = s.fl := rfl
@[simp] theorem setUart_flash (u : Nat) (x : Uart) : (s.setUart u x).flash = s.flash := rfl
@[simp] theorem setUart_buf (u : Nat) (x : Uart) : (s.setUart u x).buf = s.buf := rfl
@[simp] theorem setUart_main (u : Nat) (x : Uart) : (s.setUart u x).main = s.main := rfl
@[simp] theorem setUart_irq (u : Nat) (x : Uart) : (s.setUart u x).irq = s.irq := rfl
@[simp] theorem setUart_ret (u : Nat) (x : Uart) : (s.setUart u x).ret = s.ret := rfl
@[simp] theorem setUart_irqRets (u : Nat) (x : Uart) : (s.setUart u x).irqRets = s.irqRets := rfl
@[simp] theorem setUart_trace (u : Nat) (x : Uart) : (s.setUart u x).trace = s.trace := rfl
@[simp] theorem setUart_sched (u : Nat) (x : Uart) : (s.setUart u x).sched = s.sched := rfl
@[simp] theorem setUart_draws (u : Nat) (x : Uart) : (s.setUart u x).draws = s.draws := rfl

/-! ## `setBus` -/

@[simp] theorem setBus_cfg (b : Nat) (x : Bus) : (s.setBus b x).cfg = s.cfg := rfl
@[simp] theorem setBus_rings (b : Nat) (x : Bus) : (s.setBus b x).rings = s.rings := rfl
@[simp] theorem setBus_buses (b : Nat) (x : Bus) : (s.setBus b x).buses = s.buses.set b x := rfl
@[simp] theorem setBus_uarts (b : Nat) (x : Bus) : (s.setBus b x).uarts = s.uarts := rfl
@[simp] theorem setBus_fl (b : Nat) (x : Bus) : (s.setBus b x).fl = s.fl := rfl
@[simp] theorem setBus_flash (b : Nat) (x : Bus) : (s.setBus b x).flash = s.flash := rfl
@[simp] theorem setBus_buf (b : Nat) (x : Bus) : (s.setBus b x).buf = s.buf := rfl
@[simp] theorem setBus_main (b : Nat) (x : Bus) : (s.setBus b x).main = s.main := rfl
@[simp] theorem setBus_irq (b : Nat) (x : Bus) : (s.setBus b x).irq = s.irq := rfl
@[simp] theorem setBus_ret (b : Nat) (x : Bus) : (s.setBus b x).ret = s.ret := rfl
@[simp] theorem setBus_irqRets (b : Nat) (x : Bus) : (s.setBus b x).irqRets = s.irqRets := rfl
@[simp] theorem setBus_trace (b : Nat) (x : Bus) : (s.setBus b x).trace = s.trace := rfl
@[simp] theorem setBus_sched (b : Nat) (x : Bus) : (s.setBus b x).sched = s.sched := rfl
@[simp] theorem setBus_draws (b : Nat) (x : Bus) : (s.setBus b x).draws = s.draws := rfl

/-! ## `emit` -/

@[simp] theorem emit_cfg (e : Event) : (s.emit e).cfg = s.cfg := rfl
@[simp] theorem emit_rings (e : Event) : (s.emit e).rings = s.rings := rfl
@[simp] theorem emit_buses (e : Event) : (s.emit e).buses = s.buses := rfl
@[simp] theorem emit_uarts (e : Event) : (s.emit e).uarts = s.uarts := rfl
@[simp] theorem emit_fl (e : Event) : (s.emit e).fl = s.fl := rfl
@[simp] theorem emit_flash (e : Event) : (s.emit e).flash = s.flash := rfl
@[simp] theorem emit_buf (e : Event) : (s.emit e).buf = s.buf := rfl
@[simp] theorem emit_main (e : Event) : (s.emit e).main = s.main := rfl
@[simp] theorem emit_irq (e : Event) : (s.emit e).irq = s.irq := rfl
@[simp] theorem emit_ret (e : Event) : (s.emit e).ret = s.ret := rfl
@[simp] theorem emit_irqRets (e : Event) : (s.emit e).irqRets = s.irqRets := rfl
@[simp] theorem emit_trace (e : Event) : (s.emit e).trace = s.trace ++ [e] := rfl
@[simp] theorem emit_sched (e : Event) : (s.emit e).sched = s.sched := rfl
@[simp] theorem emit_draws (e : Event) : (s.emit e).draws = s.draws := rfl

/-! ## `give` -/

@[simp] theorem give_cfg (c : Side) (r : Ret) : (s.give c r).cfg = s.cfg := by cases c <;> rfl
@[simp] theorem give_rings (c : Side) (r : Ret) : (s.give c r).rings = s.rings := by cases c <;> rfl
@[simp] theorem give_buses (c : Side) (r : Ret) : (s.give c r).buses = s.buses := by cases c <;> rfl
@[simp] theorem give_uarts (c : Side) (r : Ret) : (s.give c r).uarts = s.uarts := by cases c <;> rfl
@[simp] theorem give_fl (c : Side) (r : Ret) : (s.give c r).fl = s.fl := by cases c <;> rfl
@[simp] theorem give_flash (c : Side) (r : Ret) : (s.give c r).flash = s.flash := by cases c <;> rfl
@[simp] theorem give_buf (c : Side) (r : Ret) : (s.give c r).buf = s.buf := by cases c <;> rfl
@[simp] theorem give_main (c : Side) (r : Ret) : (s.give c r).main = s.main := by cases c <;> rfl
@[simp] theorem give_irq (c : Side) (r : Ret) : (s.give c r).irq = s.irq := by cases c <;> rfl
@[simp] theorem give_trace (c : Side) (r : Ret) : (s.give c r).trace = s.trace := by cases c <;> rfl
@[simp] theorem give_sched (c : Side) (r : Ret) : (s.give c r).sched = s.sched := by cases c <;> rfl
@[simp] theorem give_draws (c : Side) (r : Ret) : (s.give c r).draws = s.draws := by cases c <;> rfl
@[simp] theorem giveMain_ret (r : Ret) : (s.give .main r).ret = r := rfl
@[simp] theorem giveMain_irqRets (r : Ret) : (s.give .main r).irqRets = s.irqRets := rfl
@[simp] theorem giveIrq_ret (r : Ret) : (s.give .irq r).ret = s.ret := rfl
@[simp] theorem giveIrq_irqRets (r : Ret) : (s.give .irq r).irqRets = s.irqRets ++ [r] := rfl

/-! ## `bufWrite` -/

@[simp] theorem bufWrite_cfg (r : BufRef) (i : Nat) (v : Word) : (s.bufWrite r i v).cfg = s.cfg := rfl
@[simp] theorem bufWrite_rings (r : BufRef) (i : Nat) (v : Word) : (s.bufWrite r i v).rings = s.rings := rfl
@[simp] theorem bufWrite_buses (r : BufRef) (i : Nat) (v : Word) : (s.bufWrite r i v).buses = s.buses := rfl
@[simp] theorem bufWrite_uarts (r : BufRef) (i : Nat) (v : Word) : (s.bufWrite r i v).uarts = s.uarts := rfl
@[simp] theorem bufWrite_fl (r : BufRef) (i : Nat) (v : Word) : (s.bufWrite r i v).fl = s.fl := rfl
@[simp] theorem bufWrite_flash (r : BufRef) (i : Nat) (v : Word) : (s.bufWrite r i v).flash = s.flash := rfl
@[simp] theorem bufWrite_buf (r : BufRef) (i : Nat) (v : Word) : (s.bufWrite r i v).buf = memSet 0 s.buf (r.cell i) v := rfl
@[simp] theorem bufWrite_main (r : BufRef) (i : Nat) (v : Word) : (s.bufWrite r i v).main = s.main := rfl
@[simp] theorem bufWrite_irq (r : BufRef) (i : Nat) (v : Word) : (s.bufWrite r i v).irq = s.irq := rfl
@[simp] theorem bufWrite_ret (r : BufRef) (i : Nat) (v : Word) : (s.bufWrite r i v).ret = s.ret := rfl
@[simp] theorem bufWrite_irqRets (r : BufRef) (i : Nat) (v : Word) : (s.bufWrite r i v).irqRets = s.irqRets := rfl
@[simp] theorem bufWrite_trace (r : BufRef) (i : Nat) (v : Word) : (s.bufWrite r i v).trace = s.trace := rfl
@[simp] theorem bufWrite_sched (r : BufRef) (i : Nat) (v : Word) : (s.bufWrite r i v).sched = s.sched := rfl
@[simp] theorem bufWrite_draws (r : BufRef) (i : Nat) (v : Word) : (s.bufWrite r i v).draws = s.draws := rfl

/-! ## `enterIrq` -/

@[simp] theorem enterIrq_cfg (h : List Micro) : (s.enterIrq h).cfg = s.cfg := rfl
@[simp] theorem enterIrq_rings (h : List Micro) : (s.enterIrq h).rings = s.rings := rfl
@[simp] theorem enterIrq_buses (h : List Micro) : (s.enterIrq h).buses = s.buses := rfl
@[simp] theorem enterIrq_uarts (h : List Micro) : (s.enterIrq h).uarts = s.uarts := rfl
@[simp] theorem enterIrq_fl (h : List Micro) : (s.enterIrq h).fl = s.fl := rfl
@[simp] theorem enterIrq_flash (h : List Micro) : (s.enterIrq h).flash = s.flash := rfl
@[simp] theorem enterIrq_buf (h : List Micro) : (s.enterIrq h).buf = s.buf := rfl
@[simp] theorem enterIrq_main (h : List Micro) : (s.enterIrq h).main = s.main := rfl
@[simp] theorem enterIrq_irq (h : List Micro) : (s.enterIrq h).irq = s.irq ++ h := rfl
@[simp] theorem enterIrq_ret (h : List Micro) : (s.enterIrq h).ret = s.ret := rfl
@[simp] theorem enterIrq_irqRets (h : List Micro) : (s.enterIrq h).irqRets = s.irqRets := rfl
@[simp] theorem enterIrq_trace (h : List Micro) : (s.enterIrq h).trace = s.trace := rfl
@[simp] theorem enterIrq_sched (h : List Micro) : (s.enterIrq h).sched = s.sched := rfl
@[simp] theorem enterIrq_draws (h : List Micro) : (s.enterIrq h).draws = s.draws := rfl

/-! ## `flReturn` -/

@[simp] theorem flReturn_cfg (r : Ret) : (s.flReturn r).cfg = s.cfg := rfl
@[simp] theorem flReturn_rings (r : Ret) : (s.flReturn r).rings = s.rings := rfl
@[simp] theorem flReturn_buses (r : Ret) : (s.flReturn r).buses = s.buses := rfl
@[simp] theorem flReturn_uarts (r : Ret) : (s.flReturn r).uarts = s.uarts := rfl
@[simp] theorem flReturn_fl (r : Ret) : (s.flReturn r).fl = { s.fl with phase := .idle, op := .none } := rfl
@[simp] theorem flReturn_flash (r : Ret) : (s.flReturn r).flash = s.flash := rfl
@[simp] theorem flReturn_buf (r : Ret) : (s.flReturn r).buf = s.buf := rfl
@[simp] theorem flReturn_main (r : Ret) : (s.flReturn r).main = s.main := rfl
@[simp] theorem flReturn_irq (r : Ret) : (s.flReturn r).irq = s.irq := rfl
@[simp] theorem flReturn_ret (r : Ret) : (s.flReturn r).ret = r := rfl
@[simp] theorem flReturn_irqRets (r : Ret) : (s.flReturn r).irqRets = s.irqRets := rfl
@[simp] theorem flReturn_trace (r : Ret) : (s.flReturn r).trace = s.trace := rfl
@[simp] theorem flReturn_sched (r : Ret) : (s.flReturn r).sched = s.sched := rfl
@[simp] theorem flReturn_draws (r : Ret) : (s.flReturn r).draws = s.draws := rfl

/-! ## `setMain` -/

@[simp] theorem setMain_cfg (p : List Micro) : (s.setProg .main p).cfg = s.cfg := rfl
@[simp] theorem setMain_rings (p : List Micro) : (s.setProg .main p).rings = s.rings := rfl
@[simp] theorem setMain_buses (p : List Micro) : (s.setProg .main p).buses = s.buses := rfl
@[simp] theorem setMain_uarts (p : List Micro) : (s.setProg .main p).uarts = s.uarts := rfl
@[simp] theorem setMain_fl (p : List Micro) : (s.setProg .main p).fl = s.fl := rfl
@[simp] theorem setMain_flash (p : List Micro) : (s.setProg .main p).flash = s.flash := rfl
@[simp] theorem setMain_buf (p : List Micro) : (s.setProg .main p).buf = s.buf := rfl
@[simp] theorem setMain_main (p : List Micro) : (s.setProg .main p).main = p := rfl
@[simp] theorem setMain_irq (p : List Micro) : (s.setProg .main p).irq = s.irq := rfl
@[simp] theorem setMain_ret (p : List Micro) : (s.setProg .main p).ret = s.ret := rfl
@[simp] theorem setMain_irqRets (p : List Micro) : (s.setProg .main p).irqRets = s.irqRets := rfl
@[simp] theorem setMain_trace (p : List Micro) : (s.setProg .main p).trace = s.trace := rfl
@[simp] theorem setMain_sched (p : List Micro) : (s.setProg .main p).sched = s.sched := rfl
@[simp] theorem setMain_draws (p : List Micro) : (s.setProg .main p).draws = s.draws := rfl

/-! ## `setIrq` -/

@[simp] theorem setIrq_cfg (p : List Micro) : (s.setProg .irq p).cfg = s.cfg := rfl
@[simp] theorem setIrq_rings (p : List Micro) : (s.setProg .irq p).rings = s.rings := rfl
@[simp] theorem setIrq_buses (p : List Micro) : (s.setProg .irq p).buses = s.buses := rfl
@[simp] theorem setIrq_uarts (p : List Micro) : (s.setProg .irq p).uarts = s.uarts := rfl
@[simp] theorem setIrq_fl (p : List Micro) : (s.setProg .irq p).fl = s.fl := rfl
@[simp] theorem setIrq_flash (p : List Micro) : (s.setProg .irq p).flash = s.flash := rfl
@[simp] theorem setIrq_buf (p : List Micro) : (s.setProg .irq p).buf = s.buf := rfl
@[simp] theorem setIrq_main (p : List Micro) : (s.setProg .irq p).main = s.main := rfl
@[simp] theorem setIrq_irq (p : List Micro) : (s.setProg .irq p).irq = p := rfl
@[simp] theorem setIrq_ret (p : List Micro) : (s.setProg .irq p).ret = s.ret := rfl
@[simp] theorem setIrq_irqRets (p : List Micro) : (s.setProg .irq p).irqRets = s.irqRets := rfl
@[simp] theorem setIrq_trace (p : List Micro) : (s.setProg .irq p).trace = s.trace := rfl
@[simp] theorem setIrq_sched (p : List Micro) : (s.setProg .irq p).sched = s.sched := rfl
@[simp] theorem setIrq_draws (p : List Micro) : (s.setProg .irq p).draws = s.draws := rfl

end Sys2Proof.Machine
end

