-- ==== Sys2Proof/Laws/Memory.lean ====
section
/-! SUPPORT. Laws of the sparse memories: read after write, and that every operation keeps the canonical form
(R70, R95, R96, log 8). -/

namespace Sys2Proof.Machine

variable {w : Nat} {d : BitVec w}

/-! ## The canonical form -/

theorem memFrom_mono {lo lo' : Nat} {m : List (Nat × BitVec w)} (h : memFrom lo m = true) (hl : lo' ≤ lo) :
    memFrom lo' m = true := by
  cases m with
  | nil => rfl
  | cons c m => simp only [memFrom, decide_eq_true_eq] at *; omega

theorem memWf_cons {k : Nat} {x : BitVec w} {m : List (Nat × BitVec w)} :
    memWf d ((k, x) :: m) = true ↔ x ≠ d ∧ memFrom (k + 1) m = true ∧ memWf d m = true := by
  simp [memWf, and_assoc]

/-- Below every listed address all is unlisted. -/
theorem memGet_below {m : List (Nat × BitVec w)} {a : Nat} (h : memFrom (a + 1) m = true) :
    memGet d m a = d := by
  cases m with
  | nil => rfl
  | cons c m =>
    simp only [memFrom, decide_eq_true_eq] at h
    simp [memGet, show a < c.1 by omega]

theorem memFrom_memSet {lo : Nat} {m : List (Nat × BitVec w)} {a : Nat} {v : BitVec w}
    (h : memFrom lo m = true) (hwf : memWf d m = true) (ha : lo ≤ a) :
    memFrom lo (memSet d m a v) = true := by
  cases m with
  | nil => simp only [memSet]; split <;> simp [memFrom, ha]
  | cons c m =>
    obtain ⟨k, x⟩ := c
    simp only [memFrom, decide_eq_true_eq] at h
    simp only [memSet]
    repeat' split
    all_goals first
      | exact memFrom_mono (memWf_cons.1 hwf).2.1 (by omega)
      | simp only [memFrom, decide_eq_true_eq]; omega

/-- A write keeps the form. -/
theorem memWf_memSet {m : List (Nat × BitVec w)} (hwf : memWf d m = true) (a : Nat) (v : BitVec w) :
    memWf d (memSet d m a v) = true := by
  induction m with
  | nil => simp only [memSet]; split <;> simp_all [memWf, memFrom]
  | cons c m ih =>
    obtain ⟨k, x⟩ := c
    obtain ⟨hx, hf, hm⟩ := memWf_cons.1 hwf
    simp only [memSet]
    split
    · split
      · exact hwf
      · exact memWf_cons.2 ⟨‹_›, by simp only [memFrom, decide_eq_true_eq]; omega, hwf⟩
    · split
      · split
        · exact hm
        · exact memWf_cons.2 ⟨‹_›, hf, hm⟩
      · exact memWf_cons.2 ⟨hx, memFrom_memSet hf hm (by omega), ih hm⟩

/-- A read of the address just written. -/
theorem memGet_memSet_self {m : List (Nat × BitVec w)} (hwf : memWf d m = true) (a : Nat) (v : BitVec w) :
    memGet d (memSet d m a v) a = v := by
  induction m with
  | nil => simp only [memSet]; split <;> simp_all [memGet]
  | cons c m ih =>
    obtain ⟨k, x⟩ := c
    obtain ⟨hx, hf, hm⟩ := memWf_cons.1 hwf
    simp only [memSet]
    split
    · split
      · simp_all [memGet]
      · simp [memGet]
    · split
      · split
        · rename_i h1 h2 h3; subst h2 h3; exact memGet_below hf
        · simp_all [memGet]
      · simp [memGet, *]

/-- A read of any other address. -/
theorem memGet_memSet_of_ne {m : List (Nat × BitVec w)} (hwf : memWf d m = true) {a b : Nat} (v : BitVec w)
    (h : b ≠ a) : memGet d (memSet d m a v) b = memGet d m b := by
  induction m with
  | nil =>
    simp only [memSet]; split <;> simp only [memGet]
    repeat' split
    all_goals rfl
  | cons c m ih =>
    obtain ⟨k, x⟩ := c
    obtain ⟨hx, hf, hm⟩ := memWf_cons.1 hwf
    simp only [memSet]
    split
    · split
      · rfl
      · simp only [memGet]
        repeat' split
        all_goals first | rfl | omega
    · split
      · split
        · rename_i h1 h2 h3; subst h2
          simp only [memGet]
          repeat' split
          · exact memGet_below (memFrom_mono hf (by omega))
          · rfl
        · simp only [memGet]
          repeat' split
          all_goals first | rfl | omega
      · simp only [memGet, ih hm]

/-- Both cases of a read after a write. -/
theorem memGet_memSet {m : List (Nat × BitVec w)} (hwf : memWf d m = true) (a b : Nat) (v : BitVec w) :
    memGet d (memSet d m a v) b = if b = a then v else memGet d m b := by
  split
  · subst b; exact memGet_memSet_self hwf a v
  · exact memGet_memSet_of_ne hwf v ‹_›

theorem memFrom_filter {lo : Nat} {m : List (Nat × BitVec w)} (p : Nat × BitVec w → Bool)
    (h : memFrom lo m = true) (hwf : memWf d m = true) : memFrom lo (m.filter p) = true := by
  induction m generalizing lo with
  | nil => rfl
  | cons c m ih =>
    obtain ⟨k, x⟩ := c
    obtain ⟨-, hf, hm⟩ := memWf_cons.1 hwf
    simp only [memFrom, decide_eq_true_eq] at h
    simp only [List.filter_cons]
    split
    · simpa [memFrom] using h
    · exact ih (memFrom_mono hf (by omega)) hm

/-- Unlisting a span keeps the form. -/
theorem memWf_memClear {m : List (Nat × BitVec w)} (hwf : memWf d m = true) (a n : Nat) :
    memWf d (memClear m a n) = true := by
  unfold memClear
  induction m with
  | nil => rfl
  | cons c m ih =>
    obtain ⟨k, x⟩ := c
    obtain ⟨hx, hf, hm⟩ := memWf_cons.1 hwf
    simp only [List.filter_cons]
    split
    · exact memWf_cons.2 ⟨hx, memFrom_filter _ hf hm, ih hm⟩
    · exact ih hm

/-- A read after a span has been unlisted. -/
theorem memGet_memClear {m : List (Nat × BitVec w)} (hwf : memWf d m = true) (a n b : Nat) :
    memGet d (memClear m a n) b = if a ≤ b ∧ b < a + n then d else memGet d m b := by
  unfold memClear
  induction m with
  | nil => simp [memGet]
  | cons c m ih =>
    obtain ⟨k, x⟩ := c
    obtain ⟨hx, hf, hm⟩ := memWf_cons.1 hwf
    have hb : b ≤ k → memGet d m b = d := fun h => memGet_below (memFrom_mono hf (by omega))
    simp only [List.filter_cons]
    split
    · rename_i hk
      simp only [Bool.or_eq_true, decide_eq_true_eq] at hk
      simp only [memGet, ih hm]
      repeat' split
      all_goals first | rfl | omega
    · rename_i hk
      simp only [Bool.or_eq_true, decide_eq_true_eq, not_or, Nat.not_lt, Nat.not_le] at hk
      simp only [ih hm, memGet]
      by_cases h1 : b < k
      · simp [h1, hb (by omega)]
      · by_cases h2 : b = k
        · subst h2; simp [hk.1, hk.2]
        · simp [h1, h2]

/-! ## Programming (R95) -/

/-- A program keeps the form. -/
theorem memWf_programBytes {m : List Host.Cell} (hwf : memWf erased m = true) (a : Nat) (ds : List Byte) :
    memWf erased (programBytes m a ds) = true := by
  induction ds generalizing m a with
  | nil => exact hwf
  | cons x ds ih => exact ih (memWf_memSet hwf _ _) _

/-- A read after a program: the AND inside the span, the old byte outside it. -/
theorem memGet_programBytes {m : List Host.Cell} (hwf : memWf erased m = true) (a : Nat) (ds : List Byte)
    (b : Nat) :
    memGet erased (programBytes m a ds) b =
      if a ≤ b ∧ b < a + ds.length then memGet erased m b &&& ds.getD (b - a) 0
      else memGet erased m b := by
  induction ds generalizing m a with
  | nil => simp [programBytes]
  | cons x ds ih =>
    simp only [programBytes, ih (memWf_memSet hwf _ _), memGet_memSet hwf, List.length_cons]
    by_cases h0 : b = a
    · subst h0; simp
    · by_cases h1 : a ≤ b ∧ b < a + (ds.length + 1)
      · have : b - a = (b - (a + 1)) + 1 := by omega
        rw [if_pos (by omega), if_pos h1, if_neg h0, this, List.getD_cons_succ]
      · rw [if_neg (by omega), if_neg h0, if_neg h1]

/-- The device's finish keeps the form. -/
theorem memWf_done {f : Flash} (hwf : memWf erased f.mem = true) : memWf erased f.done.mem = true := by
  unfold Flash.done
  cases f.pending with
  | none => exact hwf
  | program a ds => exact memWf_programBytes hwf a ds
  | erase a n => exact memWf_memClear hwf a n

/-! ## Buffers -/

/-- Different elements of different buffers stand in different cells: a caller buffer has `2^32` of them, the
driver's reply buffer all it needs (log 14). -/
theorem BufRef.cell_inj {r q : BufRef} {i j : Nat} (hi : r ≠ .loc → i < 2 ^ 32) (hj : q ≠ .loc → j < 2 ^ 32)
    (h : r.cell i = q.cell j) : r = q ∧ i = j := by
  cases r with
  | loc =>
    cases q with
    | loc => simp only [BufRef.cell] at h; exact ⟨rfl, by omega⟩
    | user y => have := hj (by simp); simp only [BufRef.cell] at h; omega
  | user x =>
    have := hi (by simp)
    cases q with
    | loc => simp only [BufRef.cell] at h; omega
    | user y =>
      have := hj (by simp)
      simp only [BufRef.cell] at h
      have hxy : x.toNat = y.toNat := by omega
      exact ⟨congrArg _ (BitVec.eq_of_toNat_eq hxy), by omega⟩

theorem bufRead_bufWrite_self {s : State} (h : memWf 0 s.buf = true) (r : BufRef) (i : Nat) (v : Word) :
    (s.bufWrite r i v).bufRead r i = v := memGet_memSet_self h _ v

theorem bufRead_bufWrite_of_ne {s : State} (h : memWf 0 s.buf = true) {r q : BufRef} {i j : Nat} (v : Word)
    (hne : q.cell j ≠ r.cell i) : (s.bufWrite r i v).bufRead q j = s.bufRead q j :=
  memGet_memSet_of_ne h v hne

theorem memOk_iff {s : State} : s.memOk = true ↔ memWf erased s.flash.mem = true ∧ memWf 0 s.buf = true := by
  simp [State.memOk]

/-- A buffer write keeps both forms. -/
theorem memOk_bufWrite {s : State} (h : s.memOk = true) (r : BufRef) (i : Nat) (v : Word) :
    (s.bufWrite r i v).memOk = true := by
  rw [memOk_iff] at *
  exact ⟨h.1, memWf_memSet h.2 _ _⟩

/-- Memory is in its form at reset. -/
theorem memOk_reset : State.reset.memOk = true := rfl

/-! ## Elements written in a row -/

/-- Elements of a buffer, written one after another from element `i` on. -/
def bufFill (q : BufRef) : Nat → List Word → List (Nat × Word) → List (Nat × Word)
  | _, [], m => m
  | i, w :: ws, m => bufFill q (i + 1) ws (memSet 0 m (q.cell i) w)

theorem BufRef.cell_eq (q : BufRef) (i : Nat) : q.cell i = q.cell 0 + i := by
  cases q <;> simp [BufRef.cell]

theorem memWf_bufFill (q : BufRef) (i : Nat) (ws : List Word) {m : List (Nat × Word)}
    (h : memWf 0 m = true) : memWf 0 (bufFill q i ws m) = true := by
  induction ws generalizing i m with
  | nil => exact h
  | cons w ws ih => exact ih _ (memWf_memSet h _ _)

/-- A read after elements have been written one after another. -/
theorem memGet_bufFill (q : BufRef) (i : Nat) (ws : List Word) {m : List (Nat × Word)}
    (h : memWf 0 m = true) (a : Nat) :
    memGet 0 (bufFill q i ws m) a =
      if q.cell i ≤ a ∧ a < q.cell i + ws.length then ws.getD (a - q.cell i) 0 else memGet 0 m a := by
  induction ws generalizing i m with
  | nil => simp [bufFill]
  | cons w ws ih =>
    have e : q.cell (i + 1) = q.cell i + 1 := by rw [q.cell_eq (i + 1), q.cell_eq i]; omega
    simp only [bufFill, ih _ (memWf_memSet h _ _), memGet_memSet h, e, List.length_cons]
    by_cases h0 : a = q.cell i
    · subst h0; simp
    · by_cases h1 : q.cell i ≤ a ∧ a < q.cell i + (ws.length + 1)
      · have : a - q.cell i = (a - (q.cell i + 1)) + 1 := by omega
        rw [if_pos (by omega), if_pos h1, this, List.getD_cons_succ]
      · rw [if_neg (by omega), if_neg h0, if_neg h1]

end Sys2Proof.Machine
end

