-- ==== Sys2Proof/Laws/Run.lean ====
section
/-! SUPPORT. Big steps: what a list of micro-steps does to the state, said once and composed (R378, R380,
R384). A proof about an operation composes these and never unfolds `runCtx`. -/

namespace Sys2Proof.Machine

/-! ## Contexts -/

@[simp] theorem prog_setProg (s : State) (c : Side) (p : List Micro) : (s.setProg c p).prog c = p := by
  cases c <;> rfl

@[simp] theorem setProg_setProg (s : State) (c : Side) (p q : List Micro) :
    (s.setProg c p).setProg c q = s.setProg c q := by
  cases c <;> rfl

@[simp] theorem setProg_cfg (s : State) (c : Side) (p : List Micro) : (s.setProg c p).cfg = s.cfg := by
  cases c <;> rfl

@[simp] theorem setProg_buses (s : State) (c : Side) (p : List Micro) : (s.setProg c p).buses = s.buses := by
  cases c <;> rfl

@[simp] theorem setProg_uarts (s : State) (c : Side) (p : List Micro) : (s.setProg c p).uarts = s.uarts := by
  cases c <;> rfl

@[simp] theorem setProg_rings (s : State) (c : Side) (p : List Micro) : (s.setProg c p).rings = s.rings := by
  cases c <;> rfl

@[simp] theorem setProg_flash (s : State) (c : Side) (p : List Micro) : (s.setProg c p).flash = s.flash := by
  cases c <;> rfl

@[simp] theorem setProg_fl (s : State) (c : Side) (p : List Micro) : (s.setProg c p).fl = s.fl := by
  cases c <;> rfl

@[simp] theorem setProg_buf (s : State) (c : Side) (p : List Micro) : (s.setProg c p).buf = s.buf := by
  cases c <;> rfl

@[simp] theorem setProg_draws (s : State) (c : Side) (p : List Micro) : (s.setProg c p).draws = s.draws := by
  cases c <;> rfl

@[simp] theorem setProg_trace (s : State) (c : Side) (p : List Micro) : (s.setProg c p).trace = s.trace := by
  cases c <;> rfl

@[simp] theorem setProg_sched (s : State) (c : Side) (p : List Micro) : (s.setProg c p).sched = s.sched := by
  cases c <;> rfl

@[simp] theorem setProg_ring? (s : State) (c : Side) (p : List Micro) (r : RingId) :
    (s.setProg c p).ring? r = s.ring? r := by
  cases c <;> cases r <;> rfl

@[simp] theorem andThen_next (s : State) (k : State → Out) : andThen (.next s) k = k s := rfl

/-! ## Runs -/

/-- In context `c`, the micro-steps `p` are `k` in number when taken from `s` with nothing in between, none
waits, and they lead to `t`, whatever is to be done after them. -/
def Runs (c : Side) (p : List Micro) (k : Nat) (s t : State) : Prop :=
  ∀ stop rest n, runCtx stop c (k + n) (s.setProg c (p ++ rest)) = runCtx stop c n (t.setProg c rest)

theorem Runs.nil (c : Side) (s : State) : Runs c [] 0 s s := fun stop rest n => by simp

/-- One micro-step, which may put others in its place. -/
theorem Runs.cons {c : Side} {m : Micro} {p p' : List Micro} {k : Nat} {s t u : State}
    (hm : ∀ q ms, micro m ms (s.setProg c q) = .more (t.setProg c q) (p' ++ ms))
    (h : Runs c (p' ++ p) k t u) : Runs c (m :: p) (k + 1) s u := fun stop rest n => by
  have e : k + 1 + n = (k + n) + 1 := by omega
  have := h stop rest n
  rw [e, runCtx]
  simp only [prog_setProg, List.cons_append]
  rw [hm]
  simpa using this

/-- One micro-step that is simply done. -/
theorem Runs.step {c : Side} {m : Micro} {s t : State}
    (hm : ∀ q ms, micro m ms (s.setProg c q) = .more (t.setProg c q) ms) : Runs c [m] 1 s t :=
  Runs.cons (p' := []) hm (Runs.nil c t)

theorem Runs.append {c : Side} {p q : List Micro} {k l : Nat} {s t u : State}
    (h₁ : Runs c p k s t) (h₂ : Runs c q l t u) : Runs c (p ++ q) (k + l) s u := fun stop rest n => by
  have a := h₁ stop (q ++ rest) (l + n)
  have b := h₂ stop rest n
  rw [List.append_assoc, show k + l + n = k + (l + n) by omega, a, b]

/-- A context with nothing to do does nothing. -/
theorem runCtx_nil (stop : Bool) (c : Side) (n : Nat) (s : State) (h : s.prog c = []) :
    runCtx stop c n s = .next s := by
  cases n with
  | zero => rfl
  | succ n => simp [runCtx, h]

theorem setProg_self (s : State) (c : Side) : s.setProg c (s.prog c) = s := by cases c <;> rfl

/-- A context that does all it has to do. -/
theorem runAll_of_runs {c : Side} {p : List Micro} {k : Nat} {s t : State}
    (h : Runs c p k s t) (hk : k ≤ progWeight (s.setProg c p) p) :
    runAll c (s.setProg c p) = .next (t.setProg c []) := by
  obtain ⟨n, hn⟩ := Nat.exists_eq_add_of_le hk
  have := h true [] n
  rw [List.append_nil] at this
  rw [runAll, prog_setProg, hn, this]
  exact runCtx_nil _ _ _ _ (by simp)

/-- A context that comes to a spin or a poll that does not end. -/
theorem runAll_of_waits {c : Side} {p q ms : List Micro} {m : Micro} {k : Nat} {s t u : State}
    (h : Runs c p k s t) (hm : micro m ms (t.setProg c (m :: ms)) = .wait u q)
    (hk : k < progWeight (s.setProg c (p ++ m :: ms)) (p ++ m :: ms)) :
    runAll c (s.setProg c (p ++ m :: ms)) = .next (u.setProg c q) := by
  obtain ⟨n, hn⟩ := Nat.exists_eq_add_of_le hk
  have := h true (m :: ms) (n + 1)
  rw [runAll, prog_setProg, hn, show k.succ + n = k + (n + 1) by omega, this, runCtx]
  simp [hm]

/-- A context whose next micro-step is refused. -/
theorem runAll_of_refuses {c : Side} {p ms : List Micro} {m : Micro} {k : Nat} {s t : State} {r : Refusal}
    (h : Runs c p k s t) (hm : micro m ms (t.setProg c (m :: ms)) = .refuse r)
    (hk : k < progWeight (s.setProg c (p ++ m :: ms)) (p ++ m :: ms)) :
    runAll c (s.setProg c (p ++ m :: ms)) = .refused r := by
  obtain ⟨n, hn⟩ := Nat.exists_eq_add_of_le hk
  have := h true (m :: ms) (n + 1)
  rw [runAll, prog_setProg, hn, show k.succ + n = k + (n + 1) by omega, this, runCtx]
  simp [hm]

theorem progWeight_append (s : State) (p q : List Micro) :
    progWeight s (p ++ q) = progWeight s p + progWeight s q := by
  induction p with
  | nil => simp [progWeight]
  | cons m p ih => simp only [List.cons_append, progWeight, ih]; omega

/-- Every micro-step counts. -/
theorem weight_pos (s : State) (m : Micro) : 1 ≤ m.weight s := by
  cases m <;> simp only [Micro.weight] <;> (try split) <;> omega

theorem length_le_progWeight (s : State) (p : List Micro) : p.length ≤ progWeight s p := by
  induction p with
  | nil => simp [progWeight]
  | cons m p ih => have := weight_pos s m; simp only [List.length_cons, progWeight]; omega

/-! ## An operation of MAIN -/

/-- With nothing in progress and no turn for the core, driving does nothing. -/
theorem drive_idle {ts : List Turn} {s : State} (hs : s.sched = ts) (hm : s.main = []) (hi : s.irq = []) :
    drive ts s = .next s := by
  subst hs
  cases s with
  | mk cfg rings buses uarts fl flash buf main irq ret irqRets trace sched draws =>
    simp only at hm hi
    subst hm hi
    cases sched with
    | nil => rfl
    | cons t ts => simp [drive, State.coreIdle]

/-- The shape of every operation of MAIN: its program runs, then the schedule goes on. -/
theorem startMain_quiet {p : List Micro} {s : State} (hq : s.quiet) :
    startMain p s = andThen (runAll .main { s with main := p, ret := .none }) fun s' => drive s'.sched s' := by
  obtain ⟨hm, hi, hs⟩ := hq
  have h : ({ s with main := p, ret := .none } : State).sliced = false := hs
  rw [startMain, whenMain, launch, h, hm, hi]
  rfl

/-- An operation of MAIN that runs undisturbed to its end. -/
theorem startMain_of_runs {p : List Micro} {k : Nat} {s t : State} (hq : s.quiet)
    (h : Runs .main p k { s with ret := .none } t)
    (hk : k ≤ progWeight { s with main := p, ret := .none } p)
    (hirq : t.irq = []) : startMain p s = .next { t with main := [] } := by
  have h1 := runAll_of_runs h hk
  rw [startMain_quiet hq]
  change andThen (runAll .main (State.setProg { s with ret := .none } .main p)) _ = _
  rw [h1, andThen_next]
  exact drive_idle rfl rfl hirq

/-- An operation of MAIN that stops at a spin or a poll, with no turn left to go on with. -/
theorem startMain_of_waits {p q ms : List Micro} {m : Micro} {k : Nat} {s t u : State} (hq : s.quiet)
    (h : Runs .main p k { s with ret := .none } t)
    (hm : micro m ms (t.setProg .main (m :: ms)) = .wait u q)
    (hk : k < progWeight { s with main := p ++ m :: ms, ret := .none } (p ++ m :: ms)) :
    startMain (p ++ m :: ms) s = drive u.sched { u with main := q } := by
  have h1 := runAll_of_waits h hm hk
  rw [startMain_quiet hq]
  change andThen (runAll .main (State.setProg { s with ret := .none } .main (p ++ m :: ms))) _ = _
  rw [h1, andThen_next]
  rfl

/-! ## A handler -/

/-- A handler that starts and runs undisturbed to its end. -/
theorem startIrq_of_runs {p : List Micro} {k : Nat} {s t : State} (hi : s.irq = []) (hs : s.sliced = false)
    (h : Runs .irq p k s t) (hk : k ≤ progWeight (s.setProg .irq p) p) :
    startIrq p s = .next { t with irq := [] } := by
  have h1 := runAll_of_runs h hk
  have h2 : s.enterIrq p = s.setProg .irq p := by simp [State.enterIrq, State.setProg, hi]
  have h3 : (s.setProg .irq p).sliced = false := hs
  rw [startIrq, h2, launch, if_neg (by simp [h3]), h1]
  rfl

end Sys2Proof.Machine
end

