-- ==== Sys2Proof/Laws/Rings.lean ====
section
/-! SUPPORT. The ring operations as big steps (R142, R146), for every ring and every context, and what they do
to the bytes a ring holds (R23, R152). -/

namespace Sys2Proof.Machine

/-! ## Replacing a ring -/

/-- The ring that was put in place is the one that is found there, when there was one. -/
theorem ring?_setRing {s : State} {r : RingId} {x : Ring} (y : Ring) (h : s.ring? r = some x) :
    (s.setRing r y).ring? r = some y := by
  cases r with
  | own i =>
    have hi : i < s.rings.length := (List.getElem?_eq_some_iff.1 h).1
    simp [State.ring?, State.setRing, hi]
  | tx u =>
    simp only [State.ring?, Option.map_eq_some_iff] at h
    obtain ⟨z, hz, -⟩ := h
    have hu : u < s.uarts.length := (List.getElem?_eq_some_iff.1 hz).1
    simp [State.ring?, State.setRing, State.setUart, hu]

/-- The last ring put in place is the one that stays. -/
theorem setRing_setRing {s : State} {r : RingId} {x : Ring} (y z : Ring) (h : s.ring? r = some x) :
    (s.setRing r y).setRing r z = s.setRing r z := by
  cases r with
  | own i => simp [State.setRing]
  | tx u =>
    simp only [State.ring?, Option.map_eq_some_iff] at h
    obtain ⟨w, hw, -⟩ := h
    have hu : u < s.uarts.length := (List.getElem?_eq_some_iff.1 hw).1
    simp [State.setRing, State.setUart, hu]

theorem setRing_setProg (s : State) (r : RingId) (x : Ring) (c : Side) (p : List Micro) :
    (s.setProg c p).setRing r x = (s.setRing r x).setProg c p := by
  cases r with
  | own i => cases c <;> rfl
  | tx u =>
    simp only [State.setRing, setProg_uarts]
    split <;> cases c <;> rfl

theorem give_setProg (s : State) (d : Side) (v : Ret) (c : Side) (p : List Micro) :
    (s.setProg c p).give d v = (s.give d v).setProg c p := by
  cases c <;> cases d <;> rfl

/-! ## The operations (R142, R146) -/

/-- What a push does: nothing to a full ring; to any other it adds the byte. Its result goes to the producer. -/
theorem runs_push (c : Side) {s : State} {r : RingId} {x : Ring} (b : Byte) (h : s.ring? r = some x) :
    ∃ k, k ≤ 3 ∧ Runs c [.pushSample r b .caller] k s
      (if x.full then s.give x.producer (.bool false)
      else (s.setRing r (x.pushed b)).give x.producer (.bool true)) := by
  by_cases hf : x.full = true
  · refine ⟨1, by omega, ?_⟩
    rw [if_pos hf]
    exact Runs.step fun q ms => by simp [micro, stepPushSample, withRing, h, hf, give_setProg]
  · refine ⟨3, by omega, ?_⟩
    rw [if_neg hf]
    refine Runs.cons (p' := [.pushStore r x.head ((x.head + 1) % x.n) b .caller]) (t := s) (fun q ms => by
      simp [micro, stepPushSample, withRing, h, hf]) ?_
    refine Runs.cons (p' := [.pushPublish r ((x.head + 1) % x.n) .caller])
      (t := s.setRing r { x with storage := x.storage.set x.head b }) (fun q ms => by
        simp [micro, stepPushStore, withRing, h, setRing_setProg]) ?_
    exact Runs.step fun q ms => by
      simp [micro, stepPushPublish, withRing, ring?_setRing _ h, setRing_setProg, give_setProg,
        setRing_setRing _ _ h, Ring.pushed]

/-- What a pull does: nothing to an empty ring; from any other it takes the oldest byte. Its result goes to the
consumer. -/
theorem runs_pull (c : Side) {s : State} {r : RingId} {x : Ring} (h : s.ring? r = some x) :
    ∃ k, k ≤ 3 ∧ Runs c [.pullSample r] k s
      (if x.empty then s.give x.consumer (.optByte none)
      else (s.setRing r x.pulled).give x.consumer (.optByte (some (x.storage.getD x.tail 0)))) := by
  by_cases he : x.empty = true
  · refine ⟨1, by omega, ?_⟩
    rw [if_pos he]
    exact Runs.step fun q ms => by simp [micro, stepPullSample, withRing, h, he, give_setProg]
  · refine ⟨3, by omega, ?_⟩
    rw [if_neg he]
    refine Runs.cons (p' := [.pullRead r x.tail]) (t := s) (fun q ms => by
      simp [micro, stepPullSample, withRing, h, he]) ?_
    refine Runs.cons (p' := [.pullPublish r x.tail (x.storage.getD x.tail 0)]) (t := s) (fun q ms => by
      simp [micro, stepPullRead, withRing, h]) ?_
    exact Runs.step fun q ms => by
      simp [micro, stepPullPublish, withRing, h, setRing_setProg, give_setProg, Ring.pulled]

/-! ## The bytes a ring holds (R23) -/

theorem Ring.ok_iff (r : Ring) :
    r.ok = true ↔ 1 ≤ r.n ∧ r.head < r.n ∧ r.tail < r.n ∧ r.storage.length = r.n := by
  simp [Ring.ok, and_assoc]

/-- The two cases of `count(r)`. -/
theorem Ring.count_eq {r : Ring} (h : r.ok = true) :
    r.count = if r.tail ≤ r.head then r.head - r.tail else r.head + r.n - r.tail := by
  obtain ⟨h1, h2, h3, -⟩ := r.ok_iff.1 h
  unfold Ring.count
  split
  · rw [show r.head + r.n - r.tail = (r.head - r.tail) + r.n by omega, Nat.add_mod_right,
      Nat.mod_eq_of_lt (by omega)]
  · rw [Nat.mod_eq_of_lt (by omega)]

/-- An index of the ring's storage, counted from the tail. -/
theorem Ring.slot_eq {r : Ring} (h : r.ok = true) {i : Nat} (hi : i < r.n) :
    (r.tail + i) % r.n = if r.tail + i < r.n then r.tail + i else r.tail + i - r.n := by
  obtain ⟨h1, h2, h3, -⟩ := r.ok_iff.1 h
  split
  · exact Nat.mod_eq_of_lt (by assumption)
  · rw [Nat.mod_eq_sub_mod (by omega), Nat.mod_eq_of_lt (by omega)]

theorem Ring.succ_mod {n a : Nat} (h : a < n) : (a + 1) % n = if a + 1 = n then 0 else a + 1 := by
  split
  · simp [*]
  · exact Nat.mod_eq_of_lt (by omega)

/-- An accepted push puts the byte last. -/
theorem Ring.contents_pushed {r : Ring} (b : Byte) (h : r.ok = true) (hf : r.full = false) :
    (r.pushed b).ok = true ∧ (r.pushed b).contents = r.contents ++ [b] := by
  obtain ⟨h1, h2, h3, h4⟩ := r.ok_iff.1 h
  have hf' : (r.head + 1) % r.n ≠ r.tail := by simpa [Ring.full] using hf
  have hn := Ring.succ_mod h2
  have hok : (r.pushed b).ok = true :=
    (Ring.ok_iff _).2 ⟨h1, Nat.mod_lt _ h1, h3, by simpa [Ring.pushed] using h4⟩
  have hc : (r.pushed b).count = r.count + 1 := by
    have e1 : (r.pushed b).head = if r.head + 1 = r.n then 0 else r.head + 1 := hn
    have e2 : (r.pushed b).tail = r.tail := rfl
    have e3 : (r.pushed b).n = r.n := rfl
    rw [hn] at hf'
    rw [Ring.count_eq hok, Ring.count_eq h, e1, e2, e3]
    by_cases hw : r.head + 1 = r.n
    · rw [if_pos hw] at hf' ⊢; split <;> split <;> omega
    · rw [if_neg hw] at hf' ⊢; split <;> split <;> omega
  have hlt : r.count < r.n := by rw [Ring.count_eq h]; split <;> omega
  refine ⟨hok, ?_⟩
  have hslot : (r.tail + r.count) % r.n = r.head := by
    rw [Ring.slot_eq h hlt, Ring.count_eq h]
    split <;> split <;> omega
  rw [Ring.contents, hc, List.range_succ, List.map_append, Ring.contents]
  congr 1
  · refine List.map_congr_left fun i hi => ?_
    have hi' : i < r.count := List.mem_range.1 hi
    have hne : (r.tail + i) % r.n ≠ r.head := by
      rw [← hslot, Ring.slot_eq h hlt, Ring.slot_eq h (by omega)]
      split <;> split <;> omega
    simp [Ring.pushed, List.getD_eq_getElem?_getD, hne.symm]
  · simp [Ring.pushed, hslot, List.getD_eq_getElem?_getD, h4, h2]

/-- A pull takes the first byte. -/
theorem Ring.contents_pulled {r : Ring} (h : r.ok = true) (he : r.empty = false) :
    r.pulled.ok = true ∧ r.contents = r.storage.getD r.tail 0 :: r.pulled.contents := by
  obtain ⟨h1, h2, h3, h4⟩ := r.ok_iff.1 h
  have he' : r.head ≠ r.tail := by simpa [Ring.empty] using he
  have hn := Ring.succ_mod h3
  have hok : r.pulled.ok = true := (Ring.ok_iff _).2 ⟨h1, h2, Nat.mod_lt _ h1, h4⟩
  have hc : r.count = r.pulled.count + 1 := by
    have e1 : r.pulled.tail = if r.tail + 1 = r.n then 0 else r.tail + 1 := hn
    have e2 : r.pulled.head = r.head := rfl
    have e3 : r.pulled.n = r.n := rfl
    rw [Ring.count_eq hok, Ring.count_eq h, e1, e2, e3]
    by_cases hw : r.tail + 1 = r.n
    · rw [if_pos hw]; split <;> split <;> omega
    · rw [if_neg hw]; split <;> split <;> omega
  refine ⟨hok, ?_⟩
  rw [Ring.contents, hc, List.range_succ_eq_map, List.map_cons, List.map_map, Ring.contents]
  congr 1
  · simp [Nat.mod_eq_of_lt h3]
  · refine List.map_congr_left fun i hi => ?_
    simp only [Function.comp, Ring.pulled, Nat.mod_add_mod]
    congr 2
    omega

end Sys2Proof.Machine
end

