-- ==== Sys2Proof/Laws/Handlers.lean ====
section
/-! SUPPORT. The three UART handlers that loop, as big steps (R230 to R244), and a handler that starts (R380). -/

namespace Sys2Proof.Machine

/-! ## A handler that starts (R368, R380) -/

/-- A ready handler that runs undisturbed to its end. -/
theorem dispatchIrq_of_runs {p : List Micro} {k : Nat} {s t : State} (hi : s.irq = []) (hs : s.sliced = false)
    (h : Runs .irq p k s t) (hk : k ≤ progWeight (s.setProg .irq p) p) :
    dispatchIrq true p s = .next { t with irq := [] } := by
  have he : (true && s.irq.isEmpty) = true := by simp [hi]
  rw [dispatchIrq, if_pos he]
  exact startIrq_of_runs hi hs h hk

/-- A handler that is not ready does nothing. -/
theorem dispatchIrq_not_ready (p : List Micro) (s : State) : dispatchIrq false p s = .next s := rfl

/-! ## Received bytes (R230) -/

/-- `m` bytes taken from the receive FIFO of UART `u`, which is `x`: those that fit are stored. -/
def rxAfter (s : State) (u : Nat) (x : Uart) (m : Nat) : State :=
  { s with
    uarts := s.uarts.set u { x with
      rxfifo := x.rxfifo.drop m, rxCount := x.rxCount + min m (x.rxCap - x.rxCount) }
    buf := bufFill x.rxBuf x.rxCount
      ((x.rxfifo.take (min m (x.rxCap - x.rxCount))).map (·.setWidth 16)) s.buf }

theorem rxAfter_zero {s : State} {u : Nat} {x : Uart} (h : s.uarts[u]? = some x) : rxAfter s u x 0 = s := by
  have : s.uarts.set u x = s.uarts := by
    obtain ⟨hu, rfl⟩ := List.getElem?_eq_some_iff.1 h
    exact List.set_getElem_self hu
  simp [rxAfter, bufFill, this]

/-- The instance after one byte has been taken. -/
def Uart.took (x : Uart) (rest : List Byte) : Uart :=
  { x with rxfifo := rest, rxCount := x.rxCount + min 1 (x.rxCap - x.rxCount) }

/-- One byte, then the rest. -/
theorem rxAfter_succ {s : State} {u : Nat} {x : Uart} {b : Byte} {rest : List Byte}
    (hu : s.uarts[u]? = some x) (h : x.rxfifo = b :: rest) (m : Nat) :
    (s.rxTake u x b rest).1.uarts[u]? = some (x.took rest) ∧
      (s.rxTake u x b rest).2 = decide (x.rxCap ≤ x.rxCount) ∧
      rxAfter (s.rxTake u x b rest).1 u (x.took rest) m = rxAfter s u x (m + 1) := by
  have hl := (List.getElem?_eq_some_iff.1 hu).1
  by_cases hc : x.rxCount < x.rxCap
  · have e0 : min 1 (x.rxCap - x.rxCount) = 1 := by omega
    refine ⟨by simp [State.rxTake, hc, hl, Uart.took, e0], by simp [State.rxTake, hc], ?_⟩
    have e1 : min (m + 1) (x.rxCap - x.rxCount) = min m (x.rxCap - (x.rxCount + 1)) + 1 := by omega
    simp only [rxAfter, State.rxTake, if_pos hc, setUart_uarts, setUart_buf, bufWrite_uarts, bufWrite_buf,
      List.set_set, h, e0, e1, Uart.took, List.take_succ_cons, List.map_cons, bufFill, List.drop_succ_cons]
    simp only [State.setUart, State.bufWrite, Nat.add_assoc, Nat.add_comm 1]
  · have e0 : x.rxCap - x.rxCount = 0 := by omega
    refine ⟨by simp [State.rxTake, hc, hl, Uart.took, e0], by simp [State.rxTake, hc]; omega, ?_⟩
    simp [rxAfter, State.rxTake, if_neg hc, h, e0, bufFill, State.setUart, Uart.took]

/-- Whether a byte is dropped among `m + 1`: the first, or one of the rest. -/
theorem dropped_succ (x : Uart) (rest : List Byte) (dropped : Bool) (m : Nat) :
    ((decide (x.rxCap ≤ x.rxCount) || dropped) ||
      decide ((x.took rest).rxCap - (x.took rest).rxCount < m)) =
    (dropped || decide (x.rxCap - x.rxCount < m + 1)) := by
  cases dropped
  · rw [Bool.or_false, Bool.false_or, ← Bool.decide_or, decide_eq_decide]
    simp only [Uart.took]
    omega
  · simp

theorem rxTake_setProg (s : State) (u : Nat) (x : Uart) (b : Byte) (rest : List Byte) (c : Side)
    (p : List Micro) :
    (s.setProg c p).rxTake u x b rest =
      ((s.rxTake u x b rest).1.setProg c p, (s.rxTake u x b rest).2) := by
  unfold State.rxTake
  split <;> cases c <;> rfl

theorem reportDropped_setProg (s : State) (u : Nat) (cb : Callbacks) (d : Bool) (c : Side) (p : List Micro) :
    (s.setProg c p).reportDropped u cb d = (s.reportDropped u cb d).setProg c p := by
  cases d <;> cases c <;> rfl

/-- The pops of the fill-level handler, and the report after the last (R232, R238). -/
theorem runs_rxLevel (c : Side) (u : Nat) : ∀ (m : Nat) (dropped : Bool) (s : State) (x : Uart),
    s.uarts[u]? = some x → m ≤ x.rxfifo.length →
    Runs c [.rxLevel u m dropped] (m + 1) s
      ((rxAfter s u x m).reportDropped u x.cb (dropped || decide (x.rxCap - x.rxCount < m))) := by
  intro m
  induction m with
  | zero =>
    intro dropped s x h hl
    rw [rxAfter_zero h]
    exact Runs.step fun q ms => by simp [micro, stepRxLevel, withUart, h, reportDropped_setProg]
  | succ m ih =>
    intro dropped s x h hl
    cases hf : x.rxfifo with
    | nil => simp [hf] at hl
    | cons b rest =>
      obtain ⟨hu, hd, he⟩ := rxAfter_succ h hf m
      have hl' : m ≤ (x.took rest).rxfifo.length := by rw [hf] at hl; simpa [Uart.took] using hl
      have hr := ih (decide (x.rxCap ≤ x.rxCount) || dropped) _ _ hu hl'
      rw [he, dropped_succ] at hr
      exact Runs.cons (p' := [.rxLevel u m (decide (x.rxCap ≤ x.rxCount) || dropped)])
        (t := (s.rxTake u x b rest).1)
        (fun q ms => by simp [micro, stepRxLevel, withUart, h, hf, rxTake_setProg, hd]) hr

/-- The flush of the timeout handler, its report, its callback and the re-arming (R234, R238). -/
theorem runs_rxFlush (c : Side) (u : Nat) : ∀ (m : Nat) (dropped : Bool) (s : State) (x : Uart),
    s.uarts[u]? = some x → x.rxfifo.length = m →
    Runs c [.rxFlush u dropped] (m + 1) s
      ((((rxAfter s u x m).reportDropped u x.cb (dropped || decide (x.rxCap - x.rxCount < m))).emit
        (.call x.cb.frameReceived u
          (.frameReceived x.rxBuf (x.rxCount + min m (x.rxCap - x.rxCount))))).setUart u
        { x with rxfifo := [], rxCount := 0 }) := by
  intro m
  induction m with
  | zero =>
    intro dropped s x h hl
    have hx : x.rxfifo = [] := List.length_eq_zero_iff.1 hl
    rw [rxAfter_zero h]
    refine Runs.step fun q ms => ?_
    simp only [micro, stepRxFlush, withUart, setProg_uarts, h, hx, reportDropped_setProg, Nat.zero_min,
      Nat.add_zero, Nat.not_lt_zero, decide_false, Bool.or_false]
    cases c <;> rfl
  | succ m ih =>
    intro dropped s x h hl
    cases hf : x.rxfifo with
    | nil => simp [hf] at hl
    | cons b rest =>
      obtain ⟨hu, hd, he⟩ := rxAfter_succ h hf m
      have hl' : (x.took rest).rxfifo.length = m := by rw [hf] at hl; simpa [Uart.took] using hl
      have hr := ih (decide (x.rxCap ≤ x.rxCount) || dropped) _ _ hu hl'
      have hn : (x.took rest).rxCount + min m ((x.took rest).rxCap - (x.took rest).rxCount) =
          x.rxCount + min (m + 1) (x.rxCap - x.rxCount) := by simp only [Uart.took]; omega
      rw [he, dropped_succ, hn] at hr
      exact Runs.cons (p' := [.rxFlush u (decide (x.rxCap ≤ x.rxCount) || dropped)])
        (t := (s.rxTake u x b rest).1)
        (fun q ms => by simp [micro, stepRxFlush, withUart, h, hf, rxTake_setProg, hd]) hr

/-! ## The transmit path (R244) -/

/-- A ring is empty when its count is 0 (R23). -/
theorem Ring.empty_iff {r : Ring} (h : r.ok = true) : r.empty = true ↔ r.count = 0 := by
  obtain ⟨h1, h2, h3, -⟩ := r.ok_iff.1 h
  rw [Ring.count_eq h]
  simp only [Ring.empty, beq_iff_eq]
  split <;> omega

/-- `m` bytes moved from the ring to the FIFO of UART `u`, which is `x`; the handler disables itself when the
ring runs out first. -/
def txAfter (s : State) (u : Nat) (x : Uart) (m : Nat) : State :=
  { s with uarts := s.uarts.set u { x with
      txring := { x.txring with tail := (x.txring.tail + m) % x.txring.n }
      txfifo := x.txfifo ++ x.txring.contents.take m
      ieTxLevel := if x.txfifo.length + x.txring.count < s.cfg.uartFifoDepth then false
        else x.ieTxLevel } }

/-- The instance after one byte has moved from its ring to its FIFO. -/
def Uart.moved (x : Uart) : Uart :=
  { x with
    txring := x.txring.pulled
    txfifo := x.txfifo ++ [x.txring.storage.getD x.txring.tail 0] }

/-- The drain loop: the ring's oldest bytes go to the FIFO until it is full or the ring empty. -/
theorem runs_txDrain (c : Side) (u : Nat) : ∀ (m : Nat) (s : State) (x : Uart),
    s.uarts[u]? = some x → x.txring.ok = true → x.txfifo.length ≤ s.cfg.uartFifoDepth →
    m = min x.txring.count (s.cfg.uartFifoDepth - x.txfifo.length) →
    Runs c [.txDrain u] (m + 1) s (txAfter s u x m) := by
  intro m
  induction m with
  | zero =>
    intro s x h hok hl hm
    obtain ⟨h1, h2, h3, -⟩ := x.txring.ok_iff.1 hok
    have hset : ∀ y : Uart, y = x → s.uarts.set u y = s.uarts := by
      rintro y rfl
      obtain ⟨hu, hx⟩ := List.getElem?_eq_some_iff.1 h
      rw [← hx]
      exact List.set_getElem_self hu
    by_cases hfull : x.txfifo.length = s.cfg.uartFifoDepth
    · have : txAfter s u x 0 = s := by
        rw [txAfter, hset _ (by simp [Nat.mod_eq_of_lt h3, hfull])]
      rw [this]
      exact Runs.step fun q ms => by simp [micro, stepTxDrain, withUart, h, hfull]
    · have hc : x.txring.count = 0 := by omega
      have he := (Ring.empty_iff hok).2 hc
      refine Runs.step fun q ms => ?_
      simp only [micro, stepTxDrain, withUart, setProg_uarts, setProg_cfg, h, if_neg hfull, he, if_true]
      have : txAfter s u x 0 = s.setUart u { x with ieTxLevel := false } := by
        simp only [txAfter, State.setUart, Nat.add_zero, Nat.mod_eq_of_lt h3, List.take_zero, List.append_nil,
          hc, if_pos (show x.txfifo.length < s.cfg.uartFifoDepth by omega)]
      rw [this]
      cases c <;> rfl
  | succ m ih =>
    intro s x h hok hl hm
    obtain ⟨h1, h2, h3, -⟩ := x.txring.ok_iff.1 hok
    have hc : x.txring.count ≠ 0 := by omega
    have he : x.txring.empty = false := by
      rw [← Bool.not_eq_true, Ring.empty_iff hok]; exact hc
    have hnf : x.txfifo.length ≠ s.cfg.uartFifoDepth := by omega
    obtain ⟨hok', hcont⟩ := Ring.contents_pulled hok he
    have hcnt : x.txring.count = x.txring.pulled.count + 1 := by
      have := congrArg List.length hcont
      simpa [Ring.contents] using this
    have hu := (List.getElem?_eq_some_iff.1 h).1
    have hr := ih (s.setUart u x.moved) x.moved (by simp [hu]) hok'
      (by simp [Uart.moved]; omega) (by simp [Uart.moved]; omega)
    have hs : txAfter (s.setUart u x.moved) u x.moved m = txAfter s u x (m + 1) := by
      have e1 : (x.txring.pulled.tail + m) % x.txring.pulled.n =
          (x.txring.tail + (m + 1)) % x.txring.n := by
        simp only [Ring.pulled, Nat.mod_add_mod]
        congr 1
        omega
      have e2 : x.txfifo.length + 1 + x.txring.pulled.count = x.txfifo.length + x.txring.count := by omega
      simp only [txAfter, Uart.moved, setUart_uarts, setUart_cfg, List.set_set, e1, hcont, List.take_succ_cons,
        List.append_assoc, List.singleton_append, List.length_append, List.length_singleton, e2]
      rfl
    rw [hs] at hr
    refine Runs.cons (p' := [.txDrain u]) (t := s.setUart u x.moved) (fun q ms => ?_) hr
    simp only [micro, stepTxDrain, withUart, setProg_uarts, setProg_cfg, h, if_neg hnf, he]
    cases c <;> rfl

end Sys2Proof.Machine
end

