-- ==== Sys2Proof/Laws/Driver.lean ====
section
/-! SUPPORT. What a micro-step does to `State.DriverInv` (R38 f and g): nothing in either context breaks it, so a
running context keeps it. -/

namespace Sys2Proof.Machine

/-! ## The clauses, one instance and one list at a time -/

/-- R38 (f) for instance `u`, which is `x`, with the micro-steps `l` still to be done by either context. -/
def txOk (l : List Micro) (u : Nat) (x : Uart) : Prop :=
  (x.txring.empty = false → x.ieTxLevel = true ∨ Micro.enableTx u ∈ l) ∧
  (x.mode = .idle ∨ x.mode = .pollingBound → x.txring.empty = true ∧ l.all (!·.writes u) = true)

theorem txInv_iff (s : State) :
    s.txInv ↔ ∀ u x, s.uarts[u]? = some x → txOk (s.main ++ s.irq) u x := Iff.rfl

/-- Only which micro-steps are left counts, not in which context. -/
theorem txOk_congr {l l' : List Micro} (h : ∀ a, a ∈ l ↔ a ∈ l') {u : Nat} {x : Uart} (hx : txOk l u x) :
    txOk l' u x := by
  refine ⟨fun e => (hx.1 e).imp id (h _).1, fun e => ⟨(hx.2 e).1, ?_⟩⟩
  have := (hx.2 e).2
  rw [List.all_eq_true] at this ⊢
  exact fun a ha => this a ((h a).2 ha)

/-- A micro-step that does not touch the instance gives way to `q`. -/
theorem txOk_next {m : Micro} {q rest : List Micro} {u : Nat} {x : Uart} (he : m ≠ .enableTx u)
    (hw : m.writes u = false → q.all (!·.writes u) = true) (hx : txOk (m :: rest) u x) :
    txOk (q ++ rest) u x := by
  refine ⟨fun e => (hx.1 e).imp id fun h => List.mem_append_right _ ?_, fun e => ⟨(hx.2 e).1, ?_⟩⟩
  · exact (List.mem_cons.1 h).resolve_left he.symm
  · have := (hx.2 e).2
    rw [List.all_cons, Bool.and_eq_true, Bool.not_eq_true'] at this
    rw [List.all_append, hw this.1, this.2]
    rfl

/-- R38 (f) after a step that leaves `l'` to do where `l` was left before. -/
theorem txInv_step {s t : State} {l l' : List Micro} (hl : ∀ a, a ∈ s.main ++ s.irq ↔ a ∈ l)
    (hl' : ∀ a, a ∈ l' ↔ a ∈ t.main ++ t.irq) (h : s.txInv)
    (hs : ∀ u x', t.uarts[u]? = some x' → ∃ x, s.uarts[u]? = some x ∧ (txOk l u x → txOk l' u x')) :
    t.txInv := fun u x' hx => by
  obtain ⟨x, h1, h2⟩ := hs u x' hx
  exact txOk_congr hl' (h2 (txOk_congr hl (h u x h1)))

/-- The instance of `t` for an index, where one instance of `s` has been set. -/
theorem getElem?_of_set {l l' : List Uart} {v u : Nat} {y' x' : Uart} (hu : l' = l.set v y')
    (hx : l'[u]? = some x') : (u = v ∧ x' = y') ∨ (u ≠ v ∧ l[u]? = some x') := by
  subst hu
  by_cases h : v = u
  · subst h
    have := (List.getElem?_eq_some_iff.1 hx).1
    simp only [List.length_set] at this
    simp [this] at hx
    exact .inl ⟨rfl, hx.symm⟩
  · rw [List.getElem?_set_ne h] at hx
    exact .inr ⟨Ne.symm h, hx⟩

theorem flTail_append (p q : List Micro) (hp : flTail p = true) (hq : flTail q = true) :
    flTail (p ++ q) = true := by
  induction p with
  | nil => simpa
  | cons m p ih =>
    simp only [flTail, Bool.and_eq_true] at hp
    simp only [List.cons_append, flTail, Bool.and_eq_true, ih hp.2, and_true]
    revert hp; cases m <;> simp +contextual

/-! ## What a micro-step leaves alone -/

/-- The instances, the driver and the interrupt context are as before. -/
def SameDriver (s t : State) : Prop := t.uarts = s.uarts ∧ t.fl = s.fl ∧ t.irq = s.irq

theorem SameDriver.trans {s t u : State} (h : SameDriver s t) (k : SameDriver t u) : SameDriver s u :=
  ⟨k.1.trans h.1, k.2.1.trans h.2.1, k.2.2.trans h.2.2⟩

theorem give_same (s : State) (c : Side) (r : Ret) : SameDriver s (s.give c r) := by
  cases c <;> exact ⟨rfl, rfl, rfl⟩

theorem exchange_same {s t : State} {b : Nat} {w : Word} {r : Reply} (h : s.exchange b w = .ok (r, t)) :
    SameDriver s t := by
  unfold State.exchange at h
  split at h
  · cases h
  · simp only at h
    split at h
    · split at h
      · cases h
      · cases h; exact ⟨rfl, rfl, rfl⟩
    · cases h; exact ⟨rfl, rfl, rfl⟩

theorem srcWord_same (s : State) (src : Src) (i : Nat) : SameDriver s (s.srcWord src i).2 := by
  cases src <;> exact ⟨rfl, rfl, rfl⟩

theorem dstWord_same (s : State) (b : Nat) (dst : Dst) (i : Nat) (v : Word) :
    SameDriver s (s.dstWord b dst i v) := by
  cases dst with
  | buf r => exact ⟨rfl, rfl, rfl⟩
  | scratch => simp only [State.dstWord]; split <;> exact ⟨rfl, rfl, rfl⟩

theorem transferWord_same {s t : State} {b : Nat} {src : Src} {dst : Dst} {i : Nat}
    (h : s.transferWord b src dst i = .ok t) : SameDriver s t := by
  unfold State.transferWord at h
  split at h
  · cases h
  · rename_i r s' he
    cases h
    exact ((srcWord_same s src i).trans (exchange_same he)).trans (dstWord_same s' b dst i r.toWord)

theorem releaseCs_same {s t : State} {b : Nat} {x : Bus} (h : s.releaseCs b x = .ok t) : SameDriver s t := by
  unfold State.releaseCs at h
  simp only at h
  split at h
  · split at h
    · cases h
    · cases h; exact ⟨rfl, rfl, rfl⟩
  · cases h; exact ⟨rfl, rfl, rfl⟩

theorem assertCs_same (s : State) (b : Nat) (x : Bus) : SameDriver s (s.assertCs b x) := by
  unfold State.assertCs; simp only; split <;> exact ⟨rfl, rfl, rfl⟩

theorem reportDropped_same (s : State) (u : Nat) (cb : Callbacks) (d : Bool) :
    SameDriver s (s.reportDropped u cb d) := by
  cases d <;> exact ⟨rfl, rfl, rfl⟩

theorem reportDropped_main (s : State) (u : Nat) (cb : Callbacks) (d : Bool) :
    (s.reportDropped u cb d).main = s.main := by
  cases d <;> rfl

/-! ## A micro-step of MAIN -/

/-- What a micro-step of context `c` leads to keeps the invariant. -/
def MRes.Driver (o : MRes) (c : Side) : Prop :=
  match o with
  | .more t p | .wait t p => (t.setProg c p).DriverInv
  | .refuse _ => True

/-- MAIN's next micro-step gives way to `q`: what is left to do. -/
theorem left_main {s t : State} {m : Micro} {ms q : List Micro} (hmain : s.main = m :: ms) (hi : t.irq = s.irq) :
    (∀ a, a ∈ s.main ++ s.irq ↔ a ∈ m :: (ms ++ s.irq)) ∧
      ∀ a, a ∈ q ++ (ms ++ s.irq) ↔ a ∈ (t.setProg .main (q ++ ms)).main ++ (t.setProg .main (q ++ ms)).irq := by
  constructor <;> intro a <;> simp [hmain, hi, State.setProg]

/-- MAIN's next micro-step leaves the instances and the phase alone and gives way to `q`. -/
theorem main_plain {s t : State} {m : Micro} {ms q : List Micro} (h : s.DriverInv) (hmain : s.main = m :: ms)
    (hu : t.uarts = s.uarts) (hf : t.fl.phase = s.fl.phase ∧ t.fl.op = s.fl.op) (hi : t.irq = s.irq)
    (hq : q.all Micro.mainOk = true) (hqt : flTail q = true)
    (hme : m.flEnds = true → q.any Micro.flEnds = true) (he : ∀ u, m ≠ .enableTx u)
    (hqw : ∀ u, m.writes u = false → q.all (!·.writes u) = true) :
    (t.setProg .main (q ++ ms)).DriverInv := by
  obtain ⟨h1, h2, h3, h4, h5⟩ := h
  have hl := left_main (q := q) hmain hi
  rw [hmain] at h1 h4 h5
  simp only [List.all_cons, Bool.and_eq_true, flTail, List.any_cons, Bool.or_eq_true] at h1 h4 h5
  refine ⟨by simp [State.setProg, hq, h1.2], by simpa [State.setProg, hi] using h2, ?_,
    flTail_append _ _ hqt h4.2, ?_⟩
  · exact txInv_step hl.1 hl.2 h3 fun u x hx =>
      ⟨x, by simpa [State.setProg, hu] using hx, txOk_next (he u) (hqw u)⟩
  · show (q ++ ms).any _ = true ∨ _
    rw [List.any_append, Bool.or_eq_true]
    rcases h5 with (h5 | h5) | h5
    · exact .inl (.inl (hme h5))
    · exact .inl (.inr h5)
    · right; simpa [State.setProg, hf] using h5

/-- MAIN's next micro-step changes one instance and gives way to `q`. -/
theorem main_uart {s t : State} {m : Micro} {ms q : List Micro} {v : Nat} {y y' : Uart} (h : s.DriverInv)
    (hmain : s.main = m :: ms) (hy : s.uarts[v]? = some y) (hu : t.uarts = s.uarts.set v y')
    (hf : t.fl = s.fl) (hi : t.irq = s.irq) (hq : q.all Micro.mainOk = true) (hqt : flTail q = true)
    (hme : m.flEnds = false) (he : ∀ u, u ≠ v → m ≠ .enableTx u)
    (hqw : ∀ u, u ≠ v → m.writes u = false → q.all (!·.writes u) = true)
    (hv : txOk (m :: (ms ++ s.irq)) v y → txOk (q ++ (ms ++ s.irq)) v y') :
    (t.setProg .main (q ++ ms)).DriverInv := by
  obtain ⟨h1, h2, h3, h4, h5⟩ := h
  have hl := left_main (q := q) hmain hi
  rw [hmain] at h1 h4 h5
  simp only [List.all_cons, Bool.and_eq_true, flTail, List.any_cons, Bool.or_eq_true] at h1 h4 h5
  refine ⟨by simp [State.setProg, hq, h1.2], by simpa [State.setProg, hi] using h2, ?_,
    flTail_append _ _ hqt h4.2, ?_⟩
  · refine txInv_step hl.1 hl.2 h3 fun u x hx => ?_
    rcases getElem?_of_set (l' := (t.setProg .main (q ++ ms)).uarts) hu hx with ⟨rfl, rfl⟩ | ⟨hne, hx⟩
    · exact ⟨y, hy, hv⟩
    · exact ⟨x, hx, txOk_next (he u hne) (hqw u hne)⟩
  · show (q ++ ms).any _ = true ∨ _
    rw [List.any_append, Bool.or_eq_true]
    rcases h5 with (h5 | h5) | h5
    · simp [hme] at h5
    · exact .inl (.inr h5)
    · right; simpa [State.setProg, hf] using h5

/-- R38 (f) when MAIN's next micro-step touches no instance and is simply done. -/
theorem txInv_main {s t : State} {m : Micro} {ms : List Micro} (h : s.txInv) (hmain : s.main = m :: ms)
    (hu : t.uarts = s.uarts) (hi : t.irq = s.irq) (he : ∀ u, m ≠ .enableTx u) :
    (t.setProg .main ms).txInv := by
  have hl := left_main (q := []) hmain hi
  exact txInv_step hl.1 hl.2 h fun u x hx =>
    ⟨x, by simpa [State.setProg, hu] using hx, txOk_next (he u) fun _ => rfl⟩

/-- MAIN's next micro-step ends an `FL` operation. -/
theorem main_end {s t : State} {m : Micro} {ms : List Micro} (h : s.DriverInv) (hmain : s.main = m :: ms)
    (hu : t.uarts = s.uarts) (hf : t.fl.phase = .idle ∧ t.fl.op = .none) (hi : t.irq = s.irq)
    (he : ∀ u, m ≠ .enableTx u) : (t.setProg .main ms).DriverInv := by
  obtain ⟨h1, h2, h3, h4, h5⟩ := h
  have h3' := txInv_main h3 hmain hu hi he
  rw [hmain] at h1 h4
  simp only [List.all_cons, Bool.and_eq_true, flTail] at h1 h4
  exact ⟨h1.2, by simpa [State.setProg, hi] using h2, h3', h4.2, .inr hf⟩

/-- MAIN's next micro-step starts an `FL` operation or changes its phase. -/
theorem main_begin {s t : State} {m : Micro} {ms : List Micro} (h : s.DriverInv) (hmain : s.main = m :: ms)
    (hu : t.uarts = s.uarts) (hi : t.irq = s.irq) (he : ∀ u, m ≠ .enableTx u)
    (hm : (∃ a b c, m = .flBegin a b c) ∨ ∃ p, m = .flPhase p) : (t.setProg .main ms).DriverInv := by
  obtain ⟨h1, h2, h3, h4, h5⟩ := h
  have h3' := txInv_main h3 hmain hu hi he
  rw [hmain] at h1 h4
  have hany : ms.any Micro.flEnds = true := by
    rcases hm with ⟨a, b, c, rfl⟩ | ⟨p, rfl⟩ <;> (simp only [flTail, Bool.and_eq_true] at h4; exact h4.1)
  simp only [List.all_cons, Bool.and_eq_true, flTail] at h1 h4
  exact ⟨h1.2, by simpa [State.setProg, hi] using h2, h3', h4.2, .inl hany⟩

/-- A frame is MAIN's own, ends no operation, and writes to no UART. -/
theorem frameProg_driver (c : Config) (hdr : List Byte) (p : Payload) :
    (frameProg c hdr p).all Micro.mainOk = true ∧ flTail (frameProg c hdr p) = true ∧
      ∀ u, (frameProg c hdr p).all (!·.writes u) = true := by
  cases p <;>
    simp only [frameProg, payloadProg, selectProg, txBytes, transferProg, deselectProg, dmaProg] <;>
    (try split) <;> simp [Micro.mainOk, flTail, Micro.writes]

/-- No micro-step of MAIN breaks the invariant. -/
theorem micro_main_driver (s : State) (m : Micro) (ms : List Micro) (h : s.DriverInv)
    (hmain : s.main = m :: ms) : MRes.Driver (micro m ms s) .main := by
  have hok : m.mainOk = true := by have := h.1; rw [hmain] at this; simp at this; exact this.1
  have plain0 : ∀ t : State, t.uarts = s.uarts → t.fl = s.fl → t.irq = s.irq → m.flEnds = false →
      (∀ u, m ≠ .enableTx u) → (t.setProg .main ms).DriverInv :=
    fun t h1 h2 h3 h4 h5 =>
      main_plain (q := []) h hmain h1 (by simp [h2]) h3 rfl rfl (by simp [h4]) h5 (fun _ _ => rfl)
  have plain1 : ∀ (t : State) m', t.uarts = s.uarts → t.fl = s.fl → t.irq = s.irq → m.flEnds = false →
      (∀ u, m ≠ .enableTx u) → m'.mainOk = true → flTail [m'] = true →
      (∀ u, m.writes u = false → m'.writes u = false) → (t.setProg .main (m' :: ms)).DriverInv :=
    fun t m' h1 h2 h3 h4 h5 h6 h7 h8 =>
      main_plain (q := [m']) h hmain h1 (by simp [h2]) h3 (by simp [h6]) h7 (by simp [h4]) h5
        (fun u hu => by simp [h8 u hu])
  cases m with
  | spinIdle b =>
    simp only [micro, stepSpinIdle, withBus]
    split
    · split
      · exact plain0 _ rfl rfl rfl rfl (by simp)
      · exact plain1 _ _ rfl rfl rfl rfl (by simp) rfl rfl (by simp)
    · trivial
  | selectBus b =>
    simp only [micro, stepSelectBus, withBus]
    split
    · split
      · trivial
      · obtain ⟨a1, a2, a3⟩ := assertCs_same s b ‹_›
        exact plain0 _ a1 a2 a3 rfl (by simp)
    · trivial
  | deselectBus b =>
    simp only [micro, stepDeselectBus, withBus]
    split
    · split
      · split
        · obtain ⟨a1, a2, a3⟩ := releaseCs_same ‹_›
          exact plain0 _ a1 a2 a3 rfl (by simp)
        · trivial
      · trivial
    · trivial
  | spinDma b =>
    simp only [micro, stepSpinDma, withBus]
    split
    · split
      · exact plain1 _ _ rfl rfl rfl rfl (by simp) rfl rfl (by simp)
      · exact plain0 _ rfl rfl rfl rfl (by simp)
    · trivial
  | xfer b src dst i n =>
    simp only [micro, stepXfer]
    split
    · trivial
    split
    · obtain ⟨a1, a2, a3⟩ := transferWord_same ‹_›
      split
      · exact plain1 _ _ a1 a2 a3 rfl (by simp) rfl rfl (by simp [Micro.writes])
      · exact plain0 _ a1 a2 a3 rfl (by simp)
    · trivial
  | dmaStage b tx rx c =>
    simp only [micro, stepDmaStage, withBus]
    split
    · split
      · trivial
      · split
        · trivial
        · split
          · trivial
          · exact plain0 _ rfl rfl rfl rfl (by simp)
    · trivial
  | dmaEnable b =>
    simp only [micro, stepDmaEnable, withBus]
    split
    · exact plain0 _ rfl rfl rfl rfl (by simp)
    · trivial
  | pushSample r b k =>
    simp only [micro, stepPushSample, withRing]
    split
    · split
      · exact plain0 _ (by simp) (by simp) (by simp) rfl (by simp)
      · exact plain1 _ _ rfl rfl rfl rfl (by simp) (by cases r <;> simpa [Micro.mainOk] using hok) rfl
          (by simp [Micro.writes])
    · trivial
  | pushStore r hh n b k =>
    simp only [micro, stepPushStore, withRing]
    split
    · rename_i x hx
      cases r with
      | own i =>
        exact plain1 _ _ rfl rfl rfl rfl (by simp) (by simpa [Micro.mainOk] using hok) rfl
          (by simp [Micro.writes])
      | tx u =>
        simp only [State.ring?, Option.map_eq_some_iff] at hx
        obtain ⟨y, hy, rfl⟩ := hx
        simp only [State.setRing, hy]
        refine main_uart (q := [_]) h hmain hy rfl rfl rfl (by simpa [Micro.mainOk] using hok) rfl rfl
          (by simp) (by simp [Micro.writes]) ?_
        rintro ⟨a, b⟩
        refine ⟨fun he => ?_, fun hm => ?_⟩
        · simpa using a he
        · have := b hm; simp [Micro.writes] at this
    · trivial
  | pushPublish r n k =>
    simp only [micro, stepPushPublish, withRing]
    split
    · rename_i x hx
      cases r with
      | own i =>
        have hk : k = .caller := by simpa [Micro.mainOk] using hok
        subst hk
        exact plain0 _ (by simp [State.setRing]) (by simp [State.setRing]) (by simp [State.setRing]) rfl
          (by simp)
      | tx u =>
        have hk : k = .write u := by simpa [Micro.mainOk] using hok
        subst hk
        simp only [State.ring?, Option.map_eq_some_iff] at hx
        obtain ⟨y, hy, rfl⟩ := hx
        simp only [State.setRing, hy]
        refine main_uart (q := [_]) h hmain hy rfl rfl rfl rfl rfl rfl (by simp)
          (by intro v hv; simp [Micro.writes]) ?_
        rintro ⟨a, b⟩
        refine ⟨fun he => by simp, fun hm => ?_⟩
        have := b hm; simp [Micro.writes] at this
    · trivial
  | pullSample r =>
    simp only [micro, stepPullSample, withRing]
    split
    · split
      · exact plain0 _ (by simp) (by simp) (by simp) rfl (by simp)
      · exact plain1 _ _ rfl rfl rfl rfl (by simp) (by cases r <;> simp_all [Micro.mainOk]) rfl
          (by simp [Micro.writes])
    · trivial
  | pullRead r t =>
    simp only [micro, stepPullRead, withRing]
    split
    · exact plain1 _ _ rfl rfl rfl rfl (by simp) (by cases r <;> simp_all [Micro.mainOk]) rfl
        (by simp [Micro.writes])
    · trivial
  | pullPublish r t v =>
    simp only [micro, stepPullPublish, withRing]
    split
    · cases r with
      | own i =>
        exact plain0 _ (by simp [State.setRing]) (by simp [State.setRing]) (by simp [State.setRing]) rfl
          (by simp)
      | tx u => simp [Micro.mainOk] at hok
    · trivial
  | bindPoll u =>
    simp only [micro, stepBindPoll, withUart]
    split
    · rename_i y hy
      split
      · rename_i hid
        refine main_uart (q := []) h hmain hy rfl rfl rfl rfl rfl rfl (by simp) (by simp) ?_
        rintro ⟨a, b⟩
        have := b (.inl hid)
        refine ⟨fun he => ?_, fun _ => ⟨this.1, by simpa [Micro.writes] using this.2⟩⟩
        simp [this.1] at he
      · trivial
    · trivial
  | bindBuffer u rx cap =>
    simp only [micro, stepBindBuffer, withUart]
    split
    · rename_i y hy
      split
      · split
        · trivial
        refine main_uart (q := []) h hmain hy rfl rfl rfl rfl rfl rfl (by simp) (by simp) ?_
        rintro ⟨a, b⟩
        exact ⟨fun he => by simpa using a he, fun hm => by simpa [Micro.writes] using b hm⟩
      · trivial
    · trivial
  | bindEnable u =>
    simp only [micro, stepBindEnable, withUart]
    split
    · rename_i y hy
      split
      · rename_i hid
        refine main_uart (q := []) h hmain hy rfl rfl rfl rfl rfl rfl (by simp) (by simp) ?_
        rintro ⟨a, b⟩
        have := b (.inl hid)
        exact ⟨fun he => by simp [this.1] at he, fun hm => by simp at hm⟩
      · trivial
    · trivial
  | pollRead u =>
    simp only [micro, stepPollRead, withUart]
    split
    · rename_i y hy
      split
      · exact plain0 _ (by simp) (by simp) (by simp) rfl (by simp)
      · refine main_uart (q := []) h hmain hy (by simp; rfl) (by simp) (by simp) rfl rfl rfl (by simp) (by simp) ?_
        rintro ⟨a, b⟩
        exact ⟨fun he => by simpa using a he, fun hm => by simpa [Micro.writes] using b hm⟩
    · trivial
  | writeDirect u b =>
    simp only [micro, stepWriteDirect, withUart]
    split
    · rename_i y hy
      split
      · refine main_uart (q := []) h hmain hy (by simp; rfl) (by simp) (by simp) rfl rfl rfl (by simp) (by simp) ?_
        rintro ⟨a, b⟩
        exact ⟨fun he => by simpa using a he, fun hm => by have := b hm; simp [Micro.writes] at this⟩
      · exact plain1 _ _ rfl rfl rfl rfl (by simp) (by simp [Micro.mainOk]) rfl (by simp [Micro.writes])
    · trivial
  | enableTx u =>
    simp only [micro, stepEnableTx, withUart]
    split
    · rename_i y hy
      refine main_uart (q := []) h hmain hy (by simp; rfl) (by simp) (by simp) rfl rfl rfl
        (by intro v hv; simpa using Ne.symm hv) (by simp) ?_
      rintro ⟨a, b⟩
      exact ⟨fun he => by simp, fun hm => by have := b hm; simp [Micro.writes] at this⟩
    · trivial
  | spinUart u =>
    simp only [micro, stepSpinUart, withUart]
    split
    · split
      · exact plain1 _ _ rfl rfl rfl rfl (by simp) rfl rfl (by simp)
      · exact plain0 _ rfl rfl rfl rfl (by simp)
    · trivial
  | dmaTxSet u src len =>
    simp only [micro, stepDmaTxSet, withUart]
    split
    · rename_i y hy
      split
      · split
        · split
          · trivial
          refine main_uart (q := []) h hmain hy rfl rfl rfl rfl rfl rfl (by simp) (by simp) ?_
          rintro ⟨a, b⟩
          exact ⟨fun he => by simpa using a he, fun hm => by simp at hm⟩
        · trivial
      · trivial
    · trivial
  | dmaTxGo u =>
    simp only [micro, stepDmaTxGo, withUart]
    split
    · rename_i y hy
      refine main_uart (q := []) h hmain hy rfl rfl rfl rfl rfl rfl (by simp) (by simp) ?_
      rintro ⟨a, b⟩
      exact ⟨fun he => by simpa using a he, fun hm => by simpa [Micro.writes] using b hm⟩
    · trivial
  | flBegin op a l => exact main_begin h hmain rfl rfl (by simp) (.inl ⟨_, _, _, rfl⟩)
  | flPhase p => exact main_begin h hmain rfl rfl (by simp) (.inr ⟨_, rfl⟩)
  | flEnd r => exact main_end h hmain rfl ⟨rfl, rfl⟩ rfl (by simp)
  | rxStatus =>
    simp only [micro, stepRxStatus]
    split
    · rename_i r s' he
      obtain ⟨a1, a2, a3⟩ := exchange_same he
      exact main_plain (q := []) h hmain a1 (by simp [a2, State.filler]) a3 rfl rfl (by simp [Micro.flEnds])
        (by simp) (fun _ _ => rfl)
    · trivial
  | latchStatus g =>
    simp only [micro, stepLatchStatus, MRes.Driver]
    cases g
    · exact main_plain (q := []) h hmain rfl ⟨rfl, rfl⟩ rfl rfl rfl (by simp [Micro.flEnds]) (by simp)
        (fun _ _ => rfl)
    · exact main_plain (q := []) h hmain rfl ⟨rfl, rfl⟩ rfl rfl rfl (by simp [Micro.flEnds]) (by simp)
        (fun _ _ => rfl)
  | waitCheck =>
    simp only [micro, stepWaitCheck]
    split
    · refine main_plain h hmain rfl ⟨rfl, rfl⟩ rfl ?_ ?_ (by simp [Micro.flEnds]) (by simp) ?_ <;>
        simp [waitProg, statusProg, selectProg, txBytes, transferProg, deselectProg, Micro.mainOk, flTail,
          Micro.writes]
    · exact plain0 _ rfl rfl rfl rfl (by simp)
  | identEnd => exact main_end h hmain rfl ⟨rfl, rfl⟩ rfl (by simp)
  | discHeader =>
    simp only [micro, stepDiscHeader]
    split
    · obtain ⟨f1, f2, f3⟩ := frameProg_driver s.cfg
        (0x5A :: (be24 (le24 (s.reply s.cfg.sfdp.hdrLen) s.cfg.sfdp.ptrOff) ++ [0x00]))
        (.input .loc s.cfg.sfdp.tblLen)
      refine main_plain h hmain rfl ⟨rfl, rfl⟩ rfl ?_ ?_ ?_ (by simp) ?_
      · rw [discTableProg, List.all_append, f1]; rfl
      · exact flTail_append _ _ f2 rfl
      · intro _; simp [discTableProg, Micro.flEnds]
      · intro u _; rw [discTableProg, List.all_append, f3 u]; rfl
    · exact main_end h hmain rfl ⟨rfl, rfl⟩ rfl (by simp)
  | discTable =>
    simp only [micro, stepDiscTable]
    split
    · split
      · exact main_end h hmain rfl ⟨rfl, rfl⟩ rfl (by simp)
      · trivial
    · exact main_end h hmain rfl ⟨rfl, rfl⟩ rfl (by simp)
  | giveReply n => exact plain0 _ rfl rfl rfl rfl (by simp)
  | rxLevel u l d =>
    simp only [micro, stepRxLevel, withUart]
    split
    · rename_i y hy
      split
      · obtain ⟨a1, a2, a3⟩ := reportDropped_same s u y.cb d
        exact plain0 _ a1 a2 a3 rfl (by simp)
      · split
        · trivial
        · simp only [State.rxTake]
          split <;>
          · refine main_uart (q := [_]) h hmain hy rfl rfl rfl rfl rfl rfl (by simp) (by simp [Micro.writes]) ?_
            rintro ⟨a, b⟩
            exact ⟨fun he => by simpa using a he, fun hm => by simpa [Micro.writes] using b hm⟩
    · trivial
  | rxTimeout u =>
    simp only [micro, stepRxTimeout, withUart]
    split
    · rename_i y hy
      refine main_uart (q := []) h hmain hy rfl rfl rfl rfl rfl rfl (by simp) (by simp [Micro.writes]) ?_
      rintro ⟨a, b⟩
      exact ⟨fun he => by simpa using a he, fun hm => by simpa [Micro.writes] using b hm⟩
    · trivial
  | rxFlush u d =>
    simp only [micro, stepRxFlush, withUart]
    split
    · rename_i y hy
      split
      · obtain ⟨a1, a2, a3⟩ := reportDropped_same s u y.cb d
        refine main_uart (q := []) (y' := { y with rxCount := 0 }) h hmain hy
          (by simp only [State.setUart, State.emit, a1]) a2 a3 rfl rfl rfl (by simp) (by simp [Micro.writes]) ?_
        rintro ⟨a, b⟩
        exact ⟨fun he => by simpa using a he, fun hm => by simpa [Micro.writes] using b hm⟩
      · simp only [State.rxTake]
        split <;>
        · refine main_uart (q := [_]) h hmain hy rfl rfl rfl rfl rfl rfl (by simp) (by simp [Micro.writes]) ?_
          rintro ⟨a, b⟩
          exact ⟨fun he => by simpa using a he, fun hm => by simpa [Micro.writes] using b hm⟩
    · trivial
  | txDrain u => simp [Micro.mainOk] at hok
  | dmaRxDone b =>
    simp only [micro, stepDmaRxDone, withBus]
    split
    · exact plain0 _ rfl rfl rfl rfl (by simp)
    · trivial
  | dmaTxDone b =>
    simp only [micro, stepDmaTxDone, withBus]
    split
    · exact plain0 _ rfl rfl rfl rfl (by simp)
    · trivial
  | uartDmaDone u =>
    simp only [micro, stepUartDmaDone, withUart]
    split
    · rename_i y hy
      refine main_uart (q := []) h hmain hy rfl rfl rfl rfl rfl rfl (by simp) (by simp [Micro.writes]) ?_
      rintro ⟨a, b⟩
      split <;> exact ⟨fun he => by simpa using a he, fun hm => by simpa [Micro.writes] using b hm⟩
    · trivial
  | eot u =>
    simp only [micro, stepEot, withUart]
    split
    · rename_i y hy
      refine main_uart (q := []) h hmain hy rfl rfl rfl rfl rfl rfl (by simp) (by simp [Micro.writes]) ?_
      rintro ⟨a, b⟩
      exact ⟨fun he => by simpa using a he, fun hm => by simp at hm⟩
    · trivial
  | lineError u =>
    simp only [micro, stepLineError, withUart]
    split
    · rename_i y hy
      refine main_uart (q := []) h hmain hy rfl rfl rfl rfl rfl rfl (by simp) (by simp [Micro.writes]) ?_
      rintro ⟨a, b⟩
      exact ⟨fun he => by simpa using a he, fun hm => by simpa [Micro.writes] using b hm⟩
    · trivial

/-! ## A micro-step of the interrupt context -/

/-- The interrupt context's next micro-step gives way to `q`: what is left to do. -/
theorem left_irq {s t : State} {m : Micro} {ms q : List Micro} (hirq : s.irq = m :: ms) (hi : t.main = s.main) :
    (∀ a, a ∈ s.main ++ s.irq ↔ a ∈ m :: (ms ++ s.main)) ∧
      ∀ a, a ∈ q ++ (ms ++ s.main) ↔ a ∈ (t.setProg .irq (q ++ ms)).main ++ (t.setProg .irq (q ++ ms)).irq := by
  constructor <;> intro a <;> simp only [List.mem_append, List.mem_cons, hirq, hi, State.setProg] <;> tauto

/-- The interrupt context's next micro-step leaves the instances alone and gives way to `q`. -/
theorem irq_plain {s t : State} {m : Micro} {ms q : List Micro} (h : s.DriverInv) (hirq : s.irq = m :: ms)
    (hu : t.uarts = s.uarts) (hf : t.fl = s.fl) (hi : t.main = s.main) (hq : q.all Micro.irqOk = true)
    (he : ∀ u, m ≠ .enableTx u) (hqw : ∀ u, m.writes u = false → q.all (!·.writes u) = true) :
    (t.setProg .irq (q ++ ms)).DriverInv := by
  obtain ⟨h1, h2, h3, h4⟩ := h
  have hl := left_irq (q := q) hirq hi
  rw [hirq] at h2
  simp only [List.all_cons, Bool.and_eq_true] at h2
  refine ⟨by simpa [State.setProg, hi] using h1, by simp [State.setProg, hq, h2.2], ?_, ?_⟩
  · exact txInv_step hl.1 hl.2 h3 fun u x hx =>
      ⟨x, by simpa [State.setProg, hu] using hx, txOk_next (he u) (hqw u)⟩
  · simpa [State.flInv, State.setProg, hi, hf] using h4

/-- The interrupt context's next micro-step changes one instance and gives way to `q`. -/
theorem irq_uart {s t : State} {m : Micro} {ms q : List Micro} {v : Nat} {y y' : Uart} (h : s.DriverInv)
    (hirq : s.irq = m :: ms) (hy : s.uarts[v]? = some y) (hu : t.uarts = s.uarts.set v y')
    (hf : t.fl = s.fl) (hi : t.main = s.main) (hq : q.all Micro.irqOk = true)
    (he : ∀ u, u ≠ v → m ≠ .enableTx u)
    (hqw : ∀ u, u ≠ v → m.writes u = false → q.all (!·.writes u) = true)
    (hv : txOk (m :: (ms ++ s.main)) v y → txOk (q ++ (ms ++ s.main)) v y') :
    (t.setProg .irq (q ++ ms)).DriverInv := by
  obtain ⟨h1, h2, h3, h4⟩ := h
  have hl := left_irq (q := q) hirq hi
  rw [hirq] at h2
  simp only [List.all_cons, Bool.and_eq_true] at h2
  refine ⟨by simpa [State.setProg, hi] using h1, by simp [State.setProg, hq, h2.2], ?_, ?_⟩
  · refine txInv_step hl.1 hl.2 h3 fun u x hx => ?_
    rcases getElem?_of_set (l' := (t.setProg .irq (q ++ ms)).uarts) hu hx with ⟨rfl, rfl⟩ | ⟨hne, hx⟩
    · exact ⟨y, hy, hv⟩
    · exact ⟨x, hx, txOk_next (he u hne) (hqw u hne)⟩
  · simpa [State.flInv, State.setProg, hi, hf] using h4

/-- A micro-step that leaves an instance's ring, transmit interrupt and mode alone leaves what R38 (f) says of it,
if what follows writes to no ring. -/
theorem txOk_handler {m : Micro} {q rest : List Micro} {u : Nat} {y y' : Uart} (he : m ≠ .enableTx u)
    (hq : q.all (!·.writes u) = true)
    (hy : y'.txring = y.txring ∧ y'.ieTxLevel = y.ieTxLevel ∧ y'.mode = y.mode) (hx : txOk (m :: rest) u y) :
    txOk (q ++ rest) u y' := by
  have := txOk_next (q := q) he (fun _ => hq) hx
  simpa only [txOk, hy.1, hy.2.1, hy.2.2] using this

/-- No micro-step of the interrupt context breaks the invariant. -/
theorem micro_irq_driver (s : State) (m : Micro) (ms : List Micro) (h : s.DriverInv) (hirq : s.irq = m :: ms) :
    MRes.Driver (micro m ms s) .irq := by
  have hok : m.irqOk = true := by have := h.2.1; rw [hirq] at this; simp at this; exact this.1
  have plain0 : ∀ t : State, t.uarts = s.uarts → t.fl = s.fl → t.main = s.main → (∀ u, m ≠ .enableTx u) →
      (t.setProg .irq ms).DriverInv :=
    fun t h1 h2 h3 h4 => irq_plain (q := []) h hirq h1 h2 h3 rfl h4 (fun _ _ => rfl)
  have plain1 : ∀ (t : State) m', t.uarts = s.uarts → t.fl = s.fl → t.main = s.main → m'.irqOk = true →
      (∀ u, m ≠ .enableTx u) → (∀ u, m.writes u = false → m'.writes u = false) →
      (t.setProg .irq (m' :: ms)).DriverInv :=
    fun t m' h1 h2 h3 h4 h5 h6 => irq_plain (q := [m']) h hirq h1 h2 h3 (by simp [h4]) h5
      (fun u hu => by simp [h6 u hu])
  cases m with
  | pushSample r b k =>
    simp only [micro, stepPushSample, withRing]
    split
    · split
      · exact plain0 _ (by simp) (by simp) (by simp) (by simp)
      · exact plain1 _ _ rfl rfl rfl (by cases r <;> simpa [Micro.irqOk] using hok) (by simp)
          (by simp [Micro.writes])
    · trivial
  | pushStore r hh n b k =>
    simp only [micro, stepPushStore, withRing]
    split
    · rename_i x hx
      cases r with
      | own i =>
        exact plain1 _ _ rfl rfl rfl (by simpa [Micro.irqOk] using hok) (by simp) (by simp [Micro.writes])
      | tx u =>
        simp only [State.ring?, Option.map_eq_some_iff] at hx
        obtain ⟨y, hy, rfl⟩ := hx
        simp only [State.setRing, hy]
        refine irq_uart (q := [_]) h hirq hy rfl rfl rfl (by simpa [Micro.irqOk] using hok) (by simp)
          (by simp [Micro.writes]) ?_
        rintro ⟨a, b⟩
        refine ⟨fun he => ?_, fun hm => ?_⟩
        · simpa using a he
        · have := b hm; simp [Micro.writes] at this
    · trivial
  | pushPublish r n k =>
    simp only [micro, stepPushPublish, withRing]
    split
    · rename_i x hx
      cases r with
      | own i =>
        have hk : k = .caller := by simpa [Micro.irqOk] using hok
        subst hk
        exact plain0 _ (by simp [State.setRing]) (by simp [State.setRing]) (by simp [State.setRing]) (by simp)
      | tx u =>
        have hk : k = .write u := by simpa [Micro.irqOk] using hok
        subst hk
        simp only [State.ring?, Option.map_eq_some_iff] at hx
        obtain ⟨y, hy, rfl⟩ := hx
        simp only [State.setRing, hy]
        refine irq_uart (q := [_]) h hirq hy rfl rfl rfl rfl (by simp)
          (by intro v hv; simp [Micro.writes]) ?_
        rintro ⟨a, b⟩
        refine ⟨fun he => by simp, fun hm => ?_⟩
        have := b hm; simp [Micro.writes] at this
    · trivial
  | pullSample r =>
    simp only [micro, stepPullSample, withRing]
    split
    · split
      · exact plain0 _ (by simp) (by simp) (by simp) (by simp)
      · exact plain1 _ _ rfl rfl rfl (by cases r <;> simp_all [Micro.irqOk]) (by simp) (by simp [Micro.writes])
    · trivial
  | pullRead r t =>
    simp only [micro, stepPullRead, withRing]
    split
    · exact plain1 _ _ rfl rfl rfl (by cases r <;> simp_all [Micro.irqOk]) (by simp) (by simp [Micro.writes])
    · trivial
  | pullPublish r t v =>
    simp only [micro, stepPullPublish, withRing]
    split
    · cases r with
      | own i =>
        exact plain0 _ (by simp [State.setRing]) (by simp [State.setRing]) (by simp [State.setRing]) (by simp)
      | tx u => simp [Micro.irqOk] at hok
    · trivial
  | writeDirect u b =>
    simp only [micro, stepWriteDirect, withUart]
    split
    · rename_i y hy
      split
      · refine irq_uart (q := []) h hirq hy (by simp; rfl) (by simp) (by simp) rfl (by simp) (by simp) ?_
        rintro ⟨a, b⟩
        exact ⟨fun he => by simpa using a he, fun hm => by have := b hm; simp [Micro.writes] at this⟩
      · exact plain1 _ _ rfl rfl rfl (by simp [Micro.irqOk]) (by simp) (by simp [Micro.writes])
    · trivial
  | enableTx u =>
    simp only [micro, stepEnableTx, withUart]
    split
    · rename_i y hy
      refine irq_uart (q := []) h hirq hy (by simp; rfl) (by simp) (by simp) rfl
        (by intro v hv; simpa using Ne.symm hv) (by simp) ?_
      rintro ⟨a, b⟩
      exact ⟨fun he => by simp, fun hm => by have := b hm; simp [Micro.writes] at this⟩
    · trivial
  | rxLevel u l d =>
    simp only [micro, stepRxLevel, withUart]
    split
    · rename_i y hy
      split
      · obtain ⟨a1, a2, -⟩ := reportDropped_same s u y.cb d
        exact plain0 _ a1 a2 (reportDropped_main s u y.cb d) (by simp)
      · split
        · trivial
        · simp only [State.rxTake]
          split <;> exact irq_uart (q := [_]) h hirq hy rfl rfl rfl rfl (by simp) (by simp [Micro.writes])
            (txOk_handler (by simp) (by simp [Micro.writes]) ⟨rfl, rfl, rfl⟩)
    · trivial
  | rxTimeout u =>
    simp only [micro, stepRxTimeout, withUart]
    split
    · rename_i y hy
      exact irq_uart (q := []) h hirq hy rfl rfl rfl rfl (by simp) (by simp)
        (txOk_handler (by simp) (by simp [Micro.writes]) ⟨rfl, rfl, rfl⟩)
    · trivial
  | rxFlush u d =>
    simp only [micro, stepRxFlush, withUart]
    split
    · rename_i y hy
      split
      · obtain ⟨a1, a2, -⟩ := reportDropped_same s u y.cb d
        exact irq_uart (q := []) (y' := { y with rxCount := 0 }) h hirq hy
          (by simp only [State.setUart, State.emit, a1]) a2 (reportDropped_main s u y.cb d) rfl (by simp) (by simp)
          (txOk_handler (by simp) (by simp [Micro.writes]) ⟨rfl, rfl, rfl⟩)
      · simp only [State.rxTake]
        split <;> exact irq_uart (q := [_]) h hirq hy rfl rfl rfl rfl (by simp) (by simp [Micro.writes])
            (txOk_handler (by simp) (by simp [Micro.writes]) ⟨rfl, rfl, rfl⟩)
    · trivial
  | txDrain u =>
    simp only [micro, stepTxDrain, withUart]
    split
    · rename_i y hy
      split
      · exact plain0 _ rfl rfl rfl (by simp)
      · split
        · rename_i hem
          refine irq_uart (q := []) h hirq hy rfl rfl rfl rfl (by simp) (by simp) ?_
          rintro ⟨a, b⟩
          exact ⟨fun he => by simp [hem] at he, fun hm => by simpa [Micro.writes] using b hm⟩
        · rename_i hem
          refine irq_uart (q := [_]) h hirq hy rfl rfl rfl rfl (by simp) (by simp [Micro.writes]) ?_
          rintro ⟨a, b⟩
          refine ⟨fun he => by simpa using a (by simpa using hem), fun hm => ?_⟩
          exact absurd (b hm).1 hem
    · trivial
  | dmaRxDone b =>
    simp only [micro, stepDmaRxDone, withBus]
    split
    · exact plain0 _ rfl rfl rfl (by simp)
    · trivial
  | dmaTxDone b =>
    simp only [micro, stepDmaTxDone, withBus]
    split
    · exact plain0 _ rfl rfl rfl (by simp)
    · trivial
  | uartDmaDone u =>
    simp only [micro, stepUartDmaDone, withUart]
    split
    · rename_i y hy
      refine irq_uart (q := []) h hirq hy rfl rfl rfl rfl (by simp) (by simp) ?_
      split <;> exact (txOk_handler (by simp) (by simp [Micro.writes]) ⟨rfl, rfl, rfl⟩)
    · trivial
  | eot u =>
    simp only [micro, stepEot, withUart]
    split
    · rename_i y hy
      refine irq_uart (q := []) h hirq hy rfl rfl rfl rfl (by simp) (by simp) ?_
      rintro ⟨a, b⟩
      exact ⟨fun he => by simpa using a he, fun hm => by simp at hm⟩
    · trivial
  | lineError u =>
    simp only [micro, stepLineError, withUart]
    split
    · rename_i y hy
      exact irq_uart (q := []) h hirq hy rfl rfl rfl rfl (by simp) (by simp)
        (txOk_handler (by simp) (by simp [Micro.writes]) ⟨rfl, rfl, rfl⟩)
    · trivial
  | _ => simp [Micro.irqOk] at hok

/-! ## A running context -/

theorem micro_driver (c : Side) (s : State) (m : Micro) (ms : List Micro) (h : s.DriverInv)
    (hp : s.prog c = m :: ms) : MRes.Driver (micro m ms s) c := by
  cases c
  · exact micro_main_driver s m ms h hp
  · exact micro_irq_driver s m ms h hp

/-- If there is a next state, it has the invariant. -/
def DriverOut (o : Out) : Prop := ∀ t, o = .next t → t.DriverInv

/-- A running context keeps the invariant. -/
theorem runCtx_driver (stop : Bool) (c : Side) : ∀ n s, State.DriverInv s → DriverOut (runCtx stop c n s) := by
  intro n
  induction n with
  | zero => intro s h t e; cases e; exact h
  | succ n ih =>
    intro s h
    rw [runCtx]
    split
    · intro t e; cases e; exact h
    · rename_i m ms hp
      have := micro_driver c s m ms h hp
      split
      · rename_i e; rw [e] at this; exact ih _ this
      · rename_i e; rw [e] at this
        split
        · intro t e; cases e; exact this
        · exact ih _ this
      · intro t e; cases e

end Sys2Proof.Machine
end

