-- ==== Sys2Proof/Laws/Fields.lean ====
section
/-! SUPPORT. Every field of the operand layout and of the frames reads back what was written (R72, R102,
log 3). -/

namespace Sys2Proof

theorem of24_be24 (a : BitVec 24) :
    of24 (a.extractLsb' 16 8) (a.extractLsb' 8 8) (a.extractLsb' 0 8) = a := by
  apply BitVec.eq_of_getLsbD_eq
  intro i hi
  simp only [of24, BitVec.getLsbD_append, BitVec.getLsbD_extractLsb']
  split
  · simp [*]
  · split
    · rw [show 8 + (i - 8) = i by omega]; simp [*]
    · rw [show 16 + (i - 8 - 8) = i by omega]; simp; omega

theorem of16_bytes16 (x : BitVec 16) : of16 (x.extractLsb' 0 8) (x.extractLsb' 8 8) = x := by
  apply BitVec.eq_of_getLsbD_eq
  intro i hi
  simp only [of16, BitVec.getLsbD_append, BitVec.getLsbD_extractLsb']
  split
  · simp [*]
  · rw [show 8 + (i - 8) = i by omega]; simp; omega

theorem of32_bytes32 (x : BitVec 32) :
    of32 (x.extractLsb' 0 8) (x.extractLsb' 8 8) (x.extractLsb' 16 8) (x.extractLsb' 24 8) = x := by
  apply BitVec.eq_of_getLsbD_eq
  intro i hi
  simp only [of32, BitVec.getLsbD_append, BitVec.getLsbD_extractLsb']
  split
  · simp [*]
  · split
    · rw [show 8 + (i - 8) = i by omega]; simp [*]
    · split
      · rw [show 16 + (i - 8 - 8) = i by omega]; simp [*]
      · rw [show 24 + (i - 8 - 8 - 8) = i by omega]; simp; omega

/-- An address survives its field (log 3). -/
theorem of64_bytes64 (x : BitVec 64) :
    of64 ((x.extractLsb' 0 32).extractLsb' 0 8) ((x.extractLsb' 0 32).extractLsb' 8 8)
      ((x.extractLsb' 0 32).extractLsb' 16 8) ((x.extractLsb' 0 32).extractLsb' 24 8)
      ((x.extractLsb' 32 32).extractLsb' 0 8) ((x.extractLsb' 32 32).extractLsb' 8 8)
      ((x.extractLsb' 32 32).extractLsb' 16 8) ((x.extractLsb' 32 32).extractLsb' 24 8) = x := by
  rw [of64, of32_bytes32, of32_bytes32]
  apply BitVec.eq_of_getLsbD_eq
  intro i hi
  simp only [BitVec.getLsbD_append, BitVec.getLsbD_extractLsb']
  split
  · simp [*]
  · rw [show 32 + (i - 32) = i by omega]; simp; omega

/-- A count of 1 to `2^32` survives its field (log 3). -/
theorem ofCount_bytesCount {n : Nat} (h1 : 1 ≤ n) (h2 : n ≤ 2 ^ 32) :
    (of32 ((BitVec.ofNat 32 (n - 1)).extractLsb' 0 8) ((BitVec.ofNat 32 (n - 1)).extractLsb' 8 8)
      ((BitVec.ofNat 32 (n - 1)).extractLsb' 16 8) ((BitVec.ofNat 32 (n - 1)).extractLsb' 24 8)).toNat + 1
      = n := by
  rw [of32_bytes32, BitVec.toNat_ofNat]
  omega

theorem ofRing_byteRing (r : RingRef) : ofRing (byteRing r) = r := by
  cases r with
  | own i => revert i; decide
  | tx u => revert u; decide

theorem ofBool_byte (w : Bool) : ofBool (if w then 1 else 0) = some w := by cases w <;> rfl

theorem ofLineErr_byteLineErr (e : Option LineErr) : ofLineErr (byteLineErr e) = some e := by
  cases e with
  | none => rfl
  | some k => cases k <;> rfl

theorem of16_zero : of16 0#8 0#8 = 0#16 := by decide

/-- The buffers of `DMA.START` survive their field. -/
theorem ofDmaBuffers_bytes (tx rx : Option (BitVec 16)) :
    ofDmaBuffers ((bytesDmaBuffers tx rx).getD 0 0)
      (of16 ((bytesDmaBuffers tx rx).getD 1 0) ((bytesDmaBuffers tx rx).getD 2 0))
      (of16 ((bytesDmaBuffers tx rx).getD 3 0) ((bytesDmaBuffers tx rx).getD 4 0)) = some (tx, rx) := by
  cases tx <;> cases rx <;> simp [bytesDmaBuffers, bytes16, of16_bytes16, of16_zero, ofDmaBuffers]

end Sys2Proof
end

