-- ==== Sys2Proof/Laws/Transfer.lean ====
section
/-! SUPPORT. Exchanges and transfers: that a context's micro-steps are no part of them, and that the loop of a
transfer is `transferAll` (R166 to R176). -/

namespace Sys2Proof.Machine

/-! ## Exchanges do not see the micro-steps to come -/

/-- The state of a result, changed. -/
def mapState (f : State → State) : Except Refusal State → Except Refusal State
  | .ok s => .ok (f s)
  | .error e => .error e

theorem exchange_setProg (s : State) (c : Side) (q : List Micro) (b : Nat) (w : Word) :
    (s.setProg c q).exchange b w =
      match s.exchange b w with
      | .ok (r, s') => .ok (r, s'.setProg c q)
      | .error e => .error e := by
  unfold State.exchange
  simp only [setProg_buses, setProg_draws, setProg_flash, setProg_trace]
  cases hb : s.buses[b]? with
  | none => rfl
  | some x =>
    have hw : (s.setProg c q).wired b x = s.wired b x := by simp [State.wired]
    simp only [hw]
    by_cases h : (s.wired b x && x.cs) = true
    · simp only [h, if_true]
      cases s.flash.answer (s.flash.frame ++ [(busClip x.cfg.width w).setWidth 8])
        (busClip x.cfg.width (Config.freeWord s.draws)) <;> cases c <;> rfl
    · simp only [h]
      cases c <;> rfl

theorem srcWord_setProg (s : State) (c : Side) (q : List Micro) (src : Src) (i : Nat) :
    (s.setProg c q).srcWord src i = ((s.srcWord src i).1, (s.srcWord src i).2.setProg c q) := by
  cases src <;> cases c <;> rfl

theorem dstWord_setProg (s : State) (c : Side) (q : List Micro) (b : Nat) (dst : Dst) (i : Nat) (v : Word) :
    (s.setProg c q).dstWord b dst i v = (s.dstWord b dst i v).setProg c q := by
  cases dst with
  | buf r => cases c <;> rfl
  | scratch =>
    simp only [State.dstWord, setProg_buses]
    cases s.buses[b]? <;> cases c <;> rfl

theorem transferWord_setProg (s : State) (c : Side) (q : List Micro) (b : Nat) (src : Src) (dst : Dst)
    (i : Nat) :
    (s.setProg c q).transferWord b src dst i = mapState (·.setProg c q) (s.transferWord b src dst i) := by
  unfold State.transferWord
  simp only [srcWord_setProg, exchange_setProg]
  cases (s.srcWord src i).2.exchange b (s.srcWord src i).1 with
  | error e => rfl
  | ok p => simp only [mapState, dstWord_setProg]

/-! ## Buffers the block owns (R71, U1) -/

@[simp] theorem owned_setProg (s : State) (c : Side) (p : List Micro) (q : BufRef) :
    (s.setProg c p).owned q = s.owned q := by
  cases c <;> cases q <;> rfl

@[simp] theorem mayTransfer_setProg (s : State) (c : Side) (p : List Micro) (src : Src) (dst : Dst) :
    (s.setProg c p).mayTransfer src dst = s.mayTransfer src dst := by
  cases src <;> cases dst <;> simp [State.mayTransfer]

@[simp] theorem mayRequest_setProg (s : State) (c : Side) (p : List Micro) (tx rx : Option BufRef) :
    (s.setProg c p).mayRequest tx rx = s.mayRequest tx rx := by
  cases tx <;> cases rx <;> simp [State.mayRequest]

@[simp] theorem owned_loc (s : State) : s.owned .loc = false := rfl

/-! ## The loop of a transfer -/

/-- The micro-steps `xfer` make the exchanges one after another. -/
theorem runs_xfer {c : Side} {b : Nat} {src : Src} {dst : Dst} {i k : Nat} {s t : State}
    (hf : i = 0 → s.mayTransfer src dst = true)
    (h : State.transferAll b src dst i (k + 1) s = .ok t) :
    Runs c [.xfer b src dst i (i + (k + 1))] (k + 1) s t := by
  induction k generalizing i s with
  | zero =>
    simp only [State.transferAll] at h
    split at h
    · rename_i s' hw
      cases h
      refine Runs.step fun q ms => ?_
      simp only [micro, stepXfer, mayTransfer_setProg]
      rw [if_neg (fun a => by simp [hf a.1] at a)]
      simp [transferWord_setProg, hw, mapState]
    · cases h
  | succ k ih =>
    rw [State.transferAll] at h
    split at h
    · rename_i s' hw
      have hr := ih (i := i + 1) (s := s') (by simp) h
      rw [show i + 1 + (k + 1) = i + (k + 1 + 1) by omega] at hr
      refine Runs.cons (p' := [.xfer b src dst (i + 1) (i + (k + 1 + 1))]) (fun q ms => ?_) hr
      simp only [micro, stepXfer, mayTransfer_setProg]
      rw [if_neg (fun a => by simp [hf a.1] at a)]
      simp [transferWord_setProg, hw, mapState]
    · cases h

theorem transferAll_succ {b : Nat} {src : Src} {dst : Dst} {i k : Nat} {s s' : State}
    (h : s.transferWord b src dst i = .ok s') :
    State.transferAll b src dst i (k + 1) s = State.transferAll b src dst (i + 1) k s' := by
  rw [State.transferAll, h]

/-- A transfer on a bus with no DMA transfer outstanding, between buffers that are not the block's. -/
theorem runs_transfer {c : Side} {b : Nat} {src : Src} {dst : Dst} {n : Nat} {s t : State} {x : Bus}
    (hb : s.buses[b]? = some x) (ha : x.dma.active = false) (hn : 1 ≤ n)
    (hf : s.mayTransfer src dst = true) (h : State.transferAll b src dst 0 n s = .ok t) :
    Runs c (transferProg b src dst n) (1 + n) s t := by
  obtain ⟨k, rfl⟩ := Nat.exists_eq_add_of_le' hn
  have h0 : Runs c [Micro.spinDma b] 1 s s :=
    Runs.step fun q ms => by simp [micro, stepSpinDma, withBus, hb, ha]
  have h1 := runs_xfer (c := c) (fun _ => hf) h
  rw [Nat.zero_add] at h1
  exact h0.append h1

/-! ## Exchanges that no device answers (R182) -/

/-- What an exchange does where no device answers: a free word comes back. -/
theorem exchange_unanswered {s : State} {b : Nat} {x : Bus} (h : s.Unanswered b x) (w : Word) :
    s.exchange b w = .ok (.word (busClip x.cfg.width (Config.freeWord s.draws)),
      { s with draws := s.draws + 1, trace := s.trace ++ [.exchange b (busClip x.cfg.width w)
        (busClip x.cfg.width (Config.freeWord s.draws))] }) := by
  obtain ⟨hb, hw⟩ := h
  simp [State.exchange, hb, hw]

/-! ## Exchanges the flash device answers (R89) -/

/-- What an exchange does inside a selection window of the flash bus. -/
theorem exchange_answered {s : State} {x : Bus} {w : Word} {r : Reply}
    (hb : s.buses[s.cfg.flashBus]? = some x) (hcs : x.cs = true) (hhas : x.cfg.hasCs = true)
    (hr : s.flash.answer (s.flash.frame ++ [(busClip x.cfg.width w).setWidth 8])
      (busClip x.cfg.width (Config.freeWord s.draws)) = .ok r) :
    s.exchange s.cfg.flashBus w = .ok (r, { s with
      flash := { s.flash with frame := s.flash.frame ++ [(busClip x.cfg.width w).setWidth 8] }
      draws := s.draws + 1
      trace := s.trace ++ [.exchange s.cfg.flashBus (busClip x.cfg.width w) r.toWord] }) := by
  have hw : (s.wired s.cfg.flashBus x && x.cs) = true := by simp [State.wired, hcs, hhas]
  simp only [State.exchange, hb, hw, if_true, hr]

end Sys2Proof.Machine
end

