-- ==== Sys2Proof/Laws/FlashBus.lean ====
section
/-! SUPPORT. What the flash driver does on its bus, frame by frame (R281 to R318): every lemma is about the part
of the state the driver and the device touch, its view, and says by its form that nothing else moves. -/

namespace Sys2Proof.Machine

/-! ## The view of the driver -/

/-- What the flash driver and the device touch. -/
structure View where
  bus : Bus
  flash : Flash
  fl : Fl
  buf : List (Nat × Word)
  draws : Nat
  trace : List Event
  ret : Ret

/-- The state with another view. -/
def State.put (s : State) (v : View) : State :=
  { s with
    buses := s.buses.set s.cfg.flashBus v.bus
    flash := v.flash, fl := v.fl, buf := v.buf
    draws := v.draws, trace := v.trace, ret := v.ret }

/-- The view of a state whose flash bus is `x`. -/
def State.view (s : State) (x : Bus) : View :=
  { bus := x, flash := s.flash, fl := s.fl, buf := s.buf, draws := s.draws, trace := s.trace, ret := s.ret }

theorem put_view {s : State} {x : Bus} (h : s.buses[s.cfg.flashBus]? = some x) : s.put (s.view x) = s := by
  have : s.buses.set s.cfg.flashBus x = s.buses := by
    apply List.ext_getElem?
    intro i
    by_cases hi : s.cfg.flashBus = i
    · subst hi; rw [h]; simp [(List.getElem?_eq_some_iff.1 h).1]
    · simp [hi]
  simp only [State.put, State.view, this]

@[simp] theorem put_put (s : State) (v w : View) : (s.put v).put w = s.put w := by
  simp [State.put]

@[simp] theorem put_cfg (s : State) (v : View) : (s.put v).cfg = s.cfg := rfl

theorem put_bus {s : State} {c : Config} (hc : s.cfg = c) (hb : c.flashBus < s.buses.length) (v : View) :
    (s.put v).buses[c.flashBus]? = some v.bus := by
  subst hc
  simp [State.put, hb]

/-- Micro-step `m` of MAIN changes a view `v` to `v'` and nothing else, in a machine of configuration `c`. -/
def Acts (c : Config) (m : Micro) (v v' : View) : Prop :=
  ∀ (s : State) (ms : List Micro), s.cfg = c → c.flashBus < s.buses.length →
    micro m ms (s.put v) = .more (s.put v') ms

/-- Buffer `q` is not the block's, but for a DMA request on the flash bus (U1). -/
def State.Leaves (s : State) (q : BufRef) : Prop := ∀ v : View, v.bus.dma.active = false → (s.put v).owned q = false

theorem leaves_loc (s : State) : s.Leaves .loc := fun _ _ => rfl

theorem leaves_of_owned {s : State} {q : BufRef} (h : s.owned q = false) : s.Leaves q := fun v hv => by
  cases q with
  | loc => rfl
  | user id =>
    simp only [State.owned, Bool.or_eq_false_iff, List.any_eq_false] at h ⊢
    refine ⟨h.1, fun x hx => ?_⟩
    rcases List.mem_or_eq_of_mem_set hx with hx | rfl
    · exact h.2 x hx
    · simp [Bus.owns, hv]

/-- The program `p` of `k` micro-steps, which uses no caller buffer but `q`, changes a view `v` to `v'` and
nothing else. -/
def Does (c : Config) (q : BufRef) (p : List Micro) (k : Nat) (v v' : View) : Prop :=
  ∀ s : State, s.cfg = c → c.flashBus < s.buses.length → s.Leaves q → Runs .main p k (s.put v) (s.put v')

variable {q : BufRef}

theorem Acts.does {c : Config} {m : Micro} {v v' : View} (h : Acts c m v v') : Does c q [m] 1 v v' :=
  fun s hc hb _ => Runs.step fun r ms => h (s.setProg .main r) ms hc hb

theorem Does.nil (c : Config) (v : View) : Does c q [] 0 v v := fun s _ _ _ => Runs.nil .main (s.put v)

theorem Does.append {c : Config} {p p' : List Micro} {k l : Nat} {u v w : View}
    (h₁ : Does c q p k u v) (h₂ : Does c q p' l v w) : Does c q (p ++ p') (k + l) u w :=
  fun s hc hb hq => (h₁ s hc hb hq).append (h₂ s hc hb hq)

theorem Does.cons {c : Config} {m : Micro} {p : List Micro} {l : Nat} {u v w : View}
    (h₁ : Acts c m u v) (h₂ : Does c q p l v w) : Does c q (m :: p) (l + 1) u w := by
  have h := (h₁.does (q := q)).append h₂
  rwa [Nat.add_comm] at h

/-- A micro-step that puts others in its place. -/
theorem Does.expand {c : Config} {m : Micro} {p p' : List Micro} {l : Nat} {u v w : View}
    (h₁ : ∀ (s : State) (ms : List Micro), s.cfg = c → c.flashBus < s.buses.length →
      micro m ms (s.put u) = .more (s.put v) (p ++ ms))
    (h₂ : Does c q (p ++ p') l v w) : Does c q (m :: p') (l + 1) u w :=
  fun s hc hb hq => Runs.cons (t := s.put v) (fun r ms => h₁ (s.setProg .main r) ms hc hb) (h₂ s hc hb hq)

/-- Another way to write the count or the view. -/
theorem Does.cast {c : Config} {p : List Micro} {k l : Nat} {u v w : View} (h : Does c q p k u v)
    (hk : k = l) (hw : v = w) : Does c q p l u w := by
  subst hk hw
  exact h

/-! ## One micro-step each -/

variable {c : Config} {v : View}

theorem acts_spinIdle (h : v.bus.idle = true) : Acts c (.spinIdle c.flashBus) v v := fun s ms hc hb => by
  simp [micro, stepSpinIdle, withBus, put_bus hc hb, h]

theorem acts_spinDma (h : v.bus.dma.active = false) : Acts c (.spinDma c.flashBus) v v := fun s ms hc hb => by
  simp [micro, stepSpinDma, withBus, put_bus hc hb, h]

/-- R162 S2 on the flash bus: the device starts a new frame. -/
theorem acts_select (hcs : v.bus.cs = false) (hh : v.bus.cfg.hasCs = true) :
    Acts c (.selectBus c.flashBus) v { v with
      bus := { v.bus with cs := true }
      flash := { v.flash with frame := [] }
      trace := v.trace ++ [.select c.flashBus] } := fun s ms hc hb => by
  simp only [micro, stepSelectBus, withBus, put_bus hc hb, hcs]
  subst hc
  simp [State.assertCs, State.wired, hh, State.put, State.setBus]

/-- R164 D2 on the flash bus: the device's command takes effect. -/
theorem acts_deselect {f : Flash} (hcs : v.bus.cs = true) (hh : v.bus.cfg.hasCs = true)
    (hf : v.flash.commit c.flPage = .ok f) :
    Acts c (.deselectBus c.flashBus) v { v with
      bus := { v.bus with cs := false }
      flash := f
      trace := v.trace ++ [.deselect c.flashBus] } := fun s ms hc hb => by
  simp only [micro, stepDeselectBus, withBus, put_bus hc hb, hcs, if_true]
  subst hc
  have : (s.put v).wired s.cfg.flashBus v.bus = true := by simp [State.wired, hh]
  have h2 : (s.put v).flash = v.flash := rfl
  simp only [State.releaseCs, this, if_true, put_cfg, h2, hf]
  simp [State.put, State.setBus]

theorem acts_flPhase (p : FlPhase) : Acts c (.flPhase p) v { v with fl := { v.fl with phase := p } } :=
  fun _ _ _ _ => rfl

theorem acts_flBegin (op : FlOp) (addr : Option Nat) (len : Option Nat) :
    Acts c (.flBegin op addr len) v
      { v with fl := { v.fl with op := op, addr := addr.getD v.fl.addr, len := len.getD v.fl.len } } :=
  fun _ _ _ _ => rfl

theorem acts_flEnd (r : Ret) :
    Acts c (.flEnd r) v { v with fl := { v.fl with phase := .idle, op := .none }, ret := r } :=
  fun _ _ _ _ => rfl

theorem acts_giveReply (n : Nat) : Acts c (.giveReply n) v
    { v with ret := .bytes ((List.range n).map fun i => (memGet 0 v.buf (BufRef.loc.cell i)).setWidth 8) } :=
  fun _ _ _ _ => rfl

theorem acts_latchStatus (give : Bool) : Acts c (.latchStatus give) v { v with
    fl := { v.fl with status := v.fl.st.toWord.setWidth 8 }
    ret := if give then .status (v.fl.st.toWord.setWidth 8) else v.ret } := fun s ms _ _ => by
  cases give <;> rfl

theorem acts_waitCheck (h : v.fl.st.bit0 = false) : Acts c .waitCheck v v := fun s ms _ _ => by
  have : (s.put v).fl = v.fl := rfl
  simp [micro, stepWaitCheck, this, h]

/-! ## Exchanges -/

/-- A frame whose opcode is not 0x03 is always answered (R89). -/
theorem answer_of_ne {f : Flash} {fr : List Byte} (h : (fr.headD 0).toNat ≠ 0x03) (free : Word) :
    ∃ r, f.answer fr free = .ok r := by
  unfold Flash.answer
  dsimp only
  split
  · exact ⟨_, rfl⟩
  · contradiction
  · split <;> exact ⟨_, rfl⟩
  · repeat' split
    all_goals exact ⟨_, rfl⟩
  · exact ⟨_, rfl⟩

/-- A frame of at most four bytes is always answered (R89). -/
theorem answer_of_short {f : Flash} {fr : List Byte} (h : fr.length ≤ 4) (free : Word) :
    ∃ r, f.answer fr free = .ok r := by
  by_cases h3 : (fr.headD 0).toNat = 0x03
  · refine ⟨.word (free &&& 0x00FF), ?_⟩
    unfold Flash.answer
    rw [h3]
    simp [show fr.length - 1 < 4 by omega]
  · exact answer_of_ne h3 free

/-- The answer does not depend on the frame stored in the device. -/
@[simp] theorem answer_frame (f : Flash) (g fr : List Byte) (free : Word) :
    ({ f with frame := g } : Flash).answer fr free = f.answer fr free := rfl

theorem clip_byte (b : Byte) : (busClip .w8 (b.setWidth 16)).setWidth 8 = b := by
  ext i hi
  simp only [busClip, BitVec.getElem_setWidth, BitVec.getLsbD_and, BitVec.getLsbD_setWidth]
  interval_cases i <;> simp

/-- Inside a selection window of an 8-bit flash bus (R281). -/
structure View.Window (v : View) : Prop where
  cs : v.bus.cs = true
  hasCs : v.bus.cfg.hasCs = true
  width : v.bus.cfg.width = .w8

/-- The word a transfer sends next. -/
def View.fetch (v : View) : Src → Nat → Word
  | .buf r, i => memGet 0 v.buf (r.cell i)
  | .bytes bs, i => (bs.getD i 0).setWidth 16
  | .filler, _ => Config.freeWord v.draws

/-- The free values drawn once the word to send is known. -/
def View.drawn (v : View) : Src → Nat
  | .filler => v.draws + 1
  | _ => v.draws

/-- The view after one exchange of a transfer, with reply `r`. -/
def View.move (v : View) (c : Config) (src : Src) (dst : Dst) (i : Nat) (r : Reply) : View :=
  { v with
    bus := match dst with
      | .scratch => { v.bus with scratch := r.toWord }
      | .buf _ => v.bus
    flash := { v.flash with frame := v.flash.frame ++ [(busClip .w8 (v.fetch src i)).setWidth 8] }
    buf := match dst with
      | .scratch => v.buf
      | .buf q => memSet 0 v.buf (q.cell i) r.toWord
    draws := v.drawn src + 1
    trace := v.trace ++ [.exchange c.flashBus (busClip .w8 (v.fetch src i)) r.toWord] }

theorem put_srcWord (s : State) (v : View) (src : Src) (i : Nat) :
    (s.put v).srcWord src i = (v.fetch src i, s.put { v with draws := v.drawn src }) := by
  cases src <;> rfl

theorem put_exchange {s : State} {c : Config} (hc : s.cfg = c) (hb : c.flashBus < s.buses.length)
    (hw : v.Window) {w : Word} {r : Reply}
    (hr : v.flash.answer (v.flash.frame ++ [(busClip .w8 w).setWidth 8])
      (busClip .w8 (Config.freeWord v.draws)) = .ok r) :
    (s.put v).exchange c.flashBus w = .ok (r, s.put { v with
      flash := { v.flash with frame := v.flash.frame ++ [(busClip .w8 w).setWidth 8] }
      draws := v.draws + 1
      trace := v.trace ++ [.exchange c.flashBus (busClip .w8 w) r.toWord] }) := by
  have hx := put_bus hc hb v
  subst hc
  have h1 := exchange_answered (s := s.put v) (x := v.bus) (w := w) (r := r) hx hw.cs hw.hasCs
    (by rw [hw.width]; exact hr)
  rw [hw.width] at h1
  exact h1

theorem put_dstWord {s : State} {c : Config} (hc : s.cfg = c) (hb : c.flashBus < s.buses.length)
    (dst : Dst) (i : Nat) (x : Word) :
    (s.put v).dstWord c.flashBus dst i x = s.put { v with
      bus := match dst with
        | .scratch => { v.bus with scratch := x }
        | .buf _ => v.bus
      buf := match dst with
        | .scratch => v.buf
        | .buf q => memSet 0 v.buf (q.cell i) x } := by
  cases dst with
  | buf q => rfl
  | scratch =>
    simp only [State.dstWord, put_bus hc hb]
    subst hc
    simp [State.put, State.setBus]

/-- One exchange of a transfer on the flash bus. -/
theorem put_transferWord {s : State} {c : Config} (hc : s.cfg = c) (hb : c.flashBus < s.buses.length)
    (hw : v.Window) {src : Src} {dst : Dst} {i : Nat} {r : Reply}
    (hr : v.flash.answer (v.flash.frame ++ [(busClip .w8 (v.fetch src i)).setWidth 8])
      (busClip .w8 (Config.freeWord (v.drawn src))) = .ok r) :
    (s.put v).transferWord c.flashBus src dst i = .ok (s.put (v.move c src dst i r)) := by
  have h1 := put_exchange (v := { v with draws := v.drawn src }) hc hb ⟨hw.cs, hw.hasCs, hw.width⟩ hr
  simp only [State.transferWord, put_srcWord, h1, put_dstWord hc hb]
  cases dst <;> rfl

/-! ## What a transfer sends -/

/-- The events are the exchanges that send these bytes, in this order. -/
def Sends (b : Nat) (data : List Byte) (evs : List Event) : Prop :=
  List.Forall₂ (fun d e => ∃ w r, e = Event.exchange b w r ∧ w.setWidth 8 = d) data evs

/-- Bytes inside a window that has begun open no other. -/
theorem windowHeads_sends_false {b : Nat} {data : List Byte} {evs es : List Event} (h : Sends b data evs) :
    windowHeads b false (evs ++ es) = windowHeads b false es := by
  induction h with
  | nil => rfl
  | cons hd _ ih => obtain ⟨w, r, rfl, -⟩ := hd; simpa [windowHeads] using ih

/-- The first byte of a window is its opcode. -/
theorem windowHeads_sends_true {b : Nat} {d : Byte} {data : List Byte} {evs es : List Event}
    (h : Sends b (d :: data) evs) :
    windowHeads b true (evs ++ es) = d :: windowHeads b false es := by
  cases h with
  | cons hd ht =>
    obtain ⟨w, r, rfl, rfl⟩ := hd
    simp [windowHeads, windowHeads_sends_false ht]

theorem Sends.append {b : Nat} {d₁ d₂ : List Byte} {e₁ e₂ : List Event} (h₁ : Sends b d₁ e₁)
    (h₂ : Sends b d₂ e₂) : Sends b (d₁ ++ d₂) (e₁ ++ e₂) := by
  induction h₁ with
  | nil => exact h₂
  | cons hd _ ih => exact List.Forall₂.cons hd ih

/-- A transmit-only transfer from `src`, which yields the words `f`: the device's frame grows by their low
bytes, and of the rest only the scratch cell, the draws and the trace move (R174). -/
theorem put_send {c : Config} {src : Src} {f : Nat → Word} (hd : ∀ v : View, v.drawn src = v.draws) (k : Nat) :
    ∀ (i : Nat) (v : View), v.Window →
    (∀ w : View, w.buf = v.buf → ∀ j, w.fetch src j = f j) →
    (∀ fr free, fr.length ≤ v.flash.frame.length + k → v.flash.frame <+: fr →
      fr <+: v.flash.frame ++ (List.range' i k).map (fun j => (f j).setWidth 8) →
      ∃ r, v.flash.answer fr free = .ok r) →
    ∃ sc evs, Sends c.flashBus ((List.range' i k).map fun j => (f j).setWidth 8) evs ∧
      ∀ s : State, s.cfg = c → c.flashBus < s.buses.length →
      State.transferAll c.flashBus src .scratch i k (s.put v) = .ok (s.put { v with
        bus := { v.bus with scratch := sc }
        flash := { v.flash with
          frame := v.flash.frame ++ (List.range' i k).map fun j => (f j).setWidth 8 }
        draws := v.draws + k
        trace := v.trace ++ evs }) := by
  induction k with
  | zero => intro i v hw hf ha; exact ⟨v.bus.scratch, [], .nil, fun s _ _ => by simp [State.transferAll]⟩
  | succ k ih =>
    intro i v hw hf ha
    have hcl : (busClip .w8 (v.fetch src i)).setWidth 8 = (f i).setWidth 8 := by
      rw [hf v rfl, busClip]
      ext j hj
      simp only [BitVec.getElem_setWidth, BitVec.getLsbD_and]
      interval_cases j <;> simp
    have hpre : v.flash.frame ++ [(f i).setWidth 8] <+:
        v.flash.frame ++ (List.range' i (k + 1)).map fun j => (f j).setWidth 8 := by
      rw [List.range'_succ, List.map_cons]
      exact ⟨_, by rw [List.append_assoc]; rfl⟩
    obtain ⟨r, hr⟩ := ha (v.flash.frame ++ [(busClip .w8 (v.fetch src i)).setWidth 8])
      (busClip .w8 (Config.freeWord (v.drawn src))) (by simp) (by simp) (by rw [hcl]; exact hpre)
    obtain ⟨sc, evs, he, ht⟩ := ih (i + 1) (v.move c src .scratch i r) ⟨hw.cs, hw.hasCs, hw.width⟩
      (fun w hwb => hf w hwb)
      (fun fr free hl hp hq => by
        have hfr : (v.move c src .scratch i r).flash.frame = v.flash.frame ++ [(f i).setWidth 8] := by
          simp [View.move, hcl]
        rw [hfr] at hl hp hq
        exact ha fr free (by simp at hl; omega) ((List.prefix_append _ _).trans hp) (by
          rw [List.range'_succ, List.map_cons]
          simpa using hq))
    refine ⟨sc, .exchange c.flashBus (busClip .w8 (v.fetch src i)) r.toWord :: evs, ?_, ?_⟩
    · rw [List.range'_succ, List.map_cons]
      exact .cons ⟨_, _, rfl, hcl⟩ he
    · intro s hc hb
      rw [transferAll_succ (put_transferWord hc hb hw hr), ht s hc hb]
      simp only [View.move, hcl, hd, List.range'_succ, List.map_cons, List.append_assoc,
        List.singleton_append]
      congr 3
      omega

/-! ## What a transfer receives -/

/-- A receive-only transfer into buffer `q`, whose replies have property `P`: the buffer gets them, and of
the rest only the device's frame, the draws and the trace move (R176). -/
theorem put_receive {c : Config} {q : BufRef} (P : Nat → Reply → Prop) (k : Nat) :
    ∀ (i : Nat) (v : View), v.Window →
    (∀ (j : Nat) (ext : List Byte) (free : Word), j < k → ext.length = j + 1 →
      ∃ r, v.flash.answer (v.flash.frame ++ ext) free = .ok r ∧ P (i + j) r) →
    ∃ (rs : List Reply) (sent : List Byte) (evs : List Event), rs.length = k ∧ (∀ j r, rs[j]? = some r → P (i + j) r) ∧ sent.length = k ∧
      Sends c.flashBus sent evs ∧
      ∀ s : State, s.cfg = c → c.flashBus < s.buses.length →
      State.transferAll c.flashBus .filler (.buf q) i k (s.put v) = .ok (s.put { v with
        flash := { v.flash with frame := v.flash.frame ++ sent }
        buf := bufFill q i (rs.map Reply.toWord) v.buf
        draws := v.draws + 2 * k
        trace := v.trace ++ evs }) := by
  induction k with
  | zero =>
    intro i v hw ha
    exact ⟨[], [], [], rfl, by simp, rfl, .nil, fun s _ _ => by simp [State.transferAll, bufFill]⟩
  | succ k ih =>
    intro i v hw ha
    let b : Byte := (busClip .w8 (v.fetch .filler i)).setWidth 8
    obtain ⟨r, hr, hP⟩ := ha 0 [b] (busClip .w8 (Config.freeWord (v.drawn .filler))) (by omega) rfl
    obtain ⟨rs, sent, evs, hrl, hrP, hsl, he, ht⟩ := ih (i + 1) (v.move c .filler (.buf q) i r)
      ⟨hw.cs, hw.hasCs, hw.width⟩ (fun j ext free hj hl => by
        obtain ⟨r', hr', hP'⟩ := ha (j + 1) (b :: ext) free (by omega) (by simp [hl])
        refine ⟨r', ?_, by rwa [show i + 1 + j = i + (j + 1) by omega]⟩
        have : (v.move c .filler (.buf q) i r).flash.frame ++ ext = v.flash.frame ++ b :: ext := by
          simp [View.move, b]
        rw [this]
        exact hr')
    refine ⟨r :: rs, b :: sent, .exchange c.flashBus (busClip .w8 (v.fetch .filler i)) r.toWord :: evs,
      by simp [hrl], ?_, by simp [hsl], .cons ⟨_, _, rfl, rfl⟩ he, ?_⟩
    · intro j r' hj
      cases j with
      | zero => simp at hj; subst hj; exact hP
      | succ j =>
        have := hrP j r' (by simpa using hj)
        rwa [show i + 1 + j = i + (j + 1) by omega] at this
    · intro s hc hb
      rw [transferAll_succ (put_transferWord hc hb hw hr), ht s hc hb]
      simp only [View.move, View.drawn, List.append_assoc, List.singleton_append, List.map_cons, bufFill, b]
      congr 3
      omega

/-! ## The parts of a frame (R290) -/

theorem range'_getD_map (bs : List Byte) :
    (List.range' 0 bs.length).map (fun j => ((bs.getD j 0).setWidth 16).setWidth 8) = bs := by
  apply List.ext_getElem
  · simp
  · intro i h1 h2
    simp only [List.getElem_map, List.getElem_range', Nat.zero_add, Nat.one_mul]
    rw [List.getD_eq_getElem _ _ h2]
    exact BitVec.setWidth_setWidth_of_le _ (by omega)

/-- A transfer, once its exchanges are known. -/
theorem does_transfer {v' : View} {src : Src} {dst : Dst} {n : Nat} (hn : 1 ≤ n)
    (ha : v.bus.dma.active = false)
    (hf : ∀ s : State, s.Leaves q → (s.put v).mayTransfer src dst = true)
    (h : ∀ s : State, s.cfg = c → c.flashBus < s.buses.length →
      State.transferAll c.flashBus src dst 0 n (s.put v) = .ok (s.put v')) :
    Does c q (transferProg c.flashBus src dst n) (1 + n) v v' := fun s hc hb hq =>
  runs_transfer (put_bus hc hb v) ha hn (hf s hq) (h s hc hb)

/-- Sending bytes the driver holds, inside a window. -/
theorem does_txBytes (hw : v.Window) (ha : v.bus.dma.active = false) {bs : List Byte} (hn : bs ≠ [])
    (hr : ∀ fr free, fr.length ≤ v.flash.frame.length + bs.length → v.flash.frame <+: fr →
      fr <+: v.flash.frame ++ bs → ∃ r, v.flash.answer fr free = .ok r) :
    ∃ sc evs, Sends c.flashBus bs evs ∧ Does c q (txBytes c.flashBus bs) (1 + bs.length) v { v with
      bus := { v.bus with scratch := sc }
      flash := { v.flash with frame := v.flash.frame ++ bs }
      draws := v.draws + bs.length
      trace := v.trace ++ evs } := by
  have h := put_send (c := c) (src := .bytes bs) (f := fun j => (bs.getD j 0).setWidth 16)
    (fun _ => rfl) bs.length 0 v hw (fun _ _ _ => rfl) (by rw [range'_getD_map]; exact hr)
  rw [range'_getD_map] at h
  obtain ⟨sc, evs, he, ht⟩ := h
  exact ⟨sc, evs, he, does_transfer (by cases bs <;> simp_all) ha (fun _ _ => rfl) ht⟩

/-- The low bytes of the first `n` elements of a buffer: what an 8-bit bus sends of it. -/
abbrev payloadBytes (m : List (Nat × Word)) (q : BufRef) (n : Nat) : List Byte :=
  (List.range n).map fun j => (memGet 0 m (q.cell j)).setWidth 8

/-- Sending the elements of a buffer, inside a window. -/
theorem does_txBuf (hw : v.Window) (ha : v.bus.dma.active = false) {q : BufRef} {n : Nat} (hn : 1 ≤ n)
    (hr : ∀ fr free, v.flash.frame <+: fr → ∃ r, v.flash.answer fr free = .ok r) :
    ∃ sc evs, Sends c.flashBus (payloadBytes v.buf q n) evs ∧
      Does c q (transferProg c.flashBus (.buf q) .scratch n) (1 + n) v { v with
        bus := { v.bus with scratch := sc }
        flash := { v.flash with frame := v.flash.frame ++ payloadBytes v.buf q n }
        draws := v.draws + n
        trace := v.trace ++ evs } := by
  have h := put_send (c := c) (src := .buf q) (f := fun j => memGet 0 v.buf (q.cell j))
    (fun _ => rfl) n 0 v hw (fun w hwb j => by simp [View.fetch, hwb]) (fun fr free _ h _ => hr fr free h)
  rw [← List.range_eq_range'] at h
  obtain ⟨sc, evs, he, ht⟩ := h
  exact ⟨sc, evs, he, does_transfer hn ha (fun s hs => by simp [State.mayTransfer, hs v ha]) ht⟩

/-- Receiving into a buffer, inside a window. -/
theorem does_rx (hw : v.Window) (ha : v.bus.dma.active = false) {q : BufRef} {n : Nat} (hn : 1 ≤ n)
    (P : Nat → Reply → Prop)
    (hr : ∀ (j : Nat) (ext : List Byte) (free : Word), j < n → ext.length = j + 1 →
      ∃ r, v.flash.answer (v.flash.frame ++ ext) free = .ok r ∧ P j r) :
    ∃ (rs : List Reply) (sent : List Byte) (evs : List Event), rs.length = n ∧
      (∀ j r, rs[j]? = some r → P j r) ∧ sent.length = n ∧ Sends c.flashBus sent evs ∧
      Does c q (transferProg c.flashBus .filler (.buf q) n) (1 + n) v { v with
        flash := { v.flash with frame := v.flash.frame ++ sent }
        buf := bufFill q 0 (rs.map Reply.toWord) v.buf
        draws := v.draws + 2 * n
        trace := v.trace ++ evs } := by
  obtain ⟨rs, sent, evs, h1, h2, h3, h4, ht⟩ := put_receive (c := c) (q := q) P n 0 v hw
    (fun j ext free hj hl => by simpa using hr j ext free hj hl)
  exact ⟨rs, sent, evs, h1, by simpa using h2, h3, h4, does_transfer hn ha (fun s hs => by simp [State.mayTransfer, hs v ha]) ht⟩

/-- The bus of a driver at rest, or inside a window. -/
structure View.Free (v : View) : Prop where
  cs : v.bus.cs = false
  hasCs : v.bus.cfg.hasCs = true
  width : v.bus.cfg.width = .w8
  drained : v.bus.rxq = []
  inactive : v.bus.dma.active = false

theorem View.Free.idle (h : v.Free) : v.bus.idle = true := by simp [Bus.idle, h.drained, h.inactive]

/-- `SPI.SELECT` of the flash bus (R162). -/
theorem does_select (h : v.Free) : Does c q (selectProg c.flashBus) 2 v { v with
    bus := { v.bus with cs := true }
    flash := { v.flash with frame := [] }
    trace := v.trace ++ [.select c.flashBus] } :=
  Does.cons (acts_spinIdle h.idle) (acts_select h.cs h.hasCs).does

/-- `SPI.DESELECT` of the flash bus (R164). -/
theorem does_deselect (hcs : v.bus.cs = true) (hh : v.bus.cfg.hasCs = true) (hi : v.bus.idle = true)
    {f : Flash} (hf : v.flash.commit c.flPage = .ok f) :
    Does c q (deselectProg c.flashBus) 2 v { v with
      bus := { v.bus with cs := false }
      flash := f
      trace := v.trace ++ [.deselect c.flashBus] } :=
  Does.cons (acts_spinIdle hi) (acts_deselect hcs hh hf).does

/-! ## Status polls (R285, R286) -/

/-- The exchange that receives the status byte (R90). -/
theorem acts_rxStatus (hw : v.Window) (hf : v.flash.frame = [0x05]) :
    ∃ b r, Acts c .rxStatus v { v with
      flash := { v.flash with frame := [0x05, b] }
      fl := { v.fl with st := .status v.flash.busy r }
      draws := v.draws + 2
      trace := v.trace ++ [.exchange c.flashBus (busClip .w8 (Config.freeWord v.draws))
        (Reply.status v.flash.busy r).toWord] } ∧
      b = (busClip .w8 (Config.freeWord v.draws)).setWidth 8 := by
  refine ⟨_, (busClip .w8 (Config.freeWord (v.draws + 1))).extractLsb' 0 7, fun s ms hc hb => ?_, rfl⟩
  have hans : v.flash.answer (v.flash.frame ++ [(busClip .w8 (Config.freeWord v.draws)).setWidth 8])
      (busClip .w8 (Config.freeWord (v.draws + 1))) = .ok (.status v.flash.busy
        ((busClip .w8 (Config.freeWord (v.draws + 1))).extractLsb' 0 7)) := by
    rw [hf]; rfl
  have h1 := put_exchange (v := { v with draws := v.draws + 1 }) hc hb ⟨hw.cs, hw.hasCs, hw.width⟩ hans
  have h2 : (s.put v).filler = (Config.freeWord v.draws, s.put { v with draws := v.draws + 1 }) := rfl
  simp only [micro, stepRxStatus, h2, put_cfg]
  rw [hc, h1]
  simp only [hf]
  rfl

/-- `FL.READ_STATUS` of a free bus: one window that sends 0x05 and latches the device's busy bit. -/
theorem does_status (h : v.Free) (give : Bool) :
    ∃ sc r evs b, Sends c.flashBus [0x05, b] evs ∧
      Does c q (statusProg c give) 9 v { v with
        bus := { v.bus with scratch := sc }
        flash := { v.flash with frame := [] }
        fl := { v.fl with
          st := .status v.flash.busy r
          status := (Reply.status v.flash.busy r).toWord.setWidth 8 }
        draws := v.draws + 3
        trace := v.trace ++ (.select c.flashBus :: evs ++ [.deselect c.flashBus])
        ret := if give then .status ((Reply.status v.flash.busy r).toWord.setWidth 8) else v.ret } := by
  have d1 := does_select (c := c) (q := q) h
  obtain ⟨sc, e1, he1, d2⟩ := does_txBytes (c := c) (q := q) (v := { v with
      bus := { v.bus with cs := true }, flash := { v.flash with frame := [] }
      trace := v.trace ++ [.select c.flashBus] }) ⟨rfl, h.hasCs, h.width⟩ h.inactive
    (bs := [0x05]) (by simp) (fun fr free hl _ _ => answer_of_short (by simp at hl; omega) free)
  obtain ⟨b, r, a3, hb⟩ := acts_rxStatus (c := c) (v := { v with
      bus := { v.bus with cs := true, scratch := sc }, flash := { v.flash with frame := [0x05] }
      draws := v.draws + 1
      trace := v.trace ++ [.select c.flashBus] ++ e1 }) ⟨rfl, h.hasCs, h.width⟩ rfl
  have d4 := does_deselect (c := c) (q := q) (v := { v with
      bus := { v.bus with cs := true, scratch := sc }, flash := { v.flash with frame := [0x05, b] }
      fl := { v.fl with st := .status v.flash.busy r }
      draws := v.draws + 3
      trace := v.trace ++ [.select c.flashBus] ++ e1 ++
        [.exchange c.flashBus (busClip .w8 (Config.freeWord (v.draws + 1)))
          (Reply.status v.flash.busy r).toWord] }) rfl h.hasCs (by simp [Bus.idle, h.drained, h.inactive])
    (f := { v.flash with frame := [] }) rfl
  have d := ((d1.append d2).append ((Does.cons (acts_spinDma (by exact h.inactive)) a3.does))).append
    (d4.append (acts_latchStatus give).does)
  refine ⟨sc, r, e1 ++ [.exchange c.flashBus (busClip .w8 (Config.freeWord (v.draws + 1)))
    (Reply.status v.flash.busy r).toWord], b, he1.append (.cons ⟨_, _, rfl, hb.symm⟩ .nil), ?_⟩
  have hp : statusProg c give = (selectProg c.flashBus ++ txBytes c.flashBus [0x05] ++
      [.spinDma c.flashBus, .rxStatus]) ++ (deselectProg c.flashBus ++ [.latchStatus give]) := by
    simp [statusProg]
  rw [hp]
  exact d.cast rfl (by simp [h.cs])

end Sys2Proof.Machine
end

