-- ==== Sys2Proof/Laws/FlashFrames.lean ====
section
/-! SUPPORT. Whole frames on the flash bus, and the operations of the driver made of them (R284 to R318), by the
synchronous route (R290). -/

namespace Sys2Proof.Machine

variable {c : Config} {v : View} {q : BufRef}

/-- The device answers every prefix of a header of the driver (R101, R290). -/
theorem answer_of_header {f : Flash} {hdr : List Byte}
    (h : hdr.length ≤ 4 ∨ (hdr.headD 0).toNat ≠ 0x03) {fr : List Byte} (hp : fr <+: hdr) (free : Word) :
    ∃ r, f.answer fr free = .ok r := by
  rcases h with h | h
  · exact answer_of_short (hp.length_le.trans h) free
  · refine answer_of_ne ?_ free
    cases fr with
    | nil => simp
    | cons a fr =>
      obtain ⟨t, rfl⟩ := hp
      simpa using h

/-- The window opens and the header is sent. -/
theorem does_open (h : v.Free) {hdr : List Byte} (hn : hdr ≠ [])
    (hh : hdr.length ≤ 4 ∨ (hdr.headD 0).toNat ≠ 0x03) :
    ∃ sc evs, Sends c.flashBus hdr evs ∧
      Does c q (selectProg c.flashBus ++ txBytes c.flashBus hdr) (3 + hdr.length) v { v with
        bus := { v.bus with cs := true, scratch := sc }
        flash := { v.flash with frame := hdr }
        draws := v.draws + hdr.length
        trace := v.trace ++ (.select c.flashBus :: evs) } := by
  have d1 := does_select (c := c) (q := q) h
  obtain ⟨sc, evs, he, d2⟩ := does_txBytes (c := c) (q := q) (v := { v with
      bus := { v.bus with cs := true }, flash := { v.flash with frame := [] }
      trace := v.trace ++ [.select c.flashBus] }) ⟨rfl, h.hasCs, h.width⟩ h.inactive hn
    (fun fr free _ _ hq => answer_of_header hh (by simpa using hq) free)
  exact ⟨sc, evs, he, (d1.append d2).cast (by omega) (by simp)⟩

/-- The header has been sent and the window closes at once. -/
theorem does_frame_none (h : v.Free) {hdr : List Byte} (hn : hdr ≠ [])
    (hh : hdr.length ≤ 4 ∨ (hdr.headD 0).toNat ≠ 0x03) {f : Flash}
    (hf : ({ v.flash with frame := hdr } : Flash).commit c.flPage = .ok f) :
    ∃ sc evs, Sends c.flashBus hdr evs ∧
      Does c q (frameProg c hdr .none) (5 + hdr.length) v { v with
        bus := { v.bus with scratch := sc }
        flash := f
        draws := v.draws + hdr.length
        trace := v.trace ++ (.select c.flashBus :: evs ++ [.deselect c.flashBus]) } := by
  obtain ⟨sc, evs, he, d1⟩ := does_open (c := c) (q := q) h hn hh
  have d2 := does_deselect (c := c) (q := q) (v := { v with
      bus := { v.bus with cs := true, scratch := sc }, flash := { v.flash with frame := hdr }
      draws := v.draws + hdr.length, trace := v.trace ++ (.select c.flashBus :: evs) })
    rfl h.hasCs (by simp [Bus.idle, h.drained, h.inactive]) hf
  refine ⟨sc, evs, he, ?_⟩
  have d := d1.append d2
  have hp : frameProg c hdr .none =
      selectProg c.flashBus ++ txBytes c.flashBus hdr ++ deselectProg c.flashBus := by
    simp [frameProg, payloadProg]
  rw [hp]
  exact d.cast (by omega) (by simp [h.cs])

/-- A frame whose payload comes in (R290), with replies that have property `P`. -/
theorem does_frame_input (h : v.Free) {hdr : List Byte} (hn : hdr ≠ [])
    (hh : hdr.length ≤ 4 ∨ (hdr.headD 0).toNat ≠ 0x03) {q : BufRef} {n : Nat} (h1 : 1 ≤ n)
    (hroute : dmaRoute c n = false) (P : Nat → Reply → Prop)
    (hr : ∀ (j : Nat) (ext : List Byte) (free : Word), j < n → ext.length = j + 1 →
      ∃ r, v.flash.answer (hdr ++ ext) free = .ok r ∧ P j r)
    (hf : ∀ ext : List Byte, ext.length = n →
      ({ v.flash with frame := hdr ++ ext } : Flash).commit c.flPage = .ok { v.flash with frame := [] }) :
    ∃ (rs : List Reply) (sc : Word) (sent : List Byte) (evs : List Event), rs.length = n ∧
      (∀ j r, rs[j]? = some r → P j r) ∧ sent.length = n ∧ Sends c.flashBus (hdr ++ sent) evs ∧
      Does c q (frameProg c hdr (.input q n)) (6 + hdr.length + n) v { v with
        bus := { v.bus with scratch := sc }
        flash := { v.flash with frame := [] }
        buf := bufFill q 0 (rs.map Reply.toWord) v.buf
        draws := v.draws + hdr.length + 2 * n
        trace := v.trace ++ (.select c.flashBus :: evs ++ [.deselect c.flashBus]) } := by
  obtain ⟨sc, e1, he1, d1⟩ := does_open (c := c) (q := q) h hn hh
  obtain ⟨rs, sent, e2, hl, hP, hsl, he2, d2⟩ := does_rx (c := c) (v := { v with
      bus := { v.bus with cs := true, scratch := sc }, flash := { v.flash with frame := hdr }
      draws := v.draws + hdr.length, trace := v.trace ++ (.select c.flashBus :: e1) })
    ⟨rfl, h.hasCs, h.width⟩ h.inactive (q := q) h1 P (fun j ext free hj hx => hr j ext free hj hx)
  have d3 := does_deselect (c := c) (q := q) (v := { v with
      bus := { v.bus with cs := true, scratch := sc }, flash := { v.flash with frame := hdr ++ sent }
      buf := bufFill q 0 (rs.map Reply.toWord) v.buf
      draws := v.draws + hdr.length + 2 * n
      trace := v.trace ++ (.select c.flashBus :: e1) ++ e2 })
    rfl h.hasCs (by simp [Bus.idle, h.drained, h.inactive]) (hf sent hsl)
  refine ⟨rs, sc, sent, e1 ++ e2, hl, hP, hsl, he1.append he2, ?_⟩
  have d := (d1.append d2).append d3
  have hp : frameProg c hdr (.input q n) = selectProg c.flashBus ++ txBytes c.flashBus hdr ++
      transferProg c.flashBus .filler (.buf q) n ++ deselectProg c.flashBus := by
    simp [frameProg, payloadProg, hroute]
  rw [hp]
  exact d.cast (by omega) (by simp [h.cs])

/-- A frame whose payload goes out (R290). -/
theorem does_frame_output (h : v.Free) {hdr : List Byte} (hn : hdr ≠ [])
    (hh : hdr.length ≤ 4) (h3 : (hdr.headD 0).toNat ≠ 0x03) {q : BufRef} {n : Nat} (h1 : 1 ≤ n)
    (hroute : dmaRoute c n = false) {f : Flash}
    (hf : ({ v.flash with frame := hdr ++ payloadBytes v.buf q n } : Flash).commit c.flPage = .ok f) :
    ∃ sc evs, Sends c.flashBus (hdr ++ payloadBytes v.buf q n) evs ∧
      Does c q (frameProg c hdr (.output q n)) (6 + hdr.length + n) v { v with
        bus := { v.bus with scratch := sc }
        flash := f
        draws := v.draws + hdr.length + n
        trace := v.trace ++ (.select c.flashBus :: evs ++ [.deselect c.flashBus]) } := by
  obtain ⟨sc1, e1, he1, d1⟩ := does_open (c := c) (q := q) h hn (.inl hh)
  obtain ⟨sc, e2, he2, d2⟩ := does_txBuf (c := c) (v := { v with
      bus := { v.bus with cs := true, scratch := sc1 }, flash := { v.flash with frame := hdr }
      draws := v.draws + hdr.length, trace := v.trace ++ (.select c.flashBus :: e1) })
    ⟨rfl, h.hasCs, h.width⟩ h.inactive (q := q) h1 (fun fr free hp => answer_of_ne (by
      obtain ⟨t, rfl⟩ := hp
      cases hdr with
      | nil => contradiction
      | cons a l => simpa using h3) free)
  have d3 := does_deselect (c := c) (q := q) (v := { v with
      bus := { v.bus with cs := true, scratch := sc }
      flash := { v.flash with frame := hdr ++ payloadBytes v.buf q n }
      draws := v.draws + hdr.length + n
      trace := v.trace ++ (.select c.flashBus :: e1) ++ e2 })
    rfl h.hasCs (by simp [Bus.idle, h.drained, h.inactive]) hf
  refine ⟨sc, e1 ++ e2, he1.append he2, ?_⟩
  have d := (d1.append d2).append d3
  have hp : frameProg c hdr (.output q n) = selectProg c.flashBus ++ txBytes c.flashBus hdr ++
      transferProg c.flashBus (.buf q) .scratch n ++ deselectProg c.flashBus := by
    simp [frameProg, payloadProg, hroute]
  rw [hp]
  exact d.cast (by omega) (by simp [h.cs])

/-! ## The device's side (R91 to R97) -/

/-- The opcodes whose deselect changes nothing. -/
theorem commit_of_read {f : Flash} {op : Byte} {fr : List Byte} (page : Nat)
    (h : op = 0x05 ∨ op = 0x03 ∨ op = 0x5A ∨ op = 0x90 ∨ op = 0x9F) :
    ({ f with frame := op :: fr } : Flash).commit page = .ok { f with frame := [] } := by
  rcases h with rfl | rfl | rfl | rfl | rfl <;> rfl

/-- A busy device keeps its latch (R97). -/
theorem commit_wren {f : Flash} (page : Nat) : ({ f with frame := [0x06] } : Flash).commit page =
    .ok { f with frame := [], wel := f.wel || !f.busy } := by
  cases f.busy <;> simp [Flash.commit]

/-! ## The driver's short operations -/

/-- `FL.WRITE_ENABLE` (R288, R91). -/
theorem does_writeEnable (h : v.Free) :
    ∃ sc evs, Sends c.flashBus [0x06] evs ∧ Does c q (writeEnableProg c) 6 v { v with
      bus := { v.bus with scratch := sc }
      flash := { v.flash with frame := [], wel := v.flash.wel || !v.flash.busy }
      draws := v.draws + 1
      trace := v.trace ++ (.select c.flashBus :: evs ++ [.deselect c.flashBus]) } :=
  does_frame_none h (by simp) (.inl (by simp)) (commit_wren _)

/-- `FL.WAIT_READY` with a ready device: one poll (R286). -/
theorem does_wait (h : v.Free) (hb : v.flash.busy = false) :
    ∃ sc r evs b, Sends c.flashBus [0x05, b] evs ∧ Does c q (waitProg c) 10 v { v with
      bus := { v.bus with scratch := sc }
      flash := { v.flash with frame := [] }
      fl := { v.fl with
        st := .status false r
        status := (Reply.status false r).toWord.setWidth 8 }
      draws := v.draws + 3
      trace := v.trace ++ (.select c.flashBus :: evs ++ [.deselect c.flashBus]) } := by
  obtain ⟨sc, r, evs, b, he, d⟩ := does_status (c := c) (q := q) h false
  rw [hb] at d
  exact ⟨sc, r, evs, b, he, d.append (acts_waitCheck rfl).does⟩

end Sys2Proof.Machine
end

