-- ==== Sys2Proof/Laws/FlashOps.lean ====
section
/-! SUPPORT. What the driver's operations and the frames presented by themselves do when they run undisturbed
(R296 to R318, R101). -/

namespace Sys2Proof.Machine

variable {c : Config} {v : View} {q : BufRef}

/-! ## The windows of a trace -/

/-- The events open selection windows of bus `b` with these first bytes. -/
def Heads (b : Nat) (evs : List Event) (hs : List Byte) : Prop :=
  ∀ es, windowHeads b false (evs ++ es) = hs ++ windowHeads b false es

theorem Heads.nil (b : Nat) : Heads b [] [] := fun _ => rfl

theorem Heads.append {b : Nat} {e₁ e₂ : List Event} {h₁ h₂ : List Byte} (a₁ : Heads b e₁ h₁)
    (a₂ : Heads b e₂ h₂) : Heads b (e₁ ++ e₂) (h₁ ++ h₂) := fun es => by
  rw [List.append_assoc, a₁, a₂, List.append_assoc]

/-- One window that sends these bytes. -/
theorem Heads.window {b : Nat} {d : Byte} {data : List Byte} {evs : List Event} (h : Sends b (d :: data) evs) :
    Heads b (.select b :: evs ++ [.deselect b]) [d] := fun es => by
  simp only [List.cons_append, List.append_assoc, windowHeads, beq_self_eq_true, Bool.or_true]
  rw [windowHeads_sends_true h]
  rfl

theorem Heads.eq {b : Nat} {evs : List Event} {hs : List Byte} (h : Heads b evs hs) :
    windowHeads b false evs = hs := by
  have := h []
  simpa [windowHeads] using this

/-! ## The device's replies -/

theorem frameAddr_be24 (op : Byte) (a : BitVec 24) (ext : List Byte) :
    frameAddr (op :: (be24 a ++ ext)) = a.toNat := by
  simp [frameAddr, be24, of24_be24]

/-- Replies to `FC.READ` (R92): the array, while the position lies in it. -/
theorem answer_read {f : Flash} {a : BitVec 24} {j : Nat} {ext : List Byte} (free : Word)
    (hb : f.busy = false) (hl : ext.length = j + 1) (ha : a.toNat + j < f.capacity) :
    f.answer ((0x03 :: be24 a) ++ ext) free = .ok (.word ((f.read (a.toNat + j)).setWidth 16)) := by
  have h2 : ((0x03 :: be24 a) ++ ext).length - 1 = j + 4 := by simp [be24, hl]
  unfold Flash.answer
  rw [h2, List.cons_append, frameAddr_be24]
  simp [hb, ha]

/-- Replies to `FC.RDSFDP` (R93): the table, or a free value past its end. -/
theorem answer_rdsfdp {f : Flash} {a : BitVec 24} {j : Nat} {ext : List Byte} (x : Byte) (free : Word)
    (hb : f.busy = false) (hl : ext.length = j + 1) :
    f.answer ((0x5A :: (be24 a ++ [x])) ++ ext) free = .ok (match f.sfdp[a.toNat + j]? with
      | some b => .word (b.setWidth 16)
      | none => .word (free &&& 0x00FF)) := by
  have h2 : ((0x5A :: (be24 a ++ [x])) ++ ext).length - 1 = j + 5 := by simp [be24, hl]
  unfold Flash.answer
  rw [h2, List.cons_append, List.append_assoc, frameAddr_be24]
  simp only [hb, Bool.false_or, decide_eq_true_eq, Nat.add_sub_cancel]
  rw [if_neg (show ¬ j + 5 < 5 by omega)]
  cases f.sfdp[a.toNat + j]? <;> rfl

/-- Replies to `FC.RDID` (R94): the two identity bytes. -/
theorem answer_rdid {f : Flash} {j : Nat} {ext : List Byte} (free : Word)
    (hb : f.busy = false) (hl : ext.length = j + 1) (hj : j < 2) :
    f.answer ([0x90, 0, 0, 0] ++ ext) free =
      .ok (.word ((if j = 0 then f.vendor else f.device).setWidth 16)) := by
  have h2 : ([0x90, 0, 0, 0] ++ ext : List Byte).length - 1 = j + 4 := by simp [hl]
  unfold Flash.answer
  rw [h2]
  rcases (by omega : j = 0 ∨ j = 1) with rfl | rfl <;> simp [hb]

/-! ## The driver's reads -/

/-- `FL.READ` of a ready device, synchronous route (R296). -/
theorem does_read (h : v.Free) (hb : v.flash.busy = false) (addr : Nat) (q : BufRef) {len : Nat}
    (r : Ret) (h1 : 1 ≤ len) (hroute : dmaRoute c len = false) (hspan : flSpanOk v.flash addr len = true) :
    ∃ sc st stb ws d evs, ws.length = len ∧
      (∀ j, j < len → ws.getD j 0 = (v.flash.read (addr + j)).setWidth 16) ∧
      Heads c.flashBus evs [0x05, 0x03] ∧
      Does c q (readProg c addr q len r) (24 + len) v { v with
        bus := { v.bus with scratch := sc }
        flash := { v.flash with frame := [] }
        fl := { v.fl with phase := .idle, op := .none, addr := addr, len := len, status := stb, st := st }
        buf := bufFill q 0 ws v.buf
        draws := d
        trace := v.trace ++ evs
        ret := r } := by
  simp only [flSpanOk, decide_eq_true_eq, Nat.le_min] at hspan
  have ha : (wireAddr addr).toNat = addr := by
    simp only [wireAddr, BitVec.toNat_ofNat]; omega
  obtain ⟨sc1, st, e1, b1, he1, d1⟩ := does_wait (c := c) (q := q) (v := { v with
    fl := { v.fl with op := .read, addr := addr, len := len, phase := .preWait } }) ⟨h.1, h.2, h.3, h.4, h.5⟩ hb
  obtain ⟨rs, sc, sent, e2, hl, hP, hsl, he2, d2⟩ := does_frame_input (c := c)
    (hdr := 0x03 :: be24 (wireAddr addr)) (v := { v with
      bus := { v.bus with scratch := sc1 }
      flash := { v.flash with frame := [] }
      fl := { v.fl with
        op := .read, addr := addr, len := len, phase := .cmd
        st := .status false st, status := (Reply.status false st).toWord.setWidth 8 }
      draws := v.draws + 3
      trace := v.trace ++ (.select c.flashBus :: e1 ++ [.deselect c.flashBus]) })
    ⟨h.1, h.2, h.3, h.4, h.5⟩ (by simp) (.inl (by simp [be24])) (q := q) h1 hroute
    (fun j r => r = .word ((v.flash.read (addr + j)).setWidth 16))
    (fun j ext free hj hx => ⟨_, answer_read free hb hx (by
      rw [ha]; show _ < v.flash.capacity; omega), by rw [ha]; rfl⟩)
    (fun ext _ => commit_of_read _ (by simp))
  have d := Does.cons (acts_flBegin .read (some addr) (some len)) (Does.cons (acts_flPhase .preWait)
    (d1.append (Does.cons (acts_flPhase .cmd) (d2.append (acts_flEnd r).does))))
  refine ⟨sc, .status false st, (Reply.status false st).toWord.setWidth 8, rs.map Reply.toWord,
    v.draws + 3 + 4 + 2 * len, _, by simp [hl], fun j hj => ?_,
    (Heads.window he1).append (Heads.window he2), ?_⟩
  · have := hP j rs[j] (by simp [hl, hj])
    rw [List.getD_eq_getElem _ _ (by simpa [hl] using hj), List.getElem_map, this]
    rfl
  · rw [show readProg c addr q len r = .flBegin .read (some addr) (some len) :: .flPhase .preWait ::
      (waitProg c ++ .flPhase .cmd :: (frameProg c (0x03 :: be24 (wireAddr addr)) (.input q len) ++
        [.flEnd r])) by simp [readProg]]
    exact d.cast (by simp [be24]; omega) (by simp [be24])

/-! ## The reply buffer -/

/-- What the driver's reply buffer holds in a view. -/
def View.reply (v : View) (n : Nat) : List Byte :=
  (List.range n).map fun i => (memGet 0 v.buf (BufRef.loc.cell i)).setWidth 8

/-- The reply buffer after `ws` has been received into it. -/
theorem reply_bufFill {m : List (Nat × Word)} (hwf : memWf 0 m = true) {ws : List Word} {bs : List Byte}
    (hl : ws.length = bs.length) (h : ∀ j, j < bs.length → (ws.getD j 0).setWidth 8 = bs.getD j 0) :
    ((List.range bs.length).map fun i => (memGet 0 (bufFill .loc 0 ws m) (BufRef.loc.cell i)).setWidth 8) = bs := by
  apply List.ext_getElem
  · simp
  · intro i h1 h2
    have := h i h2
    rw [List.getD_eq_getElem _ _ h2] at this
    simp only [List.getElem_map, List.getElem_range, memGet_bufFill _ _ _ hwf, BufRef.cell_eq _ i,
      Nat.add_sub_cancel_left]
    rw [if_pos (by omega), this]

/-- `FL.IDENTIFY` of a ready device, synchronous route (R306). -/
theorem does_identify (h : v.Free) (hb : v.flash.busy = false) (hroute : dmaRoute c 2 = false)
    (hwf : memWf 0 v.buf = true) :
    ∃ sc ws d evs, ws.length = 2 ∧ Heads c.flashBus evs [0x90] ∧
      Does c .loc (identifyProg c) 15 v { v with
        bus := { v.bus with scratch := sc }
        flash := { v.flash with frame := [] }
        fl := { v.fl with
          phase := .idle, op := .none
          desc := { v.fl.desc with vendorId := v.flash.vendor, deviceId := v.flash.device } }
        buf := bufFill .loc 0 ws v.buf
        draws := d
        trace := v.trace ++ evs
        ret := .ident v.flash.vendor v.flash.device } := by
  obtain ⟨rs, sc, sent, evs, hl, hP, hsl, he, d⟩ := does_frame_input (c := c) (hdr := [0x90, 0, 0, 0])
    (v := { v with fl := { v.fl with op := .identify, phase := .cmd } }) ⟨h.1, h.2, h.3, h.4, h.5⟩ (by simp)
    (.inl (by simp)) (q := .loc) (n := 2) (by omega) hroute
    (fun j r => r = .word ((if j = 0 then v.flash.vendor else v.flash.device).setWidth 16))
    (fun j ext free hj hx => ⟨_, answer_rdid free hb hx hj, rfl⟩) (fun ext _ => commit_of_read _ (by simp))
  have hr := reply_bufFill (bs := [v.flash.vendor, v.flash.device]) hwf (ws := rs.map Reply.toWord)
    (by simp [hl]) (fun j hj => by
      have hj2 : j < 2 := hj
      have := hP j rs[j] (by simp [hl, hj2])
      rw [List.getD_eq_getElem _ _ (by simpa [hl] using hj2), List.getElem_map, this]
      rcases (by omega : j = 0 ∨ j = 1) with rfl | rfl <;>
        simp [Reply.toWord, BitVec.setWidth_setWidth_of_le])
  refine ⟨sc, rs.map Reply.toWord, v.draws + 4 + 2 * 2, _, by simp [hl], Heads.window he, ?_⟩
  have d' := Does.cons (acts_flBegin .identify none none) (Does.cons (acts_flPhase .cmd) (d.append
    (Acts.does (m := .identEnd) (v' := { v with
        bus := { v.bus with scratch := sc }
        flash := { v.flash with frame := [] }
        fl := { v.fl with
          phase := .idle, op := .none
          desc := { v.fl.desc with vendorId := v.flash.vendor, deviceId := v.flash.device } }
        buf := bufFill .loc 0 (rs.map Reply.toWord) v.buf
        draws := v.draws + 4 + 2 * 2
        trace := v.trace ++ (.select c.flashBus :: evs ++ [.deselect c.flashBus])
        ret := .ident v.flash.vendor v.flash.device }) (fun s ms hc hb => by
      simp only [micro, stepIdentEnd]
      have hrep : (s.put { v with
          bus := { v.bus with scratch := sc }
          flash := { v.flash with frame := [] }
          fl := { v.fl with op := .identify, phase := .cmd }
          buf := bufFill .loc 0 (rs.map Reply.toWord) v.buf
          draws := v.draws + 4 + 2 * 2
          trace := v.trace ++ (.select c.flashBus :: evs ++ [.deselect c.flashBus]) }).reply 2 =
          [v.flash.vendor, v.flash.device] := hr
      erw [hrep]
      rfl))))
  rw [show identifyProg c = .flBegin .identify none none :: .flPhase .cmd ::
    (frameProg c [0x90, 0, 0, 0] (.input .loc 2) ++ [.identEnd]) by simp [identifyProg]]
  exact d'.cast (by simp) rfl

/-! ## Discovery (R308 to R314) -/

/-- One frame of discovery, synchronous route: the reply buffer then holds the bytes of the table. -/
theorem does_sfdp (h : v.Free) (hb : v.flash.busy = false) {n : Nat} (hn : 1 ≤ n)
    (hroute : dmaRoute c n = false) (hwf : memWf 0 v.buf = true) {a : BitVec 24}
    (hs : a.toNat + n ≤ v.flash.sfdp.length) :
    ∃ sc m d evs, memWf 0 m = true ∧ (∀ i, i < BufRef.loc.cell 0 ∨ BufRef.loc.cell 0 + n ≤ i → memGet 0 m i = memGet 0 v.buf i) ∧
      ((List.range n).map fun i => (memGet 0 m (BufRef.loc.cell i)).setWidth 8) = v.flash.sfdpBytes a.toNat n ∧
      Heads c.flashBus evs [0x5A] ∧
      Does c .loc (frameProg c (0x5A :: (be24 a ++ [0x00])) (.input .loc n)) (11 + n) v { v with
        bus := { v.bus with scratch := sc }
        flash := { v.flash with frame := [] }
        buf := m
        draws := d
        trace := v.trace ++ evs } := by
  obtain ⟨rs, sc, sent, evs, hl, hP, hsl, he, d⟩ := does_frame_input (c := c)
    (hdr := 0x5A :: (be24 a ++ [0x00])) h (by simp) (.inr (by simp)) (q := .loc) hn hroute
    (fun j r => r = .word ((v.flash.sfdp.getD (a.toNat + j) 0).setWidth 16))
    (fun j ext free hj hx => ⟨_, answer_rdsfdp 0x00 free hb hx, by
      rw [List.getElem?_eq_getElem (by omega), List.getD_eq_getElem _ _ (by omega)]⟩)
    (fun ext _ => commit_of_read _ (by simp))
  have hlen : (v.flash.sfdpBytes a.toNat n).length = n := by simp [Flash.sfdpBytes]
  have hr := reply_bufFill (bs := v.flash.sfdpBytes a.toNat n) hwf (ws := rs.map Reply.toWord)
    (by simp [hl, hlen]) (fun j hj => by
      rw [hlen] at hj
      have := hP j rs[j] (by simp [hl, hj])
      have hg : (v.flash.sfdpBytes a.toNat n).getD j 0 = v.flash.sfdp.getD (a.toNat + j) 0 := by
        simp [Flash.sfdpBytes, hj]
      rw [List.getD_eq_getElem _ _ (by simpa [hl] using hj), List.getElem_map, this, hg]
      exact BitVec.setWidth_setWidth_of_le _ (by omega))
  rw [hlen] at hr
  refine ⟨sc, bufFill .loc 0 (rs.map Reply.toWord) v.buf, v.draws + 5 + 2 * n, _, memWf_bufFill _ _ _ hwf,
    fun i hi => ?_, hr, Heads.window he, ?_⟩
  · rw [memGet_bufFill _ _ _ hwf, if_neg (by rw [List.length_map, hl]; omega)]
  · exact d.cast (by simp [be24]) (by simp [be24])

theorem headerOk_iff {l : SfdpLayout} {h : List Byte} :
    (h.take 4 = sfdpSignature ∧ h.getD l.idOff 0 = 0) ↔ headerOk l h = true := by
  simp [headerOk]

theorem tableOk_iff {l : SfdpLayout} {t : List Byte} :
    le32 t l.w1Off &&& l.erase4kMask = l.erase4kVal ↔ tableOk l t = true := by
  simp [tableOk]

/-- What `FL.DISCOVER` leaves of the Flash Descriptor, and what it returns (R308 to R314): `none` where
R314 gives no meaning. -/
def discoverOutcome (c : Config) (f : Flash) (d : FlashDesc) : Option (FlashDesc × Ret) :=
  if headerOk c.sfdp (f.sfdpHeader c.sfdp) then
    if tableOk c.sfdp (f.sfdpTable c.sfdp) then
      (densityDecode (le32 (f.sfdpTable c.sfdp) c.sfdp.w2Off)).map fun k =>
        ({ d with log2Capacity := k, valid := true }, .ok)
    else some (d, .err .unsupportedGeometry)
  else some (d, .err .discovery)

/-- The end of discovery that leaves the descriptor `d` and returns `r`. -/
abbrev View.discEnd (v : View) (d : FlashDesc) (r : Ret) : View :=
  { v with fl := { v.fl with phase := .idle, op := .none, desc := d }, ret := r }

theorem put_reply (s : State) (v : View) (n : Nat) : (s.put v).reply n = v.reply n := rfl

/-- A bad header ends discovery (R310). -/
theorem acts_discHeader (hh : headerOk c.sfdp (v.reply c.sfdp.hdrLen) = false) :
    Acts c .discHeader v (v.discEnd v.fl.desc (.err .discovery)) := fun s ms hc _ => by
  subst hc
  simp only [micro, stepDiscHeader, put_cfg, put_reply, headerOk_iff, hh]
  rfl

/-- A good header leads to the second transaction (R310, R312). -/
theorem micro_discHeader (hh : headerOk c.sfdp (v.reply c.sfdp.hdrLen) = true) (s : State) (ms : List Micro)
    (hc : s.cfg = c) : micro .discHeader ms (s.put v) =
      .more (s.put v) (discTableProg c (le24 (v.reply c.sfdp.hdrLen) c.sfdp.ptrOff) ++ ms) := by
  subst hc
  simp only [micro, stepDiscHeader, put_cfg, put_reply, headerOk_iff, hh, if_true]

/-- The end of the second transaction (R312, R314). -/
theorem acts_discTable {k : BitVec 6} (ht : tableOk c.sfdp (v.reply c.sfdp.tblLen) = true)
    (hd : densityDecode (le32 (v.reply c.sfdp.tblLen) c.sfdp.w2Off) = some k) :
    Acts c .discTable v (v.discEnd { v.fl.desc with log2Capacity := k, valid := true } .ok) :=
  fun s ms hc _ => by
    subst hc
    simp only [micro, stepDiscTable, put_cfg, put_reply, tableOk_iff, ht, if_true, hd]
    rfl

/-- A table that flags no 4-KiB erase ends discovery (R312). -/
theorem acts_discTable_bad (ht : tableOk c.sfdp (v.reply c.sfdp.tblLen) = false) :
    Acts c .discTable v (v.discEnd v.fl.desc (.err .unsupportedGeometry)) := fun s ms hc _ => by
  subst hc
  simp only [micro, stepDiscTable, put_cfg, put_reply, tableOk_iff, ht]
  rfl

/-- `FL.DISCOVER` of a ready device, synchronous route, where the table image holds all that is read. -/
theorem does_discover (h : v.Free) (hb : v.flash.busy = false) (hwf : memWf 0 v.buf = true)
    (h1 : 1 ≤ c.sfdp.hdrLen) (hr1 : dmaRoute c c.sfdp.hdrLen = false)
    (h2 : headerOk c.sfdp (v.flash.sfdpHeader c.sfdp) = true →
      1 ≤ c.sfdp.tblLen ∧ dmaRoute c c.sfdp.tblLen = false)
    (hs1 : c.sfdp.sigOff.toNat + c.sfdp.hdrLen ≤ v.flash.sfdp.length)
    (hs2 : headerOk c.sfdp (v.flash.sfdpHeader c.sfdp) = true →
      (le24 (v.flash.sfdpHeader c.sfdp) c.sfdp.ptrOff).toNat + c.sfdp.tblLen ≤ v.flash.sfdp.length)
    {desc : FlashDesc} {r : Ret} (ho : discoverOutcome c v.flash v.fl.desc = some (desc, r)) :
    ∃ sc m d evs k hs, memWf 0 m = true ∧
      (∀ i, i < BufRef.loc.cell 0 ∨ (BufRef.loc.cell 0 + c.sfdp.hdrLen ≤ i ∧
          (headerOk c.sfdp (v.flash.sfdpHeader c.sfdp) = true → BufRef.loc.cell 0 + c.sfdp.tblLen ≤ i)) →
        memGet 0 m i = memGet 0 v.buf i) ∧
      Heads c.flashBus evs hs ∧
      hs = (if headerOk c.sfdp (v.flash.sfdpHeader c.sfdp) then [0x5A, 0x5A] else [0x5A]) ∧
      k ≤ 30 + c.sfdp.hdrLen + c.sfdp.tblLen ∧
      Does c .loc (discoverProg c) k v { v with
        bus := { v.bus with scratch := sc }
        flash := { v.flash with frame := [] }
        fl := { v.fl with phase := .idle, op := .none, desc := desc }
        buf := m
        draws := d
        trace := v.trace ++ evs
        ret := r } := by
  obtain ⟨sc, m, d, evs, hm, hframe, hrep, he, d1⟩ := does_sfdp (c := c) (a := c.sfdp.sigOff)
    (v := { v with fl := { v.fl with op := .discover, phase := .cmd } }) ⟨h.1, h.2, h.3, h.4, h.5⟩ hb h1 hr1
    hwf hs1
  change View.reply { v with buf := m } _ = v.flash.sfdpHeader c.sfdp at hrep
  have hprog : discoverProg c = .flBegin .discover none none :: .flPhase .cmd ::
      (frameProg c (0x5A :: (be24 c.sfdp.sigOff ++ [0x00])) (.input .loc c.sfdp.hdrLen) ++ [.discHeader]) := by
    simp [discoverProg]
  by_cases hh : headerOk c.sfdp (v.flash.sfdpHeader c.sfdp) = true
  · obtain ⟨sc2, m2, dr2, evs2, hm2, hframe2, hrep2, he2, d2⟩ := does_sfdp (c := c)
      (a := le24 (v.flash.sfdpHeader c.sfdp) c.sfdp.ptrOff) (v := { v with
        bus := { v.bus with scratch := sc }
        flash := { v.flash with frame := [] }
        fl := { v.fl with op := .discover, phase := .cmd }
        buf := m, draws := d, trace := v.trace ++ evs }) ⟨h.1, h.2, h.3, h.4, h.5⟩ hb (h2 hh).1 (h2 hh).2 hm (hs2 hh)
    change View.reply { v with buf := m2 } _ = v.flash.sfdpTable c.sfdp at hrep2
    have d3 : Acts c .discTable { v with
        bus := { v.bus with scratch := sc2 }
        flash := { v.flash with frame := [] }
        fl := { v.fl with op := .discover, phase := .cmd }
        buf := m2, draws := dr2, trace := v.trace ++ evs ++ evs2 } { v with
        bus := { v.bus with scratch := sc2 }
        flash := { v.flash with frame := [] }
        fl := { v.fl with phase := .idle, op := .none, desc := desc }
        buf := m2, draws := dr2, trace := v.trace ++ evs ++ evs2, ret := r } := by
      simp only [discoverOutcome, hh, if_true] at ho
      by_cases ht : tableOk c.sfdp (v.flash.sfdpTable c.sfdp) = true
      · simp only [ht, if_true] at ho
        cases hd : densityDecode (le32 (v.flash.sfdpTable c.sfdp) c.sfdp.w2Off) with
        | none => rw [hd] at ho; cases ho
        | some k =>
          rw [hd] at ho
          cases ho
          rw [← hrep2] at ht hd
          exact acts_discTable ht hd
      · simp only [ht] at ho
        cases ho
        rw [← hrep2] at ht
        exact acts_discTable_bad (Bool.eq_false_of_not_eq_true ht)
    have d4 := Does.cons (acts_flBegin .discover none none) (Does.cons (acts_flPhase .cmd) (d1.append
      (Does.expand (p' := []) (fun s ms hc _ => micro_discHeader (by rw [← hrep] at hh; exact hh) s ms hc)
        (by rw [List.append_nil]; erw [hrep]; exact d2.append d3.does))))
    refine ⟨sc2, m2, dr2, evs ++ evs2, 26 + c.sfdp.hdrLen + c.sfdp.tblLen, [0x5A, 0x5A], hm2, fun i hi => ?_,
      he.append he2, by simp [hh], ?_, ?_⟩
    rotate_right
    · rw [hprog]
      exact d4.cast (by omega) (by simp)
    · rw [hframe2 i (hi.imp_right fun h => h.2 hh)]
      exact hframe i (hi.imp_right And.left)
    · omega
  · have hf : headerOk c.sfdp (v.flash.sfdpHeader c.sfdp) = false := by simpa using hh
    simp only [discoverOutcome, hf] at ho
    cases ho
    rw [← hrep] at hf
    have d4 := Does.cons (acts_flBegin .discover none none) (Does.cons (acts_flPhase .cmd) (d1.append
      (acts_discHeader (v := { v with
        bus := { v.bus with scratch := sc }
        flash := { v.flash with frame := [] }
        fl := { v.fl with op := .discover, phase := .cmd }
        buf := m, draws := d, trace := v.trace ++ evs }) hf).does))
    refine ⟨sc, m, d, evs, 14 + c.sfdp.hdrLen, [0x5A], hm,
      fun i hi => hframe i (hi.imp_right And.left), he, by simp [hh], ?_, ?_⟩
    rotate_right
    · rw [hprog]
      exact d4.cast (by omega) rfl
    · omega

end Sys2Proof.Machine
end

