-- ==== Sys2Proof/Laws/FlashWrites.lean ====
section
/-! SUPPORT. The programs and erases of the driver, from start to end, with the device's work finishing while the
driver polls (R284, R286, R96, R320, R322). -/

namespace Sys2Proof.Machine

variable {c : Config} {v : View} {q : BufRef}

/-- All of a program or erase up to the first poll after its command. -/
def writePrefix (c : Config) (op : FlOp) (addr : Option Nat) (len : Option Nat)
    (hdr : List Byte) (p : Payload) : List Micro :=
  .flBegin op addr len :: .flPhase .preWait :: (waitProg c ++ .flPhase .wren :: (writeEnableProg c ++
    .flPhase .cmd :: (frameProg c hdr p ++ .flPhase .postWait :: statusProg c false)))

theorem writeProg_eq (c : Config) (op : FlOp) (addr : Option Nat) (len : Option Nat)
    (hdr : List Byte) (p : Payload) (r : Ret) :
    writeProg c op addr len hdr p r = writePrefix c op addr len hdr p ++ .waitCheck :: [.flEnd r] := by
  simp [writeProg, writePrefix, waitProg]

/-- The command frame of a program or erase, given to a device that has its latch set and is not busy. -/
def Starts (c : Config) (q : BufRef) (hdr : List Byte) (p : Payload) (k : Nat) (v : View) (f : Flash) (x : Byte) : Prop :=
  ∀ w : View, w.Free → w.flash = { v.flash with frame := [], wel := true } → w.buf = v.buf →
    ∃ sc d evs, Heads c.flashBus evs [x] ∧ Does c q (frameProg c hdr p) k w { w with
      bus := { w.bus with scratch := sc }
      flash := f
      draws := d
      trace := w.trace ++ evs }

/-- A program or erase up to the first poll after its command: the device is at work (R322). -/
theorem does_writePrefix (h : v.Free) (hb : v.flash.busy = false) (op : FlOp) (addr : Option Nat)
    (len : Option Nat) {hdr : List Byte} {p : Payload} {k : Nat} {f : Flash} {x : Byte}
    (hs : Starts c q hdr p k v f x) :
    ∃ sc st stb d evs, Heads c.flashBus evs [0x05, 0x06, x, 0x05] ∧
      Does c q (writePrefix c op addr len hdr p) (30 + k) v { v with
        bus := { v.bus with scratch := sc }
        flash := { f with frame := [] }
        fl := { v.fl with
          phase := .postWait, op := op, addr := addr.getD v.fl.addr, len := len.getD v.fl.len
          status := stb, st := .status f.busy st }
        draws := d
        trace := v.trace ++ evs } := by
  obtain ⟨sc1, st1, e1, b1, he1, d1⟩ := does_wait (c := c) (q := q) (v := { v with
    fl := { v.fl with
      op := op, addr := addr.getD v.fl.addr, len := len.getD v.fl.len, phase := .preWait } })
    ⟨h.1, h.2, h.3, h.4, h.5⟩ hb
  obtain ⟨sc2, e2, he2, d2⟩ := does_writeEnable (c := c) (q := q) (v := { v with
    bus := { v.bus with scratch := sc1 }
    flash := { v.flash with frame := [] }
    fl := { v.fl with
      op := op, addr := addr.getD v.fl.addr, len := len.getD v.fl.len, phase := .wren
      st := .status false st1, status := (Reply.status false st1).toWord.setWidth 8 }
    draws := v.draws + 3
    trace := v.trace ++ (.select c.flashBus :: e1 ++ [.deselect c.flashBus]) }) ⟨h.1, h.2, h.3, h.4, h.5⟩
  have hwel : (v.flash.wel || !v.flash.busy) = true := by simp [hb]
  obtain ⟨sc3, dr3, e3, he3, d3⟩ := hs { v with
    bus := { v.bus with scratch := sc2 }
    flash := { v.flash with frame := [], wel := true }
    fl := { v.fl with
      op := op, addr := addr.getD v.fl.addr, len := len.getD v.fl.len, phase := .cmd
      st := .status false st1, status := (Reply.status false st1).toWord.setWidth 8 }
    draws := v.draws + 3 + 1
    trace := v.trace ++ (.select c.flashBus :: e1 ++ [.deselect c.flashBus]) ++
      (.select c.flashBus :: e2 ++ [.deselect c.flashBus]) } ⟨h.1, h.2, h.3, h.4, h.5⟩ rfl rfl
  obtain ⟨sc4, st4, e4, b4, he4, d4⟩ := does_status (c := c) (q := q) (v := { v with
    bus := { v.bus with scratch := sc3 }
    flash := f
    fl := { v.fl with
      op := op, addr := addr.getD v.fl.addr, len := len.getD v.fl.len, phase := .postWait
      st := .status false st1, status := (Reply.status false st1).toWord.setWidth 8 }
    draws := dr3
    trace := v.trace ++ (.select c.flashBus :: e1 ++ [.deselect c.flashBus]) ++
      (.select c.flashBus :: e2 ++ [.deselect c.flashBus]) ++ e3 }) ⟨h.1, h.2, h.3, h.4, h.5⟩ false
  simp only [hwel] at d2
  have d := Does.cons (acts_flBegin op addr len) (Does.cons (acts_flPhase .preWait) (d1.append
    (Does.cons (acts_flPhase .wren) (d2.append (Does.cons (acts_flPhase .cmd) (d3.append
      (Does.cons (acts_flPhase .postWait) d4)))))))
  refine ⟨sc4, st4, (Reply.status f.busy st4).toWord.setWidth 8, dr3 + 3, _,
    (((Heads.window he1).append (Heads.window he2)).append he3).append (Heads.window he4), ?_⟩
  exact d.cast (by omega) (by simp)

/-- The turn that presents the end of the device's work, while the driver polls. -/
theorem drive_flashDone {w : State} (hm : w.main ≠ []) (hi : w.irq = []) (hb : w.flash.busy = true) :
    drive [flashDoneTurn] w = runAll .main { w with sched := [], flash := w.flash.done } := by
  have h1 : w.coreIdle = false := by
    simp only [State.coreIdle, Bool.and_eq_false_iff]
    exact .inl (by simpa using hm)
  have h2 : eventTurn (.req .op [0xC6]) w = some execEnvFlashDone := rfl
  simp only [drive, h1, flashDoneTurn, h2, execEnvFlashDone, hb]
  simp only [if_true, Bool.false_eq_true, if_false, andThen_next, runCore]
  rw [show runAll .irq { w with sched := [], flash := w.flash.done } =
    .next { w with sched := [], flash := w.flash.done } from runCtx_nil _ _ _ _ hi]
  rfl

/-- A poll that found the device busy is made again (R286). -/
theorem micro_waitCheck_busy (h : v.fl.st.bit0 = true) (s : State) (ms : List Micro) (hc : s.cfg = c) :
    micro .waitCheck ms (s.put v) = .wait (s.put v) (waitProg c ++ ms) := by
  subst hc
  have : (s.put v).fl = v.fl := rfl
  simp [micro, stepWaitCheck, this, h]

theorem put_setMain (s : State) (v : View) (p : List Micro) :
    (s.put v).setProg .main p = (s.setProg .main p).put v := rfl

/-- The polls after a program or erase, once the device is ready, and the end of the operation. -/
theorem does_writeEnd (h : v.Free) (hb : v.flash.busy = false) (r : Ret) :
    ∃ sc st stb d evs, Heads c.flashBus evs [0x05] ∧ Does c q (waitProg c ++ [.flEnd r]) 11 v { v with
      bus := { v.bus with scratch := sc }
      flash := { v.flash with frame := [] }
      fl := { v.fl with phase := .idle, op := .none, status := stb, st := st }
      draws := d
      trace := v.trace ++ evs
      ret := r } := by
  obtain ⟨sc, st, e, b, he, d⟩ := does_wait (c := c) (q := q) h hb
  exact ⟨sc, .status false st, (Reply.status false st).toWord.setWidth 8, _, _, Heads.window he,
    d.append (acts_flEnd r).does⟩

theorem weight_waitProg (s : State) (c : Config) : progWeight s (waitProg c) = 11 := rfl

theorem weight_statusProg (s : State) (c : Config) (g : Bool) : progWeight s (statusProg c g) = 10 := rfl

theorem weight_writeEnableProg (s : State) (c : Config) : progWeight s (writeEnableProg c) = 7 := rfl

/-- A program or erase has the micro-steps it takes up to its first poll. -/
theorem lt_progWeight_write {s : State} {op : FlOp} {addr : Option Nat} {len : Option Nat}
    {hdr : List Byte} {p : Payload} {k : Nat} {r : Ret} (hk : k ≤ progWeight s (frameProg c hdr p)) :
    30 + k < progWeight s (writePrefix c op addr len hdr p ++ .waitCheck :: [.flEnd r]) := by
  simp only [writePrefix, progWeight_append, progWeight, Micro.weight, weight_waitProg, weight_statusProg,
    weight_writeEnableProg]
  omega

/-- A whole program or erase, the device finishing while the driver polls. -/
theorem startMain_write {s : State} {x : Bus} (hq : s.quiet) (hx : s.FlashBusFree x) (ho : s.Leaves q)
    (hsched : s.sched = [flashDoneTurn]) (hb : s.flash.busy = false) (op : FlOp) (addr : Option Nat)
    (len : Option Nat) {hdr : List Byte} {p : Payload} {k : Nat} {f : Flash} {b : Byte} (r : Ret)
    (hs : Starts s.cfg q hdr p k (s.view x) f b) (hf : f.busy = true)
    (hk : ∀ s' : State, k ≤ progWeight s' (frameProg s.cfg hdr p)) :
    ∃ sc st stb d evs, Heads s.cfg.flashBus evs [0x05, 0x06, b, 0x05, 0x05] ∧
      startMain (writeProg s.cfg op addr len hdr p r) s = .next { s with
        buses := s.buses.set s.cfg.flashBus { x with scratch := sc }
        flash := { f.done with frame := [] }
        fl := { s.fl with
          phase := .idle, op := .none, addr := addr.getD s.fl.addr, len := len.getD s.fl.len
          status := stb, st := st }
        draws := d
        trace := s.trace ++ evs
        ret := r
        sched := [] } := by
  have hlen : s.cfg.flashBus < s.buses.length := (List.getElem?_eq_some_iff.1 hx.bus).1
  have hfree : ({ s.view x with ret := .none } : View).Free := ⟨hx.cs, hx.hasCs, hx.width, hx.drained, hx.inactive⟩
  obtain ⟨sc1, st1, stb1, dr1, e1, he1, d1⟩ := does_writePrefix (c := s.cfg) (q := q) hfree hb op addr len
    (p := p) (hdr := hdr) (k := k) (f := f) (x := b) hs
  obtain ⟨sc2, st2, stb2, dr2, e2, he2, d2⟩ := does_writeEnd (c := s.cfg) (q := q) (v := {
    bus := { x with scratch := sc1 }
    flash := ({ f with frame := [] } : Flash).done
    fl := { s.fl with
      phase := .postWait, op := op, addr := addr.getD s.fl.addr, len := len.getD s.fl.len
      status := stb1, st := .status f.busy st1 }
    buf := s.buf, draws := dr1, trace := s.trace ++ e1, ret := .none })
    ⟨hx.cs, hx.hasCs, hx.width, hx.drained, hx.inactive⟩ rfl r
  refine ⟨sc2, st2, stb2, dr2, e1 ++ e2, he1.append he2, ?_⟩
  have hst : ({ s with ret := .none } : State) = s.put { s.view x with ret := .none } := by
    conv_lhs => rw [← put_view hx.bus]
    rfl
  have hm : ∀ (w : View), w.fl.st.bit0 = true → ∀ ms, micro .waitCheck ms ((s.put w).setProg .main
      (.waitCheck :: ms)) = .wait ((s.put w).setProg .main (.waitCheck :: ms)) (waitProg s.cfg ++ ms) :=
    fun w hw ms => micro_waitCheck_busy hw (s.setProg .main (.waitCheck :: ms)) ms rfl
  have hw := startMain_of_waits (p := writePrefix s.cfg op addr len hdr p) (m := .waitCheck)
    (ms := [.flEnd r]) (q := waitProg s.cfg ++ [.flEnd r]) hq (by rw [hst]; exact d1 s rfl hlen ho)
    (hm _ (by exact hf) _) (lt_progWeight_write (hk _))
  rw [writeProg_eq, hw]
  have h2 := runAll_of_runs (d2 { s with sched := [], main := [] } rfl hlen ho)
    (show 11 ≤ progWeight _ (waitProg s.cfg ++ [.flEnd r]) by
      rw [progWeight_append, weight_waitProg]; simp [progWeight])
  have h3 := drive_flashDone (w := { (s.put ({
    bus := { x with scratch := sc1 }
    flash := ({ f with frame := [] } : Flash)
    fl := { s.fl with
      phase := .postWait, op := op, addr := addr.getD s.fl.addr, len := len.getD s.fl.len
      status := stb1, st := .status f.busy st1 }
    buf := s.buf, draws := dr1, trace := s.trace ++ e1, ret := .none })) with
      main := waitProg s.cfg ++ [.flEnd r] })
    (by simp [waitProg, statusProg, selectProg]) hq.2.1 hf
  refine Eq.trans ?_ (h3.trans (Eq.trans h2 ?_))
  · show drive s.sched _ = _
    rw [hsched]
    rfl
  · simp only [State.put, State.setProg, List.append_assoc]
    rw [hq.1]
    rfl

/-- A program or erase with nothing to end the device's work: the command has been accepted, and the driver
polls (R286, R320). -/
theorem startMain_write_waits {s : State} {x : Bus} (hq : s.quiet) (hx : s.FlashBusFree x) (ho : s.Leaves q)
    (hsched : s.sched = []) (hb : s.flash.busy = false) (op : FlOp) (addr : Option Nat)
    (len : Option Nat) {hdr : List Byte} {p : Payload} {k : Nat} {f : Flash} {b : Byte} (r : Ret)
    (hs : Starts s.cfg q hdr p k (s.view x) f b) (hf : f.busy = true)
    (hk : ∀ s' : State, k ≤ progWeight s' (frameProg s.cfg hdr p)) :
    ∃ t, startMain (writeProg s.cfg op addr len hdr p r) s = .next t ∧ t.main ≠ [] ∧ t.ret = .none ∧
      t.flash = { f with frame := [] } ∧ t.fl.phase = .postWait ∧ t.fl.op = op := by
  have hlen : s.cfg.flashBus < s.buses.length := (List.getElem?_eq_some_iff.1 hx.bus).1
  have hfree : ({ s.view x with ret := .none } : View).Free := ⟨hx.cs, hx.hasCs, hx.width, hx.drained, hx.inactive⟩
  obtain ⟨sc1, st1, stb1, dr1, e1, he1, d1⟩ := does_writePrefix (c := s.cfg) (q := q) hfree hb op addr len
    (p := p) (hdr := hdr) (k := k) (f := f) (x := b) hs
  have hst : ({ s with ret := .none } : State) = s.put { s.view x with ret := .none } := by
    conv_lhs => rw [← put_view hx.bus]
    rfl
  have hm : ∀ (w : View), w.fl.st.bit0 = true → ∀ ms, micro .waitCheck ms ((s.put w).setProg .main
      (.waitCheck :: ms)) = .wait ((s.put w).setProg .main (.waitCheck :: ms)) (waitProg s.cfg ++ ms) :=
    fun w hw ms => micro_waitCheck_busy hw (s.setProg .main (.waitCheck :: ms)) ms rfl
  have hw := startMain_of_waits (p := writePrefix s.cfg op addr len hdr p) (m := .waitCheck)
    (ms := [.flEnd r]) (q := waitProg s.cfg ++ [.flEnd r]) hq (by rw [hst]; exact d1 s rfl hlen ho)
    (hm _ (by exact hf) _) (lt_progWeight_write (hk _))
  rw [writeProg_eq, hw]
  have hgo : ∀ (w : State), w.sched = [] → w.irq = [] → w.main = waitProg s.cfg ++ [.flEnd r] →
      w.flash.busy = true → (∃ y, w.buses[s.cfg.flashBus]? = some y ∧ (w.view y).Free) → w.cfg = s.cfg →
      w.ret = .none → w.fl.phase = .postWait → w.fl.op = op →
      ∃ t, drive [] w = .next t ∧ t.main ≠ [] ∧ t.ret = .none ∧
        t.flash = { w.flash with frame := [] } ∧ t.fl.phase = .postWait ∧ t.fl.op = op := by
    intro w h1 h2 h3 h4 ⟨y, hy, hfy⟩ hc hret hp ho
    have hl : s.cfg.flashBus < w.buses.length := (List.getElem?_eq_some_iff.1 hy).1
    obtain ⟨sc, r', evs, b', he, d⟩ := does_status (c := s.cfg) (q := .loc) hfy false
    have hpw : w.put (w.view y) = w := put_view (by rw [hc]; exact hy)
    have hrun := d w hc hl (leaves_loc w)
    rw [hpw] at hrun
    have hwt : ∀ v' : View, v'.fl.st.bit0 = true → micro .waitCheck [.flEnd r]
        ((w.put v').setProg .main (.waitCheck :: [.flEnd r])) =
        .wait ((w.put v').setProg .main (.waitCheck :: [.flEnd r])) (waitProg s.cfg ++ [.flEnd r]) :=
      fun v' hv' => micro_waitCheck_busy hv' (w.setProg .main (.waitCheck :: [.flEnd r])) _ hc
    have hend := runAll_of_waits (ms := [.flEnd r]) hrun (hwt _ (by exact h4))
      (by rw [progWeight_append, weight_statusProg]; omega)
    have hw3 : w.setProg .main (statusProg s.cfg false ++ .waitCheck :: [.flEnd r]) = w := by
      have : statusProg s.cfg false ++ .waitCheck :: [.flEnd r] = waitProg s.cfg ++ [.flEnd r] := by
        simp [waitProg]
      rw [this, ← h3]
      rfl
    rw [hw3] at hend
    simp only [drive, runCore]
    rw [show ({ w with sched := [] } : State) = w by rw [← h1]]
    rw [show runAll .irq w = .next w from runCtx_nil _ _ _ _ h2, andThen_next, hend]
    refine ⟨_, rfl, ?_, hret, rfl, hp, ho⟩
    simp [State.setProg, waitProg, statusProg, selectProg]
  have hbus := put_bus (s := s) rfl hlen
  show ∃ t, drive s.sched _ = _ ∧ _
  rw [hsched]
  exact hgo _ hsched hq.2.1 rfl (by exact hf) ⟨_, hbus _, ⟨hx.cs, hx.hasCs, hx.width, hx.drained, hx.inactive⟩⟩ rfl rfl rfl rfl

/-! ## An operation that needs no wait -/

/-- An operation of the driver that runs to its end. -/
theorem startMain_of_does {s : State} {x : Bus} {p : List Micro} {k : Nat} {v' : View} (hq : s.quiet)
    (hx : s.buses[s.cfg.flashBus]? = some x) (ho : s.Leaves q) (hd : Does s.cfg q p k { s.view x with ret := .none } v')
    (hk : k ≤ progWeight { s with main := p, ret := .none } p) : startMain p s = .next (s.put v') := by
  have hlen : s.cfg.flashBus < s.buses.length := (List.getElem?_eq_some_iff.1 hx).1
  have hst : ({ s with ret := .none } : State) = s.put { s.view x with ret := .none } := by
    conv_lhs => rw [← put_view hx]
    rfl
  have h := startMain_of_runs (t := s.put v') hq (by rw [hst]; exact hd s rfl hlen ho) hk hq.2.1
  rw [h]
  simp only [State.put, hq.1]

/-! ## The commands that start work (R95, R96) -/

/-- The device once a program or erase has been accepted. -/
def Flash.started (f : Flash) (p : Pending) : Flash :=
  { f with frame := [], wel := true, busy := true, pending := p }

theorem commit_se {f : Flash} {a : BitVec 24} (page : Nat) (hb : f.busy = false) (hw : f.wel = true)
    (ha : a.toNat + flSector ≤ f.capacity) :
    ({ f with frame := 0x20 :: be24 a } : Flash).commit page = .ok (f.started (.erase a.toNat flSector)) := by
  have h1 : frameAddr (0x20 :: be24 a) = a.toNat := by simpa using frameAddr_be24 0x20 a []
  have h2 : ({ f with frame := 0x20 :: be24 a } : Flash).commit page =
      if f.wel && !f.busy then
        if f.capacity < frameAddr (0x20 :: be24 a) + flSector then .error .flashSpan
        else .ok (({ f with frame := [] } : Flash).accept (.erase (frameAddr (0x20 :: be24 a)) flSector))
      else .ok { f with frame := [] } := rfl
  rw [h2, h1, hb, hw, if_pos (by decide), if_neg (by omega)]
  simp [Flash.accept, Flash.started]

theorem commit_be32 {f : Flash} {a : BitVec 24} (page : Nat) (hb : f.busy = false) (hw : f.wel = true)
    (ha : a.toNat + flBlock32 ≤ f.capacity) :
    ({ f with frame := 0x52 :: be24 a } : Flash).commit page = .ok (f.started (.erase a.toNat flBlock32)) := by
  have h1 : frameAddr (0x52 :: be24 a) = a.toNat := by simpa using frameAddr_be24 0x52 a []
  have h2 : ({ f with frame := 0x52 :: be24 a } : Flash).commit page =
      if f.wel && !f.busy then
        if f.capacity < frameAddr (0x52 :: be24 a) + flBlock32 then .error .flashSpan
        else .ok (({ f with frame := [] } : Flash).accept (.erase (frameAddr (0x52 :: be24 a)) flBlock32))
      else .ok { f with frame := [] } := rfl
  rw [h2, h1, hb, hw, if_pos (by decide), if_neg (by omega)]
  simp [Flash.accept, Flash.started]

theorem commit_ce {f : Flash} (page : Nat) (hb : f.busy = false) (hw : f.wel = true) :
    ({ f with frame := [0xC7] } : Flash).commit page = .ok (f.started (.erase 0 f.capacity)) := by
  simp [Flash.commit, Flash.accept, Flash.started, Flash.capacity, hb, hw]

theorem commit_pp {f : Flash} {a : BitVec 24} {data : List Byte} (page : Nat) (hb : f.busy = false)
    (hw : f.wel = true) (hn : data ≠ []) (hp : onePage page a.toNat data.length = true)
    (ha : a.toNat + data.length ≤ f.capacity) :
    ({ f with frame := 0x02 :: (be24 a ++ data) } : Flash).commit page =
      .ok (f.started (.program a.toNat data)) := by
  have h1 : frameAddr (0x02 :: (be24 a ++ data)) = a.toNat := frameAddr_be24 0x02 a data
  have h2 : ({ f with frame := 0x02 :: (be24 a ++ data) } : Flash).commit page =
      if f.wel && !f.busy && decide (5 ≤ data.length + 4) then
        if !onePage page (frameAddr (0x02 :: (be24 a ++ data))) (data.length + 4 - 4) then .error .pageCross
        else if f.capacity < frameAddr (0x02 :: (be24 a ++ data)) + (data.length + 4 - 4) then
          .error .flashSpan
        else .ok (({ f with frame := [] } : Flash).accept
          (.program (frameAddr (0x02 :: (be24 a ++ data))) data))
      else .ok { f with frame := [] } := rfl
  have h3 := List.length_pos_iff.2 hn
  rw [h2, h1, hb, hw, Nat.add_sub_cancel, hp, if_pos (by simp; omega), if_neg (by simp), if_neg (by omega)]
  simp [Flash.accept, Flash.started]

/-- A command that starts work, given to a device that is busy or has its latch clear, changes nothing
(R95, R96, R97). -/
theorem commit_ignored {f : Flash} (page : Nat) (h : (f.wel && !f.busy) = false) {fr : List Byte}
    (h6 : (fr.headD 0).toNat ≠ 6) :
    ({ f with frame := fr } : Flash).commit page = .ok { f with frame := [] } := by
  simp only [Flash.commit, h]
  split <;> simp_all

/-- A frame with no payload that starts work. -/
theorem starts_none {x : Byte} {tl : List Byte} {p : Pending} (hl : (x :: tl).length ≤ 4)
    (hc : ({ v.flash with wel := true, frame := x :: tl } : Flash).commit c.flPage = .ok (v.flash.started p)) :
    Starts c q (x :: tl) .none (5 + (x :: tl).length) v (v.flash.started p) x := by
  intro w hw hf hb
  obtain ⟨sc, evs, he, d⟩ := does_frame_none (c := c) (q := q) hw (hdr := x :: tl) (by simp) (.inl hl)
    (f := v.flash.started p) (by rw [hf]; exact hc)
  exact ⟨sc, _, _, Heads.window he, d⟩

/-- A frame with a payload from a buffer that starts work, synchronous route. -/
theorem starts_output {x : Byte} {tl : List Byte} {p : Pending} {q : BufRef} {n : Nat}
    (hl : (x :: tl).length ≤ 4) (h3 : x.toNat ≠ 3) (h1 : 1 ≤ n) (hroute : dmaRoute c n = false)
    (hc : ({ v.flash with wel := true, frame := x :: tl ++ payloadBytes v.buf q n } : Flash).commit c.flPage =
      .ok (v.flash.started p)) :
    Starts c q (x :: tl) (.output q n) (6 + (x :: tl).length + n) v (v.flash.started p) x := by
  intro w hw hf hb
  obtain ⟨sc, evs, he, d⟩ := does_frame_output (c := c) hw (hdr := x :: tl) (by simp) hl h3 h1 hroute
    (q := q) (f := v.flash.started p) (by rw [hf, hb]; exact hc)
  exact ⟨sc, _, _, Heads.window he, d⟩

theorem weight_frame_none (s : State) (c : Config) (hdr : List Byte) :
    progWeight s (frameProg c hdr .none) = 6 + hdr.length := by
  simp [frameProg, payloadProg, selectProg, deselectProg, txBytes, transferProg, progWeight, Micro.weight]
  omega

theorem weight_frame_output (s : State) (c : Config) (hdr : List Byte) (q : BufRef) (n : Nat)
    (hroute : dmaRoute c n = false) :
    progWeight s (frameProg c hdr (.output q n)) = 8 + hdr.length + n := by
  simp [frameProg, payloadProg, selectProg, deselectProg, txBytes, transferProg, progWeight, Micro.weight,
    hroute]
  omega

theorem weight_frame_input (s : State) (c : Config) (hdr : List Byte) (q : BufRef) (n : Nat)
    (hroute : dmaRoute c n = false) :
    progWeight s (frameProg c hdr (.input q n)) = 8 + hdr.length + n := by
  simp [frameProg, payloadProg, selectProg, deselectProg, txBytes, transferProg, progWeight, Micro.weight,
    hroute]
  omega

end Sys2Proof.Machine
end

