-- ==== Sys2Proof/Laws/PerInstr.lean ====
section
/-! SUPPORT. For every instruction: its bytes begin with the byte the table gives its row (R104, R124, R126), in
the code space of that table (log 4). One lemma per constructor. -/

namespace Sys2Proof

/-- The identifier or opcode of each row, as R104, R124 and R126 give it, and the space of its table. -/
def Laws.tableId : Instr → Space × Byte
  | .fcPp _ _ => (.wire, 0x02)
  | .fcRead _ _ => (.wire, 0x03)
  | .fcRdsr => (.wire, 0x05)
  | .fcWren => (.wire, 0x06)
  | .fcSe _ => (.wire, 0x20)
  | .fcBe32 _ => (.wire, 0x52)
  | .fcRdsfdp _ _ => (.wire, 0x5A)
  | .fcRdid => (.wire, 0x90)
  | .fcJedec => (.wire, 0x9F)
  | .fcCe => (.wire, 0xC7)
  | .rbPush _ _ => (.op, 0x01)
  | .rbPull _ => (.op, 0x02)
  | .spiSelect _ => (.op, 0x10)
  | .spiDeselect _ => (.op, 0x11)
  | .spiXfer _ _ _ _ => (.op, 0x12)
  | .spiTx _ _ _ => (.op, 0x13)
  | .spiRx _ _ _ => (.op, 0x14)
  | .dmaStart _ _ _ _ _ => (.op, 0x18)
  | .dmaWait _ => (.op, 0x19)
  | .uartBindPoll _ => (.op, 0x20)
  | .uartBindIrq _ _ _ => (.op, 0x21)
  | .uartPollRead _ => (.op, 0x22)
  | .uartWriteByte _ _ => (.op, 0x23)
  | .uartDmaTx _ _ _ => (.op, 0x24)
  | .uartDmaWait _ => (.op, 0x25)
  | .flIdentify => (.op, 0x30)
  | .flDiscover => (.op, 0x31)
  | .flRead _ _ _ => (.op, 0x32)
  | .flProgram _ _ _ => (.op, 0x33)
  | .flEraseSector _ => (.op, 0x34)
  | .flEraseBlock _ => (.op, 0x35)
  | .flEraseAll => (.op, 0x36)
  | .flWaitReady => (.op, 0x37)
  | .flWriteEnable => (.op, 0x38)
  | .flReadStatus => (.op, 0x39)
  | .flInit => (.op, 0x3A)
  | .bdRead _ _ _ _ => (.op, 0x40)
  | .bdProgram _ _ _ _ => (.op, 0x41)
  | .bdErase _ => (.op, 0x42)
  | .bdSync => (.op, 0x43)
  | .evDmaRxDone _ => (.op, 0x80)
  | .evDmaTxDone _ => (.op, 0x81)
  | .evUartRxLevel _ => (.op, 0x82)
  | .evUartRxTimeout _ => (.op, 0x83)
  | .evUartTxLevel _ => (.op, 0x84)
  | .evUartLineError _ => (.op, 0x85)
  | .evUartDmaDone _ => (.op, 0x86)
  | .evUartEot _ => (.op, 0x87)
  | .envDmaRxMove _ => (.op, 0xC0)
  | .envDmaTxMove _ => (.op, 0xC1)
  | .envUartDmaMove _ => (.op, 0xC2)
  | .envLineByte _ _ _ => (.op, 0xC3)
  | .envLineSilence _ => (.op, 0xC4)
  | .envTxShift _ => (.op, 0xC5)
  | .envFlashDone => (.op, 0xC6)

/-- The instruction is encoded in its own table's space, and its first byte is its row's. -/
def Laws.FirstByte.Statement (i : Instr) : Prop :=
  ((encode i).1, (encode i).2.headD 0) = Laws.tableId i

theorem Laws.FirstByte.fcPp a b : Laws.FirstByte.Statement (.fcPp a b) := rfl
theorem Laws.FirstByte.fcRead a b : Laws.FirstByte.Statement (.fcRead a b) := rfl
theorem Laws.FirstByte.fcRdsr : Laws.FirstByte.Statement .fcRdsr := rfl
theorem Laws.FirstByte.fcWren : Laws.FirstByte.Statement .fcWren := rfl
theorem Laws.FirstByte.fcSe a : Laws.FirstByte.Statement (.fcSe a) := rfl
theorem Laws.FirstByte.fcBe32 a : Laws.FirstByte.Statement (.fcBe32 a) := rfl
theorem Laws.FirstByte.fcRdsfdp a b : Laws.FirstByte.Statement (.fcRdsfdp a b) := rfl
theorem Laws.FirstByte.fcRdid : Laws.FirstByte.Statement .fcRdid := rfl
theorem Laws.FirstByte.fcJedec : Laws.FirstByte.Statement .fcJedec := rfl
theorem Laws.FirstByte.fcCe : Laws.FirstByte.Statement .fcCe := rfl
theorem Laws.FirstByte.rbPush a b : Laws.FirstByte.Statement (.rbPush a b) := rfl
theorem Laws.FirstByte.rbPull a : Laws.FirstByte.Statement (.rbPull a) := rfl
theorem Laws.FirstByte.spiSelect a : Laws.FirstByte.Statement (.spiSelect a) := rfl
theorem Laws.FirstByte.spiDeselect a : Laws.FirstByte.Statement (.spiDeselect a) := rfl
theorem Laws.FirstByte.spiXfer a b c d : Laws.FirstByte.Statement (.spiXfer a b c d) := rfl
theorem Laws.FirstByte.spiTx a b c : Laws.FirstByte.Statement (.spiTx a b c) := rfl
theorem Laws.FirstByte.spiRx a b c : Laws.FirstByte.Statement (.spiRx a b c) := rfl
theorem Laws.FirstByte.dmaStart a b c d e : Laws.FirstByte.Statement (.dmaStart a b c d e) := rfl
theorem Laws.FirstByte.dmaWait a : Laws.FirstByte.Statement (.dmaWait a) := rfl
theorem Laws.FirstByte.uartBindPoll a : Laws.FirstByte.Statement (.uartBindPoll a) := rfl
theorem Laws.FirstByte.uartBindIrq a b c : Laws.FirstByte.Statement (.uartBindIrq a b c) := rfl
theorem Laws.FirstByte.uartPollRead a : Laws.FirstByte.Statement (.uartPollRead a) := rfl
theorem Laws.FirstByte.uartWriteByte a b : Laws.FirstByte.Statement (.uartWriteByte a b) := rfl
theorem Laws.FirstByte.uartDmaTx a b c : Laws.FirstByte.Statement (.uartDmaTx a b c) := rfl
theorem Laws.FirstByte.uartDmaWait a : Laws.FirstByte.Statement (.uartDmaWait a) := rfl
theorem Laws.FirstByte.flIdentify : Laws.FirstByte.Statement .flIdentify := rfl
theorem Laws.FirstByte.flDiscover : Laws.FirstByte.Statement .flDiscover := rfl
theorem Laws.FirstByte.flRead a b c : Laws.FirstByte.Statement (.flRead a b c) := rfl
theorem Laws.FirstByte.flProgram a b c : Laws.FirstByte.Statement (.flProgram a b c) := rfl
theorem Laws.FirstByte.flEraseSector a : Laws.FirstByte.Statement (.flEraseSector a) := rfl
theorem Laws.FirstByte.flEraseBlock a : Laws.FirstByte.Statement (.flEraseBlock a) := rfl
theorem Laws.FirstByte.flEraseAll : Laws.FirstByte.Statement .flEraseAll := rfl
theorem Laws.FirstByte.flWaitReady : Laws.FirstByte.Statement .flWaitReady := rfl
theorem Laws.FirstByte.flWriteEnable : Laws.FirstByte.Statement .flWriteEnable := rfl
theorem Laws.FirstByte.flReadStatus : Laws.FirstByte.Statement .flReadStatus := rfl
theorem Laws.FirstByte.flInit : Laws.FirstByte.Statement .flInit := rfl
theorem Laws.FirstByte.bdRead a b c d : Laws.FirstByte.Statement (.bdRead a b c d) := rfl
theorem Laws.FirstByte.bdProgram a b c d : Laws.FirstByte.Statement (.bdProgram a b c d) := rfl
theorem Laws.FirstByte.bdErase a : Laws.FirstByte.Statement (.bdErase a) := rfl
theorem Laws.FirstByte.bdSync : Laws.FirstByte.Statement .bdSync := rfl
theorem Laws.FirstByte.evDmaRxDone a : Laws.FirstByte.Statement (.evDmaRxDone a) := rfl
theorem Laws.FirstByte.evDmaTxDone a : Laws.FirstByte.Statement (.evDmaTxDone a) := rfl
theorem Laws.FirstByte.evUartRxLevel a : Laws.FirstByte.Statement (.evUartRxLevel a) := rfl
theorem Laws.FirstByte.evUartRxTimeout a : Laws.FirstByte.Statement (.evUartRxTimeout a) := rfl
theorem Laws.FirstByte.evUartTxLevel a : Laws.FirstByte.Statement (.evUartTxLevel a) := rfl
theorem Laws.FirstByte.evUartLineError a : Laws.FirstByte.Statement (.evUartLineError a) := rfl
theorem Laws.FirstByte.evUartDmaDone a : Laws.FirstByte.Statement (.evUartDmaDone a) := rfl
theorem Laws.FirstByte.evUartEot a : Laws.FirstByte.Statement (.evUartEot a) := rfl
theorem Laws.FirstByte.envDmaRxMove a : Laws.FirstByte.Statement (.envDmaRxMove a) := rfl
theorem Laws.FirstByte.envDmaTxMove a : Laws.FirstByte.Statement (.envDmaTxMove a) := rfl
theorem Laws.FirstByte.envUartDmaMove a : Laws.FirstByte.Statement (.envUartDmaMove a) := rfl
theorem Laws.FirstByte.envLineByte a b c : Laws.FirstByte.Statement (.envLineByte a b c) := rfl
theorem Laws.FirstByte.envLineSilence a : Laws.FirstByte.Statement (.envLineSilence a) := rfl
theorem Laws.FirstByte.envTxShift a : Laws.FirstByte.Statement (.envTxShift a) := rfl
theorem Laws.FirstByte.envFlashDone : Laws.FirstByte.Statement .envFlashDone := rfl

end Sys2Proof
end

