-- ==== Sys2Proof/Laws/Wire.lean ====
section
/-! SUPPORT. The frames presented by themselves (R100, R101, log 13): one selection window each. -/

namespace Sys2Proof.Machine

variable {c : Config} {v : View} {q : BufRef}

/-- A frame with no reply: the header and the data bytes in one window, then the deselect. -/
theorem does_wire (h : v.Free) {hdr data : List Byte} (hn : hdr ≠ []) (hl : hdr.length ≤ 4)
    (h3 : data = [] ∨ (hdr.headD 0).toNat ≠ 0x03) {f : Flash}
    (hf : ({ v.flash with frame := hdr ++ data } : Flash).commit c.flPage = .ok f) :
    ∃ sc evs k, k ≤ 8 + hdr.length + data.length ∧ Sends c.flashBus (hdr ++ data) evs ∧
      Does c q (wireProg c hdr data 0) k v { v with
        bus := { v.bus with scratch := sc }
        flash := f
        draws := v.draws + hdr.length + data.length
        trace := v.trace ++ (.select c.flashBus :: evs ++ [.deselect c.flashBus])
        ret := .bytes [] } := by
  obtain ⟨sc1, e1, he1, d1⟩ := does_open (c := c) (q := q) h hn (.inl hl)
  cases data with
  | nil =>
    rw [List.append_nil] at hf
    have d3 := does_deselect (c := c) (q := q) (v := { v with
        bus := { v.bus with cs := true, scratch := sc1 }, flash := { v.flash with frame := hdr }
        draws := v.draws + hdr.length, trace := v.trace ++ (.select c.flashBus :: e1) })
      rfl h.hasCs (by simp [Bus.idle, h.drained, h.inactive]) hf
    have d := (d1.append d3).append (acts_giveReply 0).does
    refine ⟨sc1, e1, 6 + hdr.length, by simp, by simpa using he1, ?_⟩
    rw [show wireProg c hdr [] 0 = selectProg c.flashBus ++ txBytes c.flashBus hdr ++
      deselectProg c.flashBus ++ [.giveReply 0] by simp [wireProg]]
    exact d.cast (by omega) (by simp [h.cs])
  | cons x xs =>
    obtain ⟨sc, e2, he2, d2⟩ := does_txBytes (c := c) (q := q) (v := { v with
        bus := { v.bus with cs := true, scratch := sc1 }, flash := { v.flash with frame := hdr }
        draws := v.draws + hdr.length, trace := v.trace ++ (.select c.flashBus :: e1) })
      ⟨rfl, h.hasCs, h.width⟩ h.inactive (bs := x :: xs) (by simp)
      (fun fr free _ hp _ => answer_of_ne (by
        obtain ⟨t, rfl⟩ := hp
        cases hdr with
        | nil => contradiction
        | cons a l => simpa using h3) free)
    have d3 := does_deselect (c := c) (q := q) (v := { v with
        bus := { v.bus with cs := true, scratch := sc }
        flash := { v.flash with frame := hdr ++ (x :: xs) }
        draws := v.draws + hdr.length + (x :: xs).length
        trace := v.trace ++ (.select c.flashBus :: e1) ++ e2 })
      rfl h.hasCs (by simp [Bus.idle, h.drained, h.inactive]) hf
    have d := ((d1.append d2).append d3).append (acts_giveReply 0).does
    refine ⟨sc, e1 ++ e2, 7 + hdr.length + (x :: xs).length, by omega, he1.append he2, ?_⟩
    rw [show wireProg c hdr (x :: xs) 0 = selectProg c.flashBus ++ txBytes c.flashBus hdr ++
      txBytes c.flashBus (x :: xs) ++ deselectProg c.flashBus ++ [.giveReply 0] by simp [wireProg]]
    exact d.cast (by omega) (by simp [h.cs])

/-- A frame with `n` reply bytes, which have property `P`. -/
theorem does_wire_reply (h : v.Free) {hdr : List Byte} (hn : hdr ≠ [])
    (hh : hdr.length ≤ 4 ∨ (hdr.headD 0).toNat ≠ 0x03) {n : Nat} (h1 : 1 ≤ n) (hwf : memWf 0 v.buf = true)
    (P : Nat → Reply → Prop)
    (hr : ∀ (j : Nat) (ext : List Byte) (free : Word), j < n → ext.length = j + 1 →
      ∃ r, v.flash.answer (hdr ++ ext) free = .ok r ∧ P j r)
    (hf : ∀ ext : List Byte, ext.length = n →
      ({ v.flash with frame := hdr ++ ext } : Flash).commit c.flPage = .ok { v.flash with frame := [] }) :
    ∃ (rs : List Reply) (sc : Word) (sent : List Byte) (evs : List Event), rs.length = n ∧
      (∀ j r, rs[j]? = some r → P j r) ∧ sent.length = n ∧ Sends c.flashBus (hdr ++ sent) evs ∧
      Does c .loc (wireProg c hdr [] n) (7 + hdr.length + n) v { v with
        bus := { v.bus with scratch := sc }
        flash := { v.flash with frame := [] }
        buf := bufFill .loc 0 (rs.map Reply.toWord) v.buf
        draws := v.draws + hdr.length + 2 * n
        trace := v.trace ++ (.select c.flashBus :: evs ++ [.deselect c.flashBus])
        ret := .bytes (rs.map fun r => r.toWord.setWidth 8) } := by
  obtain ⟨sc, e1, he1, d1⟩ := does_open (c := c) (q := .loc) h hn hh
  obtain ⟨rs, sent, e2, hl, hP, hsl, he2, d2⟩ := does_rx (c := c) (v := { v with
      bus := { v.bus with cs := true, scratch := sc }, flash := { v.flash with frame := hdr }
      draws := v.draws + hdr.length, trace := v.trace ++ (.select c.flashBus :: e1) })
    ⟨rfl, h.hasCs, h.width⟩ h.inactive (q := .loc) h1 P (fun j ext free hj hx => hr j ext free hj hx)
  have d3 := does_deselect (c := c) (q := .loc) (v := { v with
      bus := { v.bus with cs := true, scratch := sc }, flash := { v.flash with frame := hdr ++ sent }
      buf := bufFill .loc 0 (rs.map Reply.toWord) v.buf
      draws := v.draws + hdr.length + 2 * n
      trace := v.trace ++ (.select c.flashBus :: e1) ++ e2 })
    rfl h.hasCs (by simp [Bus.idle, h.drained, h.inactive]) (hf sent hsl)
  refine ⟨rs, sc, sent, e1 ++ e2, hl, hP, hsl, he1.append he2, ?_⟩
  have d := ((d1.append d2).append d3).append (acts_giveReply n).does
  have hrep := reply_bufFill (ws := rs.map Reply.toWord) (bs := rs.map fun r => r.toWord.setWidth 8) hwf
    (by simp) (fun j hj => by simp at hj; simp [hj])
  rw [List.length_map, hl] at hrep
  have hn0 : n ≠ 0 := by omega
  rw [show wireProg c hdr [] n = selectProg c.flashBus ++ txBytes c.flashBus hdr ++
      transferProg c.flashBus .filler (.buf .loc) n ++ deselectProg c.flashBus ++ [.giveReply n] by
    simp [wireProg, hn0]]
  exact d.cast (by omega) (by simp [h.cs]; exact hrep)

theorem weight_wire (s : State) (c : Config) (hdr data : List Byte) (n : Nat) :
    8 + hdr.length + data.length + n ≤ progWeight s (wireProg c hdr data n) + 1 := by
  by_cases hd : data = [] <;> by_cases hn : n = 0 <;>
    simp [wireProg, selectProg, deselectProg, txBytes, transferProg, progWeight, Micro.weight,
      hd, hn] <;> omega

end Sys2Proof.Machine
end

