-- ==== Sys2Proof/Tests/Slice0.lean ====
section
/-! SUPPORT. Tests. The words are written out from R101 to R106, R124, R126 and log 3; the expected results of
the one-step tests are those of 95_test_vectors.md (its programs and interleavings are named) or hand
calculation from the rule named; the witnesses show that the hypotheses of a statement can be met. -/

open Sys2Proof Sys2Proof.Machine

/-! ## Ill-formed terms -/

theorem test_wf_refuses_pp_empty : Instr.wf (.fcPp 0 []) = false := by decide
theorem test_wf_refuses_read_empty : Instr.wf (.fcRead 0 0) = false := by decide
theorem test_wf_refuses_rdsfdp_empty : Instr.wf (.fcRdsfdp 0 0) = false := by decide
theorem test_wf_refuses_xfer_zero : Instr.wf (.spiXfer 0 0 0 0) = false := by decide
theorem test_wf_refuses_xfer_long : Instr.wf (.spiXfer 0 0 0 (2 ^ 32 + 1)) = false := by decide
theorem test_wf_refuses_tx_zero : Instr.wf (.spiTx 0 0 0) = false := by decide
theorem test_wf_refuses_rx_zero : Instr.wf (.spiRx 0 0 0) = false := by decide
theorem test_wf_refuses_dma_zero : Instr.wf (.dmaStart 0 none none 0 true) = false := by decide
theorem test_wf_refuses_bind_long : Instr.wf (.uartBindIrq 0 0 (2 ^ 32)) = false := by decide
theorem test_wf_refuses_dmatx_zero : Instr.wf (.uartDmaTx 0 0 0) = false := by decide
theorem test_wf_refuses_flread_zero : Instr.wf (.flRead 0 0 0) = false := by decide
theorem test_wf_refuses_flprogram_zero : Instr.wf (.flProgram 0 0 0) = false := by decide
theorem test_wf_refuses_bdread_zero : Instr.wf (.bdRead 0 0 0 0) = false := by decide
theorem test_wf_refuses_bdprogram_zero : Instr.wf (.bdProgram 0 0 0 0) = false := by decide
theorem test_wf_admits_capacity_zero : Instr.wf (.uartBindIrq 0 0 0) = true := by decide

/-! ## Words -/

theorem test_decode_fcPp :
    decode .wire [0x02, 0x00, 0x10, 0x00, 0xDE, 0xAD] = .ok (.fcPp 0x001000 [0xDE, 0xAD]) := by decide
theorem test_decode_fcRead :
    decode .wire [0x03, 0x08, 0x10, 0x20, 0x00, 0x00] = .ok (.fcRead 0x081020 2) := by decide
theorem test_decode_fcRdsr : decode .wire [0x05, 0xFF] = .ok .fcRdsr := by decide
theorem test_decode_fcWren : decode .wire [0x06] = .ok .fcWren := by decide
theorem test_decode_fcSe : decode .wire [0x20, 0x00, 0x10, 0x00] = .ok (.fcSe 0x001000) := by decide
theorem test_decode_fcBe32 : decode .wire [0x52, 0x00, 0x80, 0x00] = .ok (.fcBe32 0x008000) := by decide
theorem test_decode_fcRdsfdp :
    decode .wire [0x5A, 0x00, 0x00, 0x30, 0x00, 0x00, 0x00] = .ok (.fcRdsfdp 0x000030 2) := by decide
theorem test_decode_fcRdid : decode .wire [0x90, 0x00, 0x00, 0x00, 0x00, 0x00] = .ok .fcRdid := by decide
theorem test_decode_fcJedec : decode .wire [0x9F, 0x00, 0x00, 0x00] = .ok .fcJedec := by decide
theorem test_decode_fcCe : decode .wire [0xC7] = .ok .fcCe := by decide
theorem test_decode_rbPush : decode .op [0x01, 0x81, 0xAB] = .ok (.rbPush (.tx 1) 0xAB) := by decide
theorem test_decode_rbPull : decode .op [0x02, 0x01] = .ok (.rbPull (.own 1)) := by decide
theorem test_decode_spiSelect : decode .op [0x10, 0x01] = .ok (.spiSelect 1) := by decide
theorem test_decode_spiDeselect : decode .op [0x11, 0x01] = .ok (.spiDeselect 1) := by decide
theorem test_decode_spiXfer :
    decode .op [0x12, 0x01, 0x02, 0x03, 0x04, 0x05, 0x0F, 0x00, 0x00, 0x00] =
      .ok (.spiXfer 1 0x0302 0x0504 16) := by decide
theorem test_decode_spiTx :
    decode .op [0x13, 0x01, 0x02, 0x03, 0x00, 0x01, 0x00, 0x00] = .ok (.spiTx 1 0x0302 257) := by decide
theorem test_decode_spiRx :
    decode .op [0x14, 0x01, 0x02, 0x03, 0xFF, 0x00, 0x00, 0x00] = .ok (.spiRx 1 0x0302 256) := by decide
theorem test_decode_dmaStart :
    decode .op [0x18, 0x01, 0x00, 0x02, 0x03, 0x00, 0x00, 0x3F, 0x00, 0x00, 0x00, 0x01] =
      .ok (.dmaStart 1 (some 0x0302) none 64 true) := by decide
theorem test_decode_dmaStart_both :
    decode .op [0x18, 0x01, 0x02, 0x02, 0x03, 0x04, 0x05, 0x3F, 0x00, 0x00, 0x00, 0x00] =
      .ok (.dmaStart 1 (some 0x0302) (some 0x0504) 64 false) := by decide
theorem test_decode_dmaWait : decode .op [0x19, 0x01] = .ok (.dmaWait 1) := by decide
theorem test_decode_uartBindPoll : decode .op [0x20, 0x01] = .ok (.uartBindPoll 1) := by decide
theorem test_decode_uartBindIrq :
    decode .op [0x21, 0x01, 0x02, 0x03, 0x00, 0x01, 0x00, 0x00] = .ok (.uartBindIrq 1 0x0302 256) := by decide
theorem test_decode_uartPollRead : decode .op [0x22, 0x01] = .ok (.uartPollRead 1) := by decide
theorem test_decode_uartWriteByte : decode .op [0x23, 0x01, 0x41] = .ok (.uartWriteByte 1 0x41) := by decide
theorem test_decode_uartDmaTx :
    decode .op [0x24, 0x01, 0x02, 0x03, 0xC3, 0x09, 0x00, 0x00] = .ok (.uartDmaTx 1 0x0302 2500) := by decide
theorem test_decode_uartDmaWait : decode .op [0x25, 0x01] = .ok (.uartDmaWait 1) := by decide
theorem test_decode_flIdentify : decode .op [0x30] = .ok .flIdentify := by decide
theorem test_decode_flDiscover : decode .op [0x31] = .ok .flDiscover := by decide
theorem test_decode_flRead :
    decode .op [0x32, 0x00, 0x10, 0x08, 0x01, 0x02, 0x03, 0x04, 0x05, 0x02, 0x03, 0x0F, 0x00, 0x00, 0x00] =
      .ok (.flRead 0x0504030201081000 0x0302 16) := by decide
theorem test_decode_flProgram :
    decode .op [0x33, 0x00, 0x10, 0x08, 0x00, 0x00, 0x00, 0x00, 0x00, 0x02, 0x03, 0x03, 0x00, 0x00, 0x00] =
      .ok (.flProgram 0x081000 0x0302 4) := by decide
theorem test_decode_flEraseSector :
    decode .op [0x34, 0x00, 0x10, 0x00, 0x00, 0x00, 0x00, 0x00, 0x00] = .ok (.flEraseSector 0x1000) := by decide
theorem test_decode_flEraseBlock :
    decode .op [0x35, 0x00, 0x80, 0x00, 0x00, 0x00, 0x00, 0x00, 0x00] = .ok (.flEraseBlock 0x8000) := by decide
theorem test_decode_flEraseAll : decode .op [0x36] = .ok .flEraseAll := by decide
theorem test_decode_flWaitReady : decode .op [0x37] = .ok .flWaitReady := by decide
theorem test_decode_flWriteEnable : decode .op [0x38] = .ok .flWriteEnable := by decide
theorem test_decode_flReadStatus : decode .op [0x39] = .ok .flReadStatus := by decide
theorem test_decode_flInit : decode .op [0x3A] = .ok .flInit := by decide
theorem test_decode_bdRead :
    decode .op [0x40, 0x01, 0x00, 0x00, 0x00, 0x20, 0x00, 0x00, 0x00, 0x02, 0x03, 0x0F, 0x00, 0x00, 0x00] =
      .ok (.bdRead 1 0x20 0x0302 16) := by decide
theorem test_decode_bdProgram :
    decode .op [0x41, 0x01, 0x00, 0x00, 0x00, 0x20, 0x00, 0x00, 0x00, 0x02, 0x03, 0x0F, 0x00, 0x00, 0x00] =
      .ok (.bdProgram 1 0x20 0x0302 16) := by decide
theorem test_decode_bdErase : decode .op [0x42, 0x01, 0x00, 0x00, 0x00] = .ok (.bdErase 1) := by decide
theorem test_decode_bdSync : decode .op [0x43] = .ok .bdSync := by decide
theorem test_decode_evDmaRxDone : decode .op [0x80, 0x01] = .ok (.evDmaRxDone 1) := by decide
theorem test_decode_evDmaTxDone : decode .op [0x81, 0x01] = .ok (.evDmaTxDone 1) := by decide
theorem test_decode_evUartRxLevel : decode .op [0x82, 0x01] = .ok (.evUartRxLevel 1) := by decide
theorem test_decode_evUartRxTimeout : decode .op [0x83, 0x01] = .ok (.evUartRxTimeout 1) := by decide
theorem test_decode_evUartTxLevel : decode .op [0x84, 0x01] = .ok (.evUartTxLevel 1) := by decide
theorem test_decode_evUartLineError : decode .op [0x85, 0x01] = .ok (.evUartLineError 1) := by decide
theorem test_decode_evUartDmaDone : decode .op [0x86, 0x01] = .ok (.evUartDmaDone 1) := by decide
theorem test_decode_evUartEot : decode .op [0x87, 0x01] = .ok (.evUartEot 1) := by decide
theorem test_decode_envDmaRxMove : decode .op [0xC0, 0x01] = .ok (.envDmaRxMove 1) := by decide
theorem test_decode_envDmaTxMove : decode .op [0xC1, 0x01] = .ok (.envDmaTxMove 1) := by decide
theorem test_decode_envUartDmaMove : decode .op [0xC2, 0x01] = .ok (.envUartDmaMove 1) := by decide
theorem test_decode_envLineByte :
    decode .op [0xC3, 0x01, 0x48, 0x02] = .ok (.envLineByte 1 0x48 (some .parity)) := by decide
theorem test_decode_envLineSilence : decode .op [0xC4, 0x01] = .ok (.envLineSilence 1) := by decide
theorem test_decode_envTxShift : decode .op [0xC5, 0x01] = .ok (.envTxShift 1) := by decide
theorem test_decode_envFlashDone : decode .op [0xC6] = .ok .envFlashDone := by decide

theorem test_decode_refuses_ids : decode .op [0x00] = .error (.unknownId 0x00) ∧
    decode .op [0x03] = .error (.unknownId 0x03) ∧ decode .op [] = .error .empty ∧
    decode .op [0x01, 0x00] = .error (.truncated 0x01) := by decide

theorem test_decode_refuses_operands : decode .op [0xC3, 0x00, 0x48, 0x04] = .error (.badOperand 0xC3) ∧
    decode .op [0x18, 0, 4, 0, 0, 0, 0, 0, 0, 0, 0, 0] = .error (.badOperand 0x18) ∧
    decode .op [0x18, 0, 0, 0, 0, 0, 0, 0, 0, 0, 0, 2] = .error (.badOperand 0x18) ∧
    decode .op [0x18, 0, 0, 0, 0, 1, 0, 0, 0, 0, 0, 1] = .error (.badOperand 0x18) := by decide

theorem test_decode_refuses_frames : decode .wire [0x01] = .error (.unknownOpcode 0x01) ∧
    decode .wire [0x06, 0x00] = .error (.badFrame 0x06) ∧
    decode .wire [0x20, 0x00, 0x10] = .error (.badFrame 0x20) ∧
    decode .wire [0x02, 0x00, 0x10, 0x00] = .error (.badFrame 0x02) ∧
    decode .wire [0x90, 0x00, 0x00, 0x01, 0x00, 0x00] = .error (.badFrame 0x90) := by decide

/-- A table word is its first byte; a row of R104 is read as its shortest frame (log 4). -/
theorem test_table_words : decodeTableWord 8 0x01 = some (.rbPush (.own 0) 0) ∧
    decodeTableWord 8 0x02 = some (.rbPull (.own 0)) ∧ decodeTableWord 8 0x5A = some (.fcRdsfdp 0 1) ∧
    decodeTableWord 8 0x40 = some (.bdRead 0 0 0 1) ∧ decodeTableWord 8 0x07 = none := by decide

/-! ## One step -/

/-- What a test looks at in the next state. -/
def after {α : Type} (o : Out) (f : State → α) : Option α :=
  match o with
  | .next t => some (f t)
  | _ => none

/-- The name of a refusal. -/
def stopOf (o : Out) : Option Refusal :=
  match o with
  | .refused r => some r
  | _ => none

/-- A machine with one ring of four slots, MAIN's its producer and its consumer's as given. -/
def ringState (head tail : Nat) (consumer : Side) (ts : List Turn) : State :=
  { State.reset with
    rings := [{ n := 4, storage := [0x41, 0x42, 0x43, 0x44], head := head, tail := tail
                producer := .main, consumer := consumer }]
    sched := ts }

/-- The flash device of P2, not erased at 0x1000. -/
def flashP2 : Flash := { Flash.default with k := 20, mem := [(0x1000, 0x00), (0x1001, 0x11), (0x1002, 0x22)] }

/-- A machine with that device, some bytes in caller buffer 1, and a schedule. -/
def flashState (ts : List Turn) : State :=
  { State.reset with
    flash := flashP2
    buf := [(2 * 2 ^ 32, 0xDE), (2 * 2 ^ 32 + 1, 0xAD), (2 * 2 ^ 32 + 2, 0xBE), (2 * 2 ^ 32 + 3, 0xEF)]
    sched := ts }

/-- The machine at reset with a table in which one byte of P7's is another. -/
def sfdpState (i : Nat) (v : Byte) : State :=
  { State.reset with flash := { Flash.default with sfdp := sfdpP7.set i v } }

/-- UART 0 at reset. -/
def uart0 : Uart := Uart.reset { n := 128, producer := .main } { frameReceived := 0, error := 1, txDone := 2 }

/-- UART 0 in a given state, after reset. -/
def uartState (f : Uart → Uart) (ts : List Turn) : State := { State.reset with uarts := [f uart0], sched := ts }

/-- Bound to interrupts with buffer 0 of the given capacity. -/
def boundIrq (cap : Nat) (x : Uart) : Uart :=
  { x with mode := .interruptBound, rxCap := cap, ieRxLevel := true, ieRxTimeout := true, ieLine := true }

/-- Bus 0 in a given state, after reset. -/
def busState (f : Bus → Bus) (ts : List Turn) : State :=
  { State.reset with
    buses := [f (Bus.reset { cpol := false, cpha := false, width := .w8, bitrate := 0, hasCs := true })]
    sched := ts }

/-- What the tests look at in the first ring. -/
def ringView (t : State) : List (Nat × Nat) × List (List Byte) × Ret :=
  (t.rings.map fun r => (r.head, r.tail), t.rings.map (·.storage), t.ret)

/-- Ring table of 95 section 3, row 4. -/
theorem test_rbPush : after (exec (.rbPush (.own 0) 0x43) (ringState 2 0 .main [])) ringView =
    some ([(3, 0)], [[0x41, 0x42, 0x43, 0x44]], .bool true) := by decide

/-- Ring table of 95 section 3, row 5: full. -/
theorem test_rbPush_full : after (exec (.rbPush (.own 0) 0x44) (ringState 3 0 .main [])) ringView =
    some ([(3, 0)], [[0x41, 0x42, 0x43, 0x44]], .bool false) := by decide

/-- Ring table of 95 section 3, row 10: the tail wraps. -/
theorem test_rbPull_wraps : after (exec (.rbPull (.own 0)) (ringState 0 3 .main [])) ringView =
    some ([(0, 0)], [[0x41, 0x42, 0x43, 0x44]], .optByte (some 0x44)) := by decide

/-- I1 of 95 section 3: a pull between P1 and P2 of a push. -/
theorem test_rbPush_interleaved : after (exec (.rbPush (.own 0) 0x43)
    (ringState 2 0 .irq [.core (some 1), .req .op [0x02, 0x00]])) ringView =
    some ([(3, 1)], [[0x41, 0x42, 0x43, 0x44]], .bool true) := by decide

/-- The same: each context has its own result (R8, R13). -/
theorem test_rbPush_interleaved_results : after (exec (.rbPush (.own 0) 0x43)
    (ringState 2 0 .irq [.core (some 1), .req .op [0x02, 0x00]])) (fun t => (t.ret, t.irqRets)) =
    some (.bool true, [.optByte (some 0x41)]) := by decide

/-- R13, log 25: a pull by the interrupt context while `SPI.SELECT` waits leaves its result alone. -/
theorem test_irq_result_apart : after (exec (.spiSelect 0)
    (ringState 2 0 .irq [.core (some 1), .req .op [0x02, 0x00]])) (fun t => (t.ret, t.irqRets)) =
    some (.none, [.optByte (some 0x41)]) := by decide

/-- X1 of 95 section 4. -/
theorem test_spiSelect : after (exec (.spiSelect 0) State.reset)
    (fun t => (t.buses.map (·.cs), t.flash.frame, t.trace)) = some ([true], [], [.select 0]) := by decide

/-- X8 of 95 section 4. -/
theorem test_spiRx_zero : stopOf (exec (.spiRx 0 0 0) State.reset) = some .zeroLength := by decide

/-- X3 of 95 section 4, with the bytes of `flashP2`. -/
theorem test_spiRx_in_window : after (exec (.spiRx 0 2 3) { flashState [] with
      buses := State.reset.buses.map fun x => { x with cs := true }
      flash := { flashP2 with frame := [0x03, 0x00, 0x10, 0x00] } })
    (fun t => (List.range 4).map (t.bufRead (.user 2))) = some [0x00, 0x11, 0x22, 0x00] := by decide

/-- M4 and M6 of 95 section 5. -/
theorem test_dmaStart : after (exec (.dmaStart 0 (some 1) none 8 false) State.reset)
      (fun t => t.buses.map fun x => (x.dma.active, x.dma.txLeft, x.dma.rxDesc.dst)) =
      some [(true, 8, .scratch)] ∧
    stopOf (exec (.dmaStart 0 (some 1) none 1025 true) State.reset) = some .dmaCount := by decide

/-- R2 of 95 section 6: 16 bytes queued, 14 of them stored. -/
theorem test_evUartRxLevel : after (exec (.evUartRxLevel 0)
      (uartState (fun x => { boundIrq 64 x with rxfifo := List.replicate 16 0x55 }) []))
      (fun t => (t.uarts.map fun x => (x.rxCount, x.rxfifo.length), t.bufRead (.user 0) 13,
        t.bufRead (.user 0) 14)) =
    some ([(14, 2)], 0x55, 0) := by decide

/-- R7 of 95 section 6. -/
theorem test_evUartRxTimeout_overflow : after (exec (.evUartRxTimeout 0)
      (uartState (fun x => { boundIrq 4 x with rxfifo := [1, 2, 3, 4, 5, 6], rxTimeoutFlag := true }) []))
      (fun t => (t.uarts.map (·.rxCount), t.trace)) =
    some ([0], [.call 1 0 (.error .overflow), .call 0 0 (.frameReceived (.user 0) 4)]) := by decide

/-- R8 of 95 section 6. -/
theorem test_envLineByte : after (exec (.envLineByte 0 0x55 (some .framing)) (uartState (boundIrq 64) []))
      (fun t => t.uarts.map fun x => (x.rxfifo, x.lineErr.framing, x.gapArmed)) =
    some [([0x55], true, true)] := by decide

/-- R10 of 95 section 6. -/
theorem test_evUartLineError : after (exec (.evUartLineError 0)
      (uartState (fun x => { boundIrq 64 x with
        lineErr := { framing := true, parity := false, brk := true } }) [])) (·.trace) =
    some [.call 1 0 (.error (.line .framing)), .call 1 0 (.error (.line .brk))] := by decide

/-- R240 T1: an idle transmit path takes the byte at once. -/
theorem test_uartWriteByte : after (exec (.uartWriteByte 0 0x31) (uartState (boundIrq 8) []))
      (fun t => (t.uarts.map (·.txfifo), t.ret)) = some ([[0x31]], .ok) := by decide

/-- The same machine with a callback as the one producer of its transmit ring (R140, R388). -/
def irqWriter (x : Uart) : Uart := { boundIrq 8 x with txring := { x.txring with producer := .irq } }

/-- R388: that callback's `UART.WRITE_BYTE`, while MAIN waits. -/
theorem test_uartWriteByte_irq : after (exec (.uartWriteByte 0 0x31)
      { uartState irqWriter [] with main := [.spinDma 0] })
      (fun t => (t.uarts.map (·.txfifo), t.ret, t.irqRets, t.main)) =
    some ([[0x31]], .none, [.ok], [.spinDma 0]) := by decide

/-- U9: of a UART whose producer is MAIN, `UART.WRITE_BYTE` while a handler runs is refused. -/
theorem test_uartWriteByte_second : stopOf (exec (.uartWriteByte 0 0x31)
    { uartState (boundIrq 8) [] with irq := [.eot 0] }) = some .interruptContext := by decide

/-- R186, U1: the receive buffer a UART is bound to is no buffer of a transfer. -/
theorem test_spiRx_owned : stopOf (exec (.spiRx 0 0 3) (uartState (boundIrq 8) [])) = some .bufferOwned := by
  decide

/-- R112: the device accepts a JEDEC-id frame, which no one sends (log 13): its turn does nothing. -/
theorem test_fcJedec : after (exec .fcJedec (flashState [])) (fun t => (t.flash.frame, t.trace)) =
      some ([], []) ∧
    (Flash.default.answer [0x9F, 0, 0, 0] 0x1234).toOption = some (.word 0x34) := by decide

/-- S5 of 95 section 1: the first of three chunks. -/
theorem test_uartDmaTx : after (exec (.uartDmaTx 0 1 2560) (uartState (boundIrq 8) []))
      (fun t => t.uarts.map fun x => (x.dmaChunk, x.dmaRemaining, x.utxLeft, x.dmaBusy)) =
    some [(1024, 2560, 1024, true)] := by decide

/-- S5 of 95 section 1: the third chunk done, and the drain. -/
theorem test_evUartDmaDone : after (exec (.evUartDmaDone 0)
      (uartState (fun x => { boundIrq 8 x with
        mode := .dmaTransmitting, dmaLen := 2560, dmaCursor := 2048, dmaRemaining := 512, dmaChunk := 512
        dmaPhase := .chunk, dmaBusy := true, ieDma := true, dmaIrq := true }) []))
      (fun t => t.uarts.map fun x => (x.dmaCursor, x.dmaPhase, x.ieEot, x.ieDma)) =
    some [(2560, .drain, true, false)] := by decide

/-- S4 of 95 section 1. -/
theorem test_alignment : after (exec (.flEraseSector 0x1001) State.reset) (fun t => (t.ret, t.trace)) =
      some (.err .alignment, []) ∧
    after (exec (.flEraseBlock 0x1000) State.reset) (fun t => (t.ret, t.trace)) =
      some (.err .alignment, []) := by decide

/-- P2 of 95: the frames of a sector erase, up to the poll after the device is done. -/
theorem test_flEraseSector : after (exec (.flEraseSector 0x1000) (flashState [flashDoneTurn]))
      (fun t => (newOpcodes (flashState []) t, t.flash.mem, t.ret)) =
    some ([0x05, 0x06, 0x20, 0x05, 0x05], [], .ok) := by decide

/-- P2 of 95, on a device not erased: each byte is the AND of old and new (R95). -/
theorem test_flProgram : after (exec (.flProgram 0x1000 1 4) (flashState [flashDoneTurn]))
      (fun t => (List.range 5).map fun i => t.flash.read (0x1000 + i)) =
    some [0x00, 0x01, 0x22, 0xEF, 0xFF] := by decide

/-- P2 of 95: a read. -/
theorem test_flRead : after (exec (.flRead 0x1001 2 3) (flashState []))
      (fun t => ((List.range 3).map (t.bufRead (.user 2)), newOpcodes (flashState []) t)) =
    some ([0x11, 0x22, 0xFF], [0x05, 0x03]) := by decide

/-- P7 of 95. -/
theorem test_flInit : after (exec .flInit State.reset) (fun t => (t.fl.desc, t.ret)) =
    some ({ vendorId := 0xEF, deviceId := 0x14, log2Capacity := 21, valid := true }, .ok) := by decide

/-- E4 of 95 section 2. -/
theorem test_translate : translate Config.default.geom 1 0x20 = 0x00081020 ∧
    translate Config.default.geom 127 0xFFF = 0x000FFFFF ∧
    blockOk Config.default.geom 127 0xFFF 1 = true ∧ blockOk Config.default.geom 128 0 0 = false := by
  decide

/-- R310 comes before the payload of R312: with a header of another signature, a table too long for the DMA route
is no matter, and with P7's it is refused when it is reached (R290, U8). -/
theorem test_flInit_long_table :
    let s := fun v => { sfdpState 0 v with
      cfg := { Config.default with dmaMax := 20, flDmaThresh := 20, sfdp := { SfdpLayout.jesd216 with tblLen := 28 } } }
    after (exec .flInit (s 0x54)) (fun t => (t.fl.desc.vendorId, t.ret)) = some (0xEF, .err .discovery) ∧
    stopOf (exec .flInit (s 0x53)) = some .dmaCount := by decide

/-- S2 and S3 of 95 section 1. -/
theorem test_density : densityDecode 0x0000FFFF = some 13 ∧ densityDecode 0x8000001F = some 28 := by decide

/-- E3 of 95 section 2. -/
theorem test_table_fields : le32 [0xE5, 0x20, 0xF1, 0xFF] 0 = 0xFFF120E5 ∧
    le24 [0xFF, 0x30, 0x00, 0x00] 1 = 0x000030 := by decide

/-- The first step after reset runs the instruction of a table word (log 2). -/
theorem test_first_step : after (step (State.reset.withFetchWord 8 0x10)) (fun t => t.buses.map (·.cs)) =
    some [true] := by decide

/-- Bytes that are no instruction are refused by name (R132). -/
theorem test_undecodable : stopOf (step { State.reset with sched := [.req .op [0x00]] }) =
    some (.undecodable (.unknownId 0x00)) := by decide

/-! ## Witnesses

Each theorem shows a concrete state and operands that meet the hypotheses of the statement it names, all
together; where a statement has clauses, each clause's own, at a boundary where there is one. -/

theorem quiet_of {s : State} (h : s.main = [] ∧ s.irq = [] ∧ s.sliced = false) : s.quiet := h

theorem replies_unselected {s : State} {b : Nat} {x : Bus} (n : Nat) (h : (s.wired b x && x.cs) = false) :
    s.Replies b x n := fun h' => absurd (h.symm.trans h') (by decide)

/-- The flash bus at reset is free. -/
theorem test_witness_FlashBusFree : ∃ x : Bus, State.reset.FlashBusFree x :=
  ⟨_, rfl, rfl, rfl, rfl, rfl, rfl⟩

/-- A machine with one ring of four slots whose producer is IRQ, while MAIN waits. -/
def irqRing (head : Nat) : State :=
  { ringState head 0 .main [] with
    rings := [{ n := 4, storage := [0x41, 0x42, 0x43, 0x44], head := head, tail := 0
                producer := .irq, consumer := .irq }]
    main := [.spinDma 0] }

/-- A ring with room and a full one, of a producer in MAIN, and in IRQ while MAIN is at work. -/
theorem test_witness_RbPushResult : ∀ head ∈ [2, 3], ∃ r q : Ring,
    let s := ringState head 0 .main []
    (s.irq = [] ∧ s.sliced = false ∧ s.rings[(0 : BitVec 7).toNat]? = some r ∧
      (r.producer = .main → s.main = []) ∧ ((r.head + 1) % r.n == r.tail) = (head == 3)) ∧
    ((irqRing head).irq = [] ∧ (irqRing head).sliced = false ∧ (irqRing head).main ≠ [] ∧
      (irqRing head).rings[(0 : BitVec 7).toNat]? = some q ∧ q.producer = .irq ∧
      ((q.head + 1) % q.n == q.tail) = (head == 3)) := by
  intro head h
  refine ⟨_, _, ⟨rfl, rfl, rfl, fun _ => rfl, ?_⟩, rfl, rfl, by simp [irqRing], rfl, rfl, ?_⟩ <;>
    (revert head; decide)

/-- A ring with bytes and an empty one, of a consumer in MAIN, and in IRQ while MAIN is at work. -/
theorem test_witness_RbPullResult : ∀ head ∈ [2, 0], ∃ r q : Ring,
    let s := ringState head 0 .main []
    (s.irq = [] ∧ s.sliced = false ∧ s.rings[(0 : BitVec 7).toNat]? = some r ∧
      (r.consumer = .main → s.main = []) ∧ (r.head == r.tail) = (head == 0)) ∧
    ((irqRing head).irq = [] ∧ (irqRing head).sliced = false ∧ (irqRing head).main ≠ [] ∧
      (irqRing head).rings[(0 : BitVec 7).toNat]? = some q ∧ q.consumer = .irq ∧
      (q.head == q.tail) = (head == 0)) := by
  intro head h
  refine ⟨_, _, ⟨rfl, rfl, rfl, fun _ => rfl, ?_⟩, rfl, rfl, by simp [irqRing], rfl, rfl, ?_⟩ <;>
    (revert head; decide)

/-- A ring between the two contexts, with preempted operations, and one of MAIN alone, with none. -/
theorem test_witness_RbFifoOrder : ∃ r q : Ring,
    (ringState 2 3 .irq []).quiet ∧ (ringState 2 3 .irq []).rings[(0 : BitVec 7).toNat]? = some r ∧
    r.ok = true ∧ r.producer ≠ r.consumer ∧
    (ringState 2 3 .main []).quiet ∧ (ringState 2 3 .main []).rings[(0 : BitVec 7).toNat]? = some q ∧
    q.ok = true ∧ q.producer = q.consumer ∧ ∀ b k, RingOp.both b k ∉ [RingOp.push 1, .pull] :=
  ⟨_, _, ⟨rfl, rfl, rfl⟩, rfl, by decide, by decide, ⟨rfl, rfl, rfl⟩, rfl, by decide, rfl, by simp⟩

/-- A sequence with pulls inside pushes, at each place, and the bytes it accepts and gives. -/
theorem test_ringRun : (ringRun 0 .main .irq [.both 1 0, .both 2 1, .both 3 2, .both 4 3, .push 5, .pull]
      (ringState 3 3 .irq [])).map (fun r => (r.2.1, r.2.2)) =
    some ([1, 2, 3, 4, 5], [1, 2, 3, 4]) := by decide

theorem test_witness_RbCapacity : ∃ r : Ring, (ringState 3 3 .irq []).quiet ∧
    (ringState 3 3 .irq []).rings[(0 : BitVec 7).toNat]? = some r ∧ r.ok = true ∧ 2 ≤ r.n ∧
    r.head = r.tail ∧ [(1 : Byte), 2, 3, 4].length = r.n :=
  ⟨_, ⟨rfl, rfl, rfl⟩, rfl, by decide, by decide, rfl, rfl⟩

/-- Both operations, at each of the three places, on a ring with bytes and room, a full one and an empty one. -/
theorem test_witness_RbPreemption : ∀ k ∈ [0, 1, 2], ∀ head ∈ [0, 2, 3], ∃ r q : Ring,
    let s := ringState head 0 .irq [.core (some k), .req .op [0x02, byteRing (.own 0)]]
    let u := { ringState head 0 .main [.core (some k), .req .op [0x01, byteRing (.own 0), 0x99]] with
      rings := [{ r with producer := .irq, consumer := .main }] }
    s.main = [] ∧ s.irq = [] ∧ s.sched = [.core (some k), .req .op [0x02, byteRing (.own 0)]] ∧
    s.rings[(0 : BitVec 7).toNat]? = some r ∧ r.producer = .main ∧ r.consumer = .irq ∧
    u.main = [] ∧ u.irq = [] ∧ u.sched = [.core (some k), .req .op [0x01, byteRing (.own 0), 0x99]] ∧
    u.rings[(0 : BitVec 7).toNat]? = some q ∧ q.producer = .irq ∧ q.consumer = .main ∧
    (k ≤ 2 ∧ r.ok = true ∧ q.ok = true ∧ 2 ≤ r.n ∧ r.full = (head == 3) ∧ q.empty = (head == 0)) := by
  intro k hk head hh
  refine ⟨_, _, rfl, rfl, rfl, rfl, rfl, rfl, rfl, rfl, rfl, rfl, rfl, rfl, ?_⟩
  simp only [List.mem_cons, List.not_mem_nil, or_false] at hk hh
  obtain rfl | rfl | rfl := hk <;> obtain rfl | rfl | rfl := hh <;> decide

/-- Bus 0 with a select line the device sees, and without; inactive, and active. -/
theorem test_witness_SpiSelectLine : ∀ line ∈ [true, false], ∀ cs ∈ [true, false], ∃ (x : Bus) (f : Flash),
    let s := busState (fun x => { x with cs := cs, cfg := { x.cfg with hasCs := line } }) []
    s.buses[(0 : BitVec 8).toNat]? = some x ∧ s.main = [] ∧ s.irq = [] ∧ s.sliced = false ∧ x.rxq = [] ∧
    x.dma.active = false ∧ x.cs = cs ∧ s.wired 0 x = line ∧ s.flash.commit s.cfg.flPage = .ok f := by
  intro line hl cs hc
  exact ⟨_, _, rfl, rfl, rfl, rfl, rfl, rfl, rfl, rfl, rfl⟩

theorem test_witness_SpiSelectLineWaits : ∃ x y : Bus,
    (busState (fun x => { x with dma := { x.dma with active := true } }) []).quiet ∧
    (busState (fun x => { x with dma := { x.dma with active := true } }) []).buses[0]? = some x ∧
    x.dma.active = true ∧
    (busState (fun x => { x with rxq := [0x11] }) []).quiet ∧
    (busState (fun x => { x with rxq := [0x11] }) []).buses[0]? = some y ∧ y.rxq ≠ [] :=
  ⟨_, _, ⟨rfl, rfl, rfl⟩, rfl, rfl, ⟨rfl, rfl, rfl⟩, rfl, by decide⟩

/-- SpiXferResult, SpiTxResult and SpiRxResult, unselected: one word, and the whole of a buffer. -/
theorem test_witness_SpiTransfers : ∀ n ∈ [1, 65536], ∃ x : Bus, State.reset.quiet ∧
    State.reset.buses[(0 : BitVec 8).toNat]? = some x ∧ x.dma.active = false ∧
    State.reset.Replies (0 : BitVec 8).toNat x n ∧ 1 ≤ n ∧ n ≤ 2 ^ 32 ∧
    bufOk State.reset.cfg 0 n = true ∧ bufOk State.reset.cfg 15 n = true ∧ State.reset.memOk = true ∧
    State.reset.owned (.user 0) = false ∧ State.reset.owned (.user 15) = false := by
  intro n hn
  refine ⟨_, ⟨rfl, rfl, rfl⟩, rfl, rfl, replies_unselected n rfl, ?_⟩
  simp only [List.mem_cons, List.not_mem_nil, or_false] at hn
  obtain rfl | rfl := hn <;> decide

/-- The same, selected, in a window in which every word has a reply. -/
theorem test_witness_SpiTransfers_selected : ∃ x : Bus,
    let s := { busState (fun x => { x with cs := true }) [] with
      flash := { flashP2 with frame := [0x9F] } }
    s.main = [] ∧ s.irq = [] ∧ s.sliced = false ∧ s.buses[(0 : BitVec 8).toNat]? = some x ∧
    x.dma.active = false ∧ (s.wired 0 x && x.cs) = true ∧ s.Replies (0 : BitVec 8).toNat x 4 := by
  refine ⟨_, rfl, rfl, rfl, rfl, rfl, rfl, fun _ fr free hp _ => ?_⟩
  obtain ⟨ext, rfl⟩ := hp
  exact ⟨_, rfl⟩

/-- A read to the last byte of the array. -/
theorem test_witness_SpiRxInReadWindow : ∃ x : Bus,
    let s := { busState (fun x => { x with cs := true }) [] with
      flash := { flashP2 with frame := 0x03 :: be24 0x0FFFFC } }
    s.main = [] ∧ s.irq = [] ∧ s.sliced = false ∧ (0 : BitVec 8).toNat = s.cfg.flashBus ∧
    s.buses[(0 : BitVec 8).toNat]? = some x ∧ x.cfg.hasCs = true ∧ x.cs = true ∧ x.dma.active = false ∧
    s.flash.busy = false ∧ s.flash.frame = 0x03 :: be24 0x0FFFFC ∧
    (0x0FFFFC : BitVec 24).toNat + 4 ≤ s.flash.capacity ∧ bufOk s.cfg 2 4 = true ∧ s.memOk = true ∧
    s.owned (.user 2) = false :=
  ⟨_, rfl, rfl, rfl, rfl, rfl, rfl, rfl, rfl, rfl, rfl, by decide, by decide, by decide, by decide⟩

/-- The clauses: line active, line inactive, a length past the buffer, `DMA_MAX` and one more, `rxq` not
empty, no bus. -/
theorem test_witness_BusRefusals : ∃ x y z : Bus, State.reset.quiet ∧ State.reset.buses[0]? = some x ∧
    x.dma.active = false ∧ x.rxq = [] ∧ x.cs = false ∧
    (busState (fun x => { x with cs := true }) []).buses[0]? = some y ∧ y.cs = true ∧ y.rxq = [] ∧
    bufOk State.reset.cfg 0 65537 = false ∧ bufOk State.reset.cfg 16 1 = false ∧
    State.reset.cfg.dmaMax < 1025 ∧ 1024 ≤ State.reset.cfg.dmaMax ∧
    bufOk State.reset.cfg 0 1024 = true ∧
    (busState (fun x => { x with rxq := [0] }) []).buses[0]? = some z ∧ z.rxq ≠ [] ∧
    z.dma.active = false ∧ State.reset.buses[(1 : BitVec 8).toNat]? = none ∧
    bufOk State.reset.cfg 0 65536 = true ∧ optBufOk State.reset.cfg (some 0) 1024 = true ∧
    optBufOk State.reset.cfg none 1024 = true :=
  ⟨_, _, _, ⟨rfl, rfl, rfl⟩, rfl, rfl, rfl, rfl, rfl, rfl, rfl, by decide, by decide, by decide, by decide,
    by decide, rfl, by decide, rfl, rfl, by decide, by decide, by decide⟩

/-- The clauses on buffers: one the UART is bound to, as either buffer, and one too short for a DMA request. -/
theorem test_witness_BusRefusals_buffers : ∃ x : Bus,
    let s := uartState (boundIrq 8) []
    s.quiet ∧ s.buses[(0 : BitVec 8).toNat]? = some x ∧ x.dma.active = false ∧ x.rxq = [] ∧
    (bufOk s.cfg 0 1024 = true ∧ bufOk s.cfg 1 1024 = true ∧ optBufOk s.cfg (some 0) 1024 = true ∧
      optBufOk s.cfg none 1024 = true ∧ 1024 ≤ s.cfg.dmaMax ∧ s.owned (.user 0) = true ∧
      s.owned (.user 1) = false ∧ bufOk s.cfg 16 1 = false ∧ 1 ≤ s.cfg.dmaMax) :=
  ⟨_, ⟨rfl, rfl, rfl⟩, rfl, rfl, rfl, by decide⟩

/-- A request with both buffers, with one, and of the greatest count. -/
theorem test_witness_DmaStartResult : ∃ x : Bus, State.reset.quiet ∧ State.reset.sched = [] ∧
    State.reset.buses[0]? = some x ∧ x.dma.active = false ∧ x.rxq = [] ∧ 1024 ≤ State.reset.cfg.dmaMax ∧
    optBufOk State.reset.cfg (some 0) 1024 = true ∧ optBufOk State.reset.cfg (some 1) 1024 = true ∧
    optBufOk State.reset.cfg none 1024 = true ∧
    ∀ q, some 0 = some q ∨ some 1 = some q → State.reset.owned (.user q) = false :=
  ⟨_, ⟨rfl, rfl, rfl⟩, rfl, rfl, rfl, rfl, by decide, by decide, by decide, by decide,
    fun q h => by rcases h with h | h <;> cases h <;> decide⟩

theorem test_witness_DmaBlockingTransfer : ∃ x : Bus, (busState id (dmaTurns 0 2)).main = [] ∧
    (busState id (dmaTurns 0 2)).irq = [] ∧ (busState id (dmaTurns 0 2)).sched = dmaTurns 0 2 ∧
    (busState id (dmaTurns 0 2)).buses[(0 : BitVec 8).toNat]? = some x ∧ x.dma.active = false ∧
    x.rxq = [] ∧ (busState id (dmaTurns 0 2)).Replies (0 : BitVec 8).toNat x 2 ∧
    2 ≤ Config.default.dmaMax ∧ 1 ≤ Config.default.busFifoDepth ∧
    optBufOk Config.default (some 0) 2 = true ∧ (busState id (dmaTurns 0 2)).memOk = true ∧
    ∀ q, some 0 = some q ∨ none = some q → (busState id (dmaTurns 0 2)).owned (.user q) = false :=
  ⟨_, rfl, rfl, rfl, rfl, rfl, rfl, replies_unselected 2 rfl, by decide, by decide, by decide, rfl,
    fun q h => by rcases h with h | h <;> cases h; decide⟩

theorem test_witness_WaitOperations : ∃ (x y : Bus) (u v : Uart), State.reset.quiet ∧ State.reset.sched = [] ∧
    State.reset.buses[0]? = some x ∧ x.dma.active = false ∧
    (busState (fun x => { x with dma := { x.dma with active := true } }) []).buses[0]? = some y ∧
    y.dma.active = true ∧
    (uartState (boundIrq 8) []).uarts[0]? = some u ∧ u.mode = .interruptBound ∧ u.dmaBusy = false ∧
    (uartState (fun x => { x with mode := .dmaTransmitting, dmaBusy := true }) []).uarts[0]? = some v ∧
    v.mode = .dmaTransmitting ∧ v.dmaBusy = true :=
  ⟨_, _, _, _, ⟨rfl, rfl, rfl⟩, rfl, rfl, rfl, rfl, rfl, rfl, rfl, rfl, rfl, rfl, rfl⟩

/-- A bus in a DMA transfer of four elements, of which one has crossed. -/
def dmaBus (x : Bus) : Bus :=
  { x with
    rxq := [0x11]
    dma := { active := true, rxDesc := rxDescOf (some (.user 1)) 4, txDesc := txDescOf (some (.user 0)) 4
             rxEn := true, txEn := true, rxLeft := 4, txLeft := 3, rxIrq := false, txIrq := false } }

theorem test_witness_DmaTxMoveResult : ∃ x : Bus, (busState dmaBus []).buses[(0 : BitVec 8).toNat]? = some x ∧
    x.dma.txEn = true ∧ 0 < x.dma.txLeft ∧ x.rxq.length < Config.default.busFifoDepth ∧
    (busState dmaBus []).Replies (0 : BitVec 8).toNat x 1 ∧
    x.dma.txDesc.src = .buf (.user 0) 0 ∧ x.dma.txDesc.inc = .incSrc :=
  ⟨_, rfl, rfl, by decide, by decide, replies_unselected 1 rfl, rfl, rfl⟩

theorem test_witness_DmaRxMoveResult : ∃ x y : Bus, (busState dmaBus []).buses[(0 : BitVec 8).toNat]? = some x ∧
    x.dma.rxEn = true ∧ 0 < x.dma.rxLeft ∧ x.rxq = 0x11 :: [] ∧ (busState dmaBus []).memOk = true ∧
    x.dma.rxDesc.dst = .buf (.user 1) 0 ∧ x.dma.rxDesc.inc = .incDst ∧
    (busState (fun x => { dmaBus x with dma := { (dmaBus x).dma with rxDesc := rxDescOf none 4 } })
      []).buses[0]? = some y ∧ y.dma.rxEn = true ∧ 0 < y.dma.rxLeft ∧ y.rxq = 0x11 :: [] ∧
    y.dma.rxDesc.dst = .scratch :=
  ⟨_, _, rfl, rfl, by decide, rfl, rfl, rfl, rfl, rfl, rfl, by decide, rfl, rfl⟩

theorem test_witness_DmaDoneResult : ∃ x : Bus,
    let s := busState (fun x => { x with dma := { (dmaBus x).dma with rxIrq := true, txIrq := true } }) []
    s.irq = [] ∧ s.sliced = false ∧ s.buses[(0 : BitVec 8).toNat]? = some x ∧ x.dma.rxIrq = true ∧
    x.dma.txIrq = true :=
  ⟨_, rfl, rfl, rfl, rfl, rfl⟩

theorem test_witness_UartBindResult : ∃ x : Uart, State.reset.quiet ∧ State.reset.uarts[0]? = some x ∧
    x.mode = .idle ∧ bufOk State.reset.cfg 0 0 = true ∧ bufOk State.reset.cfg 0 65536 = true ∧
    State.reset.owned (.user 0) = false :=
  ⟨_, ⟨rfl, rfl, rfl⟩, rfl, rfl, by decide, by decide, by decide⟩

theorem test_witness_UartPollReadResult : ∃ x y : Uart,
    (uartState (fun x => { x with mode := .pollingBound }) []).quiet ∧
    (uartState (fun x => { x with mode := .pollingBound }) []).uarts[0]? = some x ∧
    x.mode = .pollingBound ∧ x.rxfifo = [] ∧
    (uartState (fun x => { x with mode := .pollingBound, rxfifo := [0x41, 0x42] }) []).uarts[0]? = some y ∧
    y.mode = .pollingBound ∧ y.rxfifo = [0x41, 0x42] :=
  ⟨_, _, ⟨rfl, rfl, rfl⟩, rfl, rfl, rfl, rfl, rfl, rfl⟩

/-- The direct path; a FIFO just full, with a ring of two slots that has room, and that is full; by MAIN, and by
a callback while MAIN is at work. -/
theorem test_witness_UartWriteByteResult : ∀ p ∈ [(Side.main, []), (.irq, [.spinDma 0])], ∃ x y z : Uart,
    let ring := Ring.reset 2 p.1 .irq
    let s := { uartState (fun x => { boundIrq 8 x with txring := ring }) [] with main := p.2 }
    s.irq = [] ∧ s.sliced = false ∧ s.uarts[0]? = some x ∧ (x.txring.producer = .main → s.main = []) ∧
    x.mode = .interruptBound ∧ x.ieTxLevel = false ∧ x.txfifo.length < Config.default.uartFifoDepth ∧
    (uartState (fun x => { boundIrq 8 x with txfifo := List.replicate 32 0, txring := ring }) []).uarts[0]? =
      some y ∧ y.mode = .interruptBound ∧ Config.default.uartFifoDepth ≤ y.txfifo.length ∧
    (y.txring.head + 1) % y.txring.n ≠ y.txring.tail ∧
    (uartState (fun x => { boundIrq 8 x with ieTxLevel := true, txring := { ring with head := 1 } })
      []).uarts[0]? = some z ∧ z.mode = .interruptBound ∧ z.ieTxLevel = true ∧
    (z.txring.head + 1) % z.txring.n = z.txring.tail := by
  intro p h
  simp only [List.mem_cons, List.not_mem_nil, or_false] at h
  obtain rfl | rfl := h <;>
    exact ⟨_, _, _, rfl, rfl, rfl, by simp [Ring.reset], rfl, rfl, by decide, rfl, rfl, by decide, by decide, rfl,
      rfl, rfl, by decide⟩

theorem test_witness_UartDmaTxResult : ∃ x y : Uart, (uartState (boundIrq 8) []).quiet ∧
    (uartState (boundIrq 8) []).uarts[0]? = some x ∧ x.mode = .interruptBound ∧ x.dmaBusy = false ∧
    x.txring.head = x.txring.tail ∧ x.ieTxLevel = false ∧
    bufOk Config.default 1 1 = true ∧ bufOk Config.default 1 65536 = true ∧
    (uartState (fun x => { boundIrq 8 x with mode := .dmaTransmitting, dmaBusy := true }) []).uarts[0]? =
      some y ∧ y.mode = .dmaTransmitting ∧ y.dmaBusy = true ∧
    (uartState (boundIrq 8) []).owned (.user 1) = false :=
  ⟨_, _, ⟨rfl, rfl, rfl⟩, rfl, rfl, rfl, rfl, rfl, by decide, by decide, rfl, rfl, rfl, by decide⟩

theorem test_witness_UartAdmission : ∃ x y z w : Uart, State.reset.quiet ∧ State.reset.uarts[0]? = some x ∧
    x.mode = .idle ∧ (0 : BitVec 7).toNat = (0 : BitVec 8).toNat ∧
    (uartState (boundIrq 8) []).uarts[0]? = some y ∧ y.mode = .interruptBound ∧ y.dmaBusy = false ∧
    (uartState (fun x => { boundIrq 8 x with ieTxLevel := true }) []).uarts[0]? = some z ∧
    z.mode = .interruptBound ∧ z.dmaBusy = false ∧ z.ieTxLevel = true ∧ bufOk Config.default 0 1 = true ∧
    (uartState (fun x => { boundIrq 8 x with txring := { x.txring with head := 1 } }) []).uarts[0]? =
      some w ∧ w.mode = .interruptBound ∧ w.dmaBusy = false ∧ w.txring.head ≠ w.txring.tail :=
  ⟨_, _, _, _, ⟨rfl, rfl, rfl⟩, rfl, rfl, rfl, rfl, rfl, rfl, rfl, rfl, rfl, rfl, by decide, rfl, rfl, rfl,
    by decide⟩

/-- The clauses on buffers: one that does not exist, for a binding of no capacity too, and one element too few, to an
idle instance and to a bound one; and those on instances and rings that do not exist. -/
theorem test_witness_UartAdmission_absent : ∃ x y : Uart,
    State.reset.quiet ∧ State.reset.uarts[0]? = some x ∧ x.mode = .idle ∧
    (uartState (boundIrq 8) []).quiet ∧ (uartState (boundIrq 8) []).uarts[0]? = some y ∧
    y.mode = .interruptBound ∧ bufOk Config.default 16 0 = false ∧ bufOk Config.default 0 65537 = false ∧
    State.reset.uarts[(1 : BitVec 8).toNat]? = none ∧ State.reset.ring? (ringId (.own 2)) = none ∧
    State.reset.ring? (ringId (.tx 1)) = none :=
  ⟨_, _, ⟨rfl, rfl, rfl⟩, rfl, rfl, ⟨rfl, rfl, rfl⟩, rfl, rfl, by decide, by decide, rfl, rfl, rfl⟩

/-- The clauses on owned buffers: the one an instance is bound to, given to it as a source, and one of an
outstanding DMA request, given to an idle instance. -/
theorem test_witness_UartAdmission_owned : ∃ x y : Uart,
    (uartState (boundIrq 8) []).quiet ∧ (uartState (boundIrq 8) []).uarts[0]? = some x ∧
    (x.mode = .interruptBound ∧ x.dmaBusy = false ∧ x.txring.head = x.txring.tail ∧ x.ieTxLevel = false ∧
      bufOk Config.default 0 1 = true ∧ (uartState (boundIrq 8) []).owned (.user 0) = true) ∧
    (busState (fun x => { x with dma := { x.dma with active := true, rxDesc := rxDescOf (some (.user 1)) 4 } })
      []).quiet ∧
    (busState (fun x => { x with dma := { x.dma with active := true, rxDesc := rxDescOf (some (.user 1)) 4 } })
      []).uarts[0]? = some y ∧ y.mode = .idle ∧ bufOk Config.default 1 8 = true ∧
    (busState (fun x => { x with dma := { x.dma with active := true, rxDesc := rxDescOf (some (.user 1)) 4 } })
      []).owned (.user 1) = true :=
  ⟨_, _, ⟨rfl, rfl, rfl⟩, rfl, by decide, ⟨rfl, rfl, rfl⟩, rfl, rfl, by decide, by decide⟩

/-- A FIFO just at its trigger, with a buffer that takes all bytes, and one that takes none. -/
theorem test_witness_UartRxLevelResult : ∀ cap ∈ [14, 0], ∃ x : Uart,
    let s := uartState (fun x => { boundIrq cap x with rxfifo := List.replicate 16 0x55 }) []
    s.irq = [] ∧ s.sliced = false ∧ s.uarts[0]? = some x ∧ x.ieRxLevel = true ∧
    s.cfg.uartRxTrig ≤ x.rxfifo.length ∧ s.memOk = true ∧ x.rxCap = cap := by
  intro cap _
  exact ⟨_, rfl, rfl, rfl, rfl, Nat.le_refl 16, rfl, rfl⟩

theorem test_witness_UartRxTimeoutResult : ∀ cap ∈ [2, 1], ∃ x : Uart,
    let s := uartState (fun x => { boundIrq cap x with rxfifo := [1, 2], rxTimeoutFlag := true }) []
    s.irq = [] ∧ s.sliced = false ∧ s.uarts[0]? = some x ∧ x.ieRxTimeout = true ∧ x.rxTimeoutFlag = true ∧
    s.memOk = true ∧ x.rxCap = cap := by
  intro cap _
  exact ⟨_, rfl, rfl, rfl, rfl, rfl, rfl, rfl⟩

theorem test_witness_UartTxLevelResult : ∃ x : Uart,
    let s := uartState (fun x => { boundIrq 8 x with
      ieTxLevel := true
      txring := { n := 4, storage := [0, 1, 2, 3], head := 1, tail := 3, producer := .main, consumer := .irq } }) []
    s.irq = [] ∧ s.sliced = false ∧ s.uarts[0]? = some x ∧ x.ieTxLevel = true ∧
    x.txfifo.length ≤ s.cfg.uartTxTrig ∧ x.txfifo.length ≤ s.cfg.uartFifoDepth ∧ x.txring.ok = true :=
  ⟨_, rfl, rfl, rfl, rfl, by decide, by decide, by decide⟩

theorem test_witness_UartLineErrorResult : ∃ x y : Uart,
    (uartState (fun x => { boundIrq 8 x with lineErr := { framing := false, parity := false, brk := true } })
      []).uarts[0]? = some x ∧ x.ieLine = true ∧ x.lineErr.brk = true ∧
    (uartState (fun x => { boundIrq 8 x with fifoOverrun := true }) []).uarts[0]? = some y ∧
    y.ieLine = true ∧ y.fifoOverrun = true ∧
    (uartState (fun x => { boundIrq 8 x with fifoOverrun := true }) []).irq = [] ∧
    (uartState (fun x => { boundIrq 8 x with fifoOverrun := true }) []).sliced = false :=
  ⟨_, _, rfl, rfl, rfl, rfl, rfl, rfl, rfl, rfl⟩

/-- A chunk that is not the last, and one that is. -/
theorem test_witness_UartDmaHandlers : ∀ left ∈ [1, 0], ∃ x : Uart,
    let s := uartState (fun x => { boundIrq 8 x with
      mode := .dmaTransmitting, dmaBusy := true, dmaLen := 4 + left, dmaRemaining := 4 + left, dmaChunk := 4
      dmaPhase := .chunk, ieDma := true, dmaIrq := true }) []
    s.irq = [] ∧ s.sliced = false ∧ s.uarts[0]? = some x ∧ x.ieDma = true ∧ x.dmaIrq = true ∧
    x.dmaRemaining - x.dmaChunk = left := by
  intro left h
  refine ⟨_, rfl, rfl, rfl, rfl, rfl, ?_⟩
  simp only [List.mem_cons, List.not_mem_nil, or_false] at h
  obtain rfl | rfl := h <;> rfl

theorem test_witness_UartDmaHandlers_eot : ∃ x : Uart,
    let s := uartState (fun x => { boundIrq 8 x with
      mode := .dmaTransmitting, dmaBusy := true, dmaPhase := .drain, ieEot := true }) []
    s.irq = [] ∧ s.sliced = false ∧ s.uarts[0]? = some x ∧ x.ieEot = true ∧ x.txfifo = [] ∧
    x.txShifting = false :=
  ⟨_, rfl, rfl, rfl, rfl, rfl, rfl⟩

theorem test_witness_UartDmaMoveResult : ∃ x : Uart,
    (uartState (fun x => { x with utxEn := true, utxLeft := 1, txfifo := List.replicate 31 0 }) []).uarts[0]? =
      some x ∧ x.utxEn = true ∧ 0 < x.utxLeft ∧ x.txfifo.length < Config.default.uartFifoDepth :=
  ⟨_, rfl, rfl, by decide, by decide⟩

/-- A FIFO one short of full, and a full one; and a gap that counts. -/
theorem test_witness_UartLineEvents : ∀ n ∈ [31, 32], ∃ x : Uart,
    (uartState (fun x => { x with rxfifo := List.replicate n 0, gapArmed := true }) []).uarts[0]? = some x ∧
    x.gapArmed = true ∧ x.rxfifo.length = n := by
  intro n _
  exact ⟨_, rfl, rfl, List.length_replicate⟩

theorem test_witness_UartTxShiftResult : ∃ x y : Uart,
    (uartState (fun x => { x with txShifting := true }) []).uarts[0]? = some x ∧ x.txShifting = true ∧
    (uartState (fun x => { x with txfifo := [0x31, 0x32] }) []).uarts[0]? = some y ∧
    y.txShifting = false ∧ y.txfifo = [0x31, 0x32] :=
  ⟨_, _, rfl, rfl, rfl, rfl, rfl⟩

/-- Three chunks, the last one short. -/
theorem test_witness_UartChunkLaw : ∃ x : Uart,
    let s := { uartState (boundIrq 8) (uartDmaTurns 0 (chunkLengths 5 2)) with
      cfg := { Config.default with dmaMax := 2 } }
    s.main = [] ∧ s.irq = [] ∧ s.sched = uartDmaTurns 0 (chunkLengths 5 s.cfg.dmaMax) ∧
    s.uarts[0]? = some x ∧ x.mode = .interruptBound ∧ x.dmaBusy = false ∧ x.txring.head = x.txring.tail ∧
    x.ieTxLevel = false ∧ x.txfifo = [] ∧ x.txShifting = false ∧ 1 ≤ s.cfg.uartFifoDepth ∧
    1 ≤ s.cfg.dmaMax ∧ bufOk s.cfg 1 5 = true ∧ s.owned (.user 1) = false ∧
    chunkLengths 5 2 = [2, 2] ++ [1] ∧ chunkLengths 5 2 = [] ++ [2, 2, 1] ∧ chunkLengths 4 2 = [2, 2] :=
  ⟨_, rfl, rfl, rfl, rfl, rfl, rfl, rfl, rfl, rfl, rfl, by decide, by decide, by decide, by decide, by decide,
    by decide, by decide⟩

theorem test_witness_UartFrameLaw : ∃ x : Uart,
    let s := uartState (boundIrq 3) (receiveTurns 0 [0x48, 0x45, 0x4C])
    s.main = [] ∧ s.irq = [] ∧ s.sched = receiveTurns 0 [0x48, 0x45, 0x4C] ∧ s.uarts[0]? = some x ∧
    x.ieRxLevel = true ∧ x.ieRxTimeout = true ∧ x.rxfifo = [] ∧ x.rxCount = 0 ∧ 3 ≤ x.rxCap ∧
    3 ≤ s.cfg.uartRxTrig ∧ s.cfg.uartRxTrig ≤ s.cfg.uartFifoDepth ∧ s.memOk = true :=
  ⟨_, rfl, rfl, rfl, rfl, rfl, rfl, rfl, rfl, by decide, by decide, by decide, rfl⟩

/-- FlSingleFrames and FlWaitReadyResult: a ready device, and a busy one with and without the end of
its work to come. -/
theorem test_witness_FlSingleFrames_FlWaitReady : ∀ busy ∈ [true, false], ∀ ts ∈ [[], [flashDoneTurn]],
    ∃ x : Bus,
    let s := { flashState ts with
      flash := { flashP2 with busy := busy, wel := busy, pending := if busy then .erase 0x1000 4096 else .none }
      fl := { Fl.reset with desc := { Fl.reset.desc with valid := true } } }
    s.quiet ∧ s.FlashBusFree x ∧ s.flash.busy = busy ∧ s.sched = ts ∧ s.fl.desc.valid = true := by
  intro busy _ ts h
  simp only [List.mem_cons, List.not_mem_nil, or_false] at h
  obtain rfl | rfl := h <;>
    exact ⟨_, ⟨rfl, rfl, rfl⟩, ⟨rfl, rfl, rfl, rfl, rfl, rfl⟩, rfl, rfl, rfl⟩

theorem test_witness_FlIdentifyResult : ∃ x : Bus, State.reset.quiet ∧ State.reset.FlashBusFree x ∧
    State.reset.flash.busy = false ∧ dmaRoute State.reset.cfg 2 = false ∧ State.reset.memOk = true ∧
    dmaRoute { Config.default with dmaMax := 1, flDmaThresh := 2 } 2 = true :=
  ⟨_, ⟨rfl, rfl, rfl⟩, ⟨rfl, rfl, rfl, rfl, rfl, rfl⟩, rfl, by decide, rfl, by decide⟩

/-- P7's table, and three that differ in one byte: a wrong signature, a wrong identifier, and no 4-KiB erase. -/
theorem test_witness_FlDiscoverResult : ∀ c ∈ [(0, 0x53, true, true), (0, 0x54, false, true),
      (8, 0x01, false, true), (48, 0xE4, true, false)], ∃ x : Bus,
    let s := sfdpState c.1 c.2.1
    s.quiet ∧ s.FlashBusFree x ∧ s.flash.busy = false ∧ s.memOk = true ∧
    (1 ≤ s.cfg.sfdp.hdrLen ∧ 1 ≤ s.cfg.sfdp.tblLen ∧ dmaRoute s.cfg s.cfg.sfdp.hdrLen = false ∧
      dmaRoute s.cfg s.cfg.sfdp.tblLen = false ∧
      s.cfg.sfdp.sigOff.toNat + s.cfg.sfdp.hdrLen ≤ s.flash.sfdp.length ∧
      (le24 (s.flash.sfdpHeader s.cfg.sfdp) s.cfg.sfdp.ptrOff).toNat + s.cfg.sfdp.tblLen ≤
        s.flash.sfdp.length) ∧
    headerOk s.cfg.sfdp (s.flash.sfdpHeader s.cfg.sfdp) = c.2.2.1 ∧
    tableOk s.cfg.sfdp (s.flash.sfdpTable s.cfg.sfdp) = c.2.2.2 ∧
    densityDecode (le32 (s.flash.sfdpTable s.cfg.sfdp) s.cfg.sfdp.w2Off) = some 21 := by
  intro c hc
  refine ⟨_, ⟨rfl, rfl, rfl⟩, ⟨rfl, rfl, rfl, rfl, rfl, rfl⟩, rfl, rfl, ?_⟩
  simp only [List.mem_cons, List.not_mem_nil, or_false] at hc
  obtain rfl | rfl | rfl | rfl := hc <;> decide

/-- The clauses of FlDiscoverResult and FlInitResult that refuse: a header, and a table, one element too long for the
DMA route, and P7's table with a density past the greatest, and below the least. -/
theorem test_witness_FlDiscover_refusals : ∃ x : Bus,
    State.reset.quiet ∧ State.reset.FlashBusFree x ∧ State.reset.flash.busy = false ∧ State.reset.memOk = true ∧
    (dmaRoute { Config.default with flDmaThresh := 16, dmaMax := 15 } 16 = true ∧
      dmaRoute { Config.default with flDmaThresh := 17, dmaMax := 16 } 17 = true ∧
      dmaRoute { Config.default with flDmaThresh := 17, dmaMax := 16 } 16 = false ∧
      dmaRoute { Config.default with flDmaThresh := 17, dmaMax := 16 } 2 = false) ∧
    headerOk Config.default.sfdp (State.reset.flash.sfdpHeader Config.default.sfdp) = true ∧
    tableOk Config.default.sfdp ((sfdpState 55 0x80).flash.sfdpTable Config.default.sfdp) = true ∧
    densityDecode (le32 ((sfdpState 55 0x80).flash.sfdpTable Config.default.sfdp) Config.default.sfdp.w2Off) = none ∧
    densityDecode 0x80000043 = none ∧ densityDecode 0x80000002 = none :=
  ⟨_, ⟨rfl, rfl, rfl⟩, ⟨rfl, rfl, rfl, rfl, rfl, rfl⟩, rfl, rfl, by decide⟩

/-- The same tables, for initialisation. -/
theorem test_witness_FlInitResult : ∀ c ∈ [(0, 0x53, true, true), (0, 0x54, false, true), (48, 0xE4, true, false)],
    ∃ x : Bus,
    let s := sfdpState c.1 c.2.1
    s.quiet ∧ s.FlashBusFree x ∧ s.flash.busy = false ∧ s.memOk = true ∧ dmaRoute s.cfg 2 = false ∧
    (headerOk s.cfg.sfdp (s.flash.sfdpHeader s.cfg.sfdp) = c.2.2.1 ∧
      tableOk s.cfg.sfdp (s.flash.sfdpTable s.cfg.sfdp) = c.2.2.2) := by
  intro c hc
  refine ⟨_, ⟨rfl, rfl, rfl⟩, ⟨rfl, rfl, rfl, rfl, rfl, rfl⟩, rfl, rfl, rfl, ?_⟩
  simp only [List.mem_cons, List.not_mem_nil, or_false] at hc
  obtain rfl | rfl | rfl := hc <;> decide

/-- A density word of each kind, at both ends of what has a meaning and just past them. -/
theorem test_witness_DensityDecode : (0x8000001F : BitVec 32).getLsbD 31 = true ∧
    (0x0000FFFF : BitVec 32).getLsbD 31 = false ∧ densityLog2 0x80000003 = 3 ∧
    densityLog2 0x80000042 = 66 ∧ densityLog2 0x80000002 = 2 ∧ densityLog2 0x80000043 = 67 := by decide

/-- FlReadResult, FlProgramResult and FlWritesWait: one byte, and up to the last byte of the device. -/
theorem test_witness_FlReadResult_FlProgramResult_FlWritesWait :
    ∀ c ∈ [((0x001000 : BitVec 64), 0x001000, 1), (0x0FFFC1, 0x0FFFC1, 63), (0x7700001000, 0x001000, 1)],
    ∀ ts ∈ [[], [flashDoneTurn]],
    ∃ x : Bus, (flashState ts).quiet ∧ (flashState ts).FlashBusFree x ∧ (flashState ts).sched = ts ∧
    (flashState ts).flash.busy = false ∧ (flashState ts).memOk = true ∧
    c.2.1 = c.1.toNat % 2 ^ (flashState ts).cfg.apiAddrW ∧ 1 ≤ c.2.2 ∧ bufOk Config.default 1 c.2.2 = true ∧
    flSpanOk flashP2 c.2.1 c.2.2 = true ∧ onePage 256 c.2.1 c.2.2 = true ∧
    dmaRoute Config.default c.2.2 = false ∧ (flashState ts).owned (.user 1) = false := by
  intro c hc ts h
  simp only [List.mem_cons, List.not_mem_nil, or_false] at h hc
  obtain rfl | rfl := h <;> obtain rfl | rfl | rfl := hc <;>
    exact ⟨_, ⟨rfl, rfl, rfl⟩, ⟨rfl, rfl, rfl, rfl, rfl, rfl⟩, rfl, rfl, by decide, by decide⟩

/-- FlWritesWait, by DMA: the turns of the payload and no more. -/
theorem test_witness_FlWritesWait_dma : ∃ x : Bus,
    let s := flashState (payloadTurns Config.default 0 64)
    s.quiet ∧ s.FlashBusFree x ∧ s.cfg.flashBus = (0 : BitVec 8).toNat ∧
    s.sched = payloadTurns s.cfg 0 64 ∧ s.flash.busy = false ∧ s.owned (.user 1) = false ∧
    (payloadOk Config.default 64 = true ∧ 1 ≤ Config.default.busFifoDepth ∧ bufOk Config.default 1 64 = true ∧
      flSpanOk flashP2 0x10C0 64 = true ∧ onePage 256 0x10C0 64 = true ∧
      (0x10C0 : BitVec 64).toNat % 2 ^ Config.default.apiAddrW = 0x10C0) :=
  ⟨_, ⟨rfl, rfl, rfl⟩, ⟨rfl, rfl, rfl, rfl, rfl, rfl⟩, rfl, rfl, rfl, by decide, by decide⟩

/-- The three erases, at the first and the last place; FlWritesWait's, with no turn left. -/
theorem test_witness_FlEraseResult : ∃ x : Bus, (flashState [flashDoneTurn]).quiet ∧
    (flashState [flashDoneTurn]).FlashBusFree x ∧ (flashState [flashDoneTurn]).sched = [flashDoneTurn] ∧
    (flashState [flashDoneTurn]).flash.busy = false ∧ (flashState [flashDoneTurn]).memOk = true ∧
    (flashState []).quiet ∧ (flashState []).sched = [] ∧ (0x0FF000 : BitVec 64).toNat % 4096 = 0 ∧
    (0x0FF000 : BitVec 64).toNat % 2 ^ Config.default.apiAddrW = 0x0FF000 ∧
    flSpanOk (flashState []).flash 0x0FF000 4096 = true ∧
    flSpanOk (flashState []).flash 0 4096 = true ∧ (0x0F8000 : BitVec 64).toNat % 32768 = 0 ∧
    flSpanOk (flashState []).flash 0x0F8000 32768 = true :=
  ⟨_, ⟨rfl, rfl, rfl⟩, ⟨rfl, rfl, rfl, rfl, rfl, rfl⟩, rfl, rfl, by decide, ⟨rfl, rfl, rfl⟩, rfl, by decide,
    by decide, by decide, by decide, by decide, by decide⟩

/-- A payload of just the threshold, by DMA. -/
theorem test_witness_FlPayloadByDma : ∀ ts ∈ [dmaTurns 0 64, dmaTurns 0 64 ++ [.core none, flashDoneTurn]],
    ∃ x : Bus, (flashState ts).main = [] ∧ (flashState ts).irq = [] ∧ (flashState ts).sched = ts ∧
    (flashState ts).FlashBusFree x ∧ Config.default.flashBus = (0 : BitVec 8).toNat ∧
    (flashState ts).flash.busy = false ∧ (flashState ts).memOk = true ∧
    64 ≤ Config.default.dmaMax ∧ 1 ≤ Config.default.busFifoDepth ∧ bufOk Config.default 1 64 = true ∧
    flSpanOk flashP2 0x1000 64 = true ∧ onePage 256 0x1000 64 = true ∧ dmaRoute Config.default 64 = true ∧
    0x1000 = (0x1000 : BitVec 64).toNat % 2 ^ (flashState ts).cfg.apiAddrW ∧
    (flashState ts).owned (.user 1) = false := by
  intro ts h
  simp only [List.mem_cons, List.not_mem_nil, or_false] at h
  obtain rfl | rfl := h <;>
    exact ⟨_, rfl, rfl, rfl, ⟨rfl, rfl, rfl, rfl, rfl, rfl⟩, rfl, rfl, by decide, by decide⟩

/-- An address one past a boundary, and one past it in the bits above the device alone. -/
theorem test_witness_FlMisaligned : State.reset.quiet ∧
    (0x1001 : BitVec 64).toNat % 2 ^ State.reset.cfg.apiAddrW % 4096 ≠ 0 ∧
    (0x01001000 : BitVec 64).toNat % 2 ^ State.reset.cfg.apiAddrW % 32768 ≠ 0 :=
  ⟨⟨rfl, rfl, rfl⟩, by decide, by decide⟩

/-- A payload of each route, the longest of the synchronous one and the shortest of the other. -/
theorem test_witness_FlRoundTrip : ∀ len ∈ [63, 64], ∃ x : Bus, (flashState [flashDoneTurn]).quiet ∧
    (flashState [flashDoneTurn]).FlashBusFree x ∧ Config.default.flashBus = (0 : BitVec 8).toNat ∧
    (flashState [flashDoneTurn]).sched = [flashDoneTurn] ∧ (flashState [flashDoneTurn]).flash.busy = false ∧
    (flashState [flashDoneTurn]).memOk = true ∧
    ((0x1000 : BitVec 64).toNat % 2 ^ Config.default.apiAddrW = 0x1000 ∧
      (flashState []).owned (.user 1) = false ∧ (flashState []).owned (.user 2) = false ∧
      0x1000 % 4096 = 0 ∧ flSpanOk flashP2 0x1000 4096 = true ∧ 1 ≤ len ∧
      len ≤ Config.default.flPage ∧ 4096 % Config.default.flPage = 0 ∧
      payloadOk Config.default len = true ∧ 1 ≤ Config.default.busFifoDepth ∧
      bufOk Config.default 1 len = true ∧ bufOk Config.default 2 len = true) := by
  intro len h
  simp only [List.mem_cons, List.not_mem_nil, or_false] at h
  obtain rfl | rfl := h <;>
    exact ⟨_, ⟨rfl, rfl, rfl⟩, ⟨rfl, rfl, rfl, rfl, rfl, rfl⟩, rfl, rfl, rfl, by decide, by decide⟩

/-- The last bytes of the last block. -/
theorem test_witness_BdResult : ∀ ts ∈ [[], [flashDoneTurn]], ∃ x : Bus,
    let s := { flashState ts with fl := { Fl.reset with desc := { Fl.reset.desc with valid := true } } }
    s.quiet ∧ s.FlashBusFree x ∧ s.sched = ts ∧ s.fl.desc.valid = true ∧ s.flash.busy = false ∧
    s.memOk = true ∧ s.cfg.wf = true ∧ (127 : BitVec 32).toNat < s.cfg.geom.blockCount ∧
    (0xFF0 : BitVec 32).toNat + 16 ≤ s.cfg.geom.blockSize ∧
    0xFFFF0 = s.cfg.geom.base + (127 : BitVec 32).toNat * s.cfg.geom.blockSize + (0xFF0 : BitVec 32).toNat ∧
    s.cfg.geom.base + s.cfg.geom.blockCount * s.cfg.geom.blockSize ≤ s.flash.capacity ∧
    dmaRoute s.cfg 16 = false ∧ bufOk s.cfg 1 16 = true ∧ 0xFFFF0 % s.cfg.flPage + 16 ≤ s.cfg.flPage ∧
    s.owned (.user 1) = false := by
  intro ts h
  simp only [List.mem_cons, List.not_mem_nil, or_false] at h
  obtain rfl | rfl := h <;>
    exact ⟨_, ⟨rfl, rfl, rfl⟩, ⟨rfl, rfl, rfl, rfl, rfl, rfl⟩, rfl, rfl, rfl, by decide, by decide⟩

/-- Each clause: one byte past the device, one past a page, one past `DMA_MAX`, one block or byte too many. -/
theorem test_witness_FlashRefusals :
    let s := flashState []
    let v := { s with fl := { Fl.reset with desc := { Fl.reset.desc with valid := true } } }
    (s.quiet ∧ v.quiet ∧ s.fl.desc.valid = false ∧ v.fl.desc.valid = true) ∧
    bufOk s.cfg 0 1 = true ∧ flSpanOk s.flash 0x0FFFFF 2 = false ∧
    flSpanOk s.flash 0x10FF 2 = true ∧ onePage s.cfg.flPage 0x10FF 2 = false ∧
    bufOk s.cfg 0 1025 = true ∧ flSpanOk s.flash 0 1025 = true ∧
    dmaRoute s.cfg 1025 = true ∧ s.cfg.dmaMax < 1025 ∧
    bufOk s.cfg 0 65537 = false ∧ onePage s.cfg.flPage 0 1025 = false ∧
    0x100000 % 4096 = 0 ∧ flSpanOk s.flash 0x100000 4096 = false ∧
    0x100000 % 32768 = 0 ∧ flSpanOk s.flash 0x100000 32768 = false ∧
    blockOk v.cfg.geom 127 0xFFF 1 = true ∧ bufOk v.cfg 16 1 = false ∧
    blockOk v.cfg.geom 127 0x1000 0 = true ∧
    v.cfg.geom.blockCount ≤ (128 : BitVec 32).toNat ∧
    v.cfg.geom.blockSize < (0xFFF : BitVec 32).toNat + 2 :=
  ⟨⟨⟨rfl, rfl, rfl⟩, ⟨rfl, rfl, rfl⟩, rfl, rfl⟩, by decide⟩

/-- The clause on a program by DMA: a device page and a threshold that let one be above `DMA_MAX`. -/
theorem test_witness_FlashRefusals_dma :
    let s := { flashState [] with cfg := { Config.default with dmaMax := 64 } }
    s.quiet ∧ bufOk s.cfg 0 65 = true ∧ flSpanOk s.flash 0x1000 65 = true ∧ dmaRoute s.cfg 65 = true ∧
    s.cfg.dmaMax < 65 ∧ onePage s.cfg.flPage 0x1000 65 = true :=
  ⟨⟨rfl, rfl, rfl⟩, by decide⟩

/-- The clauses on a buffer the block owns, by each route. -/
theorem test_witness_FlashRefusals_owned : ∀ n ∈ [1, 64], ∃ x : Bus,
    let s := { flashState [] with
      uarts := [boundIrq 8 uart0], fl := { Fl.reset with desc := { Fl.reset.desc with valid := true } } }
    s.quiet ∧ s.FlashBusFree x ∧ s.flash.busy = false ∧ s.owned (.user 0) = true ∧
    (bufOk s.cfg 0 n = true ∧ payloadOk s.cfg n = true ∧ flSpanOk s.flash 0x1000 n = true ∧
      onePage s.cfg.flPage 0x1000 n = true ∧ blockOk s.cfg.geom 127 0 n = true ∧
      flSpanOk s.flash (bdAddr s.cfg 127 0) n = true ∧ onePage s.cfg.flPage (bdAddr s.cfg 127 0) n = true) := by
  intro n h
  simp only [List.mem_cons, List.not_mem_nil, or_false] at h
  obtain rfl | rfl := h <;>
    exact ⟨_, ⟨rfl, rfl, rfl⟩, ⟨rfl, rfl, rfl, rfl, rfl, rfl⟩, rfl, by decide, by decide⟩

/-- Wire frames to a ready device and to a busy one, up to the last byte of the array. -/
theorem test_witness_FcReplies : ∀ busy ∈ [true, false], ∃ x : Bus,
    let s := { flashState [] with flash := { flashP2 with busy := busy } }
    s.quiet ∧ s.FlashBusFree x ∧ s.memOk = true ∧ s.flash.busy = busy ∧
    (0x0FFFFE : BitVec 24).toNat + 2 ≤ s.flash.capacity := by
  intro busy h
  simp only [List.mem_cons, List.not_mem_nil, or_false] at h
  obtain rfl | rfl := h <;>
    exact ⟨_, ⟨rfl, rfl, rfl⟩, ⟨rfl, rfl, rfl, rfl, rfl, rfl⟩, rfl, rfl, by decide⟩

/-- Each latch and busy bit, with a page filled to its end and the last sector and block. -/
theorem test_witness_FcCommands : ∀ wel ∈ [true, false], ∀ busy ∈ [true, false], ∃ x : Bus,
    let s := { flashState [] with flash := { flashP2 with busy := busy, wel := wel } }
    s.quiet ∧ s.FlashBusFree x ∧ s.flash.wel = wel ∧ s.flash.busy = busy ∧
    (0x0FFFFE : BitVec 24).toNat % s.cfg.flPage + [(1 : Byte), 2].length ≤ s.cfg.flPage ∧
    (0x0FFFFE : BitVec 24).toNat + [(1 : Byte), 2].length ≤ s.flash.capacity ∧
    (0x0FF000 : BitVec 24).toNat + 4096 ≤ s.flash.capacity ∧
    (0x0F8000 : BitVec 24).toNat + 32768 ≤ s.flash.capacity ∧ 0 + s.flash.capacity ≤ s.flash.capacity := by
  intro wel hw busy hb
  simp only [List.mem_cons, List.not_mem_nil, or_false] at hw hb
  obtain rfl | rfl := hw <;> obtain rfl | rfl := hb <;>
    exact ⟨_, ⟨rfl, rfl, rfl⟩, ⟨rfl, rfl, rfl, rfl, rfl, rfl⟩, rfl, rfl, by decide⟩

theorem test_witness_FlashDoneResult : ∀ p ∈ [.none, .program 0x1000 [0x0F], .erase 0x1000 4096],
    ({ flashState [] with flash := { flashP2 with busy := true, pending := p } } : State).flash.busy = true ∧
    ({ flashState [] with flash := { flashP2 with busy := true, pending := p } } : State).memOk = true := by
  intro p h
  simp only [List.mem_cons, List.not_mem_nil, or_false] at h
  obtain rfl | rfl | rfl := h <;> exact ⟨rfl, by decide⟩

/-- An operation, and a handler while MAIN waits. -/
theorem test_witness_StepRunsPresented :
    decode .op [0x10, 0x00] = .ok (.spiSelect 0) ∧ (Instr.spiSelect 0).wf = true ∧
    ({ State.reset with sched := [.req .op [0x10, 0x00]] } : State).main = [] ∧
    ({ State.reset with sched := [.req .op [0x10, 0x00]] } : State).irq = [] ∧
    decode .op [0x80, 0x00] = .ok (.evDmaRxDone 0) ∧ (Instr.evDmaRxDone 0).wf = true ∧
    (eventOf (.evDmaRxDone 0) { State.reset with sched := [.req .op [0x80, 0x00]], main := [.spinDma 0] }).isSome =
      true := by decide

theorem test_witness_DecodeEncode : (Instr.flRead 0xFFFFFFFFFFFFFFFF 3 0x100000000).wf = true ∧
    (Instr.fcPp 0xFFFFFF [0xFF]).wf = true ∧ (Instr.uartBindIrq 255 65535 0xFFFFFFFF).wf = true :=
  ⟨rfl, rfl, rfl⟩

/-- A machine with a short transmit ring, and the push of `ringState` to come. -/
def invState : State :=
  { ringState 2 0 .main [.req .op [0x01, 0x00, 0x43]] with
    uarts := [Uart.reset { n := 4, producer := .main } { frameReceived := 0, error := 1, txDone := 2 }] }

/-- A state with the invariant that has a next state. -/
theorem test_witness_InvariantStep : invState.Inv ∧ (after (step invState) fun _ => true) = some true :=
  ⟨⟨by decide, by decide, by decide, by decide, by decide, by decide, by decide⟩, by decide⟩

/-- Between the push and the enable of `UART.WRITE_BYTE`, with a step that enables the interrupt. -/
theorem test_witness_DriverInvariantStep :
    let s := { uartState (fun x => { boundIrq 8 x with txring := { x.txring with head := 1 } }) [.core (some 1)]
      with main := [.enableTx 0] }
    s.DriverInv ∧ (after (step s) fun t => (t.main.isEmpty, t.uarts.map (·.ieTxLevel))) =
      some (true, [true]) := by
  refine ⟨⟨by decide, by decide, ?_, by decide, .inr ⟨rfl, rfl⟩⟩, by decide⟩
  intro u x hx
  match u with
  | 0 => cases hx; exact ⟨fun _ => .inr (List.mem_singleton.2 rfl), fun h => by cases h <;> contradiction⟩
  | n + 1 => cases hx

theorem test_witness_MainBusyRefuses : eventOf .flInit State.reset = none ∧
    ({ State.reset with main := [.spinDma 0] } : State).main ≠ [] ∧
    ({ State.reset with irq := [.eot 0] } : State).irq ≠ [] := ⟨rfl, by decide, by decide⟩

theorem test_witness_HandlersLeaveFlash :
    (after (exec (.evUartTxLevel 0) (uartState (fun x => { boundIrq 8 x with ieTxLevel := true }) []))
      fun t => t.uarts.map (·.ieTxLevel)) = some [false] := by decide

/-- Each way of being disabled: enable and flag clear at reset; a level not reached with the enable set, a FIFO
above the level, a full `rxq`, a full FIFO, bytes not yet out; a handler that runs; and instances with no other of
their index. -/
theorem test_witness_DisabledEventsStutter : ∃ (x : Bus) (y : Uart),
    State.reset.buses[(0 : BitVec 8).toNat]? = some x ∧ State.reset.uarts[(0 : BitVec 8).toNat]? = some y ∧
    (x.dma.rxIrq = false ∧ x.dma.txIrq = false ∧ x.dma.txEn = false ∧ x.dma.txLeft = 0 ∧ x.dma.rxEn = false ∧
      x.dma.rxLeft = 0 ∧ x.rxq = []) ∧
    (y.ieRxLevel = false ∧ y.ieRxTimeout = false ∧ y.rxTimeoutFlag = false ∧ y.ieTxLevel = false ∧
      y.ieLine = false ∧ y.ieDma = false ∧ y.dmaIrq = false ∧ y.ieEot = false ∧ y.utxEn = false ∧
      y.utxLeft = 0 ∧ y.gapArmed = false ∧ y.txShifting = false ∧ y.txfifo = []) ∧
    State.reset.flash.busy = false ∧ ({ State.reset with irq := [.eot 0] } : State).irq ≠ [] ∧
    ({ State.reset with uarts := [] } : State).buses[(0 : BitVec 8).toNat]? = some x ∧
    ({ State.reset with buses := [] } : State).uarts[(0 : BitVec 8).toNat]? = some y :=
  ⟨_, _, rfl, rfl, by decide, by decide, rfl, by decide, rfl, rfl⟩

theorem test_witness_DisabledEventsStutter_levels : ∃ (x : Bus) (y z : Uart),
    (busState (fun x => { dmaBus x with rxq := List.replicate 8 0 }) []).buses[0]? = some x ∧
    x.dma.txEn = true ∧ Config.default.busFifoDepth ≤ x.rxq.length ∧
    (uartState (fun x => { boundIrq 8 x with
      rxfifo := List.replicate 15 0, txfifo := List.replicate 32 0, ieTxLevel := true, ieEot := true, utxEn := true
      utxLeft := 1 }) []).uarts[0]? = some y ∧
    y.rxfifo.length < Config.default.uartRxTrig ∧ Config.default.uartTxTrig < y.txfifo.length ∧
    Config.default.uartFifoDepth ≤ y.txfifo.length ∧ y.txfifo ≠ [] ∧
    (uartState (fun x => { boundIrq 8 x with ieEot := true, txShifting := true }) []).uarts[0]? = some z ∧
    z.ieLine = true ∧ z.lineErr = LineErrs.none ∧ z.fifoOverrun = false ∧ z.txShifting = true :=
  ⟨_, _, _, rfl, rfl, by decide, rfl, by decide, by decide, by decide, by decide, rfl, rfl, rfl, rfl,
    rfl⟩
end

section
/-! What a step is made of. Every step of the machine is a sequence of moves, each of one of four kinds: hardware or
the outside world does something, a context takes one micro-step, MAIN starts an operation, the interrupt context is
entered. Said once here; an invariant is then shown for each kind of move, and `step_keeps` carries it to a step. -/

namespace Sys2Proof.Machine

/-! ## What hardware and the outside world change -/

/-- A UART with every field blanked that the line, the transmitter and `CH_UTX` write (R252, R262, R263,
R266). -/
def Uart.software (x : Uart) : Uart :=
  { x with
    rxfifo := [], txfifo := [], txShifting := false, rxTimeoutFlag := false, gapArmed := false
    lineErr := .none, fifoOverrun := false, dmaIrq := false, utxLeft := 0, utxIdx := 0 }

/-- The enables of a bus's DMA channels and the mark of an outstanding transfer (R25). -/
def Bus.channels (x : Bus) : Bool × Bool × Bool := (x.dma.active, x.dma.rxEn, x.dma.txEn)

/-- Between `s` and `t` only words, FIFOs, latches, the device, the records of the model and the schedule have
changed: nothing that the two contexts, the rings or the drivers keep. -/
structure SameSoftware (s t : State) : Prop where
  cfg : t.cfg = s.cfg
  rings : t.rings = s.rings
  fl : t.fl = s.fl
  main : t.main = s.main
  irq : t.irq = s.irq
  uarts : t.uarts.map Uart.software = s.uarts.map Uart.software
  buses : t.buses.map Bus.channels = s.buses.map Bus.channels
  memOk : s.memOk = true → t.memOk = true

theorem SameSoftware.refl (s : State) : SameSoftware s s := ⟨rfl, rfl, rfl, rfl, rfl, rfl, rfl, id⟩

theorem SameSoftware.trans {s t u : State} (h : SameSoftware s t) (k : SameSoftware t u) : SameSoftware s u :=
  ⟨k.cfg.trans h.cfg, k.rings.trans h.rings, k.fl.trans h.fl, k.main.trans h.main, k.irq.trans h.irq,
    k.uarts.trans h.uarts, k.buses.trans h.buses, k.memOk ∘ h.memOk⟩

/-- A bus of `t` has the channels of the one of `s` with its index. -/
theorem SameSoftware.bus {s t : State} (h : SameSoftware s t) {b : Nat} {x : Bus} (hx : s.buses[b]? = some x) :
    ∃ y, t.buses[b]? = some y ∧ y.channels = x.channels := by
  have e := congrArg (·[b]?) h.buses
  simpa [List.getElem?_map, hx] using e

/-- A UART of `t` has the software fields of the one of `s` with its index. -/
theorem SameSoftware.uart {s t : State} (h : SameSoftware s t) {u : Nat} {y : Uart} (hy : t.uarts[u]? = some y) :
    ∃ x, s.uarts[u]? = some x ∧ y.software = x.software := by
  have e := congrArg (·[u]?) h.uarts
  simpa [List.getElem?_map, hy, eq_comm] using e

/-- Replacing an element by one with the same image leaves the images as they are. -/
theorem map_set_of_eq {α β : Type} (f : α → β) {l : List α} {i : Nat} {x y : α} (hx : l[i]? = some x)
    (h : f y = f x) : (l.set i y).map f = l.map f := by
  obtain ⟨hi, rfl⟩ := List.getElem?_eq_some_iff.1 hx
  rw [List.map_set, h, ← List.getElem_map f (h := by simpa using hi), List.set_getElem_self]

theorem sameSoftware_sched (s : State) (ts : List Turn) : SameSoftware s { s with sched := ts } :=
  ⟨rfl, rfl, rfl, rfl, rfl, rfl, rfl, id⟩

theorem sameSoftware_give (s : State) (c : Side) (r : Ret) : SameSoftware s (s.give c r) := by
  cases c <;> exact ⟨rfl, rfl, rfl, rfl, rfl, rfl, rfl, id⟩

theorem sameSoftware_trace (s : State) (tr : List Event) : SameSoftware s { s with trace := tr } :=
  ⟨rfl, rfl, rfl, rfl, rfl, rfl, rfl, id⟩

theorem sameSoftware_setBus {s : State} {b : Nat} {x y : Bus} (hx : s.buses[b]? = some x)
    (h : y.channels = x.channels) : SameSoftware s (s.setBus b y) :=
  ⟨rfl, rfl, rfl, rfl, rfl, rfl, map_set_of_eq _ hx h, id⟩

theorem sameSoftware_setUart {s : State} {u : Nat} {x y : Uart} (hx : s.uarts[u]? = some x)
    (h : y.software = x.software) : SameSoftware s (s.setUart u y) :=
  ⟨rfl, rfl, rfl, rfl, rfl, map_set_of_eq _ hx h, rfl, id⟩

theorem sameSoftware_bufWrite (s : State) (q : BufRef) (i : Nat) (v : Word) :
    SameSoftware s (s.bufWrite q i v) :=
  ⟨rfl, rfl, rfl, rfl, rfl, rfl, rfl, fun h => memOk_bufWrite h q i v⟩

/-- The device changes, and its array keeps its form. -/
theorem sameSoftware_flash (s : State) {f : Flash} (tr : List Event)
    (h : memWf erased s.flash.mem = true → memWf erased f.mem = true) :
    SameSoftware s { s with flash := f, trace := tr } :=
  ⟨rfl, rfl, rfl, rfl, rfl, rfl, rfl, fun k => memOk_iff.2 ⟨h (memOk_iff.1 k).1, (memOk_iff.1 k).2⟩⟩

theorem sameSoftware_reportDropped (s : State) (u : Nat) (cb : Callbacks) (d : Bool) :
    SameSoftware s (s.reportDropped u cb d) := by
  cases d
  · exact .refl s
  · exact sameSoftware_trace s _

theorem sameSoftware_filler (s : State) : SameSoftware s s.filler.2 := ⟨rfl, rfl, rfl, rfl, rfl, rfl, rfl, id⟩

theorem sameSoftware_srcWord (s : State) (src : Src) (i : Nat) : SameSoftware s (s.srcWord src i).2 := by
  cases src with
  | buf | bytes => exact .refl s
  | filler => exact sameSoftware_filler s

theorem sameSoftware_exchange {s t : State} {b : Nat} {w : Word} {r : Reply}
    (h : s.exchange b w = .ok (r, t)) : SameSoftware s t := by
  unfold State.exchange at h
  split at h
  · cases h
  · dsimp only at h
    split at h
    · split at h
      · cases h
      · cases h; exact ⟨rfl, rfl, rfl, rfl, rfl, rfl, rfl, id⟩
    · cases h; exact ⟨rfl, rfl, rfl, rfl, rfl, rfl, rfl, id⟩

theorem sameSoftware_dstWord (s : State) (b : Nat) (dst : Dst) (i : Nat) (v : Word) :
    SameSoftware s (s.dstWord b dst i v) := by
  cases dst with
  | buf q => exact sameSoftware_bufWrite s q i v
  | scratch =>
    rw [State.dstWord]
    split
    · rename_i x hx
      exact sameSoftware_setBus (y := { x with scratch := v }) hx rfl
    · exact .refl s

theorem sameSoftware_transferWord {s t : State} {b : Nat} {src : Src} {dst : Dst} {i : Nat}
    (h : s.transferWord b src dst i = .ok t) : SameSoftware s t := by
  unfold State.transferWord at h
  split at h
  · cases h
  · rename_i r s' he
    cases h
    exact ((sameSoftware_srcWord s src i).trans (sameSoftware_exchange he)).trans
      (sameSoftware_dstWord s' b dst i r.toWord)

theorem sameSoftware_assertCs {s : State} {b : Nat} {x : Bus} (hx : s.buses[b]? = some x) :
    SameSoftware s (s.assertCs b x) := by
  have h := sameSoftware_setBus (y := { x with cs := true }) hx rfl
  unfold State.assertCs
  dsimp only
  split
  · exact h.trans (sameSoftware_flash _ _ id)
  · exact h

/-- A deselect starts a command or drops it: the array itself is as before (R95, R96). -/
theorem commit_mem {f g : Flash} {page : Nat} (h : f.commit page = .ok g) : g.mem = f.mem := by
  unfold Flash.commit at h
  dsimp only at h
  split at h <;> (repeat' split at h) <;> cases h <;> rfl

theorem sameSoftware_releaseCs {s t : State} {b : Nat} {x : Bus} (hx : s.buses[b]? = some x)
    (h : s.releaseCs b x = .ok t) : SameSoftware s t := by
  have hb := sameSoftware_setBus (y := { x with cs := false }) hx rfl
  unfold State.releaseCs at h
  dsimp only at h
  split at h
  · split at h
    · cases h
    · rename_i f hf
      cases h
      exact hb.trans (sameSoftware_flash _ _ fun k => commit_mem hf ▸ k)
  · cases h; exact hb

/-! ## What may be started -/

/-- Every micro-step of `p` is one its context may do (R388), publishes no index a ring does not have and no address
that is too wide, and writes to no UART that is not bound to interrupts (R226). -/
def State.Accepts (s : State) (allowed : Micro → Bool) (p : List Micro) : Prop :=
  ∀ m ∈ p, m.ok s = true ∧ allowed m = true ∧
    ∀ u x, s.uarts[u]? = some x → x.mode = .idle ∨ x.mode = .pollingBound → m.writes u = false

/-- What MAIN may start: what it starts of `FL` operations comes with their end (R308). -/
def State.MayStart (s : State) (p : List Micro) : Prop := s.Accepts Micro.mainOk p ∧ flTail p = true

/-- What the interrupt context may be entered for. -/
def State.MayEnter (s : State) (p : List Micro) : Prop := s.Accepts Micro.irqOk p

/-- One move of the machine. -/
inductive Move : State → State → Prop
  | outside {s t : State} : SameSoftware s t → Move s t
  | micro {s t : State} {c : Side} {m : Micro} {ms p : List Micro} : s.prog c = m :: ms →
      micro m ms s = .more t p ∨ micro m ms s = .wait t p → Move s (t.setProg c p)
  | start {s : State} {p : List Micro} : s.main = [] → s.MayStart p → Move s { s with main := p, ret := .none }
  | enter {s : State} {p : List Micro} : s.MayEnter p → Move s (s.enterIrq p)

/-- The next state, if there is one, is reached from `s` by moves. -/
def Reaches (s : State) (o : Out) : Prop := ∀ t, o = .next t → Relation.ReflTransGen Move s t

/-! ## The ways outcomes are put together -/

theorem reaches_next (s : State) : Reaches s (.next s) := fun _ h => by cases h; exact .refl

theorem reaches_refused (s : State) (r : Refusal) : Reaches s (.refused r) := fun _ h => by cases h

theorem reaches_of_move {s t : State} {o : Out} (h : Move s t) (k : Reaches t o) : Reaches s o :=
  fun u hu => .head h (k u hu)

theorem reaches_outside {s t : State} (h : SameSoftware s t) : Reaches s (.next t) :=
  reaches_of_move (.outside h) (reaches_next t)

theorem reaches_of_sched {s : State} {ts : List Turn} {o : Out} (h : Reaches { s with sched := ts } o) :
    Reaches s o := reaches_of_move (.outside (sameSoftware_sched s ts)) h

theorem reaches_andThen {s : State} {o : Out} {k : State → Out} (h : Reaches s o) (hk : ∀ t, Reaches t (k t)) :
    Reaches s (andThen o k) := by
  cases o with
  | next t => exact fun u hu => (h t rfl).trans (hk t u hu)
  | fault f => cases f
  | refused r => exact reaches_refused s r

theorem reaches_need {s : State} {c : Bool} {r : Refusal} {o : Out} (h : Reaches s o) :
    Reaches s (need c r o) := by
  cases c
  · exact reaches_refused s r
  · exact h

/-! ## Running -/

theorem reaches_runCtx (stop : Bool) (c : Side) (n : Nat) (s : State) : Reaches s (runCtx stop c n s) := by
  induction n generalizing s with
  | zero => exact reaches_next s
  | succ n ih =>
    rw [runCtx]
    split
    · exact reaches_next s
    · rename_i m ms hp
      split
      · rename_i hm
        exact reaches_of_move (.micro hp (.inl hm)) (ih _)
      · rename_i hm
        refine reaches_of_move (.micro hp (.inr hm)) ?_
        split
        · exact reaches_next _
        · exact ih _
      · exact reaches_refused _ _

theorem reaches_runAll (c : Side) (s : State) : Reaches s (runAll c s) := reaches_runCtx _ _ _ _

theorem reaches_runCore (s : State) : Reaches s (runCore s) :=
  reaches_andThen (reaches_runAll _ _) (reaches_runAll _)

theorem reaches_runTurn (n : Option Nat) (s : State) : Reaches s (runTurn n s) := by
  cases n
  · exact reaches_runCore s
  · exact reaches_runCtx _ _ _ _

theorem reaches_launch (c : Side) (s : State) : Reaches s (launch c s) := by
  unfold launch
  split
  · exact reaches_next s
  · exact reaches_runAll c s

theorem reaches_startIrq {s : State} {p : List Micro} (h : s.MayEnter p) : Reaches s (startIrq p s) :=
  reaches_of_move (.enter h) (reaches_launch _ _)

theorem reaches_dispatchIrq {s : State} {p : List Micro} (ready : Bool) (h : s.MayEnter p) :
    Reaches s (dispatchIrq ready p s) := by
  unfold dispatchIrq
  split
  · exact reaches_startIrq h
  · exact reaches_next s

/-! ## Handlers, agents, and operations of the interrupt context -/

theorem reaches_busHandler {s : State} {b : BitVec 8} {ready : Bus → Bool} {p : Nat → List Micro}
    (h : s.MayEnter (p b.toNat)) : Reaches s (busHandler b ready p s) := by
  unfold busHandler
  split
  · exact reaches_dispatchIrq _ h
  · exact reaches_refused _ _

theorem reaches_uartHandler {s : State} {u : BitVec 8} {ready : Uart → Bool} {p : Nat → List Micro}
    (h : s.MayEnter (p u.toNat)) : Reaches s (uartHandler u ready p s) := by
  unfold uartHandler
  split
  · exact reaches_dispatchIrq _ h
  · exact reaches_refused _ _

theorem reaches_busStep {s : State} {b : BitVec 8} {k : Bus → Out}
    (h : ∀ x, s.buses[b.toNat]? = some x → Reaches s (k x)) : Reaches s (busStep b k s) := by
  unfold busStep
  split
  · exact h _ ‹_›
  · exact reaches_refused _ _

theorem reaches_uartStep {s : State} {u : BitVec 8} {k : Uart → Out}
    (h : ∀ x, s.uarts[u.toNat]? = some x → Reaches s (k x)) : Reaches s (uartStep u k s) := by
  unfold uartStep
  split
  · exact h _ ‹_›
  · exact reaches_refused _ _

/-- A micro-step that may stand in any list a context is given: it publishes nothing and writes to no UART. -/
def Micro.harmless : Micro → Bool
  | .pushStore .. | .pushPublish .. | .enableTx _ | .writeDirect .. => false
  | .pushSample r _ _ | .pullSample r | .pullRead r _ | .pullPublish r _ _ =>
    match r with
    | .own _ => true
    | .tx _ => false
  | .flBegin _ (some _) _ => false
  | _ => true

theorem ok_of_harmless {s : State} {m : Micro} (h : m.harmless = true) : m.ok s = true := by
  cases m with
  | pushStore | pushPublish => cases h
  | flBegin op a n => cases a with
    | none => rfl
    | some => cases h
  | _ => rfl

theorem writes_of_harmless {m : Micro} (h : m.harmless = true) (u : Nat) : m.writes u = false := by
  cases m with
  | pushStore | pushPublish | enableTx | writeDirect => cases h
  | pushSample r => cases r with
    | own => rfl
    | tx => cases h
  | _ => rfl

theorem accepts_of_harmless {allowed : Micro → Bool} {p : List Micro} (s : State)
    (h : p.all Micro.harmless = true) (ha : p.all allowed = true) : s.Accepts allowed p :=
  fun m hm =>
    have hm' := List.all_eq_true.1 h m hm
    ⟨ok_of_harmless hm', List.all_eq_true.1 ha m hm, fun u _ _ _ => writes_of_harmless hm' u⟩

/-- A `UART.WRITE_BYTE` on a UART that is bound to interrupts (R226, R240). -/
theorem accepts_write {allowed : Micro → Bool} {s : State} {u : Nat} {x : Uart} {b : Byte}
    (hx : s.uarts[u]? = some x) (hm : x.mode = .interruptBound) (ha : allowed (.writeDirect u b) = true) :
    s.Accepts allowed [.writeDirect u b] := by
  intro m h
  obtain rfl := List.mem_singleton.1 h
  refine ⟨rfl, ha, fun v y hy hy' => ?_⟩
  have hne : u ≠ v := by
    rintro rfl
    rw [hx, Option.some.injEq] at hy
    subst hy
    simp [hm] at hy'
  simp [Micro.writes, hne]

theorem reaches_writeInIrq (s : State) (u : BitVec 8) (b : Byte) : Reaches s (writeInIrq u b s) := by
  unfold writeInIrq
  split
  · split
    · exact reaches_startIrq (accepts_write ‹_› ‹_› rfl)
    · exact reaches_refused _ _
  · exact reaches_refused _ _

theorem reaches_pushInIrq (s : State) (r : RingRef) (b : Byte) : Reaches s (pushInIrq r b s) := by
  cases r with
  | own i => exact reaches_startIrq (accepts_of_harmless s rfl rfl)
  | tx u => exact reaches_refused _ _

theorem reaches_pullInIrq (s : State) (r : RingRef) : Reaches s (pullInIrq r s) := by
  cases r with
  | own i => exact reaches_startIrq (accepts_of_harmless s rfl rfl)
  | tx u => exact reaches_refused _ _

theorem reaches_envDmaTxMove (s : State) (b : BitVec 8) : Reaches s (execEnvDmaTxMove b s) := by
  refine reaches_busStep fun x hx => ?_
  split
  · dsimp only
    split
    · rename_i r s' he
      have h := (sameSoftware_srcWord s _ _).trans (sameSoftware_exchange he)
      obtain ⟨x', hx', hc⟩ := h.bus hx
      exact reaches_outside (h.trans (sameSoftware_setBus hx' (hc ▸ rfl)))
    · exact reaches_refused _ _
  · exact reaches_next s

theorem reaches_envDmaRxMove (s : State) (b : BitVec 8) : Reaches s (execEnvDmaRxMove b s) := by
  refine reaches_busStep fun x hx => ?_
  split
  · split
    · rename_i r rest _
      have h := sameSoftware_setBus (s := s) (y := x.rxMoved rest) hx rfl
      exact reaches_outside (h.trans (sameSoftware_dstWord _ _ _ _ _))
    · exact reaches_next s
  · exact reaches_next s

theorem reaches_envUartDmaMove (s : State) (u : BitVec 8) : Reaches s (execEnvUartDmaMove u s) := by
  refine reaches_uartStep fun x hx => ?_
  split
  · exact reaches_outside (sameSoftware_setUart hx rfl)
  · exact reaches_next s

theorem reaches_envLineByte (s : State) (u : BitVec 8) (b : Byte) (e : Option LineErr) :
    Reaches s (execEnvLineByte u b e s) :=
  reaches_uartStep fun _ hx => reaches_outside (sameSoftware_setUart hx rfl)

theorem reaches_envLineSilence (s : State) (u : BitVec 8) : Reaches s (execEnvLineSilence u s) := by
  refine reaches_uartStep fun x hx => ?_
  split
  · exact reaches_outside (sameSoftware_setUart hx rfl)
  · exact reaches_next s

theorem reaches_envTxShift (s : State) (u : BitVec 8) : Reaches s (execEnvTxShift u s) := by
  refine reaches_uartStep fun x hx => ?_
  split
  · exact reaches_outside (sameSoftware_setUart hx rfl)
  · split
    · rename_i v rest _
      have h := sameSoftware_setUart (s := s) (y := { x with txfifo := rest, txShifting := true }) hx rfl
      exact reaches_outside (h.trans (sameSoftware_trace _ _))
    · exact reaches_next s

theorem reaches_envFlashDone (s : State) : Reaches s (execEnvFlashDone s) := by
  unfold execEnvFlashDone
  split
  · exact reaches_outside (sameSoftware_flash s _ memWf_done)
  · exact reaches_next s

/-- Whatever an agent other than MAIN does is made of moves, also in a later state than the one in which its turn was
looked at. -/
theorem event_reaches {i : Instr} {f : State → Out} {s₀ : State} (h : eventOf i s₀ = some f) (s : State) :
    Reaches s (f s) := by
  cases i with
  | evDmaRxDone b | evDmaTxDone b => cases h; exact reaches_busHandler (accepts_of_harmless s rfl rfl)
  | evUartRxLevel u | evUartRxTimeout u | evUartTxLevel u | evUartLineError u | evUartDmaDone u | evUartEot u =>
    cases h; exact reaches_uartHandler (accepts_of_harmless s rfl rfl)
  | envDmaRxMove b => cases h; exact reaches_envDmaRxMove s b
  | envDmaTxMove b => cases h; exact reaches_envDmaTxMove s b
  | envUartDmaMove u => cases h; exact reaches_envUartDmaMove s u
  | envLineByte u b e => cases h; exact reaches_envLineByte s u b e
  | envLineSilence u => cases h; exact reaches_envLineSilence s u
  | envTxShift u => cases h; exact reaches_envTxShift s u
  | envFlashDone => cases h; exact reaches_envFlashDone s
  | fcJedec => cases h; exact reaches_next s
  | uartWriteByte u b =>
    rw [eventOf, Option.ite_none_right_eq_some] at h
    cases h.2
    exact reaches_writeInIrq s u b
  | rbPush r b =>
    rw [eventOf, Option.ite_none_right_eq_some] at h
    cases h.2
    exact reaches_pushInIrq s r b
  | rbPull r =>
    rw [eventOf, Option.ite_none_right_eq_some] at h
    cases h.2
    exact reaches_pullInIrq s r
  | _ => cases h

/-! ## An operation of MAIN under the schedule -/

theorem eventOf_of_eventTurn {t : Turn} {s : State} {f : State → Out} (h : eventTurn t s = some f) :
    ∃ i, eventOf i s = some f := by
  cases t with
  | core n => cases h
  | req sp bs =>
    rw [eventTurn] at h
    split at h
    · exact ⟨_, h⟩
    · cases h

theorem reaches_drive (ts : List Turn) (s : State) : Reaches s (drive ts s) := by
  induction ts generalizing s with
  | nil => exact reaches_of_sched (reaches_runCore _)
  | cons t ts ih =>
    cases t with
    | core n =>
      rw [drive]
      split
      · exact reaches_of_sched (reaches_next _)
      · exact reaches_of_sched (reaches_andThen (reaches_runTurn _ _) ih)
    | req sp bs =>
      rw [drive]
      split
      · exact reaches_of_sched (reaches_next _)
      · split
        · rename_i f hf
          obtain ⟨i, hi⟩ := eventOf_of_eventTurn hf
          exact reaches_of_sched (reaches_andThen (event_reaches hi _) ih)
        · exact reaches_of_sched (reaches_runCore _)

theorem reaches_whenMain {s : State} {o : Out} (h : s.main = [] → Reaches s o) : Reaches s (whenMain o s) := by
  unfold whenMain
  split
  · exact reaches_refused _ _
  · split
    · exact reaches_refused _ _
    · rename_i hm
      exact h (by simpa using hm)

theorem reaches_startMain {s : State} {p : List Micro} (h : s.MayStart p) : Reaches s (startMain p s) :=
  reaches_whenMain fun hm =>
    reaches_of_move (.start hm h) (reaches_andThen (reaches_launch _ _) fun t => reaches_drive t.sched t)

theorem reaches_returnNow (s : State) (r : Ret) : Reaches s (returnNow r s) :=
  reaches_whenMain fun _ => reaches_outside (sameSoftware_give s .main r)

end Sys2Proof.Machine
end

section
/-! Every operation MAIN starts is one it may start (R378, R388), so every instruction's meaning, and every step, is
made of moves. -/

namespace Sys2Proof.Machine

variable {s : State}

/-! ## Programs -/

theorem accepts_append {allowed : Micro → Bool} {p q : List Micro} (hp : s.Accepts allowed p)
    (hq : s.Accepts allowed q) : s.Accepts allowed (p ++ q) :=
  List.forall_mem_append.2 ⟨hp, hq⟩

/-- A list with an end of an `FL` operation behind it starts none that has no end. -/
theorem flTail_of_end (p : List Micro) {e : Micro} (he : e.flEnds = true) : flTail (p ++ [e]) = true := by
  induction p with
  | nil =>
    cases e with
    | flEnd | identEnd | discHeader | discTable => rfl
    | _ => cases he
  | cons m p ih =>
    have hany : (p ++ [e]).any Micro.flEnds = true := by simp [he]
    simp only [List.cons_append, flTail, ih, hany, Bool.and_true]
    cases m <;> rfl

theorem mayStart_of_harmless {p : List Micro} (s : State) (h : p.all Micro.harmless = true)
    (ha : p.all Micro.mainOk = true) (ht : flTail p = true) : s.MayStart p :=
  ⟨accepts_of_harmless s h ha, ht⟩

theorem mayStart_append {p q : List Micro} (hp : s.MayStart p) (hq : s.MayStart q) : s.MayStart (p ++ q) :=
  ⟨accepts_append hp.1 hq.1, flTail_append _ _ hp.2 hq.2⟩

theorem mayStart_select (s : State) (b : Nat) : s.MayStart (selectProg b) := mayStart_of_harmless s rfl rfl rfl

theorem mayStart_deselect (s : State) (b : Nat) : s.MayStart (deselectProg b) := mayStart_of_harmless s rfl rfl rfl

theorem mayStart_transfer (s : State) (b : Nat) (src : Src) (dst : Dst) (n : Nat) :
    s.MayStart (transferProg b src dst n) := mayStart_of_harmless s rfl rfl rfl

theorem mayStart_dma (s : State) (b : Nat) (tx rx : Option BufRef) (n : Nat) (blocking : Bool) :
    s.MayStart (dmaProg b tx rx n blocking) := by
  cases blocking <;> exact mayStart_of_harmless s rfl rfl rfl

theorem mayStart_payload (s : State) (c : Config) (p : Payload) : s.MayStart (payloadProg c p) := by
  cases p with
  | none => exact mayStart_of_harmless s rfl rfl rfl
  | input q n | output q n =>
    rw [payloadProg]
    split
    · exact mayStart_dma ..
    · exact mayStart_transfer ..

theorem mayStart_frame (s : State) (c : Config) (hdr : List Byte) (p : Payload) : s.MayStart (frameProg c hdr p) :=
  mayStart_append (mayStart_append (mayStart_append (mayStart_select ..) (mayStart_transfer ..))
    (mayStart_payload ..)) (mayStart_deselect ..)

theorem mayStart_status (s : State) (c : Config) (give : Bool) : s.MayStart (statusProg c give) :=
  mayStart_of_harmless s rfl rfl rfl

theorem mayStart_wait (s : State) (c : Config) : s.MayStart (waitProg c) := mayStart_of_harmless s rfl rfl rfl

theorem mayStart_wire (s : State) (c : Config) (hdr data : List Byte) (n : Nat) :
    s.MayStart (wireProg c hdr data n) := by
  have hdata : s.MayStart (if data.isEmpty then [] else txBytes c.flashBus data) := by
    split
    · exact mayStart_of_harmless s rfl rfl rfl
    · exact mayStart_transfer ..
  have hreply : s.MayStart (if n = 0 then [] else transferProg c.flashBus .filler (.buf .loc) n) := by
    split
    · exact mayStart_of_harmless s rfl rfl rfl
    · exact mayStart_transfer ..
  exact mayStart_append (mayStart_append (mayStart_append (mayStart_append
    (mayStart_append (mayStart_select ..) (mayStart_transfer ..)) hdata) hreply) (mayStart_deselect ..))
    (mayStart_of_harmless s rfl rfl rfl)

/-- The start of an `FL` operation, with an address of `API_ADDR_W` bits if it has one (R30, R283). -/
theorem accepts_flBegin {op : FlOp} {addr len : Option Nat} (ha : ∀ a ∈ addr, a < 2 ^ s.cfg.apiAddrW)
    (p : FlPhase) : s.Accepts Micro.mainOk [.flBegin op addr len, .flPhase p] := by
  intro m hm
  simp only [List.mem_cons, List.not_mem_nil, or_false] at hm
  obtain rfl | rfl := hm
  · refine ⟨?_, rfl, fun _ _ _ _ => rfl⟩
    cases addr with
    | none => rfl
    | some a => exact decide_eq_true (ha a rfl)
  · exact ⟨rfl, rfl, fun _ _ _ _ => rfl⟩

theorem accepts_flPhase (s : State) (p : FlPhase) : s.Accepts Micro.mainOk [.flPhase p] :=
  accepts_of_harmless s rfl rfl

theorem mayStart_read {addr : Nat} (ha : addr < 2 ^ s.cfg.apiAddrW) (c : Config) (q : BufRef) (n : Nat) (r : Ret) :
    s.MayStart (readProg c addr q n r) :=
  ⟨accepts_append (accepts_append (accepts_append (accepts_append (accepts_flBegin (by simpa using ha) _)
    (mayStart_wait ..).1) (accepts_flPhase s _)) (mayStart_frame ..).1) (accepts_of_harmless s rfl rfl),
    flTail_of_end _ rfl⟩

theorem mayStart_write {addr : Option Nat} (ha : ∀ a ∈ addr, a < 2 ^ s.cfg.apiAddrW) (c : Config) (op : FlOp)
    (len : Option Nat) (hdr : List Byte) (p : Payload) (r : Ret) : s.MayStart (writeProg c op addr len hdr p r) :=
  ⟨accepts_append (accepts_append (accepts_append (accepts_append (accepts_append (accepts_append (accepts_append
    (accepts_append (accepts_flBegin ha _) (mayStart_wait ..).1) (accepts_flPhase s _)) (mayStart_frame ..).1)
    (accepts_flPhase s _)) (mayStart_frame ..).1) (accepts_flPhase s _)) (mayStart_wait ..).1)
    (accepts_of_harmless s rfl rfl), flTail_of_end _ rfl⟩

theorem mayStart_waitOp (s : State) (c : Config) (r : Ret) : s.MayStart (waitOpProg c r) :=
  ⟨accepts_append (accepts_append (accepts_flBegin (by simp) _) (mayStart_wait ..).1)
    (accepts_of_harmless s rfl rfl), flTail_of_end _ rfl⟩

theorem mayStart_identify (s : State) (c : Config) : s.MayStart (identifyProg c) :=
  ⟨accepts_append (accepts_append (accepts_flBegin (by simp) _) (mayStart_frame ..).1)
    (accepts_of_harmless s rfl rfl), flTail_of_end _ rfl⟩

theorem mayStart_discover (s : State) (c : Config) : s.MayStart (discoverProg c) :=
  ⟨accepts_append (accepts_append (accepts_flBegin (by simp) _) (mayStart_frame ..).1)
    (accepts_of_harmless s rfl rfl), flTail_of_end _ rfl⟩

/-- The driver's address of an operand has `API_ADDR_W` bits. -/
theorem addrOf_lt (c : Config) (a : Nat) : c.addrOf a < 2 ^ c.apiAddrW := Nat.mod_lt _ (Nat.two_pow_pos _)

/-! ## Requests to the flash driver (R283, R290, R340) -/

theorem reaches_flashRead (s : State) (a : Nat) (rx : BitVec 16) (n : Nat) (r : Ret) :
    Reaches s (flashRead (s.cfg.addrOf a) rx n r s) :=
  reaches_need (reaches_need (reaches_need (reaches_need
    (reaches_startMain (mayStart_read (addrOf_lt s.cfg a) ..)))))

theorem reaches_flashProgram (s : State) (a : Nat) (tx : BitVec 16) (n : Nat) (r : Ret) :
    Reaches s (flashProgram (s.cfg.addrOf a) tx n r s) :=
  reaches_need (reaches_need (reaches_need (reaches_need (reaches_need
    (reaches_startMain (mayStart_write (by simpa using addrOf_lt s.cfg a) ..))))))

theorem reaches_flashErase (a size : Nat) {p : List Micro} (h : s.MayStart p) :
    Reaches s (flashErase a size p s) := by
  unfold flashErase
  split
  · exact reaches_need (reaches_startMain h)
  · exact reaches_returnNow _ _

theorem mayStart_eraseSector (s : State) (a : Nat) : s.MayStart (eraseSectorProg s.cfg (s.cfg.addrOf a)) :=
  mayStart_write (by simpa using addrOf_lt s.cfg a) ..

theorem mayStart_eraseBlock (s : State) (a : Nat) : s.MayStart (eraseBlockProg s.cfg (s.cfg.addrOf a)) :=
  mayStart_write (by simpa using addrOf_lt s.cfg a) ..

theorem reaches_bdNeed (block offset : BitVec 32) (size : Nat) {o : Out} (h : Reaches s o) :
    Reaches s (bdNeed block offset size s o) := reaches_need (reaches_need h)

/-! ## Operations on a UART and on a ring -/

theorem reaches_uartOp {u : BitVec 8} {ok : UartMode → Bool} {k : Uart → Out}
    (h : ∀ x, s.uarts[u.toNat]? = some x → ok x.mode = true → Reaches s (k x)) : Reaches s (uartOp u ok k s) := by
  unfold uartOp
  split
  · rename_i x hx
    cases hok : ok x.mode
    · exact reaches_refused _ _
    · exact h x hx hok
  · exact reaches_refused _ _

theorem reaches_uartBindPoll (s : State) (u : BitVec 8) : Reaches s (execUartBindPoll u s) :=
  reaches_uartOp fun _ _ _ => reaches_startMain (mayStart_of_harmless s rfl rfl rfl)

theorem reaches_uartPollRead (s : State) (u : BitVec 8) : Reaches s (execUartPollRead u s) :=
  reaches_uartOp fun _ _ _ => reaches_startMain (mayStart_of_harmless s rfl rfl rfl)

theorem reaches_uartDmaWait (s : State) (u : BitVec 8) : Reaches s (execUartDmaWait u s) :=
  reaches_uartOp fun _ _ _ => reaches_startMain (mayStart_of_harmless s rfl rfl rfl)

theorem reaches_uartBindIrq (s : State) (u : BitVec 8) (q : BitVec 16) (cap : Nat) :
    Reaches s (execUartBindIrq u q cap s) :=
  reaches_uartOp fun _ _ _ => reaches_need (reaches_startMain (mayStart_of_harmless s rfl rfl rfl))

theorem reaches_uartDmaTx (s : State) (u : BitVec 8) (q : BitVec 16) (n : Nat) :
    Reaches s (execUartDmaTx u q n s) :=
  reaches_uartOp fun _ _ _ =>
    reaches_need (reaches_need (reaches_startMain (mayStart_of_harmless s rfl rfl rfl)))

theorem reaches_uartWriteByte (s : State) (u : BitVec 8) (b : Byte) : Reaches s (execUartWriteByte u b s) := by
  unfold execUartWriteByte
  split
  · exact reaches_writeInIrq s u b
  · exact reaches_uartOp fun x hx hm =>
      reaches_startMain ⟨accepts_write hx (by simpa using hm) rfl, rfl⟩

theorem reaches_rbPush (s : State) (r : RingRef) (b : Byte) : Reaches s (execRbPush r b s) := by
  unfold execRbPush
  split
  · exact reaches_refused _ _
  · cases r with
    | tx u => exact reaches_refused _ _
    | own i =>
      dsimp only
      split
      · exact reaches_pushInIrq s _ b
      · exact reaches_startMain (mayStart_of_harmless s rfl rfl rfl)

theorem reaches_rbPull (s : State) (r : RingRef) : Reaches s (execRbPull r s) := by
  unfold execRbPull
  split
  · exact reaches_refused _ _
  · cases r with
    | tx u => exact reaches_refused _ _
    | own i =>
      dsimp only
      split
      · exact reaches_pullInIrq s _
      · exact reaches_startMain (mayStart_of_harmless s rfl rfl rfl)

/-! ## Every instruction, every step -/

theorem reaches_exec_of_event {i : Instr} (h : eventOf i s = some (exec i)) : Reaches s (exec i s) :=
  event_reaches h s

/-- Every instruction's meaning is made of moves. -/
theorem reaches_exec (i : Instr) (s : State) : Reaches s (exec i s) := by
  cases i with
  | fcRdsr | fcWren | fcSe | fcBe32 | fcRdid | fcCe => exact reaches_startMain (mayStart_wire ..)
  | fcPp | fcRead | fcRdsfdp => exact reaches_need (reaches_startMain (mayStart_wire ..))
  | rbPush r b => exact reaches_rbPush s r b
  | rbPull r => exact reaches_rbPull s r
  | spiSelect b => exact reaches_startMain (mayStart_select ..)
  | spiDeselect b => exact reaches_startMain (mayStart_deselect ..)
  | spiXfer | spiTx | spiRx => exact reaches_need (reaches_need (reaches_startMain (mayStart_transfer ..)))
  | dmaStart b tx rx n blocking =>
    exact reaches_need (reaches_need (reaches_need (reaches_need (reaches_startMain (mayStart_dma ..)))))
  | dmaWait b => exact reaches_startMain (mayStart_of_harmless s rfl rfl rfl)
  | uartBindPoll u => exact reaches_uartBindPoll s u
  | uartPollRead u => exact reaches_uartPollRead s u
  | uartDmaWait u => exact reaches_uartDmaWait s u
  | uartBindIrq u q cap => exact reaches_uartBindIrq s u q cap
  | uartWriteByte u b => exact reaches_uartWriteByte s u b
  | uartDmaTx u q n => exact reaches_uartDmaTx s u q n
  | flIdentify => exact reaches_startMain (mayStart_identify ..)
  | flDiscover => exact reaches_startMain (mayStart_discover ..)
  | flInit => exact reaches_startMain (mayStart_append (mayStart_identify ..) (mayStart_discover ..))
  | flRead a rx n => exact reaches_flashRead s _ rx n _
  | flProgram a tx n => exact reaches_flashProgram s _ tx n _
  | flEraseSector a => exact reaches_flashErase _ _ (mayStart_eraseSector ..)
  | flEraseBlock a => exact reaches_flashErase _ _ (mayStart_eraseBlock ..)
  | flEraseAll => exact reaches_startMain (mayStart_write (by simp) ..)
  | flWaitReady => exact reaches_startMain (mayStart_waitOp ..)
  | flWriteEnable => exact reaches_startMain (mayStart_frame ..)
  | flReadStatus => exact reaches_startMain (mayStart_status ..)
  | bdRead k o q n => exact reaches_bdNeed k o n (reaches_flashRead s _ q n _)
  | bdProgram k o q n => exact reaches_bdNeed k o n (reaches_flashProgram s _ q n _)
  | bdErase k => exact reaches_bdNeed k 0 0 (reaches_flashErase _ _ (mayStart_eraseSector ..))
  | bdSync => exact reaches_need (reaches_startMain (mayStart_waitOp ..))
  | _ => exact reaches_exec_of_event rfl

/-- Every step is made of moves. -/
theorem reaches_step (s : State) : Reaches s (step s) := by
  unfold step
  split
  · exact reaches_runCore s
  · exact reaches_of_sched (reaches_runTurn _ _)
  · split
    · split
      · exact reaches_refused _ _
      · exact reaches_runCore s
    · split
      · exact reaches_of_sched (reaches_exec _ _)
      · exact reaches_runCore s

/-- What every move keeps, every step keeps. -/
theorem step_keeps {P : State → Prop} (hmove : ∀ s t, Move s t → P s → P t) {s t : State} (hs : P s)
    (h : step s = .next t) : P t := by
  have hr := reaches_step s t h
  clear h
  induction hr with
  | refl => exact hs
  | tail _ hm ih => exact hmove _ _ hm ih

end Sys2Proof.Machine
end

section
/-! Every step keeps R38 (f) and (g). -/

namespace Sys2Proof.Machine

/-- What R38 (f) says of a UART reads its software fields alone. -/
theorem txOk_of_software {l : List Micro} {u : Nat} {x y : Uart} (h : y.software = x.software)
    (hx : txOk l u x) : txOk l u y := by
  have hr : y.txring = x.txring := show y.software.txring = x.software.txring by rw [h]
  have hi : y.ieTxLevel = x.ieTxLevel := show y.software.ieTxLevel = x.software.ieTxLevel by rw [h]
  have hm : y.mode = x.mode := show y.software.mode = x.software.mode by rw [h]
  simpa only [txOk, hr, hi, hm] using hx

theorem driverInv_of_sameSoftware {s t : State} (h : SameSoftware s t) (hs : s.DriverInv) : t.DriverInv := by
  obtain ⟨hmain, hirq, htx, hfl⟩ := hs
  refine ⟨h.main ▸ hmain, h.irq ▸ hirq, fun u y hy => ?_, ?_⟩
  · obtain ⟨x, hx, hxy⟩ := h.uart hy
    rw [h.main, h.irq]
    exact txOk_of_software hxy (htx u x hx)
  · unfold State.flInv
    rw [h.main, h.fl]
    exact hfl

/-- More to do, none of it for a UART that is not bound to interrupts, leaves what R38 (f) says of one. -/
theorem txOk_more {l l' : List Micro} {u : Nat} {x : Uart} (hx : txOk l u x) (hl : ∀ a ∈ l, a ∈ l')
    (hn : ∀ a ∈ l', a ∈ l ∨ (x.mode = .idle ∨ x.mode = .pollingBound → a.writes u = false)) : txOk l' u x := by
  refine ⟨fun he => (hx.1 he).imp id (hl _), fun hm => ⟨(hx.2 hm).1, List.all_eq_true.2 fun a ha => ?_⟩⟩
  have hold := List.all_eq_true.1 (hx.2 hm).2
  obtain h | h := hn a ha
  · exact hold a h
  · simp [h hm]

theorem driverInv_start {s : State} {p : List Micro} (hm : s.main = []) (hp : s.MayStart p) (hs : s.DriverInv) :
    State.DriverInv { s with main := p, ret := .none } := by
  obtain ⟨-, hirq, htx, hfl⟩ := hs
  refine ⟨List.all_eq_true.2 fun m h => (hp.1 m h).2.1, hirq, fun u x hx => ?_, hp.2, ?_⟩
  · have hold := htx u x hx
    rw [hm, List.nil_append] at hold
    refine txOk_more (l' := p ++ s.irq) hold (fun a ha => List.mem_append_right _ ha) fun a ha => ?_
    exact (List.mem_append.1 ha).symm.imp id fun h => (hp.1 a h).2.2 u x hx
  · obtain h | h := hfl.2
    · simp [hm] at h
    · exact .inr h

theorem driverInv_enter {s : State} {p : List Micro} (hp : s.MayEnter p) (hs : s.DriverInv) :
    (s.enterIrq p).DriverInv := by
  obtain ⟨hmain, hirq, htx, hfl⟩ := hs
  refine ⟨hmain, ?_, fun u x hx => ?_, hfl⟩
  · rw [enterIrq_irq, List.all_append, hirq, List.all_eq_true.2 fun m h => (hp m h).2.1]
    rfl
  · rw [enterIrq_main, enterIrq_irq, ← List.append_assoc]
    refine txOk_more (htx u x hx) (fun a ha => List.mem_append_left _ ha) fun a ha => ?_
    exact (List.mem_append.1 ha).imp id fun h => (hp a h).2.2 u x hx

/-- No move breaks R38 (f) or (g). -/
theorem driverInv_move (s t : State) (h : Move s t) (hs : s.DriverInv) : t.DriverInv := by
  cases h with
  | outside h => exact driverInv_of_sameSoftware h hs
  | micro hp hm =>
    have := micro_driver _ s _ _ hs hp
    obtain hm | hm := hm <;> (rw [hm] at this; exact this)
  | start hm hp => exact driverInv_start hm hp hs
  | enter hp => exact driverInv_enter hp hs

end Sys2Proof.Machine

open Sys2Proof.Machine

/-- Settles O56: no move breaks the invariant, and a step is made of moves. -/
theorem driverInvariantStep : Obligations.DriverInvariantStep :=
  fun _ _ hs h => step_keeps driverInv_move hs h

end

section
/-! Every step keeps R38 (a) to (e) and (h), the width of `fl.addr` (R30) and the form of both memories. -/

namespace Sys2Proof.Machine

/-! ## What the invariant says of the data -/

/-- The clauses of `State.Inv` (R38 a to e and h) that do not speak of the contexts. -/
structure State.DataOk (s : State) : Prop where
  rings : s.rings.all Ring.ok = true
  buses : s.buses.all Bus.ok = true
  uarts : s.uarts.all (Uart.ok s.cfg.dmaMax) = true
  addr : s.fl.addr < 2 ^ s.cfg.apiAddrW
  mem : s.memOk = true

theorem inv_iff (s : State) :
    s.Inv ↔ s.DataOk ∧ s.main.all (Micro.ok s) = true ∧ s.irq.all (Micro.ok s) = true :=
  ⟨fun ⟨hr, hb, hu, hm, hi, ha, hmem⟩ => ⟨⟨hr, hb, hu, ha, hmem⟩, hm, hi⟩,
    fun ⟨⟨hr, hb, hu, ha, hmem⟩, hm, hi⟩ => ⟨hr, hb, hu, hm, hi, ha, hmem⟩⟩

theorem Uart.ok_iff (d : Nat) (x : Uart) :
    x.ok d = true ↔ x.txring.ok = true ∧ x.rxCount ≤ x.rxCap ∧ x.dmaCursor + x.dmaRemaining = x.dmaLen ∧
      x.dmaChunk ≤ d ∧ x.dmaChunk ≤ x.dmaRemaining ∧ (x.mode = .dmaTransmitting ↔ x.dmaBusy = true) := by
  have hbusy : (x.mode == .dmaTransmitting) = x.dmaBusy ↔ (x.mode = .dmaTransmitting ↔ x.dmaBusy = true) := by
    rw [Bool.eq_iff_iff, beq_iff_eq]
  simp [Uart.ok, and_assoc, hbusy]

theorem Bus.ok_iff (x : Bus) : x.ok = true ↔ (x.dma.rxEn = true ∨ x.dma.txEn = true → x.dma.active = true) := by
  simp [Bus.ok, imp_iff_not_or]

theorem all_of_getElem? {α : Type} {l : List α} {p : α → Bool} (h : l.all p = true) {i : Nat} {x : α}
    (hx : l[i]? = some x) : p x = true := List.all_eq_true.1 h x (List.mem_of_getElem? hx)

/-- Replacing an element by one that also passes. -/
theorem all_set {α : Type} {l : List α} {p : α → Bool} (h : l.all p = true) (i : Nat) {y : α} (hy : p y = true) :
    (l.set i y).all p = true :=
  List.all_eq_true.2 fun a ha => (List.mem_or_eq_of_mem_set ha).elim (List.all_eq_true.1 h a) fun e => e ▸ hy

/-- The ring an index names is in its bounds. -/
theorem State.DataOk.ring {s : State} (h : s.DataOk) {r : RingId} {x : Ring} (hx : s.ring? r = some x) :
    x.ok = true := by
  cases r with
  | own i => exact all_of_getElem? h.rings hx
  | tx u =>
    simp only [State.ring?, Option.map_eq_some_iff] at hx
    obtain ⟨y, hy, rfl⟩ := hx
    exact ((Uart.ok_iff _ y).1 (all_of_getElem? h.uarts hy)).1

/-! ## What a micro-step does to the data -/

/-- From `s` to `t` the data stay as the invariant says, the contexts have what they had to do, and all that
`Micro.ok` reads is the same. -/
structure KeepsData (s t : State) : Prop where
  cfg : t.cfg = s.cfg
  size : ∀ r, (t.ring? r).map Ring.n = (s.ring? r).map Ring.n
  main : t.main = s.main
  irq : t.irq = s.irq
  data : s.DataOk → t.DataOk

theorem KeepsData.refl (s : State) : KeepsData s s := ⟨rfl, fun _ => rfl, rfl, rfl, id⟩

theorem KeepsData.trans {s t u : State} (h : KeepsData s t) (k : KeepsData t u) : KeepsData s u :=
  ⟨k.cfg.trans h.cfg, fun r => (k.size r).trans (h.size r), k.main.trans h.main, k.irq.trans h.irq,
    k.data ∘ h.data⟩

theorem ok_pushStore (s : State) (r : RingId) (h n : Nat) (b : Byte) (k : PushFor) :
    (Micro.pushStore r h n b k).ok s = ((s.ring? r).map Ring.n).all (fun m => decide (n < m)) := by
  cases hr : s.ring? r <;> simp [Micro.ok, hr]

theorem ok_pushPublish (s : State) (r : RingId) (n : Nat) (k : PushFor) :
    (Micro.pushPublish r n k).ok s = ((s.ring? r).map Ring.n).all (fun m => decide (n < m)) := by
  cases hr : s.ring? r <;> simp [Micro.ok, hr]

/-- `Micro.ok` reads the configuration and the sizes of the rings, nothing else. -/
theorem micro_ok_congr {s t : State} (hc : t.cfg = s.cfg)
    (hn : ∀ r, (t.ring? r).map Ring.n = (s.ring? r).map Ring.n) (m : Micro) : m.ok t = m.ok s := by
  cases m with
  | pushStore r h n b k => rw [ok_pushStore, ok_pushStore, hn]
  | pushPublish r n k => rw [ok_pushPublish, ok_pushPublish, hn]
  | flBegin op addr len =>
    cases addr with
    | none => rfl
    | some a => rw [Micro.ok, Micro.ok, hc]
  | _ => rfl

theorem all_ok_of_accepts {s : State} {allowed : Micro → Bool} {p : List Micro} (h : s.Accepts allowed p) :
    p.all (Micro.ok s) = true := List.all_eq_true.2 fun m hm => (h m hm).1

/-- Software fields are all that the invariant reads of a UART, and channels all that it reads of a bus. -/
theorem keepsData_of_sameSoftware {s t : State} (h : SameSoftware s t) : KeepsData s t where
  cfg := h.cfg
  size r := by
    cases r with
    | own i => rw [State.ring?, State.ring?, h.rings]
    | tx u =>
      have e := congrArg (fun l : List Uart => (l[u]?).map fun x => x.txring.n) h.uarts
      simpa [State.ring?, List.getElem?_map, Function.comp_def, Uart.software] using e
  main := h.main
  irq := h.irq
  data hs := by
    refine ⟨h.rings ▸ hs.rings, ?_, ?_, by rw [h.fl, h.cfg]; exact hs.addr, h.memOk hs.mem⟩
    · have e := congrArg (List.all · fun c => !(c.2.1 || c.2.2) || c.1) h.buses
      simp only [List.all_map] at e
      exact e.trans hs.buses
    · have e := congrArg (List.all · (Uart.ok s.cfg.dmaMax)) h.uarts
      simp only [List.all_map] at e
      rw [h.cfg]
      exact e.trans hs.uarts

theorem keepsData_setBus {s : State} {b : Nat} {x y : Bus} (hx : s.buses[b]? = some x)
    (h : x.ok = true → y.ok = true) : KeepsData s (s.setBus b y) where
  cfg := rfl
  size _ := rfl
  main := rfl
  irq := rfl
  data hs := { hs with buses := all_set hs.buses b (h (all_of_getElem? hs.buses hx)) }

theorem keepsData_setUart {s : State} {u : Nat} {x y : Uart} (hx : s.uarts[u]? = some x)
    (hn : y.txring.n = x.txring.n) (h : x.ok s.cfg.dmaMax = true → y.ok s.cfg.dmaMax = true) :
    KeepsData s (s.setUart u y) where
  cfg := rfl
  size r := by
    cases r with
    | own i => rfl
    | tx v =>
      have e := congrArg (·[v]?) (map_set_of_eq (fun z : Uart => z.txring.n) hx hn)
      simpa only [State.ring?, setUart_uarts, Option.map_map, List.getElem?_map, Function.comp_def] using e
  main := rfl
  irq := rfl
  data hs := { hs with uarts := all_set hs.uarts u (h (all_of_getElem? hs.uarts hx)) }

theorem keepsData_setRing {s : State} {r : RingId} {x y : Ring} (hx : s.ring? r = some x) (hn : y.n = x.n)
    (h : x.ok = true → y.ok = true) : KeepsData s (s.setRing r y) := by
  cases r with
  | own i =>
    refine ⟨rfl, fun q => ?_, rfl, rfl, fun hs =>
      { hs with rings := all_set hs.rings i (h (all_of_getElem? hs.rings hx)) }⟩
    cases q with
    | tx v => rfl
    | own j =>
      have e := congrArg (·[j]?) (map_set_of_eq Ring.n hx hn)
      simpa only [State.ring?, State.setRing, List.getElem?_map] using e
  | tx u =>
    simp only [State.ring?, Option.map_eq_some_iff] at hx
    obtain ⟨z, hz, rfl⟩ := hx
    simp only [State.setRing, hz]
    refine keepsData_setUart hz hn fun hok => ?_
    rw [Uart.ok_iff] at hok ⊢
    exact ⟨h hok.1, hok.2⟩

/-- The driver's state changes, and the address keeps its width. -/
theorem keepsData_fl (s : State) (f : Fl) (r : Ret)
    (h : s.fl.addr < 2 ^ s.cfg.apiAddrW → f.addr < 2 ^ s.cfg.apiAddrW) :
    KeepsData s { s with fl := f, ret := r } :=
  ⟨rfl, fun _ => rfl, rfl, rfl, fun hs => { hs with addr := h hs.addr }⟩

theorem keepsData_give (s : State) (c : Side) (r : Ret) : KeepsData s (s.give c r) :=
  keepsData_of_sameSoftware (sameSoftware_give s c r)

theorem KeepsData.give {s t : State} {c : Side} {r : Ret} (h : KeepsData s t) :
    KeepsData s (t.give c r) := h.trans (keepsData_give t c r)

theorem KeepsData.emit {s t : State} {e : Event} (h : KeepsData s t) : KeepsData s (t.emit e) :=
  h.trans (keepsData_of_sameSoftware (sameSoftware_trace t _))

theorem keepsData_flReturn (s : State) (r : Ret) : KeepsData s (s.flReturn r) := keepsData_fl s _ r id

/-- One byte more is stored, if there is room (R230). -/
theorem keepsData_rxTake {s : State} {u : Nat} {x : Uart} (hx : s.uarts[u]? = some x) (b : Byte)
    (rest : List Byte) : KeepsData s (s.rxTake u x b rest).1 := by
  unfold State.rxTake
  split
  · rename_i hlt
    refine (keepsData_of_sameSoftware (sameSoftware_bufWrite s x.rxBuf x.rxCount (b.setWidth 16))).trans
      (keepsData_setUart hx rfl fun hok => ?_)
    rw [Uart.ok_iff] at hok ⊢
    exact ⟨hok.1, hlt, hok.2.2⟩
  · exact keepsData_setUart hx rfl id

/-! ## One micro-step -/

/-- A micro-step with `ms` behind it leads from `s` to data as the invariant says, and puts before `ms` only what
may stand there. -/
def MRes.Data (o : MRes) (ms : List Micro) (s : State) : Prop :=
  match o with
  | .more t p | .wait t p => KeepsData s t ∧ ∃ q, p = q ++ ms ∧ q.all (Micro.ok s) = true
  | .refuse _ => True

variable {s t : State} {ms : List Micro}

theorem data_done (h : KeepsData s t) : (MRes.more t ms).Data ms s := ⟨h, [], rfl, rfl⟩

theorem data_next {m : Micro} (h : KeepsData s t) (hm : m.ok s = true) : (MRes.more t (m :: ms)).Data ms s :=
  ⟨h, [m], rfl, by rw [List.all_cons, hm]; rfl⟩

/-- A spin that goes on. -/
theorem data_spin {m : Micro} (hm : m.ok s = true) : (MRes.wait s (m :: ms)).Data ms s :=
  ⟨.refl s, [m], rfl, by rw [List.all_cons, hm]; rfl⟩

theorem data_withBus {b : Nat} {k : Bus → MRes} (h : ∀ x, s.buses[b]? = some x → (k x).Data ms s) :
    (withBus s b k).Data ms s := by
  unfold withBus
  split
  · exact h _ ‹_›
  · trivial

theorem data_withUart {u : Nat} {k : Uart → MRes} (h : ∀ x, s.uarts[u]? = some x → (k x).Data ms s) :
    (withUart s u k).Data ms s := by
  unfold withUart
  split
  · exact h _ ‹_›
  · trivial

theorem data_withRing {r : RingId} {k : Ring → MRes} (h : ∀ x, s.ring? r = some x → (k x).Data ms s) :
    (withRing s r k).Data ms s := by
  unfold withRing
  split
  · exact h _ ‹_›
  · trivial

/-! ### Rings (R142, R146) -/

theorem data_pushSample (hs : s.DataOk) (r : RingId) (b : Byte) (k : PushFor) :
    (stepPushSample r b k ms s).Data ms s := by
  refine data_withRing fun x hx => ?_
  split
  · exact data_done (keepsData_give ..)
  · refine data_next (.refl s) ?_
    simp only [Micro.ok, hx, decide_eq_true_eq]
    exact Nat.mod_lt _ ((Ring.ok_iff x).1 (hs.ring hx)).1

theorem data_pushStore {r : RingId} {h n : Nat} {b : Byte} {k : PushFor}
    (hm : (Micro.pushStore r h n b k).ok s = true) : (stepPushStore r h n b k ms s).Data ms s :=
  data_withRing fun x hx => data_next (keepsData_setRing hx rfl fun hok => by simpa [Ring.ok_iff] using hok) hm

theorem data_pushPublish {r : RingId} {n : Nat} {k : PushFor} (hm : (Micro.pushPublish r n k).ok s = true) :
    (stepPushPublish r n k ms s).Data ms s := by
  refine data_withRing fun x hx => ?_
  have hn : n < x.n := by simpa [Micro.ok, hx] using hm
  have hk : KeepsData s (s.setRing r { x with head := n }) := keepsData_setRing hx rfl fun hok => by
    obtain ⟨h1, -, h3, h4⟩ := (Ring.ok_iff x).1 hok
    exact (Ring.ok_iff _).2 ⟨h1, hn, h3, h4⟩
  cases k with
  | caller => exact data_done (hk.trans (keepsData_give ..))
  | write u => exact data_next hk rfl

theorem data_pullSample (r : RingId) : (stepPullSample r ms s).Data ms s := by
  refine data_withRing fun x hx => ?_
  split
  · exact data_done (keepsData_give ..)
  · exact data_next (.refl s) rfl

theorem data_pullRead (r : RingId) (i : Nat) : (stepPullRead r i ms s).Data ms s :=
  data_withRing fun _ _ => data_next (.refl s) rfl

theorem data_pullPublish (r : RingId) (i : Nat) (v : Byte) : (stepPullPublish r i v ms s).Data ms s := by
  refine data_withRing fun x hx => data_done (.give (keepsData_setRing hx rfl fun hok => ?_))
  obtain ⟨h1, h2, -, h4⟩ := (Ring.ok_iff x).1 hok
  exact (Ring.ok_iff _).2 ⟨h1, h2, Nat.mod_lt _ h1, h4⟩

/-! ### Buses (R162 to R207) -/

theorem data_spinIdle (b : Nat) : (stepSpinIdle b ms s).Data ms s := by
  refine data_withBus fun x hx => ?_
  split
  · exact data_done (.refl s)
  · exact data_spin rfl

theorem data_selectBus (b : Nat) : (stepSelectBus b ms s).Data ms s := by
  refine data_withBus fun x hx => ?_
  split
  · trivial
  · exact data_done (keepsData_of_sameSoftware (sameSoftware_assertCs hx))

theorem data_deselectBus (b : Nat) : (stepDeselectBus b ms s).Data ms s := by
  refine data_withBus fun x hx => ?_
  split
  · split
    · exact data_done (keepsData_of_sameSoftware (sameSoftware_releaseCs hx ‹_›))
    · trivial
  · trivial

theorem data_spinDma (b : Nat) : (stepSpinDma b ms s).Data ms s := by
  refine data_withBus fun x hx => ?_
  split
  · exact data_spin rfl
  · exact data_done (.refl s)

theorem data_xfer (b : Nat) (src : Src) (dst : Dst) (i n : Nat) : (stepXfer b src dst i n ms s).Data ms s := by
  unfold stepXfer
  split
  · trivial
  · split
    · have hk := keepsData_of_sameSoftware (sameSoftware_transferWord ‹_›)
      split
      · exact data_next hk rfl
      · exact data_done hk
    · trivial

theorem data_dmaStage (b : Nat) (tx rx : Option BufRef) (n : Nat) : (stepDmaStage b tx rx n ms s).Data ms s := by
  refine data_withBus fun x hx => ?_
  split
  · trivial
  · split
    · trivial
    · split
      · trivial
      · exact data_done (keepsData_setBus hx id)

theorem data_dmaEnable (b : Nat) : (stepDmaEnable b ms s).Data ms s :=
  data_withBus fun _ hx => data_done (keepsData_setBus hx fun _ => (Bus.ok_iff _).2 fun _ => rfl)

theorem data_dmaRxDone (b : Nat) : (stepDmaRxDone b ms s).Data ms s := by
  refine data_withBus fun x hx => data_done (keepsData_setBus hx fun hok => (Bus.ok_iff _).2 fun h => ?_)
  have ht : x.dma.txEn = true := by simpa using h
  simp [ht, (Bus.ok_iff x).1 hok (.inr ht)]

theorem data_dmaTxDone (b : Nat) : (stepDmaTxDone b ms s).Data ms s := by
  refine data_withBus fun x hx => data_done (keepsData_setBus hx fun hok => (Bus.ok_iff _).2 fun h => ?_)
  have hr : x.dma.rxEn = true := by simpa using h
  simp [hr, (Bus.ok_iff x).1 hok (.inl hr)]

/-! ### UARTs (R222 to R260) -/

/-- A UART in another mode than `DmaTransmitting` is not busy, and may go to any other such mode (R38 h). -/
theorem uart_ok_mode {d : Nat} {x y : Uart} (hx : x.ok d = true) (hmode : x.mode ≠ .dmaTransmitting)
    (hy : y.mode ≠ .dmaTransmitting)
    (h : y.txring = x.txring ∧ y.rxCount = x.rxCount ∧ y.rxCap = x.rxCap ∧ y.dmaCursor = x.dmaCursor ∧
      y.dmaRemaining = x.dmaRemaining ∧ y.dmaLen = x.dmaLen ∧ y.dmaChunk = x.dmaChunk ∧ y.dmaBusy = x.dmaBusy) :
    y.ok d = true := by
  obtain ⟨hring, hcount, hcap, hcursor, hrem, hlen, hchunk, hbusy⟩ := h
  rw [Uart.ok_iff] at hx ⊢
  simpa only [hring, hcount, hcap, hcursor, hrem, hlen, hchunk, hbusy, hmode, hy] using hx

theorem data_bindPoll (u : Nat) : (stepBindPoll u ms s).Data ms s := by
  refine data_withUart fun x hx => ?_
  split
  · rename_i hm
    exact data_done (keepsData_setUart hx rfl fun hok =>
      uart_ok_mode hok (by simp [hm]) nofun ⟨rfl, rfl, rfl, rfl, rfl, rfl, rfl, rfl⟩)
  · trivial

theorem data_bindBuffer (u : Nat) (q : BufRef) (cap : Nat) : (stepBindBuffer u q cap ms s).Data ms s := by
  refine data_withUart fun x hx => ?_
  split
  · split
    · trivial
    · refine data_done (keepsData_setUart hx rfl fun hok => ?_)
      rw [Uart.ok_iff] at hok ⊢
      exact ⟨hok.1, Nat.zero_le _, hok.2.2⟩
  · trivial

theorem data_bindEnable (u : Nat) : (stepBindEnable u ms s).Data ms s := by
  refine data_withUart fun x hx => ?_
  split
  · rename_i hm
    exact data_done (keepsData_setUart hx rfl fun hok =>
      uart_ok_mode hok (by simp [hm]) nofun ⟨rfl, rfl, rfl, rfl, rfl, rfl, rfl, rfl⟩)
  · trivial

theorem data_pollRead (u : Nat) : (stepPollRead u ms s).Data ms s := by
  refine data_withUart fun x hx => ?_
  split
  · exact data_done (keepsData_give ..)
  · exact data_done (.give (keepsData_setUart hx rfl id))

theorem data_writeDirect (u : Nat) (b : Byte) : (stepWriteDirect u b ms s).Data ms s := by
  refine data_withUart fun x hx => ?_
  split
  · exact data_done (.give (keepsData_setUart hx rfl id))
  · exact data_next (.refl s) rfl

theorem data_enableTx (u : Nat) : (stepEnableTx u ms s).Data ms s :=
  data_withUart fun _ hx => data_done (.give (keepsData_setUart hx rfl id))

theorem data_spinUart (u : Nat) : (stepSpinUart u ms s).Data ms s := by
  refine data_withUart fun x hx => ?_
  split
  · exact data_spin rfl
  · exact data_done (.refl s)

theorem data_dmaTxSet (u : Nat) (q : BufRef) (n : Nat) : (stepDmaTxSet u q n ms s).Data ms s := by
  refine data_withUart fun x hx => ?_
  split
  · split
    · split
      · trivial
      · refine data_done (keepsData_setUart hx rfl fun hok => ?_)
        obtain ⟨hring, hcount, -⟩ := (Uart.ok_iff _ x).1 hok
        exact (Uart.ok_iff _ _).2 ⟨hring, hcount, Nat.zero_add n, Nat.min_le_right _ _, Nat.min_le_left _ _,
          fun _ => rfl, fun _ => rfl⟩
    · trivial
  · trivial

theorem data_dmaTxGo (u : Nat) : (stepDmaTxGo u ms s).Data ms s :=
  data_withUart fun _ hx => data_done (keepsData_setUart hx rfl id)

theorem data_rxLevel (u left : Nat) (d : Bool) : (stepRxLevel u left d ms s).Data ms s := by
  refine data_withUart fun x hx => ?_
  split
  · exact data_done (keepsData_of_sameSoftware (sameSoftware_reportDropped ..))
  · split
    · trivial
    · exact data_next (keepsData_rxTake hx ..) rfl

theorem data_rxTimeout (u : Nat) : (stepRxTimeout u ms s).Data ms s :=
  data_withUart fun _ hx => data_done (keepsData_setUart hx rfl id)

theorem data_rxFlush (u : Nat) (d : Bool) : (stepRxFlush u d ms s).Data ms s := by
  refine data_withUart fun x hx => ?_
  split
  · have hsame := (sameSoftware_reportDropped s u x.cb d).trans (sameSoftware_trace _
      ((s.reportDropped u x.cb d).trace ++ [.call x.cb.frameReceived u (.frameReceived x.rxBuf x.rxCount)]))
    refine data_done ((keepsData_of_sameSoftware hsame).trans (keepsData_setUart (x := x) ?_ rfl fun hok => ?_))
    · rw [(reportDropped_same s u x.cb d).1]
      exact hx
    · rw [Uart.ok_iff] at hok ⊢
      exact ⟨hok.1, Nat.zero_le _, hok.2.2⟩
  · exact data_next (keepsData_rxTake hx ..) rfl

theorem data_txDrain (u : Nat) : (stepTxDrain u ms s).Data ms s := by
  refine data_withUart fun x hx => ?_
  split
  · exact data_done (.refl s)
  · split
    · exact data_done (keepsData_setUart hx rfl id)
    · refine data_next (keepsData_setUart hx rfl fun hok => ?_) rfl
      rw [Uart.ok_iff] at hok ⊢
      obtain ⟨hring, hrest⟩ := hok
      obtain ⟨h1, h2, -, h4⟩ := (Ring.ok_iff _).1 hring
      exact ⟨(Ring.ok_iff _).2 ⟨h1, h2, Nat.mod_lt _ h1, h4⟩, hrest⟩

theorem data_uartDmaDone (u : Nat) : (stepUartDmaDone u ms s).Data ms s := by
  refine data_withUart fun x hx => data_done (keepsData_setUart hx (by split <;> rfl) fun hok => ?_)
  rw [Uart.ok_iff] at hok
  obtain ⟨hring, hcount, hlen, -, hle, hbusy⟩ := hok
  have hlen' : x.dmaCursor + x.dmaChunk + (x.dmaRemaining - x.dmaChunk) = x.dmaLen := by omega
  split
  · exact (Uart.ok_iff _ _).2 ⟨hring, hcount, hlen', Nat.min_le_right _ _, Nat.min_le_left _ _, hbusy⟩
  · exact (Uart.ok_iff _ _).2 ⟨hring, hcount, hlen', Nat.zero_le _, Nat.zero_le _, hbusy⟩

theorem data_eot (u : Nat) : (stepEot u ms s).Data ms s := by
  refine data_withUart fun x hx => data_done (.emit (keepsData_setUart hx rfl fun hok => ?_))
  obtain ⟨hring, hcount, hlen, hmax, hle, -⟩ := (Uart.ok_iff _ x).1 hok
  exact (Uart.ok_iff _ _).2 ⟨hring, hcount, hlen, hmax, hle, nofun, nofun⟩

theorem data_lineError (u : Nat) : (stepLineError u ms s).Data ms s :=
  data_withUart fun _ hx => data_done ((keepsData_of_sameSoftware (sameSoftware_trace s _)).trans
    (keepsData_setUart hx rfl id))

/-! ### Flash driver (R284 to R314) -/

theorem data_flBegin {op : FlOp} {addr len : Option Nat} (hm : (Micro.flBegin op addr len).ok s = true) :
    (stepFlBegin op addr len ms s).Data ms s := by
  refine data_done (keepsData_fl s _ _ fun h => ?_)
  cases addr with
  | none => exact h
  | some a => exact of_decide_eq_true hm

theorem data_flPhase (p : FlPhase) : (stepFlPhase p ms s).Data ms s := data_done (keepsData_fl s _ _ id)

theorem data_flEnd (r : Ret) : (stepFlEnd r ms s).Data ms s := data_done (keepsData_flReturn ..)

theorem data_rxStatus : (stepRxStatus ms s).Data ms s := by
  unfold stepRxStatus
  split
  · rename_i r s' he
    have h := (sameSoftware_filler s).trans (sameSoftware_exchange he)
    exact data_done ((keepsData_of_sameSoftware h).trans (keepsData_fl s' _ _ id))
  · trivial

theorem data_latchStatus (give : Bool) : (stepLatchStatus give ms s).Data ms s := by
  cases give <;> exact data_done (keepsData_fl s _ _ id)

theorem data_waitCheck : (stepWaitCheck ms s).Data ms s := by
  unfold stepWaitCheck
  split
  · exact ⟨.refl s, _, rfl, rfl⟩
  · exact data_done (.refl s)

theorem data_identEnd : (stepIdentEnd ms s).Data ms s := data_done (keepsData_fl s _ _ id)

theorem data_discHeader : (stepDiscHeader ms s).Data ms s := by
  unfold stepDiscHeader
  dsimp only
  split
  · exact ⟨.refl s, _, rfl, all_ok_of_accepts (accepts_append (mayStart_frame ..).1
      (accepts_of_harmless (allowed := Micro.mainOk) s rfl rfl))⟩
  · exact data_done (keepsData_flReturn ..)

theorem data_discTable : (stepDiscTable ms s).Data ms s := by
  unfold stepDiscTable
  dsimp only
  split
  · split
    · exact data_done (keepsData_fl s _ _ id)
    · trivial
  · exact data_done (keepsData_flReturn ..)

theorem data_giveReply (n : Nat) : (stepGiveReply n ms s).Data ms s := data_done (keepsData_give ..)

/-- No micro-step breaks the invariant of the data, and none puts in its place what `Micro.ok` does not allow. -/
theorem data_micro (hs : s.DataOk) (m : Micro) (hm : m.ok s = true) : (micro m ms s).Data ms s := by
  cases m with
  | pushSample r b k => exact data_pushSample hs r b k
  | pushStore r h n b k => exact data_pushStore hm
  | pushPublish r n k => exact data_pushPublish hm
  | pullSample r => exact data_pullSample r
  | pullRead r i => exact data_pullRead r i
  | pullPublish r i v => exact data_pullPublish r i v
  | spinIdle b => exact data_spinIdle b
  | selectBus b => exact data_selectBus b
  | deselectBus b => exact data_deselectBus b
  | spinDma b => exact data_spinDma b
  | xfer b src dst i n => exact data_xfer b src dst i n
  | dmaStage b tx rx n => exact data_dmaStage b tx rx n
  | dmaEnable b => exact data_dmaEnable b
  | bindPoll u => exact data_bindPoll u
  | bindBuffer u q cap => exact data_bindBuffer u q cap
  | bindEnable u => exact data_bindEnable u
  | pollRead u => exact data_pollRead u
  | writeDirect u b => exact data_writeDirect u b
  | enableTx u => exact data_enableTx u
  | spinUart u => exact data_spinUart u
  | dmaTxSet u q n => exact data_dmaTxSet u q n
  | dmaTxGo u => exact data_dmaTxGo u
  | flBegin op addr len => exact data_flBegin hm
  | flPhase p => exact data_flPhase p
  | flEnd r => exact data_flEnd r
  | rxStatus => exact data_rxStatus
  | latchStatus give => exact data_latchStatus give
  | waitCheck => exact data_waitCheck
  | identEnd => exact data_identEnd
  | discHeader => exact data_discHeader
  | discTable => exact data_discTable
  | giveReply n => exact data_giveReply n
  | rxLevel u left d => exact data_rxLevel u left d
  | rxTimeout u => exact data_rxTimeout u
  | rxFlush u d => exact data_rxFlush u d
  | txDrain u => exact data_txDrain u
  | dmaRxDone b => exact data_dmaRxDone b
  | dmaTxDone b => exact data_dmaTxDone b
  | uartDmaDone u => exact data_uartDmaDone u
  | eot u => exact data_eot u
  | lineError u => exact data_lineError u

/-! ## Moves -/

theorem all_ok_congr (hc : t.cfg = s.cfg) (hn : ∀ r, (t.ring? r).map Ring.n = (s.ring? r).map Ring.n)
    (p : List Micro) : p.all (Micro.ok t) = p.all (Micro.ok s) := by
  rw [funext (micro_ok_congr hc hn)]

theorem inv_of_keepsData (h : KeepsData s t) (hs : s.Inv) : t.Inv := by
  rw [inv_iff] at hs ⊢
  obtain ⟨hd, hmain, hirq⟩ := hs
  simp only [all_ok_congr h.cfg h.size, h.main, h.irq]
  exact ⟨h.data hd, hmain, hirq⟩

/-- What a context has to do may be replaced by what `Micro.ok` allows. -/
theorem inv_setProg (hs : s.Inv) (c : Side) {p : List Micro} (hp : p.all (Micro.ok s) = true) :
    (s.setProg c p).Inv := by
  have hcongr := all_ok_congr (setProg_cfg s c p) fun r => by rw [setProg_ring?]
  rw [inv_iff] at hs ⊢
  obtain ⟨hd, hmain, hirq⟩ := hs
  simp only [hcongr]
  cases c
  · exact ⟨⟨hd.rings, hd.buses, hd.uarts, hd.addr, hd.mem⟩, hp, hirq⟩
  · exact ⟨⟨hd.rings, hd.buses, hd.uarts, hd.addr, hd.mem⟩, hmain, hp⟩

theorem inv_prog (hs : s.Inv) (c : Side) : (s.prog c).all (Micro.ok s) = true := by
  obtain ⟨-, hmain, hirq⟩ := (inv_iff s).1 hs
  cases c
  · exact hmain
  · exact hirq

theorem inv_micro {c : Side} {m : Micro} {p : List Micro} (hp : s.prog c = m :: ms)
    (h : micro m ms s = .more t p ∨ micro m ms s = .wait t p) (hs : s.Inv) : (t.setProg c p).Inv := by
  have hok := inv_prog hs c
  rw [hp, List.all_cons, Bool.and_eq_true] at hok
  have hd := data_micro (ms := ms) ((inv_iff s).1 hs).1 m hok.1
  obtain ⟨hk, q, rfl, hq⟩ : KeepsData s t ∧ ∃ q, p = q ++ ms ∧ q.all (Micro.ok s) = true := by
    obtain h | h := h <;> (rw [h] at hd; exact hd)
  refine inv_setProg (inv_of_keepsData hk hs) c ?_
  rw [all_ok_congr hk.cfg hk.size, List.all_append, hq, hok.2]
  rfl

/-- No move breaks the invariant. -/
theorem inv_move (s t : State) (h : Move s t) (hs : s.Inv) : t.Inv := by
  cases h with
  | outside h => exact inv_of_keepsData (keepsData_of_sameSoftware h) hs
  | micro hp hm => exact inv_micro hp hm hs
  | @start p hm hp =>
    have hk : KeepsData s { s with ret := .none } := keepsData_give s .main .none
    exact inv_setProg (inv_of_keepsData hk hs) .main (p := p) (all_ok_of_accepts hp.1)
  | @enter p hp =>
    refine inv_setProg hs .irq (p := s.irq ++ p) ?_
    rw [List.all_append, all_ok_of_accepts hp, Bool.and_true]
    exact inv_prog hs .irq

end Sys2Proof.Machine

open Sys2Proof.Machine

/-- Settles O55: no move breaks the invariant, and a step is made of moves. -/
theorem invariantStep : Obligations.InvariantStep :=
  fun _ _ hs h => step_keeps inv_move hs h

end

section
/-! The state after reset (R37, R410 to R414). -/

namespace Sys2Proof.Machine

theorem ring_reset_ok {n : Nat} (h : 1 ≤ n) (p c : Side) : (Ring.reset n p c).ok = true :=
  (Ring.ok_iff _).2 ⟨h, h, h, List.length_replicate ..⟩

theorem bus_reset_ok (k : BusCfg) : (Bus.reset k).ok = true := rfl

theorem uart_reset_ok (d : Nat) {k : TxRingCfg} (h : 1 ≤ k.n) (cb : Callbacks) : (Uart.reset k cb).ok d = true :=
  (Uart.ok_iff _ _).2 ⟨ring_reset_ok h .., Nat.le_refl _, rfl, Nat.zero_le _, Nat.le_refl _, nofun, nofun⟩

theorem txOk_reset (u : Nat) (k : TxRingCfg) (cb : Callbacks) : txOk [] u (Uart.reset k cb) :=
  ⟨nofun, fun _ => ⟨rfl, rfl⟩⟩

variable {c : Config} {f : Flash}

/-- Ring `i` is the ring at reset that the configuration names. -/
theorem ring_init {i : Nat} {r : Ring} (h : (State.init c f).rings[i]? = some r) :
    ∃ k, c.rings[i]? = some k ∧ r = Ring.reset k.n k.producer k.consumer := by
  simpa [State.init, eq_comm] using h

/-- Bus `b` is the bus at reset with its own parameters. -/
theorem bus_init {b : Nat} {x : Bus} (h : (State.init c f).buses[b]? = some x) :
    ∃ k, c.buses[b]? = some k ∧ x = Bus.reset k := by
  simpa [State.init, eq_comm] using h

/-- UART `u` is the UART at reset with its own ring and its own listeners. -/
theorem uart_init {u : Nat} {x : Uart} (h : (State.init c f).uarts[u]? = some x) :
    ∃ k cb, c.txRings[u]? = some k ∧ c.cbs[u]? = some cb ∧ x = Uart.reset k cb := by
  obtain ⟨k, cb, hk, hcb, rfl⟩ := List.getElem?_zipWith_eq_some.1 h
  exact ⟨k, cb, hk, hcb, rfl⟩

theorem all_of_forall_getElem? {α : Type} {l : List α} {p : α → Bool}
    (h : ∀ (i : Nat) x, l[i]? = some x → p x = true) : l.all p = true :=
  List.all_eq_true.2 fun x hx => by
    obtain ⟨i, hi⟩ := List.getElem?_of_mem hx
    exact h i x hi

/-- R38 (a) to (e) and (h) after reset, for any rings that can hold an index and any device in form. -/
theorem inv_init (hr : ∀ k ∈ c.rings, 1 ≤ k.n) (ht : ∀ k ∈ c.txRings, 1 ≤ k.n)
    (hf : memWf erased f.mem = true) : (State.init c f).Inv := by
  refine (inv_iff _).2 ⟨⟨?_, ?_, ?_, Nat.two_pow_pos _, memOk_iff.2 ⟨hf, rfl⟩⟩, rfl, rfl⟩
  · refine all_of_forall_getElem? fun i r h => ?_
    obtain ⟨k, hk, rfl⟩ := ring_init h
    exact ring_reset_ok (hr k (List.mem_of_getElem? hk)) ..
  · refine all_of_forall_getElem? fun b x h => ?_
    obtain ⟨k, -, rfl⟩ := bus_init h
    exact bus_reset_ok k
  · refine all_of_forall_getElem? fun u x h => ?_
    obtain ⟨k, cb, hk, -, rfl⟩ := uart_init h
    exact uart_reset_ok _ (ht k (List.mem_of_getElem? hk)) cb

/-- R38 (f) and (g) after reset. -/
theorem driverInv_init (c : Config) (f : Flash) : (State.init c f).DriverInv := by
  refine ⟨rfl, rfl, fun u x hx => ?_, rfl, .inr ⟨rfl, rfl⟩⟩
  obtain ⟨k, cb, -, -, rfl⟩ := uart_init hx
  exact txOk_reset u k cb

end Sys2Proof.Machine

open Sys2Proof.Machine

/-- Settles O57: the components are those `Ring.reset`, `Bus.reset` and `Uart.reset` give, one for each that the
configuration names. -/
theorem resetState : Obligations.ResetState := by
  refine ⟨inv_init (by decide) (by decide) rfl, driverInv_init .., fun c f => ⟨rfl, rfl, rfl, rfl,
    List.length_map .., List.length_map .., List.length_zipWith .., fun i r hr => ?_, fun b x hx => ?_, fun u x hx => ?_, rfl, rfl, rfl⟩⟩
  · obtain ⟨k, hk, rfl⟩ := ring_init hr
    exact ⟨k, hk, rfl, rfl, rfl, rfl, rfl, List.length_replicate ..⟩
  · obtain ⟨k, hk, rfl⟩ := bus_init hx
    exact ⟨hk, rfl, rfl, rfl, rfl, rfl, rfl, rfl, rfl, rfl⟩
  · obtain ⟨k, cb, hk, hcb, rfl⟩ := uart_init hx
    exact ⟨hcb, ⟨k, hk, rfl, rfl, List.length_replicate ..⟩, by simp [Uart.reset, Ring.reset]⟩

end

section
/-! What the device does by itself, and how a step takes up what is presented (R83, R95, R96, log 1). -/

namespace Sys2Proof.Machine

/-! ## The array once the device has finished -/

/-- A finished program has ANDed its bytes into the array (R95). -/
theorem read_done_program {f : Flash} (hwf : memWf erased f.mem = true) {a : Nat} {data : List Byte}
    (hp : f.pending = .program a data) (b : Nat) :
    f.done.read b = if a ≤ b ∧ b < a + data.length then f.read b &&& data.getD (b - a) 0 else f.read b := by
  simp only [Flash.read, Flash.done, hp, memGet_programBytes hwf]

/-- A finished erase has set its span to 0xFF (R96). -/
theorem read_done_erase {f : Flash} (hwf : memWf erased f.mem = true) {a n : Nat} (hp : f.pending = .erase a n)
    (b : Nat) : f.done.read b = if a ≤ b ∧ b < a + n then 0xFF else f.read b := by
  simp only [Flash.read, Flash.done, hp, memGet_memClear hwf]

/-- With no work pending the array stays as it is. -/
theorem read_done_none {f : Flash} (hp : f.pending = .none) (b : Nat) : f.done.read b = f.read b := by
  simp only [Flash.read, Flash.done, hp]

theorem exec_envFlashDone {s : State} (hb : s.flash.busy = true) :
    exec .envFlashDone s = .next { s with flash := s.flash.done } := by
  simp only [exec, execEnvFlashDone, hb, if_true]

/-! ## What a step takes up -/

/-- A presented instruction is performed when nothing is in progress or another agent than MAIN performs it. -/
theorem step_presented {s : State} {sp : Space} {bs : List Byte} {ts : List Turn} {i : Instr}
    (hs : s.sched = .req sp bs :: ts) (hd : decode sp bs = .ok i)
    (h : s.coreIdle = true ∨ (eventOf i s).isSome = true) : step s = exec i { s with sched := ts } := by
  rw [← Bool.or_eq_true] at h
  simp only [step, hs, hd, h, if_true]

end Sys2Proof.Machine

open Sys2Proof Sys2Proof.Machine

/-- Settles O51: the next state holds `Flash.done`, whose array is read in the three kinds of pending work. -/
theorem flashDoneResult : Obligations.FlashDoneResult := by
  intro s hb hm
  obtain ⟨hwf, -⟩ := memOk_iff.1 hm
  exact ⟨_, exec_envFlashDone hb, rfl, fun hp => read_done_none hp, fun _ _ hp => read_done_program hwf hp,
    fun _ _ hp => read_done_erase hwf hp⟩

/-- Settles O52: the step's one test passes for either reason. -/
theorem stepRunsPresented : Obligations.StepRunsPresented := by
  intro s sp bs ts i hs hd _
  refine ⟨fun hm hi => step_presented hs hd (.inl ?_), fun he => step_presented hs hd (.inr he)⟩
  simp [State.coreIdle, hm, hi]

/-- Settles O54: each word is closed, so the decoder evaluates on it. -/
theorem decodeTableWords : Obligations.DecodeTableWords := by
  unfold Obligations.DecodeTableWords
  decide

end

section
/-! The flash wire commands presented by themselves (R90 to R97, R101, log 13): one selection window each, whose
reply and effect are the device's. -/

namespace Sys2Proof.Machine

/-! ## Tests before an operation -/

theorem need_pass {c : Bool} (h : c = true) (r : Refusal) (k : Out) : need c r k = k := if_pos h

theorem need_fail {c : Bool} (h : c = false) (r : Refusal) (k : Out) : need c r k = .refused r :=
  if_neg (by simp [h])

/-! ## The state after a window -/

variable {s : State} {x : Bus}

/-- The flash bus of a driver at rest, as the driver sees it. -/
theorem State.FlashBusFree.view (hx : s.FlashBusFree x) : ({ s.view x with ret := .none } : View).Free :=
  ⟨hx.cs, hx.hasCs, hx.width, hx.drained, hx.inactive⟩

/-- A view whose bus has kept all but its scratch cell, and whose trace has grown, is within the driver's frame. -/
theorem driverFrame_put {v : View} {sc : Word} {evs : List Event} (hb : v.bus = { x with scratch := sc })
    (ht : v.trace = s.trace ++ evs) : DriverFrame s (s.put v) x := by
  have he : newEvents s (s.put v) = evs := by simp [newEvents, State.put, ht]
  exact ⟨sc, by rw [he, ← hb, ← ht]; rfl⟩

/-- Words received into a buffer change its own cells alone. -/
theorem sameBufBut_put {v : View} {q : BufRef} {ws : List Word} (hwf : memWf 0 s.buf = true)
    (hv : v.buf = bufFill q 0 ws s.buf) : sameBufBut s (s.put v) q 0 ws.length := fun a ha => by
  have hbuf : (s.put v).buf = bufFill q 0 ws s.buf := hv
  rw [hbuf, memGet_bufFill _ _ _ hwf, if_neg (by omega)]

/-! ## Frames with no reply -/

/-- A frame with no reply takes no more micro-steps than its program weighs. -/
theorem does_wire_within {c : Config} {v : View} (h : v.Free) {hdr data : List Byte} (hn : hdr ≠ [])
    (hl : hdr.length ≤ 4) (h3 : data = [] ∨ (hdr.headD 0).toNat ≠ 0x03) {f : Flash}
    (hf : ({ v.flash with frame := hdr ++ data } : Flash).commit c.flPage = .ok f) :
    ∃ sc evs k d, (∀ s, k ≤ progWeight s (wireProg c hdr data 0)) ∧
      Does c .loc (wireProg c hdr data 0) k v { v with
        bus := { v.bus with scratch := sc }
        flash := f
        draws := d
        trace := v.trace ++ evs
        ret := .bytes [] } := by
  cases data with
  | nil =>
    rw [List.append_nil] at hf
    obtain ⟨sc, evs, -, d⟩ := does_frame_none (c := c) (q := .loc) h hn (.inl hl) hf
    have hp : wireProg c hdr [] 0 = frameProg c hdr .none ++ [.giveReply 0] := by
      simp [wireProg, frameProg, payloadProg]
    refine ⟨sc, _, _, _, fun s => ?_, by rw [hp]; exact d.append (acts_giveReply 0).does⟩
    rw [hp, progWeight_append, weight_frame_none]
    simp only [progWeight, Micro.weight]
    omega
  | cons b bs =>
    obtain ⟨sc, evs, k, hk, -, d⟩ := does_wire (c := c) (q := .loc) h hn hl h3 hf
    refine ⟨sc, _, k, _, fun s => hk.trans ?_, d⟩
    simp [wireProg, selectProg, deselectProg, txBytes, transferProg, progWeight, Micro.weight]
    omega

/-- A frame with no reply, presented by itself: of the device the deselect changes what `f` says, and of the rest
nothing moves but what the driver touches. -/
theorem startMain_wire (hq : s.quiet) (hx : s.FlashBusFree x) {hdr data : List Byte} (hn : hdr ≠ [])
    (hl : hdr.length ≤ 4) (h3 : data = [] ∨ (hdr.headD 0).toNat ≠ 0x03) {f : Flash}
    (hf : ({ s.flash with frame := hdr ++ data } : Flash).commit s.cfg.flPage = .ok f) :
    ∃ t, startMain (wireProg s.cfg hdr data 0) s = .next t ∧ DriverFrame s t x ∧ t.fl = s.fl ∧ t.buf = s.buf ∧
      t.sched = s.sched ∧ t.ret = .bytes [] ∧ t.flash = f := by
  obtain ⟨sc, evs, k, d, hk, hd⟩ := does_wire_within hx.view hn hl h3 hf
  exact ⟨_, startMain_of_does hq hx.bus (leaves_loc s) hd (hk _), driverFrame_put rfl rfl, rfl, rfl, rfl, rfl, rfl⟩

/-! ## The commands (R91, R95, R96, R97) -/

/-- Pending work lies inside the array, and a program in one page (R95, R96). -/
def Pending.Fits (page : Nat) (f : Flash) (p : Pending) : Prop :=
  (∀ b ds, p = .program b ds → b % page + ds.length ≤ page ∧ b + ds.length ≤ f.capacity) ∧
    ∀ b m, p = .erase b m → b + m ≤ f.capacity

/-- Instruction `i` presents the frame of header `hdr` and data `data`, by which the device starts the work `p`. -/
structure Commands (s : State) (i : Instr) (p : Pending) (hdr data : List Byte) : Prop where
  exec_eq : exec i s = startMain (wireProg s.cfg hdr data 0) s
  ne_nil : hdr ≠ []
  length_le : hdr.length ≤ 4
  not_read : (hdr.headD 0).toNat ≠ 0x03
  not_wren : (hdr.headD 0).toNat ≠ 0x06
  commit_eq : s.flash.busy = false → s.flash.wel = true → p.Fits s.cfg.flPage s.flash →
    ({ s.flash with frame := hdr ++ data } : Flash).commit s.cfg.flPage = .ok (s.flash.started p)

theorem commands_fcPp (s : State) (a : BitVec 24) {data : List Byte} (hd : data ≠ []) :
    Commands s (.fcPp a data) (.program a.toNat data) (0x02 :: be24 a) data where
  exec_eq := need_pass (by simpa using hd) _ _
  ne_nil := by simp
  length_le := by simp [be24]
  not_read := by simp
  not_wren := by simp
  commit_eq hb hw hfit := by
    obtain ⟨hpage, hspan⟩ := hfit.1 _ _ rfl
    exact commit_pp _ hb hw hd (by simpa [onePage] using hpage) hspan

theorem commands_fcSe (s : State) (a : BitVec 24) :
    Commands s (.fcSe a) (.erase a.toNat 4096) (0x20 :: be24 a) [] where
  exec_eq := rfl
  ne_nil := by simp
  length_le := by simp [be24]
  not_read := by simp
  not_wren := by simp
  commit_eq hb hw hfit := by
    rw [List.append_nil]
    exact commit_se _ hb hw (hfit.2 _ _ rfl)

theorem commands_fcBe32 (s : State) (a : BitVec 24) :
    Commands s (.fcBe32 a) (.erase a.toNat 32768) (0x52 :: be24 a) [] where
  exec_eq := rfl
  ne_nil := by simp
  length_le := by simp [be24]
  not_read := by simp
  not_wren := by simp
  commit_eq hb hw hfit := by
    rw [List.append_nil]
    exact commit_be32 _ hb hw (hfit.2 _ _ rfl)

theorem commands_fcCe (s : State) : Commands s .fcCe (.erase 0 s.flash.capacity) [0xC7] [] where
  exec_eq := rfl
  ne_nil := by simp
  length_le := by simp
  not_read := by simp
  not_wren := by simp
  commit_eq hb hw _ := commit_ce _ hb hw

/-- The write enable (R91): a busy device keeps its latch. -/
theorem exec_fcWren (hq : s.quiet) (hx : s.FlashBusFree x) :
    ∃ t, exec .fcWren s = .next t ∧ DriverFrame s t x ∧ t.fl = s.fl ∧ t.buf = s.buf ∧ t.sched = s.sched ∧
      t.ret = .bytes [] ∧
      t.flash = { s.flash with frame := [], wel := if s.flash.busy then s.flash.wel else true } := by
  have hwel : (s.flash.wel || !s.flash.busy) = if s.flash.busy then s.flash.wel else true := by
    cases s.flash.busy <;> simp
  rw [← hwel]
  exact startMain_wire hq hx (hdr := [0x06]) (data := []) (by simp) (by simp) (.inl rfl) (commit_wren _)

/-- A command the device accepts starts its work (R95, R96). -/
theorem Commands.accepted {i : Instr} {p : Pending} {hdr data : List Byte} (h : Commands s i p hdr data)
    (hq : s.quiet) (hx : s.FlashBusFree x) (hw : s.flash.wel = true) (hb : s.flash.busy = false)
    (hfit : p.Fits s.cfg.flPage s.flash) :
    ∃ t, exec i s = .next t ∧ DriverFrame s t x ∧ t.fl = s.fl ∧ t.buf = s.buf ∧ t.sched = s.sched ∧
      t.ret = .bytes [] ∧ t.flash = { s.flash with frame := [], busy := true, pending := p } := by
  have hst : s.flash.started p = { s.flash with frame := [], busy := true, pending := p } := by
    simp only [Flash.started, ← hw]
  rw [h.exec_eq, ← hst]
  exact startMain_wire hq hx h.ne_nil h.length_le (.inr h.not_read) (h.commit_eq hb hw hfit)

/-- A command that the device cannot accept closes its frame and changes nothing else (R97). -/
theorem Commands.ignored {i : Instr} {p : Pending} {hdr data : List Byte} (h : Commands s i p hdr data)
    (hq : s.quiet) (hx : s.FlashBusFree x) (hn : s.flash.wel = false ∨ s.flash.busy = true) :
    ∃ t, exec i s = .next t ∧ DriverFrame s t x ∧ t.fl = s.fl ∧ t.buf = s.buf ∧ t.sched = s.sched ∧
      t.ret = .bytes [] ∧ t.flash = { s.flash with frame := [] } := by
  have hready : (s.flash.wel && !s.flash.busy) = false := by
    rcases hn with h | h <;> simp [h]
  have hhead : ((hdr ++ data).headD 0).toNat ≠ 6 := by
    obtain ⟨b, bs, rfl⟩ := List.exists_cons_of_ne_nil h.ne_nil
    exact h.not_wren
  rw [h.exec_eq]
  exact startMain_wire hq hx h.ne_nil h.length_le (.inr h.not_read) (commit_ignored _ hready hhead)

/-! ## Frames with a reply -/

/-- A frame the device answers, presented by itself: the `n` bytes it returns have the property `Q`, position by
position. -/
theorem startMain_wire_reply (hq : s.quiet) (hx : s.FlashBusFree x) (hm : s.memOk = true) {op : Byte}
    {tl : List Byte} {n : Nat} (hop : op = 0x05 ∨ op = 0x03 ∨ op = 0x5A ∨ op = 0x90 ∨ op = 0x9F)
    (hh : (op :: tl).length ≤ 4 ∨ op.toNat ≠ 0x03) (h1 : 1 ≤ n) {Q : Nat → Byte → Prop}
    (hr : ∀ (j : Nat) (ext : List Byte) (free : Word), j < n → ext.length = j + 1 →
      ∃ r, s.flash.answer (op :: tl ++ ext) free = .ok r ∧ Q j (r.toWord.setWidth 8)) :
    ∃ t bs, startMain (wireProg s.cfg (op :: tl) [] n) s = .next t ∧ DriverFrame s t x ∧
      t.flash = { s.flash with frame := [] } ∧ t.fl = s.fl ∧ t.sched = s.sched ∧ sameBufBut s t .loc 0 n ∧
      t.ret = .bytes bs ∧ bs.length = n ∧ ∀ j, j < n → Q j (bs.getD j 0) := by
  obtain ⟨-, hwf⟩ := memOk_iff.1 hm
  obtain ⟨rs, sc, sent, evs, hl, hQ, -, -, hd⟩ := does_wire_reply hx.view (List.cons_ne_nil op tl) hh h1 hwf
    (fun j r => Q j (r.toWord.setWidth 8)) hr (fun _ _ => commit_of_read _ hop)
  have hk := weight_wire { s with main := wireProg s.cfg (op :: tl) [] n, ret := .none } s.cfg (op :: tl) [] n
  refine ⟨_, _, startMain_of_does hq hx.bus (leaves_loc s) hd (by simp only [List.length_nil] at hk; omega),
    driverFrame_put rfl rfl, rfl, rfl, rfl, ?_, rfl, by rw [List.length_map, hl], fun j hj => ?_⟩
  · have hsame := sameBufBut_put (v := { s.view x with buf := bufFill .loc 0 (rs.map Reply.toWord) s.buf }) hwf rfl
    rw [List.length_map, hl] at hsame
    exact hsame
  · rw [List.getD_eq_getElem _ _ (by rw [List.length_map, hl]; exact hj), List.getElem_map]
    exact hQ j _ (List.getElem?_eq_getElem (by omega))

/-! ## The replies (R90, R92, R93, R94) -/

/-- A busy device answers a status request alone (R90, R97). -/
theorem answer_busy {f : Flash} (hb : f.busy = true) {op : Byte} (hop : op.toNat ≠ 0x05) (tl : List Byte)
    (free : Word) : f.answer (op :: tl) free = .ok (.word (free &&& 0x00FF)) := by
  simp only [Flash.answer, List.headD_cons, hb, Bool.true_or, if_true]
  split
  · contradiction
  all_goals rfl

/-- Bit 0 of a status byte is the busy bit (R90). -/
theorem status_bit0 (busy : Bool) (rest : BitVec 7) :
    ((Reply.status busy rest).toWord.setWidth 8).getLsbD 0 = busy := by
  simp only [Reply.toWord, BitVec.getLsbD_setWidth, BitVec.getLsbD_append]
  simp

/-- Replies to `FC.RDSR` (R90). -/
theorem answer_rdsr (f : Flash) {j : Nat} {ext : List Byte} (free : Word) (hl : ext.length = j + 1) :
    f.answer (0x05 :: ext) free = .ok (.status f.busy (free.extractLsb' 0 7)) := by
  have hp : 1 ≤ (0x05 :: ext).length - 1 := by simp [hl]
  simp only [Flash.answer, List.headD_cons, hp, if_true]
  rfl

/-- A reply that is a byte comes back as that byte. -/
theorem byte_of_reply (b : Byte) : (Reply.word (b.setWidth 16)).toWord.setWidth 8 = b :=
  BitVec.setWidth_setWidth_of_le _ (by omega)

/-- The device answers every position of `FC.READ`: with the array's byte, if it is ready (R92). -/
theorem answer_fcRead {f : Flash} {a : BitVec 24} {n : Nat} (ha : f.busy = false → a.toNat + n ≤ f.capacity)
    (j : Nat) (ext : List Byte) (free : Word) (hj : j < n) (hl : ext.length = j + 1) :
    ∃ r, f.answer (0x03 :: be24 a ++ ext) free = .ok r ∧
      (f.busy = false → r.toWord.setWidth 8 = f.read (a.toNat + j)) := by
  cases hb : f.busy with
  | false => exact ⟨_, answer_read free hb hl (by have := ha hb; omega), fun _ => byte_of_reply _⟩
  | true => exact ⟨_, answer_busy hb (by decide) _ free, nofun⟩

/-- The device answers every position of `FC.RDSFDP`: with the byte of its table image, if it is ready and the image
reaches that far (R93). -/
theorem answer_fcRdsfdp (f : Flash) (a : BitVec 24) {j : Nat} {ext : List Byte} (free : Word)
    (hl : ext.length = j + 1) :
    ∃ r, f.answer (0x5A :: (be24 a ++ [0x00]) ++ ext) free = .ok r ∧
      (f.busy = false → a.toNat + j < f.sfdp.length →
        r.toWord.setWidth 8 = f.sfdp.getD (a.toNat + j) 0) := by
  cases hb : f.busy with
  | false =>
    refine ⟨_, answer_rdsfdp 0x00 free hb hl, fun _ hlen => ?_⟩
    rw [List.getElem?_eq_getElem hlen, List.getD_eq_getElem _ _ hlen]
    exact byte_of_reply _
  | true => exact ⟨_, answer_busy hb (by decide) _ free, nofun⟩

/-- The device answers both positions of `FC.RDID`: with its identity, if it is ready (R94). -/
theorem answer_fcRdid (f : Flash) {j : Nat} {ext : List Byte} (free : Word) (hj : j < 2)
    (hl : ext.length = j + 1) :
    ∃ r, f.answer ([0x90, 0, 0, 0] ++ ext) free = .ok r ∧
      (f.busy = false → r.toWord.setWidth 8 = if j = 0 then f.vendor else f.device) := by
  cases hb : f.busy with
  | false => exact ⟨_, answer_rdid free hb hl hj, fun _ => byte_of_reply _⟩
  | true => exact ⟨_, answer_busy hb (by decide) _ free, nofun⟩

/-- Two bytes are known by their positions. -/
theorem eq_pair_of_getD {bs : List Byte} {a b : Byte} (hl : bs.length = 2)
    (h : ∀ j, j < 2 → bs.getD j 0 = if j = 0 then a else b) : bs = [a, b] := by
  obtain ⟨c, d, rfl⟩ := List.length_eq_two.1 hl
  rw [show c = a from h 0 (by omega), show d = b from h 1 (by omega)]

end Sys2Proof.Machine

open Sys2Proof Sys2Proof.Machine

/-- Settles O50: each of the four commands is a frame with no reply, which the deselect accepts or ignores. -/
theorem fcCommands : Obligations.FcCommands := by
  intro s x a data i p hq hx
  refine ⟨exec_fcWren hq hx, fun hd hi => ?_⟩
  have hcmd : ∃ hdr ds, Commands s i p hdr ds := by
    rcases hi with h | h | h | h <;> cases h
    · exact ⟨_, _, commands_fcPp s a hd⟩
    · exact ⟨_, _, commands_fcSe s a⟩
    · exact ⟨_, _, commands_fcBe32 s a⟩
    · exact ⟨_, _, commands_fcCe s⟩
  obtain ⟨hdr, ds, hc⟩ := hcmd
  exact ⟨fun hw hb hp he => hc.accepted hq hx hw hb ⟨hp, he⟩, fun hn => hc.ignored hq hx hn⟩

/-- Settles O49: each frame that is answered is one window, whose replies the device's answers give. -/
theorem fcReplies : Obligations.FcReplies := by
  intro s x a n hq hx hm
  refine ⟨?rdsr, fun h1 ha => ?read, fun h1 => ?rdsfdp, ?rdid, rfl,
    fun fr free => ⟨rfl, commit_of_read _ (by simp)⟩⟩
  case rdsr =>
    obtain ⟨t, bs, he, hdf, hfl, hf, hsched, hbuf, hret, hl, hQ⟩ := startMain_wire_reply hq hx hm (op := 0x05)
      (tl := []) (n := 1) (Q := fun _ b => b.getLsbD 0 = s.flash.busy) (by simp) (by simp) (by omega)
      (fun j ext free _ hl => ⟨_, answer_rdsr _ free hl, status_bit0 _ _⟩)
    obtain ⟨v, rfl⟩ := List.length_eq_one_iff.1 hl
    exact ⟨t, v, he, hdf, hfl, hf, hbuf, hret, hQ 0 (by omega), hsched⟩
  case read =>
    obtain ⟨t, bs, he, hdf, hfl, hf, hsched, hbuf, hret, hl, hQ⟩ := startMain_wire_reply hq hx hm (op := 0x03)
      (tl := be24 a) (Q := fun j b => s.flash.busy = false → b = s.flash.read (a.toNat + j)) (by simp)
      (by simp [be24]) h1 (answer_fcRead ha)
    exact ⟨t, bs, (need_pass (by simpa using h1) _ _).trans he, hdf, hfl, hf, hsched, hbuf, hret, hl,
      fun hb i hi => hQ i hi hb⟩
  case rdsfdp =>
    obtain ⟨t, bs, he, hdf, hfl, hf, hsched, hbuf, hret, hl, hQ⟩ := startMain_wire_reply hq hx hm (op := 0x5A)
      (tl := be24 a ++ [0x00]) (n := n) (Q := fun j b => s.flash.busy = false → a.toNat + j < s.flash.sfdp.length →
        b = s.flash.sfdp.getD (a.toNat + j) 0) (by simp) (by simp) h1
      (fun j ext free _ hl => answer_fcRdsfdp s.flash a free hl)
    exact ⟨t, bs, (need_pass (by simpa using h1) _ _).trans he, hdf, hfl, hf, hsched, hbuf, hret, hl,
      fun hb i hi => hQ i hi hb⟩
  case rdid =>
    obtain ⟨t, bs, he, hdf, hfl, hf, hsched, hbuf, hret, hl, hQ⟩ := startMain_wire_reply hq hx hm (op := 0x90)
      (tl := [0x00, 0x00, 0x00]) (n := 2)
      (Q := fun j b => s.flash.busy = false → b = if j = 0 then s.flash.vendor else s.flash.device) (by simp)
      (by simp) (by omega) (fun j ext free hj hl => answer_fcRdid s.flash free hj hl)
    exact ⟨t, bs, he, hdf, hfl, hf, hsched, hbuf, hret, hl, fun hb => eq_pair_of_getD hl fun j hj => hQ j hj hb⟩

end

section
/-! The requests to the flash driver and the block adapter that have no meaning (R283, R290, R300, R326, R340 to
R344, U13), and a payload buffer that the block owns, refused when the payload is reached (R71, U1, log 15). -/

namespace Sys2Proof.Machine

variable {s : State} {x : Bus}

/-! ## The tests of a read and a program, in their order (log 26) -/

/-- The tests that a read and a program share: length, buffer, span. -/
def spanTests (s : State) (a : Nat) (q : BitVec 16) (n : Nat) (k : Out) : Out :=
  need (decide (1 ≤ n)) .zeroLength <| need (bufOk s.cfg q n) .shortBuffer <| need (flSpanOk s.flash a n) .flashSpan k

theorem flashRead_eq (a : Nat) (q : BitVec 16) (n : Nat) (r : Ret) (s : State) :
    flashRead a q n r s = spanTests s a q n
      (need (payloadOk s.cfg n) .dmaCount (startMain (readProg s.cfg a (.user q) n r) s)) := rfl

theorem flashProgram_eq (a : Nat) (q : BitVec 16) (n : Nat) (r : Ret) (s : State) :
    flashProgram a q n r s = spanTests s a q n (need (onePage s.cfg.flPage a n) .pageCross
      (need (payloadOk s.cfg n) .dmaCount (startMain (programProg s.cfg a (.user q) n r) s))) := rfl

variable {a n : Nat} {q : BitVec 16}

theorem spanTests_zero (s : State) (a : Nat) (q : BitVec 16) (k : Out) :
    spanTests s a q 0 k = .refused .zeroLength := rfl

theorem spanTests_short (h1 : 1 ≤ n) (hq : bufOk s.cfg q n = false) (k : Out) :
    spanTests s a q n k = .refused .shortBuffer := by
  rw [spanTests, need_pass (by simpa using h1), need_fail hq]

theorem spanTests_span (h1 : 1 ≤ n) (hq : bufOk s.cfg q n = true) (ha : flSpanOk s.flash a n = false) (k : Out) :
    spanTests s a q n k = .refused .flashSpan := by
  rw [spanTests, need_pass (by simpa using h1), need_pass hq, need_fail ha]

theorem spanTests_pass (h1 : 1 ≤ n) (hq : bufOk s.cfg q n = true) (ha : flSpanOk s.flash a n = true) (k : Out) :
    spanTests s a q n k = k := by
  rw [spanTests, need_pass (by simpa using h1), need_pass hq, need_pass ha]

/-- A payload on the DMA route that is above `DMA_MAX` does not fit (R290, U8). -/
theorem payloadOk_of_long {c : Config} (hr : dmaRoute c n = true) (hn : c.dmaMax < n) : payloadOk c n = false := by
  simp [payloadOk, hr, hn]

theorem flashErase_span {size : Nat} (p : List Micro) (h0 : a % size = 0)
    (ha : flSpanOk s.flash a size = false) : flashErase a size p s = .refused .flashSpan := by
  rw [flashErase, if_pos h0, need_fail ha]

/-! ## The tests of the adapter (R340, R342) -/

variable {block off : BitVec 32}

theorem bdNeed_notDiscovered (hd : s.fl.desc.valid = false) (k : Out) :
    bdNeed block off n s k = .refused .notDiscovered :=
  need_fail hd ..

theorem bdNeed_range (hd : s.fl.desc.valid = true) (hb : blockOk s.cfg.geom block off n = false) (k : Out) :
    bdNeed block off n s k = .refused .blockRange := by
  rw [bdNeed, need_pass hd, need_fail hb]

theorem bdNeed_pass (hd : s.fl.desc.valid = true) (hb : blockOk s.cfg.geom block off n = true) (k : Out) :
    bdNeed block off n s k = k := by
  rw [bdNeed, need_pass hd, need_pass hb]

theorem blockOk_of_block {g : Geometry} (h : g.blockCount ≤ block.toNat) : blockOk g block off n = false := by
  simp only [blockOk, decide_eq_false (Nat.not_lt.2 h), Bool.false_and]

theorem blockOk_of_offset {g : Geometry} (h : g.blockSize < off.toNat + n) : blockOk g block off n = false := by
  simp only [blockOk, decide_eq_false (Nat.not_le.2 h), Bool.and_false, Bool.false_and]

/-! ## A payload buffer that the block owns (U1) -/

/-- An operation of MAIN that comes to a micro-step with no meaning. -/
theorem startMain_of_refuses {p ms : List Micro} {m : Micro} {k : Nat} {t : State} {r : Refusal} (hq : s.quiet)
    (h : Runs .main p k { s with ret := .none } t) (hm : micro m ms (t.setProg .main (m :: ms)) = .refuse r)
    (hk : k < progWeight { s with main := p ++ m :: ms, ret := .none } (p ++ m :: ms)) :
    startMain (p ++ m :: ms) s = .refused r := by
  have h1 : runAll .main { s with main := p ++ m :: ms, ret := .none } = .refused r := runAll_of_refuses h hm hk
  rw [startMain_quiet hq, h1]
  rfl

/-- What the driver does on its bus, where no DMA request is outstanding, frees no buffer. -/
theorem owned_put {r : BufRef} (hx : s.FlashBusFree x) (v : View) (ho : s.owned r = true) :
    (s.put v).owned r = true := by
  cases r with
  | loc => exact ho
  | user id =>
    have hxn : x.owns (.user id) = false := by simp [Bus.owns, hx.inactive]
    simp only [State.owned, Bool.or_eq_true] at ho ⊢
    refine ho.imp_right fun hb => ?_
    obtain ⟨y, hy, hyo⟩ := List.any_eq_true.1 hb
    obtain ⟨i, hi⟩ := List.getElem?_of_mem hy
    have hne : s.cfg.flashBus ≠ i := by
      rintro rfl
      rw [hx.bus] at hi
      cases hi
      rw [hxn] at hyo
      cases hyo
    have hi' : (s.put v).buses[i]? = some y := by rw [← hi]; exact List.getElem?_set_ne hne
    exact List.any_eq_true.2 ⟨y, List.mem_of_getElem? hi', hyo⟩

theorem micro_xfer_owned {src : Src} {dst : Dst} (h : s.mayTransfer src dst = false) (b n : Nat)
    (ms : List Micro) : micro (.xfer b src dst 0 n) ms s = .refuse .bufferOwned := if_pos ⟨rfl, h⟩

theorem micro_dmaStage_owned {b : Nat} {tx rx : Option BufRef} (hb : s.buses[b]? = some x) (hr : x.rxq = [])
    (hn : n ≤ s.cfg.dmaMax) (h : s.mayRequest tx rx = false) (ms : List Micro) :
    micro (.dmaStage b tx rx n) ms s = .refuse .bufferOwned := by
  simp [micro, stepDmaStage, withBus, hb, hr, h, Nat.not_lt.2 hn]

/-- The payload of a frame is `n` elements of buffer `r`, in either direction. -/
def Payload.Moves (p : Payload) (r : BufRef) (n : Nat) : Prop := p = .input r n ∨ p = .output r n

/-- By either route, the micro-step of a payload after its spin is refused when the block owns its buffer. -/
theorem payload_refused {p : Payload} {r : BufRef} {v : View} (hp : p.Moves r n)
    (hlen : s.cfg.flashBus < s.buses.length) (hok : payloadOk s.cfg n = true) (hv : v.bus.rxq = [])
    (ho : (s.put v).owned r = true) :
    ∃ m ms, payloadProg s.cfg p = .spinDma s.cfg.flashBus :: m :: ms ∧
      ∀ ms' p', micro m ms' ((s.put v).setProg .main p') = .refuse .bufferOwned := by
  have hb : ∀ p', ((s.put v).setProg .main p').buses[s.cfg.flashBus]? = some v.bus := fun _ => put_bus rfl hlen v
  cases hroute : dmaRoute s.cfg n with
  | false =>
    rcases hp with rfl | rfl <;>
      exact ⟨_, _, by simp only [payloadProg, hroute]; rfl,
        fun ms' p' => micro_xfer_owned (by simp [State.mayTransfer, ho]) _ _ _⟩
  | true =>
    have hn : n ≤ s.cfg.dmaMax := by simpa [payloadOk, hroute] using hok
    rcases hp with rfl | rfl <;>
      exact ⟨_, _, by simp only [payloadProg, hroute]; rfl,
        fun ms' p' => micro_dmaStage_owned (hb p') hv hn (by simp [State.mayRequest, ho]) _⟩

/-- The micro-steps `p` run from view `v` and leave the flash bus free. -/
def RunsToFree (c : Config) (p : List Micro) (v : View) : Prop :=
  ∃ k v', (∀ s, k ≤ progWeight s p) ∧ v'.Free ∧ Does c .loc p k v v'

/-- A program has a micro-step left once its window is open, its header sent and its spin over. -/
theorem lt_progWeight_opened {pre : List Micro} {k : Nat} (hk : k ≤ progWeight s pre) (b : Nat) (hdr : List Byte)
    (m : Micro) (ms : List Micro) : k + (3 + hdr.length) + 1 <
      progWeight s (pre ++ (selectProg b ++ txBytes b hdr) ++ [.spinDma b] ++ m :: ms) := by
  have hm := weight_pos s m
  simp only [progWeight_append, progWeight, selectProg, txBytes, transferProg, Micro.weight]
  omega

/-- A frame whose payload buffer the block owns is refused when the payload is reached. -/
theorem startMain_frame_owned {pre post : List Micro} {hdr : List Byte} {p : Payload} {r : BufRef} (hq : s.quiet)
    (hx : s.FlashBusFree x) (hpre : RunsToFree s.cfg pre { s.view x with ret := .none }) (hn : hdr ≠ [])
    (hh : hdr.length ≤ 4) (hp : p.Moves r n) (hok : payloadOk s.cfg n = true) (ho : s.owned r = true) :
    startMain (pre ++ (frameProg s.cfg hdr p ++ post)) s = .refused .bufferOwned := by
  have hlen : s.cfg.flashBus < s.buses.length := (List.getElem?_eq_some_iff.1 hx.bus).1
  obtain ⟨k, v, hk, hv, d1⟩ := hpre
  obtain ⟨sc, evs, -, d2⟩ := does_open (c := s.cfg) (q := .loc) hv hn (.inl hh)
  have d := (d1.append d2).append (acts_spinDma (c := s.cfg) (by exact hv.inactive)).does
  obtain ⟨m, ms, hpay, href⟩ := payload_refused hp hlen hok (v := { v with
    bus := { v.bus with cs := true, scratch := sc }
    flash := { v.flash with frame := hdr }
    draws := v.draws + hdr.length
    trace := v.trace ++ (.select s.cfg.flashBus :: evs) }) hv.drained (owned_put hx _ ho)
  have hprog : pre ++ (frameProg s.cfg hdr p ++ post) =
      (pre ++ (selectProg s.cfg.flashBus ++ txBytes s.cfg.flashBus hdr) ++ [.spinDma s.cfg.flashBus]) ++
        m :: (ms ++ deselectProg s.cfg.flashBus ++ post) := by
    simp [frameProg, hpay]
  have hst : ({ s with ret := .none } : State) = s.put { s.view x with ret := .none } := by
    conv_lhs => rw [← put_view hx.bus]
    rfl
  rw [hprog]
  exact startMain_of_refuses hq (by rw [hst]; exact d s rfl hlen (leaves_loc s)) (href _ _)
    (lt_progWeight_opened (hk _) ..)

/-! ## What a read and a program do before their frame (R284, R296, R300) -/

/-- All of a read before its frame. -/
def readStart (c : Config) (a n : Nat) : List Micro :=
  .flBegin .read (some a) (some n) :: .flPhase .preWait :: (waitProg c ++ [.flPhase .cmd])

theorem readProg_eq (c : Config) (a : Nat) (r : BufRef) (n : Nat) (ret : Ret) : readProg c a r n ret =
    readStart c a n ++ (frameProg c (0x03 :: be24 (wireAddr a)) (.input r n) ++ [.flEnd ret]) := by
  simp [readProg, readStart]

theorem readStart_free {c : Config} {v : View} (h : v.Free) (hb : v.flash.busy = false) (a n : Nat) :
    RunsToFree c (readStart c a n) v := by
  obtain ⟨sc, st, evs, b, -, d⟩ := does_wait (c := c) (q := .loc) (v := { v with
    fl := { v.fl with op := .read, addr := a, len := n, phase := .preWait } })
    ⟨h.cs, h.hasCs, h.width, h.drained, h.inactive⟩ hb
  refine ⟨_, _, fun s => ?_, ?_, Does.cons (acts_flBegin .read (some a) (some n)) (Does.cons
    (acts_flPhase .preWait) (d.append (acts_flPhase .cmd).does))⟩
  · simp only [readStart, progWeight, progWeight_append, weight_waitProg, Micro.weight]
    omega
  · exact ⟨h.cs, h.hasCs, h.width, h.drained, h.inactive⟩

/-- All of a program before its frame. -/
def programStart (c : Config) (a n : Nat) : List Micro :=
  .flBegin .program (some a) (some n) :: .flPhase .preWait :: (waitProg c ++
    .flPhase .wren :: (writeEnableProg c ++ [.flPhase .cmd]))

theorem programProg_eq (c : Config) (a : Nat) (r : BufRef) (n : Nat) (ret : Ret) : programProg c a r n ret =
    programStart c a n ++ (frameProg c (0x02 :: be24 (wireAddr a)) (.output r n) ++
      .flPhase .postWait :: (waitProg c ++ [.flEnd ret])) := by
  simp [programProg, writeProg, programStart]

theorem programStart_free {c : Config} {v : View} (h : v.Free) (hb : v.flash.busy = false) (a n : Nat) :
    RunsToFree c (programStart c a n) v := by
  obtain ⟨sc1, st, e1, b, -, d1⟩ := does_wait (c := c) (q := .loc) (v := { v with
    fl := { v.fl with op := .program, addr := a, len := n, phase := .preWait } })
    ⟨h.cs, h.hasCs, h.width, h.drained, h.inactive⟩ hb
  obtain ⟨sc2, e2, -, d2⟩ := does_writeEnable (c := c) (q := .loc) (v := { v with
    bus := { v.bus with scratch := sc1 }
    flash := { v.flash with frame := [] }
    fl := { v.fl with
      op := .program, addr := a, len := n, phase := .wren
      st := .status false st, status := (Reply.status false st).toWord.setWidth 8 }
    draws := v.draws + 3
    trace := v.trace ++ (.select c.flashBus :: e1 ++ [.deselect c.flashBus]) })
    ⟨h.cs, h.hasCs, h.width, h.drained, h.inactive⟩
  refine ⟨_, _, fun s => ?_, ?_, Does.cons (acts_flBegin .program (some a) (some n)) (Does.cons
    (acts_flPhase .preWait) (d1.append (Does.cons (acts_flPhase .wren) (d2.append (acts_flPhase .cmd).does))))⟩
  · simp only [programStart, progWeight, progWeight_append, weight_waitProg, weight_writeEnableProg, Micro.weight]
    omega
  · exact ⟨h.cs, h.hasCs, h.width, h.drained, h.inactive⟩

/-! ## A read and a program of a buffer that the block owns -/

/-- A read into a buffer the block owns, by either route. -/
theorem flashRead_owned (hq : s.quiet) (hx : s.FlashBusFree x) (hb : s.flash.busy = false) (h1 : 1 ≤ n)
    (hbuf : bufOk s.cfg q n = true) (ha : flSpanOk s.flash a n = true) (hok : payloadOk s.cfg n = true)
    (ho : s.owned (.user q) = true) (r : Ret) : flashRead a q n r s = .refused .bufferOwned := by
  rw [flashRead_eq, spanTests_pass h1 hbuf ha, need_pass hok, readProg_eq]
  exact startMain_frame_owned hq hx (readStart_free hx.view hb a n) (by simp) (by simp [be24]) (.inl rfl) hok ho

/-- A program from a buffer the block owns, by either route. -/
theorem flashProgram_owned (hq : s.quiet) (hx : s.FlashBusFree x) (hb : s.flash.busy = false) (h1 : 1 ≤ n)
    (hbuf : bufOk s.cfg q n = true) (ha : flSpanOk s.flash a n = true) (hok : payloadOk s.cfg n = true)
    (ho : s.owned (.user q) = true) (hp : onePage s.cfg.flPage a n = true) (r : Ret) :
    flashProgram a q n r s = .refused .bufferOwned := by
  rw [flashProgram_eq, spanTests_pass h1 hbuf ha, need_pass hp, need_pass hok, programProg_eq]
  exact startMain_frame_owned hq hx (programStart_free hx.view hb a n) (by simp) (by simp [be24]) (.inr rfl) hok ho

/-! ## The instructions, by the driver's operation each is -/

theorem exec_flRead {addr : BitVec 64} (ha : a = addr.toNat % 2 ^ s.cfg.apiAddrW) (q : BitVec 16) (n : Nat) :
    exec (.flRead addr q n) s = flashRead a q n .none s := by rw [ha]; rfl

theorem exec_flProgram {addr : BitVec 64} (ha : a = addr.toNat % 2 ^ s.cfg.apiAddrW) (q : BitVec 16) (n : Nat) :
    exec (.flProgram addr q n) s = flashProgram a q n .none s := by rw [ha]; rfl

theorem exec_flEraseSector {addr : BitVec 64} (ha : a = addr.toNat % 2 ^ s.cfg.apiAddrW) :
    exec (.flEraseSector addr) s = flashErase a 4096 (eraseSectorProg s.cfg a) s := by rw [ha]; rfl

theorem exec_flEraseBlock {addr : BitVec 64} (ha : a = addr.toNat % 2 ^ s.cfg.apiAddrW) :
    exec (.flEraseBlock addr) s = flashErase a 32768 (eraseBlockProg s.cfg a) s := by rw [ha]; rfl

theorem exec_bdRead (block off : BitVec 32) (q : BitVec 16) (n : Nat) (s : State) : exec (.bdRead block off q n) s =
    bdNeed block off n s (flashRead (bdAddr s.cfg block off) q n .ok s) := rfl

theorem exec_bdProgram (block off : BitVec 32) (q : BitVec 16) (n : Nat) (s : State) :
    exec (.bdProgram block off q n) s =
      bdNeed block off n s (flashProgram (bdAddr s.cfg block off) q n .ok s) := rfl

theorem exec_bdErase (block : BitVec 32) (s : State) : exec (.bdErase block) s = bdNeed block 0 0 s
    (flashErase (bdAddr s.cfg block 0) flSector (eraseSectorProg s.cfg (bdAddr s.cfg block 0)) s) := rfl

end Sys2Proof.Machine

open Sys2Proof Sys2Proof.Machine

/-- Settles O48: every clause but the last is the first test that fails, in the model's order; in the last the
operation runs up to its payload. -/
theorem flashRefusals : Obligations.FlashRefusals := by
  intro s addr block off q n a hq ha
  rw [exec_flRead ha, exec_flProgram ha, exec_flRead ha, exec_flProgram ha, exec_flEraseSector ha,
    exec_flEraseBlock ha]
  simp only [exec_bdRead, exec_bdProgram, exec_bdErase, flashRead_eq, flashProgram_eq]
  refine ⟨spanTests_zero .., spanTests_zero .., ?short, ?span, ?page, ?count, flashErase_span _, flashErase_span _,
    ?notDiscovered, ?block, ?offset, ?bdZero, ?bdShort, ?owned⟩
  case short => exact fun h1 hb => ⟨spanTests_short h1 hb _, spanTests_short h1 hb _⟩
  case span => exact fun h1 hb hs => ⟨spanTests_span h1 hb hs _, spanTests_span h1 hb hs _⟩
  case page => exact fun h1 hb hs hp => by rw [spanTests_pass h1 hb hs, need_fail hp]
  case count =>
    intro h1 hb hs hr hn
    have hok := payloadOk_of_long hr hn
    exact ⟨by rw [spanTests_pass h1 hb hs, need_fail hok],
      fun hp => by rw [spanTests_pass h1 hb hs, need_pass hp, need_fail hok]⟩
  case notDiscovered =>
    exact fun hd => ⟨bdNeed_notDiscovered hd _, bdNeed_notDiscovered hd _, bdNeed_notDiscovered hd _,
      need_fail hd ..⟩
  case block =>
    exact fun hd hb => ⟨bdNeed_range hd (blockOk_of_block hb) _, bdNeed_range hd (blockOk_of_block hb) _,
      bdNeed_range hd (blockOk_of_block hb) _⟩
  case offset =>
    exact fun hd ho => ⟨bdNeed_range hd (blockOk_of_offset ho) _, bdNeed_range hd (blockOk_of_offset ho) _⟩
  case bdZero => exact fun hd hb => ⟨bdNeed_pass hd hb _, bdNeed_pass hd hb _⟩
  case bdShort =>
    exact fun hd hb h1 hs => ⟨(bdNeed_pass hd hb _).trans (spanTests_short h1 hs _),
      (bdNeed_pass hd hb _).trans (spanTests_short h1 hs _)⟩
  case owned =>
    intro x hx hbusy h1 hb hok ho
    refine ⟨fun hs => ⟨flashRead_owned hq hx hbusy h1 hb hs hok ho _,
        fun hp => flashProgram_owned hq hx hbusy h1 hb hs hok ho hp _⟩, fun hd hblk hs =>
      ⟨(bdNeed_pass hd hblk _).trans (flashRead_owned hq hx hbusy h1 hb hs hok ho _),
        fun hp => (bdNeed_pass hd hblk _).trans (flashProgram_owned hq hx hbusy h1 hb hs hok ho hp _)⟩⟩

end

section
/-! Every layout of operands and every frame reads back what the encoder wrote (R101 to R106, log 3). The fields
themselves are those of Laws/Fields; here is what the decoder makes of them, one lemma for each layout. -/

namespace Sys2Proof

/-! ## Operands of operations and events -/

theorem oneBlock_bytes (f : BitVec 32 → Instr) (k : BitVec 32) : oneBlock f (bytes32 k) = some (f k) :=
  congrArg (some ∘ f) (of32_bytes32 k)

theorem oneAddr_bytes (f : BitVec 64 → Instr) (a : BitVec 64) : oneAddr f (bytes64 a) = some (f a) :=
  congrArg (some ∘ f) (of64_bytes64 a)

/-- A capacity has its whole field: it may be zero and is not written less one (R224). -/
theorem decodeBindIrq_bytes (u : Byte) (rx : BitVec 16) {cap : Nat} (h : cap < 2 ^ 32) :
    decodeBindIrq (u :: (bytes16 rx ++ bytes32 (BitVec.ofNat 32 cap))) = some (.uartBindIrq u rx cap) := by
  simp only [bytes16, bytes32, List.cons_append, List.nil_append, decodeBindIrq, of16_bytes16, of32_bytes32,
    BitVec.toNat_ofNat, Nat.mod_eq_of_lt h]

theorem decodeLineByte_bytes (u b : Byte) (e : Option LineErr) :
    decodeLineByte [u, b, byteLineErr e] = some (some (.envLineByte u b e)) := by
  simp only [decodeLineByte, ofLineErr_byteLineErr, Option.map_some]

/-- The field has one length, whichever buffers are present. -/
theorem bytesDmaBuffers_eq (tx rx : Option (BitVec 16)) :
    ∃ p t0 t1 r0 r1, bytesDmaBuffers tx rx = [p, t0, t1, r0, r1] := by
  cases tx <;> cases rx <;> exact ⟨_, _, _, _, _, rfl⟩

section
variable {n : Nat} (h : lengthOk n = true)
include h

/-- `ofCount_bytesCount` by the decoder's own name, for a count in the operand's domain. -/
theorem ofCount_of_lengthOk :
    ofCount ((BitVec.ofNat 32 (n - 1)).extractLsb' 0 8) ((BitVec.ofNat 32 (n - 1)).extractLsb' 8 8)
      ((BitVec.ofNat 32 (n - 1)).extractLsb' 16 8) ((BitVec.ofNat 32 (n - 1)).extractLsb' 24 8) = n := by
  rw [lengthOk, Bool.and_eq_true, decide_eq_true_eq, decide_eq_true_eq] at h
  exact ofCount_bytesCount h.1 h.2

theorem indexBufCount_bytes (f : Byte → BitVec 16 → Nat → Instr) (b : Byte) (q : BitVec 16) :
    indexBufCount f (b :: (bytes16 q ++ bytesCount n)) = some (f b q n) := by
  simp only [bytes16, bytesCount, bytes32, List.cons_append, List.nil_append, indexBufCount, of16_bytes16,
    ofCount_of_lengthOk h]

theorem decodeXfer_bytes (b : Byte) (tx rx : BitVec 16) :
    decodeXfer (b :: (bytes16 tx ++ bytes16 rx ++ bytesCount n)) = some (.spiXfer b tx rx n) := by
  simp only [bytes16, bytesCount, bytes32, List.cons_append, List.nil_append, decodeXfer, of16_bytes16,
    ofCount_of_lengthOk h]

theorem addrBufCount_bytes (f : BitVec 64 → BitVec 16 → Nat → Instr) (a : BitVec 64) (q : BitVec 16) :
    addrBufCount f (bytes64 a ++ bytes16 q ++ bytesCount n) = some (f a q n) := by
  simp only [bytes64, bytes16, bytesCount, bytes32, List.cons_append, List.nil_append, addrBufCount, of64_bytes64,
    of16_bytes16, ofCount_of_lengthOk h]

theorem blockBufCount_bytes (f : BitVec 32 → BitVec 32 → BitVec 16 → Nat → Instr) (k o : BitVec 32)
    (q : BitVec 16) :
    blockBufCount f (bytes32 k ++ bytes32 o ++ bytes16 q ++ bytesCount n) = some (f k o q n) := by
  simp only [bytes16, bytesCount, bytes32, List.cons_append, List.nil_append, blockBufCount, of32_bytes32,
    of16_bytes16, ofCount_of_lengthOk h]

theorem decodeDmaStart_bytes (b : Byte) (tx rx : Option (BitVec 16)) (w : Bool) :
    decodeDmaStart (b :: (bytesDmaBuffers tx rx ++ bytesCount n ++ [if w then 1 else 0])) =
      some (some (.dmaStart b tx rx n w)) := by
  obtain ⟨p, t0, t1, r0, r1, he⟩ := bytesDmaBuffers_eq tx rx
  have hbuf : ofDmaBuffers p (of16 t0 t1) (of16 r0 r1) = some (tx, rx) := by
    have hfield := ofDmaBuffers_bytes tx rx
    rw [he] at hfield
    exact hfield
  simp only [he, bytesCount, bytes32, List.cons_append, List.nil_append, decodeDmaStart, hbuf, ofBool_byte,
    ofCount_of_lengthOk h]

end

/-! ## Frames -/

theorem decodeWire_fcSe (a : BitVec 24) : decodeWire (0x20 :: be24 a) = .ok (.fcSe a) :=
  congrArg (Except.ok ∘ Instr.fcSe) (of24_be24 a)

theorem decodeWire_fcBe32 (a : BitVec 24) : decodeWire (0x52 :: be24 a) = .ok (.fcBe32 a) :=
  congrArg (Except.ok ∘ Instr.fcBe32) (of24_be24 a)

theorem decodeWire_fcPp (a : BitVec 24) {data : List Byte} (h : data ≠ []) :
    decodeWire (0x02 :: (be24 a ++ data)) = .ok (.fcPp a data) := by
  obtain ⟨d, ds, rfl⟩ := List.exists_cons_of_ne_nil h
  exact congrArg (fun a => Except.ok (Instr.fcPp a (d :: ds))) (of24_be24 a)

/-- The first reply is what the format asks for at least; the others are counted. -/
theorem decodeWire_fcRead (a : BitVec 24) {n : Nat} (h : 1 ≤ n) :
    decodeWire (0x03 :: (be24 a ++ List.replicate n 0)) = .ok (.fcRead a n) := by
  obtain ⟨m, rfl⟩ := Nat.exists_eq_add_of_le' h
  exact congrArg₂ (fun a k => Except.ok (Instr.fcRead a (k + 1))) (of24_be24 a) (List.length_replicate (n := m))

/-- As `decodeWire_fcRead`, after the dummy byte (R93). -/
theorem decodeWire_fcRdsfdp (a : BitVec 24) {n : Nat} (h : 1 ≤ n) :
    decodeWire (0x5A :: (be24 a ++ 0 :: List.replicate n 0)) = .ok (.fcRdsfdp a n) := by
  obtain ⟨m, rfl⟩ := Nat.exists_eq_add_of_le' h
  exact congrArg₂ (fun a k => Except.ok (Instr.fcRdsfdp a (k + 1))) (of24_be24 a) (List.length_replicate (n := m))

end Sys2Proof

open Sys2Proof Sys2Proof.Machine

/-- Settles O53: the first byte selects the layout, and each layout reads back what was written. With operands of one
byte or none, and in a frame of constants, there is nothing to reassemble: the decoder just computes. -/
theorem decodeEncode : Obligations.DecodeEncode := by
  intro i h
  cases i with
  | fcPp a data => exact decodeWire_fcPp a (by simpa [Instr.wf] using h)
  | fcRead a n => exact decodeWire_fcRead a (of_decide_eq_true h)
  | fcRdsfdp a n => exact decodeWire_fcRdsfdp a (of_decide_eq_true h)
  | fcSe a => exact decodeWire_fcSe a
  | fcBe32 a => exact decodeWire_fcBe32 a
  | rbPush r b => exact congrArg (fun r => Except.ok (Instr.rbPush r b)) (ofRing_byteRing r)
  | rbPull r => exact congrArg (Except.ok ∘ Instr.rbPull) (ofRing_byteRing r)
  | spiXfer b tx rx n => exact congrArg (orTruncated 0x12) (decodeXfer_bytes h b tx rx)
  | spiTx b q n => exact congrArg (orTruncated 0x13) (indexBufCount_bytes h .spiTx b q)
  | spiRx b q n => exact congrArg (orTruncated 0x14) (indexBufCount_bytes h .spiRx b q)
  | uartDmaTx u q n => exact congrArg (orTruncated 0x24) (indexBufCount_bytes h .uartDmaTx u q)
  | dmaStart b tx rx n w => exact congrArg (orBad 0x18) (decodeDmaStart_bytes h b tx rx w)
  | uartBindIrq u q cap => exact congrArg (orTruncated 0x21) (decodeBindIrq_bytes u q (of_decide_eq_true h))
  | flRead a q n => exact congrArg (orTruncated 0x32) (addrBufCount_bytes h .flRead a q)
  | flProgram a q n => exact congrArg (orTruncated 0x33) (addrBufCount_bytes h .flProgram a q)
  | flEraseSector a => exact congrArg (orTruncated 0x34) (oneAddr_bytes .flEraseSector a)
  | flEraseBlock a => exact congrArg (orTruncated 0x35) (oneAddr_bytes .flEraseBlock a)
  | bdRead k o q n => exact congrArg (orTruncated 0x40) (blockBufCount_bytes h .bdRead k o q)
  | bdProgram k o q n => exact congrArg (orTruncated 0x41) (blockBufCount_bytes h .bdProgram k o q)
  | bdErase k => exact congrArg (orTruncated 0x42) (oneBlock_bytes .bdErase k)
  | envLineByte u b e => exact congrArg (orBad 0xC3) (decodeLineByte_bytes u b e)
  | _ => rfl

end

section
/-! Turns given to a handler or an agent that is not enabled (R126, R368, R382, log 10): the negation of each
enabling condition, and that such a turn leaves the state as it is. -/

namespace Sys2Proof.Machine

variable {s : State}

/-! ## When a source is not ready -/

theorem Uart.rxLevelReady_eq_false {y : Uart} {trig : Nat} :
    y.rxLevelReady trig = false ↔ y.ieRxLevel = false ∨ y.rxfifo.length < trig := by
  rw [rxLevelReady, Bool.and_eq_false_iff, decide_eq_false_iff_not, Nat.not_le]

theorem Uart.rxTimeoutReady_eq_false {y : Uart} :
    y.rxTimeoutReady = false ↔ y.ieRxTimeout = false ∨ y.rxTimeoutFlag = false := Bool.and_eq_false_iff

theorem Uart.txLevelReady_eq_false {y : Uart} {trig : Nat} :
    y.txLevelReady trig = false ↔ y.ieTxLevel = false ∨ trig < y.txfifo.length := by
  rw [txLevelReady, Bool.and_eq_false_iff, decide_eq_false_iff_not, Nat.not_le]

theorem LineErrs.isEmpty_iff {e : LineErrs} :
    e.isEmpty = true ↔ e = { framing := false, parity := false, brk := false } := by
  obtain ⟨f, p, b⟩ := e
  simp [LineErrs.isEmpty, and_assoc]

theorem Uart.lineErrorReady_eq_false {y : Uart} :
    y.lineErrorReady = false ↔ y.ieLine = false ∨
      y.lineErr = { framing := false, parity := false, brk := false } ∧ y.fifoOverrun = false := by
  rw [lineErrorReady, Bool.and_eq_false_iff, Bool.or_eq_false_iff, Bool.not_eq_false', LineErrs.isEmpty_iff]

theorem Uart.dmaDoneReady_eq_false {y : Uart} :
    y.dmaDoneReady = false ↔ y.ieDma = false ∨ y.dmaIrq = false := Bool.and_eq_false_iff

theorem Uart.eotReady_eq_false {y : Uart} :
    y.eotReady = false ↔ y.ieEot = false ∨ y.txfifo ≠ [] ∨ y.txShifting = true := by
  rw [eotReady, Bool.and_eq_false_iff, Bool.and_eq_false_iff, Bool.not_eq_false', List.isEmpty_eq_false_iff, or_assoc]

theorem Bus.txMoveEnabled_eq_false {x : Bus} {depth : Nat} :
    x.txMoveEnabled depth = false ↔ x.dma.txEn = false ∨ x.dma.txLeft = 0 ∨ depth ≤ x.rxq.length := by
  rw [txMoveEnabled, Bool.and_eq_false_iff, Bool.and_eq_false_iff, decide_eq_false_iff_not, decide_eq_false_iff_not,
    Nat.not_lt, Nat.not_lt, Nat.le_zero, or_assoc]

theorem Bus.rxMoveEnabled_eq_false {x : Bus} :
    x.rxMoveEnabled = false ↔ x.dma.rxEn = false ∨ x.dma.rxLeft = 0 ∨ x.rxq = [] := by
  rw [rxMoveEnabled, Bool.and_eq_false_iff, Bool.and_eq_false_iff, decide_eq_false_iff_not, Nat.not_lt, Nat.le_zero,
    Bool.not_eq_false', List.isEmpty_iff, or_assoc]

theorem Uart.utxMoveEnabled_eq_false {y : Uart} {depth : Nat} :
    y.utxMoveEnabled depth = false ↔ y.utxEn = false ∨ y.utxLeft = 0 ∨ depth ≤ y.txfifo.length := by
  rw [utxMoveEnabled, Bool.and_eq_false_iff, Bool.and_eq_false_iff, decide_eq_false_iff_not, decide_eq_false_iff_not,
    Nat.not_lt, Nat.not_lt, Nat.le_zero, or_assoc]

/-! ## Handlers -/

/-- A handler that is not ready, or that comes while another runs, does nothing. -/
theorem dispatchIrq_disabled {ready : Bool} (p : List Micro) (h : ready = false ∨ s.irq ≠ []) :
    dispatchIrq ready p s = .next s := by
  rw [dispatchIrq, if_neg]
  rw [Bool.not_eq_true, Bool.and_eq_false_iff, List.isEmpty_eq_false_iff]
  exact h

theorem busHandler_disabled {b : BitVec 8} {x : Bus} {ready : Bus → Bool} {p : Nat → List Micro}
    (hx : s.buses[b.toNat]? = some x) (h : ready x = false ∨ s.irq ≠ []) : busHandler b ready p s = .next s := by
  rw [busHandler, hx]
  exact dispatchIrq_disabled _ h

theorem uartHandler_disabled {u : BitVec 8} {y : Uart} {ready : Uart → Bool} {p : Nat → List Micro}
    (hy : s.uarts[u.toNat]? = some y) (h : ready y = false ∨ s.irq ≠ []) : uartHandler u ready p s = .next s := by
  rw [uartHandler, hy]
  exact dispatchIrq_disabled _ h

/-! ## Agents -/

theorem busStep_of_some {b : BitVec 8} {x : Bus} (hx : s.buses[b.toNat]? = some x) (k : Bus → Out) :
    busStep b k s = k x := by rw [busStep, hx]

theorem uartStep_of_some {u : BitVec 8} {y : Uart} (hy : s.uarts[u.toNat]? = some y) (k : Uart → Out) :
    uartStep u k s = k y := by rw [uartStep, hy]

section
variable {b : BitVec 8} {x : Bus} (hx : s.buses[b.toNat]? = some x)
include hx

theorem envDmaTxMove_disabled (h : x.txMoveEnabled s.cfg.busFifoDepth = false) :
    execEnvDmaTxMove b s = .next s :=
  (busStep_of_some hx _).trans (if_neg (ne_true_of_eq_false h))

theorem envDmaRxMove_disabled (h : x.rxMoveEnabled = false) : execEnvDmaRxMove b s = .next s :=
  (busStep_of_some hx _).trans (if_neg (ne_true_of_eq_false h))

end

section
variable {u : BitVec 8} {y : Uart} (hy : s.uarts[u.toNat]? = some y)
include hy

theorem envUartDmaMove_disabled (h : y.utxMoveEnabled s.cfg.uartFifoDepth = false) :
    execEnvUartDmaMove u s = .next s :=
  (uartStep_of_some hy _).trans (if_neg (ne_true_of_eq_false h))

theorem envLineSilence_disabled (h : y.gapArmed = false) : execEnvLineSilence u s = .next s :=
  (uartStep_of_some hy _).trans (if_neg (ne_true_of_eq_false h))

/-- Nothing is being sent, and nothing waits to be. -/
theorem envTxShift_disabled (h : y.txShifting = false) (hf : y.txfifo = []) : execEnvTxShift u s = .next s := by
  refine (uartStep_of_some hy _).trans ((if_neg (ne_true_of_eq_false h)).trans ?_)
  rw [hf]

end

theorem envFlashDone_disabled (h : s.flash.busy = false) : execEnvFlashDone s = .next s := by
  simp only [execEnvFlashDone, h, Bool.false_eq_true, if_false]

end Sys2Proof.Machine

open Sys2Proof Sys2Proof.Machine

/-- Settles O60: each clause is the negation of one enabling condition, and the turn of what is not enabled is the
branch that answers the state itself. -/
theorem disabledEventsStutter : Obligations.DisabledEventsStutter := by
  intro s
  simp only [exec]
  refine ⟨fun b x hx => ⟨?rxDone, ?txDone, ?txMove, ?rxMove⟩, fun u y hy => ⟨?rxLevel, ?rxTimeout, ?txLevel,
    ?lineError, ?dmaDone, ?eot, ?utxMove, envLineSilence_disabled hy, envTxShift_disabled hy⟩,
    envFlashDone_disabled, rfl⟩
  case rxDone | txDone => exact fun h => busHandler_disabled hx h
  case txMove => exact fun h => envDmaTxMove_disabled hx (Bus.txMoveEnabled_eq_false.2 h)
  case rxMove => exact fun h => envDmaRxMove_disabled hx (Bus.rxMoveEnabled_eq_false.2 h)
  case rxLevel => exact fun h => uartHandler_disabled hy ((or_assoc.2 h).imp_left Uart.rxLevelReady_eq_false.2)
  case rxTimeout => exact fun h => uartHandler_disabled hy ((or_assoc.2 h).imp_left Uart.rxTimeoutReady_eq_false.2)
  case txLevel => exact fun h => uartHandler_disabled hy ((or_assoc.2 h).imp_left Uart.txLevelReady_eq_false.2)
  case lineError => exact fun h => uartHandler_disabled hy ((or_assoc.2 h).imp_left Uart.lineErrorReady_eq_false.2)
  case dmaDone => exact fun h => uartHandler_disabled hy ((or_assoc.2 h).imp_left Uart.dmaDoneReady_eq_false.2)
  case eot => exact fun h => uartHandler_disabled hy (by rwa [Uart.eotReady_eq_false, or_assoc, or_assoc])
  case utxMove => exact fun h => envUartDmaMove_disabled hy (Uart.utxMoveEnabled_eq_false.2 h)

end

section
/-! A ring as a bounded queue (R23, R142, R146, R152): what a whole push and a whole pull do to the bytes it holds,
said without their micro-steps. -/

namespace Sys2Proof.Machine

/-! ## A whole push and a whole pull -/

/-- The ring after `RB.PUSH`, accepted or not (R142). -/
def Ring.tryPush (r : Ring) (b : Byte) : Ring := if r.full then r else r.pushed b

/-- The ring after `RB.PULL` (R146). -/
def Ring.tryPull (r : Ring) : Ring := if r.empty then r else r.pulled

/-- What `RB.PULL` returns (R146). -/
def Ring.oldest (r : Ring) : Option Byte := if r.empty then none else some (r.storage.getD r.tail 0)

section
variable {r : Ring}

theorem Ring.tryPush_of_full (b : Byte) (h : r.full = true) : r.tryPush b = r := if_pos h

theorem Ring.tryPush_of_room (b : Byte) (h : r.full = false) : r.tryPush b = r.pushed b :=
  if_neg (ne_true_of_eq_false h)

theorem Ring.tryPull_of_empty (h : r.empty = true) : r.tryPull = r := if_pos h

theorem Ring.tryPull_of_byte (h : r.empty = false) : r.tryPull = r.pulled := if_neg (ne_true_of_eq_false h)

theorem Ring.oldest_of_empty (h : r.empty = true) : r.oldest = none := if_pos h

theorem Ring.oldest_of_byte (h : r.empty = false) : r.oldest = some (r.storage.getD r.tail 0) :=
  if_neg (ne_true_of_eq_false h)

end

section
variable (r : Ring) (b : Byte)

@[simp] theorem Ring.tryPush_n : (r.tryPush b).n = r.n := by unfold Ring.tryPush; split <;> rfl
@[simp] theorem Ring.tryPush_tail : (r.tryPush b).tail = r.tail := by unfold Ring.tryPush; split <;> rfl
@[simp] theorem Ring.tryPush_producer : (r.tryPush b).producer = r.producer := by
  unfold Ring.tryPush; split <;> rfl
@[simp] theorem Ring.tryPush_consumer : (r.tryPush b).consumer = r.consumer := by
  unfold Ring.tryPush; split <;> rfl
@[simp] theorem Ring.tryPull_n : r.tryPull.n = r.n := by unfold Ring.tryPull; split <;> rfl
@[simp] theorem Ring.tryPull_head : r.tryPull.head = r.head := by unfold Ring.tryPull; split <;> rfl
@[simp] theorem Ring.tryPull_producer : r.tryPull.producer = r.producer := by
  unfold Ring.tryPull; split <;> rfl
@[simp] theorem Ring.tryPull_consumer : r.tryPull.consumer = r.consumer := by
  unfold Ring.tryPull; split <;> rfl

end

/-! ## The bytes held -/

section
variable {r : Ring} (h : r.ok = true)
include h

theorem Ring.contents_tryPush (b : Byte) :
    (r.tryPush b).ok = true ∧ (r.tryPush b).contents = r.contents ++ if r.full then [] else [b] := by
  cases hf : r.full with
  | true => simp [r.tryPush_of_full b hf, h]
  | false => simpa [r.tryPush_of_room b hf] using Ring.contents_pushed b h hf

theorem Ring.contents_of_empty (he : r.empty = true) : r.contents = [] := by
  have e : r.head = r.tail := by simpa [Ring.empty] using he
  simp [Ring.contents, Ring.count_eq h, e]

theorem Ring.contents_tryPull :
    r.tryPull.ok = true ∧ r.contents = r.oldest.toList ++ r.tryPull.contents := by
  cases he : r.empty with
  | true => simp [Ring.tryPull_of_empty he, Ring.oldest_of_empty he, h]
  | false => simpa [Ring.tryPull_of_byte he, Ring.oldest_of_byte he] using Ring.contents_pulled h he

/-- A pull returns the first byte, and leaves the others. -/
theorem Ring.oldest_eq_head? : r.oldest = r.contents.head? := by
  cases he : r.empty with
  | true => simp [Ring.oldest_of_empty he, Ring.contents_of_empty h he]
  | false => simp [Ring.oldest_of_byte he, (Ring.contents_pulled h he).2]

theorem Ring.tryPull_contents : r.tryPull.contents = r.contents.drop 1 := by
  cases he : r.empty with
  | true => simp [Ring.tryPull_of_empty he, Ring.contents_of_empty h he]
  | false => simp [Ring.tryPull_of_byte he, (Ring.contents_pulled h he).2]

/-- One slot always stays free (R154). -/
theorem Ring.contents_length_lt : r.contents.length < r.n := by
  obtain ⟨h1, -, -, -⟩ := r.ok_iff.1 h
  simpa [Ring.contents, Ring.count] using Nat.mod_lt _ h1

theorem Ring.full_iff : r.full = true ↔ r.contents.length + 1 = r.n := by
  obtain ⟨h1, h2, h3, -⟩ := r.ok_iff.1 h
  simp only [Ring.full, beq_iff_eq, Ring.succ_mod h2, Ring.contents, List.length_map, List.length_range,
    Ring.count_eq h]
  split <;> split <;> omega

theorem Ring.full_eq_false_iff : r.full = false ↔ r.contents.length + 1 < r.n := by
  have := Ring.contents_length_lt h
  rw [← Bool.not_eq_true, Ring.full_iff h]
  omega

/-- A ring that can hold a byte has room after a pull. -/
theorem Ring.tryPull_full (h2 : 2 ≤ r.n) : r.tryPull.full = false := by
  have hlt := Ring.contents_length_lt h
  rw [Ring.full_eq_false_iff (Ring.contents_tryPull h).1, Ring.tryPull_contents h, List.length_drop, r.tryPull_n]
  omega

theorem Ring.two_le_of_room (hf : r.full = false) : 2 ≤ r.n := by
  have := (Ring.full_eq_false_iff h).1 hf
  omega

/-- A push does not change which byte is the oldest of those there are. -/
theorem Ring.oldest_tryPush (b : Byte) (he : r.empty = false) : (r.tryPush b).oldest = r.oldest := by
  obtain ⟨hok, hc⟩ := Ring.contents_tryPush h b
  rw [Ring.oldest_eq_head? hok, Ring.oldest_eq_head? h, hc, (Ring.contents_pulled h he).2]
  rfl

theorem Ring.two_le_of_byte (he : r.empty = false) : 2 ≤ r.n := by
  have hlen := congrArg List.length (Ring.contents_pulled h he).2
  have hlt := Ring.contents_length_lt h
  rw [List.length_cons] at hlen
  omega

/-- A ring that can hold a byte holds one after a push. -/
theorem Ring.tryPush_empty (b : Byte) (h2 : 2 ≤ r.n) : (r.tryPush b).empty = false := by
  cases hf : r.full with
  | false =>
    rw [r.tryPush_of_room b hf]
    exact hf
  | true =>
    obtain ⟨-, hhead, -, -⟩ := r.ok_iff.1 h
    have htail : (r.head + 1) % r.n = r.tail := beq_iff_eq.1 hf
    rw [Ring.succ_mod hhead] at htail
    rw [r.tryPush_of_full b hf, Ring.empty, beq_eq_false_iff_ne]
    split at htail <;> omega

end

end Sys2Proof.Machine
end

section
/-! `RB.PUSH` and `RB.PULL` presented by themselves (R142, R146): each takes effect as a whole, in the context that
owns its port. -/

namespace Sys2Proof.Machine

variable {s : State} {i : BitVec 7} {r : Ring}

/-! ## Records of results -/

theorem retOf_give (s : State) (c : Side) (v : Ret) : (s.give c v).retOf c = v := by
  cases c <;> simp [State.retOf]

theorem sliced_congr {s t : State} (h : t.sched = s.sched) : t.sliced = s.sliced := by
  rw [State.sliced, State.sliced, h]

theorem quiet_congr {s t : State} (hq : s.quiet) (hm : t.main = s.main) (hi : t.irq = s.irq)
    (hs : t.sched = s.sched) : t.quiet := by
  obtain ⟨hm', hi', hs'⟩ := hq
  exact ⟨hm.trans hm', hi.trans hi', (sliced_congr hs).trans hs'⟩

/-! ## The operations on the queue -/

/-- `RB.PUSH` done on stand-alone ring `i`, which is `r`. -/
def State.pushDone (s : State) (i : BitVec 7) (r : Ring) (b : Byte) : State :=
  (s.setRing (.own i.toNat) (r.tryPush b)).give r.producer (.bool !r.full)

/-- `RB.PULL` done on stand-alone ring `i`, which is `r`. -/
def State.pullDone (s : State) (i : BitVec 7) (r : Ring) : State :=
  (s.setRing (.own i.toNat) r.tryPull).give r.consumer (.optByte r.oldest)

theorem setRing_self {s : State} {i : Nat} {x : Ring} (h : s.rings[i]? = some x) : s.setRing (.own i) x = s := by
  obtain ⟨hi, rfl⟩ := List.getElem?_eq_some_iff.1 h
  rw [State.setRing, List.set_getElem_self]

section
variable (h : s.rings[i.toNat]? = some r)
include h

/-- A refused push leaves the rings as they are. -/
theorem pushDone_of_full (b : Byte) (hf : r.full = true) : s.pushDone i r b = s.give r.producer (.bool false) := by
  rw [State.pushDone, r.tryPush_of_full b hf, setRing_self h, hf]
  rfl

/-- A pull of an empty ring leaves the rings as they are. -/
theorem pullDone_of_empty (he : r.empty = true) : s.pullDone i r = s.give r.consumer (.optByte none) := by
  rw [State.pullDone, Ring.tryPull_of_empty he, setRing_self h, Ring.oldest_of_empty he]

theorem runs_pushDone (c : Side) (b : Byte) :
    ∃ k, k ≤ 3 ∧ Runs c [.pushSample (.own i.toNat) b .caller] k s (s.pushDone i r b) := by
  obtain ⟨k, hk, hr⟩ := runs_push c (s := s) (r := .own i.toNat) b h
  refine ⟨k, hk, ?_⟩
  cases hf : r.full with
  | true => simpa [hf, pushDone_of_full h b hf] using hr
  | false => simpa [hf, State.pushDone, r.tryPush_of_room b hf] using hr

theorem runs_pullDone (c : Side) :
    ∃ k, k ≤ 3 ∧ Runs c [.pullSample (.own i.toNat)] k s (s.pullDone i r) := by
  obtain ⟨k, hk, hr⟩ := runs_pull c (s := s) (r := .own i.toNat) h
  refine ⟨k, hk, ?_⟩
  cases he : r.empty with
  | true => simpa [he, pullDone_of_empty h he] using hr
  | false =>
    simpa [he, State.pullDone, Ring.tryPull_of_byte he, Ring.oldest_of_byte he] using hr

end

section
variable (s : State) (i : BitVec 7) (r : Ring) (b : Byte)

@[simp] theorem pushDone_main : (s.pushDone i r b).main = s.main := give_main _ _ _
@[simp] theorem pushDone_irq : (s.pushDone i r b).irq = s.irq := give_irq _ _ _
@[simp] theorem pushDone_sched : (s.pushDone i r b).sched = s.sched := give_sched _ _ _
@[simp] theorem pullDone_main : (s.pullDone i r).main = s.main := give_main _ _ _
@[simp] theorem pullDone_irq : (s.pullDone i r).irq = s.irq := give_irq _ _ _
@[simp] theorem pullDone_sched : (s.pullDone i r).sched = s.sched := give_sched _ _ _

end

theorem pushDone_ring {b : Byte} (h : s.rings[i.toNat]? = some r) :
    (s.pushDone i r b).rings[i.toNat]? = some (r.tryPush b) :=
  (congrArg (·[i.toNat]?) (give_rings _ _ _)).trans (ring?_setRing (r := .own i.toNat) _ h)

theorem pullDone_ring (h : s.rings[i.toNat]? = some r) : (s.pullDone i r).rings[i.toNat]? = some r.tryPull :=
  (congrArg (·[i.toNat]?) (give_rings _ _ _)).trans (ring?_setRing (r := .own i.toNat) _ h)

/-! ## In the context that owns the port (R140) -/

theorem clear_irq {t : State} (h : t.irq = []) : ({ t with irq := [] } : State) = t := by
  rw [← h]

theorem clear_main {t : State} (h : t.main = []) : ({ t with main := [] } : State) = t := by
  rw [← h]

section
variable (h : s.rings[i.toNat]? = some r)
include h

theorem State.pushInIrq_own : s.pushInIrq (.own i) = (r.producer == .irq) := by
  simp [State.pushInIrq, ringId, State.ring?, h]

theorem State.pullInIrq_own : s.pullInIrq (.own i) = (r.consumer == .irq) := by
  simp [State.pullInIrq, ringId, State.ring?, h]

theorem exec_rbPush (b : Byte) : exec (.rbPush (.own i) b) s =
    if r.producer = .irq then pushInIrq (.own i) b s else startMain [.pushSample (.own i.toNat) b .caller] s := by
  have hr : s.ring? (.own i.toNat) = some r := h
  simp [exec, execRbPush, ringId, hr, State.pushInIrq_own h]

theorem exec_rbPull : exec (.rbPull (.own i)) s =
    if r.consumer = .irq then pullInIrq (.own i) s else startMain [.pullSample (.own i.toNat)] s := by
  have hr : s.ring? (.own i.toNat) = some r := h
  simp [exec, execRbPull, ringId, hr, State.pullInIrq_own h]

/-- A push by the interrupt context, whatever MAIN is at. -/
theorem pushInIrq_eq_pushDone (b : Byte) (hi : s.irq = []) (hs : s.sliced = false) :
    pushInIrq (.own i) b s = .next (s.pushDone i r b) := by
  obtain ⟨k, hk, hr⟩ := runs_pushDone h .irq b
  refine (startIrq_of_runs hi hs hr (Nat.le_trans hk (by decide : 3 ≤ 4))).trans ?_
  rw [clear_irq (by simpa using hi)]

/-- A pull by the interrupt context, whatever MAIN is at. -/
theorem pullInIrq_eq_pullDone (hi : s.irq = []) (hs : s.sliced = false) :
    pullInIrq (.own i) s = .next (s.pullDone i r) := by
  obtain ⟨k, hk, hr⟩ := runs_pullDone h .irq
  refine (startIrq_of_runs hi hs hr hk).trans ?_
  rw [clear_irq (by simpa using hi)]

/-- What a push returns replaces what MAIN's last operation returned, if it is MAIN's. -/
theorem exec_rbPush_eq_pushDone (b : Byte) (hi : s.irq = []) (hs : s.sliced = false)
    (hm : r.producer = .main → s.main = []) : exec (.rbPush (.own i) b) s = .next (s.pushDone i r b) := by
  rw [exec_rbPush h]
  cases hp : r.producer with
  | irq => exact pushInIrq_eq_pushDone h b hi hs
  | main =>
    have h' : ({ s with ret := .none } : State).rings[i.toNat]? = some r := h
    obtain ⟨k, hk, hr⟩ := runs_pushDone h' .main b
    refine (startMain_of_runs ⟨hm hp, hi, hs⟩ hr (Nat.le_trans hk (by decide : 3 ≤ 4)) (by simpa using hi)).trans ?_
    rw [clear_main (by simpa using hm hp), State.pushDone, State.pushDone, hp]
    rfl

theorem exec_rbPull_eq_pullDone (hi : s.irq = []) (hs : s.sliced = false)
    (hm : r.consumer = .main → s.main = []) : exec (.rbPull (.own i)) s = .next (s.pullDone i r) := by
  rw [exec_rbPull h]
  cases hp : r.consumer with
  | irq => exact pullInIrq_eq_pullDone h hi hs
  | main =>
    have h' : ({ s with ret := .none } : State).rings[i.toNat]? = some r := h
    obtain ⟨k, hk, hr⟩ := runs_pullDone h' .main
    refine (startMain_of_runs ⟨hm hp, hi, hs⟩ hr hk (by simpa using hi)).trans ?_
    rw [clear_main (by simpa using hm hp), State.pullDone, State.pullDone, hp]
    rfl

end

end Sys2Proof.Machine

open Sys2Proof Sys2Proof.Machine

/-- Settles O1: a whole push, in either context, read at a full ring and at one with room. -/
theorem rbPushResult : Obligations.RbPushResult := by
  intro s i b r hi hs h hm
  rw [exec_rbPush_eq_pushDone h b hi hs hm]
  split
  case isTrue hf => rw [pushDone_of_full h b (beq_iff_eq.2 hf)]
  case isFalse hf =>
    have hroom : r.full = false := beq_eq_false_iff_ne.2 hf
    rw [State.pushDone, r.tryPush_of_room b hroom, hroom]
    rfl

/-- Settles O2: a whole pull, in either context, read at an empty ring and at one with a byte. -/
theorem rbPullResult : Obligations.RbPullResult := by
  intro s i r hi hs h hm
  rw [exec_rbPull_eq_pullDone h hi hs hm]
  split
  case isTrue he => rw [pullDone_of_empty h (beq_iff_eq.2 he)]
  case isFalse he =>
    have hbyte : r.empty = false := beq_eq_false_iff_ne.2 he
    rw [State.pullDone, Ring.tryPull_of_byte hbyte, Ring.oldest_of_byte hbyte]
    rfl

end

section
/-! An operation of the interrupt context between two micro-steps of one of MAIN's (R83, R150, log 1): MAIN takes a few
micro-steps, the other operation takes effect as a whole, MAIN goes on from there. -/

namespace Sys2Proof.Machine

variable {s t u v w : State}

/-! ## A few micro-steps of MAIN -/

/-- With `k` micro-steps, or all there are if there are fewer, MAIN gets from `p` in `s` to `q` in `t`. -/
def Takes (k : Nat) (s : State) (p : List Micro) (t : State) (q : List Micro) : Prop :=
  runCtx false .main k (s.setProg .main p) = .next (t.setProg .main q)

theorem Takes.zero (s : State) (p : List Micro) : Takes 0 s p s p := rfl

theorem Takes.nil (k : Nat) (s : State) : Takes k s [] s [] := runCtx_nil _ _ _ _ rfl

theorem Takes.cons {k : Nat} {m : Micro} {p p' q : List Micro}
    (hm : ∀ q ms, micro m ms (s.setProg .main q) = .more (t.setProg .main q) (p' ++ ms))
    (h : Takes k t (p' ++ p) u q) : Takes (k + 1) s (m :: p) u q := by
  have e : (s.setProg .main (m :: p)).prog .main = m :: p := rfl
  rw [Takes, runCtx, e]
  dsimp only
  rw [hm]
  exact h

theorem Takes.of_runs {j k : Nat} {p : List Micro} (h : Runs .main p j s t) (hk : j ≤ k) : Takes k s p t [] := by
  obtain ⟨n, rfl⟩ := Nat.exists_eq_add_of_le hk
  have e := h false [] n
  rw [List.append_nil] at e
  exact e.trans (runCtx_nil _ _ _ _ rfl)

/-- The operation that `turn` presents, while MAIN is at `q`, gets the machine from `u` to `v` and leaves MAIN where
it is. -/
def Overtakes (turn : Turn) (q : List Micro) (u v : State) : Prop :=
  ∃ f, eventTurn turn (u.setProg .main q) = some f ∧
    f (State.setProg { u with sched := [] } .main q) = .next (v.setProg .main q) ∧ v.irq = [] ∧ v.sched = []

/-! ## MAIN under a schedule that grants it `k` micro-steps, then has one more turn -/

section
variable {k : Nat} {turn : Turn} {m : Micro} {p q : List Micro}
  (hm : s.main = []) (hi : s.irq = []) (hs : s.sched = [.core (some k), turn])
include hm hi hs

/-- MAIN gets its `k` micro-steps, and the rest of the schedule goes on from there. -/
theorem startMain_sliced (h : Takes k { s with ret := .none, sched := [turn] } (m :: p) u q) :
    startMain (m :: p) s = drive [turn] (u.setProg .main q) := by
  have hact : ({ s with main := m :: p, ret := .none, sched := [turn] } : State).active = .main := by
    simp [State.active, hi]
  have hrun : runTurn (some k) { s with main := m :: p, ret := .none, sched := [turn] } =
      .next (u.setProg .main q) := by
    rw [runTurn, hact]
    exact h
  simp only [startMain, whenMain, launch, State.sliced, hm, hi, hs, List.isEmpty_nil, Bool.not_true,
    Bool.false_eq_true, if_false, if_true, andThen_next, drive, State.coreIdle, List.isEmpty_cons,
    Bool.false_and]
  rw [hi] at hrun
  rw [hrun, andThen_next]

/-- MAIN has returned within its `k` micro-steps: the last turn is still to come. -/
theorem startMain_returned (h : Takes k { s with ret := .none, sched := [turn] } (m :: p) u [])
    (hui : u.irq = []) (hus : u.sched = [turn]) : startMain (m :: p) s = .next (u.setProg .main []) :=
  (startMain_sliced hm hi hs h).trans (drive_idle hus rfl hui)

/-- MAIN has not returned: the last turn's operation takes effect, and MAIN runs to its end. -/
theorem startMain_overtaken {j : Nat} (hq : q ≠ [])
    (h : Takes k { s with ret := .none, sched := [turn] } (m :: p) u q) (ho : Overtakes turn q u v)
    (hr : Runs .main q j v w) (hj : j ≤ progWeight (v.setProg .main q) q) :
    startMain (m :: p) s = .next (w.setProg .main []) := by
  obtain ⟨f, hf, hv, hvi, hvs⟩ := ho
  have hdrive : drive [turn] (u.setProg .main q) =
      andThen (f (State.setProg { u with sched := [] } .main q)) (drive []) := by
    have hidle : (u.setProg .main q).coreIdle = false := by simp [State.coreIdle, hq]
    cases turn with
    | core n => cases hf
    | req sp bs =>
      rw [drive, if_neg (ne_true_of_eq_false hidle), hf]
      rfl
  have hirq : runAll .irq (v.setProg .main q) = .next (v.setProg .main q) := runCtx_nil _ _ _ _ hvi
  have hend : drive [] (v.setProg .main q) = .next (w.setProg .main []) :=
    calc drive [] (v.setProg .main q) = runCore (v.setProg .main q) := by
          rw [drive, ← hvs]
          rfl
      _ = runAll .main (v.setProg .main q) := by rw [runCore, hirq, andThen_next]
      _ = .next (w.setProg .main []) := runAll_of_runs hr hj
  rw [startMain_sliced hm hi hs h, hdrive, hv, andThen_next, hend]

end

/-! ## What remains of a push or a pull (R142, R146) -/

/-- The ring between P2 and P3 of a push: the byte is in its slot, and the index has not moved. -/
def Ring.stored (r : Ring) (b : Byte) : Ring := { r with storage := r.storage.set r.head b }

section
variable {i : BitVec 7} {r : Ring} (h : s.rings[i.toNat]? = some r)
include h

theorem ring?_own : s.ring? (.own i.toNat) = some r := h

theorem micro_pushSample_full (b : Byte) (hf : r.full = true) (c : Side) (q ms : List Micro) :
    micro (.pushSample (.own i.toNat) b .caller) ms (s.setProg c q) =
      .more ((s.pushDone i r b).setProg c q) ([] ++ ms) := by
  simp [micro, stepPushSample, withRing, ring?_own h, hf, give_setProg, pushDone_of_full h b hf]

theorem micro_pushSample_room (b : Byte) (hf : r.full = false) (c : Side) (q ms : List Micro) :
    micro (.pushSample (.own i.toNat) b .caller) ms (s.setProg c q) = .more (s.setProg c q)
      ([.pushStore (.own i.toNat) r.head ((r.head + 1) % r.n) b .caller] ++ ms) := by
  simp [micro, stepPushSample, withRing, ring?_own h, hf]

theorem micro_pushStore (n : Nat) (b : Byte) (c : Side) (q ms : List Micro) :
    micro (.pushStore (.own i.toNat) r.head n b .caller) ms (s.setProg c q) =
      .more ((s.setRing (.own i.toNat) (r.stored b)).setProg c q)
        ([.pushPublish (.own i.toNat) n .caller] ++ ms) := by
  simp [micro, stepPushStore, withRing, ring?_own h, setRing_setProg, Ring.stored]

theorem micro_pullSample_empty (he : r.empty = true) (c : Side) (q ms : List Micro) :
    micro (.pullSample (.own i.toNat)) ms (s.setProg c q) = .more ((s.pullDone i r).setProg c q) ([] ++ ms) := by
  simp [micro, stepPullSample, withRing, ring?_own h, he, give_setProg, pullDone_of_empty h he]

theorem micro_pullSample_byte (he : r.empty = false) (c : Side) (q ms : List Micro) :
    micro (.pullSample (.own i.toNat)) ms (s.setProg c q) =
      .more (s.setProg c q) ([.pullRead (.own i.toNat) r.tail] ++ ms) := by
  simp [micro, stepPullSample, withRing, ring?_own h, he]

theorem micro_pullRead (c : Side) (q ms : List Micro) :
    micro (.pullRead (.own i.toNat) r.tail) ms (s.setProg c q) =
      .more (s.setProg c q) ([.pullPublish (.own i.toNat) r.tail (r.storage.getD r.tail 0)] ++ ms) := by
  simp [micro, stepPullRead, withRing, ring?_own h]

/-- P3 of a push whose P2 is done. -/
theorem runs_pushPublish (b : Byte) (hf : r.full = false) (c : Side) :
    Runs c [.pushPublish (.own i.toNat) ((r.head + 1) % r.n) .caller] 1
      (s.setRing (.own i.toNat) (r.stored b)) (s.pushDone i r b) :=
  Runs.step fun q ms => by
    have hs : (s.setRing (.own i.toNat) (r.stored b)).ring? (.own i.toNat) = some (r.stored b) :=
      ring?_setRing _ (ring?_own h)
    rw [State.pushDone, r.tryPush_of_room b hf, hf]
    simp only [micro, stepPushPublish, withRing, setProg_ring?, hs, setRing_setProg,
      setRing_setRing _ _ (ring?_own h), give_setProg]
    rfl

/-- P2 and P3 of a push. -/
theorem runs_pushStore (b : Byte) (hf : r.full = false) (c : Side) :
    Runs c [.pushStore (.own i.toNat) r.head ((r.head + 1) % r.n) b .caller] 2 s (s.pushDone i r b) :=
  Runs.cons (micro_pushStore h _ b c) (runs_pushPublish h b hf c)

/-- C3 of a pull. -/
theorem runs_pullPublish {x : Byte} (he : r.empty = false) (hx : r.oldest = some x) (c : Side) :
    Runs c [.pullPublish (.own i.toNat) r.tail x] 1 s (s.pullDone i r) :=
  Runs.step fun q ms => by
    rw [State.pullDone, Ring.tryPull_of_byte he, hx]
    simp only [micro, stepPullPublish, withRing, setProg_ring?, ring?_own h, setRing_setProg, give_setProg]
    rfl

/-- C2 and C3 of a pull. -/
theorem runs_pullRead (he : r.empty = false) (c : Side) :
    Runs c [.pullRead (.own i.toNat) r.tail] 2 s (s.pullDone i r) :=
  Runs.cons (micro_pullRead h c) (runs_pullPublish h he (Ring.oldest_of_byte he) c)

end

/-- A pull between P2 and P3 of a push leaves what a pull before P2 would: the slot written is not the one read. -/
theorem pullDone_stored (s : State) (i : BitVec 7) (r : Ring) (b : Byte) :
    (s.setRing (.own i.toNat) (r.stored b)).pullDone i (r.stored b) =
    (s.pullDone i r).setRing (.own i.toNat) (r.tryPull.stored b) := by
  have hpull : (r.stored b).tryPull = r.tryPull.stored b := by
    cases he : r.empty with
    | true => rw [Ring.tryPull_of_empty he, Ring.tryPull_of_empty (r := r.stored b) he]
    | false =>
      rw [Ring.tryPull_of_byte he, Ring.tryPull_of_byte (r := r.stored b) he]
      rfl
  have hold : (r.stored b).oldest = r.oldest := by
    cases he : r.empty with
    | true => rw [Ring.oldest_of_empty he, Ring.oldest_of_empty (r := r.stored b) he]
    | false =>
      have hne : r.head ≠ r.tail := by simpa [Ring.empty] using he
      rw [Ring.oldest_of_byte he, Ring.oldest_of_byte (r := r.stored b) he]
      simp [Ring.stored, List.getD_eq_getElem?_getD, hne]
  rw [State.pullDone, State.pullDone, hpull, hold]
  cases hc : r.consumer <;> simp [Ring.stored, State.setRing, State.give, hc]

end Sys2Proof.Machine
end

section
/-! The placements of one ring operation inside another (R150): the two take effect one after the other, as wholes,
and which comes first depends only on whether MAIN's operation has already returned. -/

namespace Sys2Proof.Machine

variable {s u v : State} {i : BitVec 7} {r x : Ring} {b : Byte} {k : Nat}

/-! ## The operation of the interrupt context -/

/-- The turn that presents `RB.PULL` on stand-alone ring `i`. -/
def pullTurn (i : BitVec 7) : Turn := .req .op [0x02, byteRing (.own i)]

/-- The turn that presents `RB.PUSH` on stand-alone ring `i`. -/
def pushTurn (i : BitVec 7) (b : Byte) : Turn := .req .op [0x01, byteRing (.own i), b]

theorem decode_pullTurn (i : BitVec 7) : decode .op [0x02, byteRing (.own i)] = .ok (.rbPull (.own i)) :=
  decodeEncode (.rbPull (.own i)) rfl

theorem decode_pushTurn (i : BitVec 7) (b : Byte) :
    decode .op [0x01, byteRing (.own i), b] = .ok (.rbPush (.own i) b) :=
  decodeEncode (.rbPush (.own i) b) rfl

theorem pushDone_setProg (s : State) (i : BitVec 7) (r : Ring) (b : Byte) (c : Side) (q : List Micro) :
    (s.setProg c q).pushDone i r b = (s.pushDone i r b).setProg c q := by
  rw [State.pushDone, setRing_setProg, give_setProg, State.pushDone]

theorem pullDone_setProg (s : State) (i : BitVec 7) (r : Ring) (c : Side) (q : List Micro) :
    (s.setProg c q).pullDone i r = (s.pullDone i r).setProg c q := by
  rw [State.pullDone, setRing_setProg, give_setProg, State.pullDone]

theorem overtakes_pullTurn (hx : u.rings[i.toNat]? = some x) (hc : x.consumer = .irq) (hu : u.irq = [])
    (q : List Micro) : Overtakes (pullTurn i) q u (State.pullDone { u with sched := [] } i x) := by
  have hin : (u.setProg .main q).pullInIrq (.own i) = true :=
    (State.pullInIrq_own (s := u.setProg .main q) hx).trans (beq_iff_eq.2 hc)
  refine ⟨pullInIrq (.own i), ?_, ?_, by simpa using hu, by simp⟩
  · rw [pullTurn, eventTurn, decode_pullTurn]
    exact if_pos hin
  · exact (pullInIrq_eq_pullDone (s := State.setProg { u with sched := [] } .main q) hx hu rfl).trans
      (congrArg _ (pullDone_setProg _ _ _ _ _))

theorem overtakes_pushTurn (hx : u.rings[i.toNat]? = some x) (hp : x.producer = .irq) (hu : u.irq = [])
    (b : Byte) (q : List Micro) : Overtakes (pushTurn i b) q u (State.pushDone { u with sched := [] } i x b) := by
  have hin : (u.setProg .main q).pushInIrq (.own i) = true :=
    (State.pushInIrq_own (s := u.setProg .main q) hx).trans (beq_iff_eq.2 hp)
  refine ⟨pushInIrq (.own i) b, ?_, ?_, by simpa using hu, by simp⟩
  · rw [pushTurn, eventTurn, decode_pushTurn]
    exact if_pos hin
  · exact (pushInIrq_eq_pushDone (s := State.setProg { u with sched := [] } .main q) hx b hu rfl).trans
      (congrArg _ (pushDone_setProg _ _ _ _ _ _))

section
variable (h : s.rings[i.toNat]? = some r) (hm : s.main = []) (hi : s.irq = [])

/-! ## A push of MAIN's and a pull -/

section
variable (hp : r.producer = .main) (hs : s.sched = [.core (some k), pullTurn i])
include h hm hi hp hs

/-- A push that has returned when the pull's turn comes: it was refused, or had its three micro-steps. -/
theorem exec_rbPush_returned (hk : k ≠ 0 ∧ r.full = true ∨ 3 ≤ k) :
    exec (.rbPush (.own i) b) s = .next (State.pushDone { s with sched := [pullTurn i] } i r b) := by
  let s' : State := { s with ret := .none, sched := [pullTurn i] }
  have h' : s'.rings[i.toNat]? = some r := h
  have ht : Takes k s' [.pushSample (.own i.toNat) b .caller] (s'.pushDone i r b) [] := by
    obtain ⟨hk0, hf⟩ | hk := hk
    · obtain ⟨n, rfl⟩ := Nat.exists_eq_succ_of_ne_zero hk0
      exact .cons (micro_pushSample_full h' b hf .main) (.nil _ _)
    · obtain ⟨j, hj, hr⟩ := runs_pushDone h' .main b
      exact .of_runs hr (Nat.le_trans hj hk)
  rw [exec_rbPush h, hp, if_neg nofun, startMain_returned hm hi hs ht (by simpa using hi) (by simp [s'])]
  simp [State.pushDone, State.setProg, State.give, State.setRing, hp, hm, s']

/-- A push that has not returned when the pull's turn comes takes effect after the pull. -/
theorem exec_rbPush_overtaken (hok : r.ok = true) (hc : r.consumer = .irq) (hk : k ≤ 2)
    (hk0 : k = 0 ∨ r.full = false) : exec (.rbPush (.own i) b) s =
      .next ((State.pullDone { s with sched := [] } i r).pushDone i r.tryPull b) := by
  let s' : State := { s with ret := .none, sched := [pullTurn i] }
  let v : State := State.pullDone { s with ret := .none, sched := [] } i r
  have h' : s'.rings[i.toNat]? = some r := h
  have hv : v.rings[i.toNat]? = some r.tryPull := pullDone_ring h
  have hdone : (v.pushDone i r.tryPull b).setProg .main [] =
      (State.pullDone { s with sched := [] } i r).pushDone i r.tryPull b := by
    simp [v, State.pushDone, State.pullDone, State.setProg, State.give, State.setRing, hp, hc, hm]
  have hpull := fun q => overtakes_pullTurn h' hc hi q
  rw [exec_rbPush h, hp, if_neg nofun, ← hdone]
  obtain rfl | hpos := Nat.eq_zero_or_pos k
  · obtain ⟨j, hj, hr⟩ := runs_pushDone hv .main b
    exact startMain_overtaken hm hi hs (by simp) (.zero _ _) (hpull _) hr (Nat.le_trans hj (by decide : 3 ≤ 4))
  have hf : r.full = false := hk0.resolve_left (by omega)
  have hroom : r.tryPull.full = false := Ring.tryPull_full hok (Ring.two_le_of_room hok hf)
  have hsample := micro_pushSample_room h' b hf .main
  obtain rfl | rfl : k = 1 ∨ k = 2 := by omega
  · have hr := runs_pushStore hv b hroom .main
    rw [r.tryPull_head, r.tryPull_n] at hr
    exact startMain_overtaken hm hi hs (by simp) (.cons hsample (.zero _ _)) (hpull _) hr (by decide : 2 ≤ 3)
  · have hr := runs_pushPublish hv b hroom .main
    rw [r.tryPull_head, r.tryPull_n, ← pullDone_stored] at hr
    have hstored : (s'.setRing (.own i.toNat) (r.stored b)).rings[i.toNat]? = some (r.stored b) :=
      ring?_setRing (r := .own i.toNat) _ h'
    exact startMain_overtaken hm hi hs (by simp)
      (.cons hsample (.cons (micro_pushStore h' _ b .main) (.zero _ _)))
      (overtakes_pullTurn hstored hc hi _) hr (by decide : 1 ≤ 2)

end

/-! ## A pull of MAIN's and a push -/

section
variable (hc : r.consumer = .main) (hs : s.sched = [.core (some k), pushTurn i b])
include h hm hi hc hs

/-- A pull that has returned when the push's turn comes: it found nothing, or had its three micro-steps. -/
theorem exec_rbPull_returned (hk : k ≠ 0 ∧ r.empty = true ∨ 3 ≤ k) :
    exec (.rbPull (.own i)) s = .next (State.pullDone { s with sched := [pushTurn i b] } i r) := by
  let s' : State := { s with ret := .none, sched := [pushTurn i b] }
  have h' : s'.rings[i.toNat]? = some r := h
  have ht : Takes k s' [.pullSample (.own i.toNat)] (s'.pullDone i r) [] := by
    obtain ⟨hk0, he⟩ | hk := hk
    · obtain ⟨n, rfl⟩ := Nat.exists_eq_succ_of_ne_zero hk0
      exact .cons (micro_pullSample_empty h' he .main) (.nil _ _)
    · obtain ⟨j, hj, hr⟩ := runs_pullDone h' .main
      exact .of_runs hr (Nat.le_trans hj hk)
  rw [exec_rbPull h, hc, if_neg nofun, startMain_returned hm hi hs ht (by simpa using hi) (by simp [s'])]
  simp [State.pullDone, State.setProg, State.give, State.setRing, hc, hm, s']

/-- A pull that has not returned when the push's turn comes takes effect after the push. -/
theorem exec_rbPull_overtaken (hok : r.ok = true) (hp : r.producer = .irq) (hk : k ≤ 2)
    (hk0 : k = 0 ∨ r.empty = false) : exec (.rbPull (.own i)) s =
      .next ((State.pushDone { s with sched := [] } i r b).pullDone i (r.tryPush b)) := by
  let s' : State := { s with ret := .none, sched := [pushTurn i b] }
  let v : State := State.pushDone { s with ret := .none, sched := [] } i r b
  have h' : s'.rings[i.toNat]? = some r := h
  have hv : v.rings[i.toNat]? = some (r.tryPush b) := pushDone_ring h
  have hdone : (v.pullDone i (r.tryPush b)).setProg .main [] =
      (State.pushDone { s with sched := [] } i r b).pullDone i (r.tryPush b) := by
    simp [v, State.pushDone, State.pullDone, State.setProg, State.give, State.setRing, hp, hc, hm]
  have hpush := fun q => overtakes_pushTurn h' hp hi b q
  rw [exec_rbPull h, hc, if_neg nofun, ← hdone]
  obtain rfl | hpos := Nat.eq_zero_or_pos k
  · obtain ⟨j, hj, hr⟩ := runs_pullDone hv .main
    exact startMain_overtaken hm hi hs (by simp) (.zero _ _) (hpush _) hr hj
  have he : r.empty = false := hk0.resolve_left (by omega)
  have hbyte : (r.tryPush b).empty = false := Ring.tryPush_empty hok b (Ring.two_le_of_byte hok he)
  have hsample := micro_pullSample_byte h' he .main
  obtain rfl | rfl : k = 1 ∨ k = 2 := by omega
  · have hr := runs_pullRead hv hbyte .main
    rw [r.tryPush_tail b] at hr
    exact startMain_overtaken hm hi hs (by simp) (.cons hsample (.zero _ _)) (hpush _) hr (by decide : 2 ≤ 2)
  · have hr := runs_pullPublish hv hbyte ((Ring.oldest_tryPush hok b he).trans (Ring.oldest_of_byte he)) .main
    rw [r.tryPush_tail b] at hr
    exact startMain_overtaken hm hi hs (by simp)
      (.cons hsample (.cons (micro_pullRead h' .main) (.zero _ _))) (hpush _) hr (by decide : 1 ≤ 1)

end
end

end Sys2Proof.Machine

open Sys2Proof Sys2Proof.Machine

/-- Settles O5: MAIN's operation either is overtaken, and then comes second as a whole, or has already returned. -/
theorem rbPreemption : Obligations.RbPreemption := by
  intro s i b r k hm hi hk h hok h2
  refine ⟨fun pull hpull hs hp hc => ⟨fun hk0 => ?pullThenPush, fun hk0 hf => ?pushRefused⟩,
    fun push hpush hs hp hc => ⟨fun hk0 => ?pushThenPull, fun hk0 he => ?pullRefused⟩⟩
  case pullThenPush =>
    subst hpull
    obtain ⟨hok', hcont⟩ := Ring.contents_tryPush (Ring.contents_tryPull hok).1 b
    have hroom := Ring.tryPull_full hok h2
    refine ⟨r.tryPull.tryPush b, (exec_rbPush_overtaken h hm hi hp hs hok hc hk hk0).trans ?_, hok', ?_⟩
    · simp [State.pushDone, State.pullDone, State.give, State.setRing, hp, hc, hroom, Ring.oldest_eq_head? hok]
    · simpa [hroom, Ring.tryPull_contents hok] using hcont
  case pushRefused =>
    subst hpull
    rw [exec_rbPush_returned h hm hi hp hs (.inl ⟨hk0, hf⟩),
      pushDone_of_full (s := { s with sched := [pullTurn i] }) h b hf, hp]
    rfl
  case pushThenPull =>
    subst hpush
    obtain ⟨hok', hcont⟩ := Ring.contents_tryPush hok b
    have hbyte := Ring.tryPush_empty hok b h2
    refine ⟨(r.tryPush b).tryPull, (r.tryPush b).storage.getD r.tail 0,
      (exec_rbPull_overtaken h hm hi hc hs hok hp hk hk0).trans ?_, (Ring.contents_tryPull hok').1, ?_⟩
    · simp [State.pushDone, State.pullDone, State.give, State.setRing, hp, hc, Ring.oldest_of_byte hbyte]
    · rw [← hcont, (Ring.contents_tryPull hok').2, Ring.oldest_of_byte hbyte, r.tryPush_tail]
      rfl
  case pullRefused =>
    subst hpush
    rw [exec_rbPull_returned h hm hi hc hs (.inl ⟨hk0, he⟩),
      pullDone_of_empty (s := { s with sched := [pushTurn i b] }) h he, hc]
    rfl

end

section
/-! Sequences of ring operations (R152, R154): what one operation does to the queue, whatever its placement, composed
along the sequence. -/

namespace Sys2Proof.Machine

variable {s t : State} {i : BitVec 7} {r r' r'' : Ring} {b : Byte} {k : Nat}

/-! ## The queue -/

/-- From `r` to `r'` the bytes `acc` were put last and the bytes `out` taken first; size and ports are the same. -/
structure QueueStep (r r' : Ring) (acc out : List Byte) : Prop where
  ok : r'.ok = true
  size : r'.n = r.n
  producer : r'.producer = r.producer
  consumer : r'.consumer = r.consumer
  contents : r.contents ++ acc = out ++ r'.contents

theorem QueueStep.refl (hok : r.ok = true) : QueueStep r r [] [] := ⟨hok, rfl, rfl, rfl, List.append_nil _⟩

theorem QueueStep.trans {acc acc' out out' : List Byte} (h : QueueStep r r' acc out)
    (h' : QueueStep r' r'' acc' out') : QueueStep r r'' (acc ++ acc') (out ++ out') where
  ok := h'.ok
  size := h'.size.trans h.size
  producer := h'.producer.trans h.producer
  consumer := h'.consumer.trans h.consumer
  contents := by
    rw [← List.append_assoc, h.contents, List.append_assoc, h'.contents, List.append_assoc]

theorem queueStep_tryPush (hok : r.ok = true) (b : Byte) :
    QueueStep r (r.tryPush b) (if r.full then [] else [b]) [] :=
  have ⟨hok', hc⟩ := Ring.contents_tryPush hok b
  ⟨hok', r.tryPush_n b, r.tryPush_producer b, r.tryPush_consumer b, hc.symm⟩

theorem queueStep_tryPull (hok : r.ok = true) : QueueStep r r.tryPull [] r.oldest.toList :=
  have ⟨hok', hc⟩ := Ring.contents_tryPull hok
  ⟨hok', r.tryPull_n, r.tryPull_producer, r.tryPull_consumer, (List.append_nil _).trans hc⟩

/-! ## What the two ports were told -/

theorem retOf_give_of_ne {c d : Side} (h : c ≠ d) (s : State) (v : Ret) : (s.give d v).retOf c = s.retOf c := by
  match c, d with
  | .main, .irq | .irq, .main => rfl
  | .main, .main | .irq, .irq => exact absurd rfl h

theorem retOf_pushDone (s : State) (i : BitVec 7) (r : Ring) (b : Byte) :
    (s.pushDone i r b).retOf r.producer = .bool !r.full := retOf_give _ _ _

theorem retOf_pullDone (s : State) (i : BitVec 7) (r : Ring) :
    (s.pullDone i r).retOf r.consumer = .optByte r.oldest := retOf_give _ _ _

theorem retOf_pushDone_of_ne {c : Side} (h : c ≠ r.producer) (s : State) (i : BitVec 7) (b : Byte) :
    (s.pushDone i r b).retOf c = s.retOf c := retOf_give_of_ne h _ _

theorem retOf_pullDone_of_ne {c : Side} (h : c ≠ r.consumer) (s : State) (i : BitVec 7) :
    (s.pullDone i r).retOf c = s.retOf c := retOf_give_of_ne h _ _

theorem accepted_push {p : Side} {full : Bool} (h : t.retOf p = .bool !full) :
    (RingOp.push b).accepted p t = if full then [] else [b] := by
  cases full <;> simp [RingOp.accepted, h]

theorem given_pull {c : Side} {v : Option Byte} (h : t.retOf c = .optByte v) :
    RingOp.pull.given c t = v.toList := by
  cases v <;> simp [RingOp.given, h]

/-! ## A pair, one operation inside the other -/

/-- On ring `i`, which is `r`, a push and a pull were done as wholes, one after the other. -/
def BothDone (s : State) (i : BitVec 7) (r : Ring) (b : Byte) (t : State) : Prop :=
  t = (s.pullDone i r).pushDone i r.tryPull b ∨ t = (s.pushDone i r b).pullDone i (r.tryPush b)

theorem pushDone_with_sched (s : State) (i : BitVec 7) (r : Ring) (b : Byte) (ts : List Turn) :
    ({ s.pushDone i r b with sched := ts } : State) = State.pushDone { s with sched := ts } i r b := by
  unfold State.pushDone State.give
  split <;> rfl

theorem pullDone_with_sched (s : State) (i : BitVec 7) (r : Ring) (ts : List Turn) :
    ({ s.pullDone i r with sched := ts } : State) = State.pullDone { s with sched := ts } i r := by
  unfold State.pullDone State.give
  split <;> rfl

/-- A turn that comes when nothing is in progress presents its instruction. -/
theorem step_of_idle {sp : Space} {bs : List Byte} {x : Instr} (hm : s.main = []) (hi : s.irq = [])
    (hs : s.sched = [.req sp bs]) (hd : decode sp bs = .ok x) : step s = exec x { s with sched := [] } := by
  have hidle : s.coreIdle = true := by simp [State.coreIdle, hm, hi]
  simp [step, hs, hd, hidle]

section
variable (h : s.rings[i.toNat]? = some r) (hm : s.main = []) (hi : s.irq = [])
include h hm hi

theorem step_pullTurn (hs : s.sched = [pullTurn i]) :
    step s = .next (State.pullDone { s with sched := [] } i r) :=
  (step_of_idle hm hi hs (decode_pullTurn i)).trans
    (exec_rbPull_eq_pullDone (s := { s with sched := [] }) h hi rfl fun _ => hm)

theorem step_pushTurn (hs : s.sched = [pushTurn i b]) :
    step s = .next (State.pushDone { s with sched := [] } i r b) :=
  (step_of_idle hm hi hs (decode_pushTurn i b)).trans
    (exec_rbPush_eq_pushDone (s := { s with sched := [] }) h b hi rfl fun _ => hm)

end

section
variable (h : s.rings[i.toNat]? = some r) (hok : r.ok = true) (hm : s.main = []) (hi : s.irq = [])
include h hok hm hi

theorem preempted_push (hp : r.producer = .main) (hc : r.consumer = .irq) :
    ∃ t, preempted (.rbPush (.own i) b) k (pullTurn i) s = .next t ∧
      BothDone { s with sched := [] } i r b t := by
  let s' : State := { s with sched := [.core (some k), pullTurn i] }
  have h' : s'.rings[i.toNat]? = some r := h
  by_cases hk : k ≤ 2 ∧ (k = 0 ∨ r.full = false)
  case pos =>
    refine ⟨_, ?_, .inl rfl⟩
    rw [preempted, exec_rbPush_overtaken h' hm hi hp rfl hok hc hk.1 hk.2, andThen_next, if_pos (by simp)]
  case neg =>
    have hret : k ≠ 0 ∧ r.full = true ∨ 3 ≤ k := by
      cases hf : r.full <;> simp [hf] at hk ⊢ <;> omega
    have hlast := step_pullTurn (s := State.pushDone { s with sched := [pullTurn i] } i r b) (pushDone_ring h)
      (by simpa using hm) (by simpa using hi) (by simp)
    rw [pushDone_with_sched] at hlast
    refine ⟨_, ?_, .inr rfl⟩
    rw [preempted, exec_rbPush_returned h' hm hi hp rfl hret, andThen_next, if_neg (by simp)]
    exact hlast

theorem preempted_pull (hp : r.producer = .irq) (hc : r.consumer = .main) :
    ∃ t, preempted (.rbPull (.own i)) k (pushTurn i b) s = .next t ∧
      BothDone { s with sched := [] } i r b t := by
  let s' : State := { s with sched := [.core (some k), pushTurn i b] }
  have h' : s'.rings[i.toNat]? = some r := h
  by_cases hk : k ≤ 2 ∧ (k = 0 ∨ r.empty = false)
  case pos =>
    refine ⟨_, ?_, .inr rfl⟩
    rw [preempted, exec_rbPull_overtaken h' hm hi hc rfl hok hp hk.1 hk.2, andThen_next, if_pos (by simp)]
  case neg =>
    have hret : k ≠ 0 ∧ r.empty = true ∨ 3 ≤ k := by
      cases he : r.empty <;> simp [he] at hk ⊢ <;> omega
    have hlast := step_pushTurn (s := State.pullDone { s with sched := [pushTurn i b] } i r) (b := b)
      (pullDone_ring h) (by simpa using hm) (by simpa using hi) (by simp)
    rw [pullDone_with_sched] at hlast
    refine ⟨_, ?_, .inl rfl⟩
    rw [preempted, exec_rbPull_returned h' hm hi hc rfl hret, andThen_next, if_neg (by simp)]
    exact hlast

end

/-- Done as wholes, the two operations are a queue's, and each port was told its own result. -/
theorem bothDone_fifo (h : s.rings[i.toNat]? = some r) (hok : r.ok = true) (hpc : r.producer ≠ r.consumer)
    (hb : BothDone s i r b t) : ∃ r', t.rings[i.toNat]? = some r' ∧
      QueueStep r r' ((RingOp.push b).accepted r.producer t) (RingOp.pull.given r.consumer t) := by
  obtain rfl | rfl := hb
  case inl =>
    have hp : (State.pushDone (s.pullDone i r) i r.tryPull b).retOf r.producer = .bool !r.tryPull.full := by
      simpa using retOf_pushDone (s.pullDone i r) i r.tryPull b
    have hc : (State.pushDone (s.pullDone i r) i r.tryPull b).retOf r.consumer = .optByte r.oldest :=
      (retOf_pushDone_of_ne (by simpa using hpc.symm) _ _ _).trans (retOf_pullDone s i r)
    refine ⟨_, pushDone_ring (pullDone_ring h), ?_⟩
    rw [accepted_push hp, given_pull hc]
    simpa using (queueStep_tryPull hok).trans (queueStep_tryPush (queueStep_tryPull hok).ok b)
  case inr =>
    have hp : (State.pullDone (s.pushDone i r b) i (r.tryPush b)).retOf r.producer = .bool !r.full :=
      (retOf_pullDone_of_ne (by simpa using hpc) _ _).trans (retOf_pushDone s i r b)
    have hc : (State.pullDone (s.pushDone i r b) i (r.tryPush b)).retOf r.consumer =
        .optByte (r.tryPush b).oldest := by
      simpa using retOf_pullDone (s.pushDone i r b) i (r.tryPush b)
    refine ⟨_, pullDone_ring (pushDone_ring h), ?_⟩
    rw [accepted_push hp, given_pull hc]
    simpa using (queueStep_tryPush hok b).trans (queueStep_tryPull (queueStep_tryPush hok b).ok)

theorem bothDone_quiet (hm : s.main = []) (hi : s.irq = []) (hs : s.sched = []) (hb : BothDone s i r b t) :
    t.quiet := by
  obtain rfl | rfl := hb <;> exact ⟨by simpa using hm, by simpa using hi, by simp [State.sliced, hs]⟩

/-! ## A sequence -/

section
variable (hq : s.quiet) (h : s.rings[i.toNat]? = some r)
include hq

theorem pushDone_quiet (i : BitVec 7) (r : Ring) (b : Byte) : (s.pushDone i r b).quiet :=
  quiet_congr hq (by simp) (by simp) (by simp)

theorem pullDone_quiet (i : BitVec 7) (r : Ring) : (s.pullDone i r).quiet :=
  quiet_congr hq (by simp) (by simp) (by simp)

include h

theorem ringStep_push (p : Side) (b : Byte) : ringStep i p (.push b) s = .next (s.pushDone i r b) := by
  obtain ⟨hm, hi, hs⟩ := hq
  exact exec_rbPush_eq_pushDone h b hi hs fun _ => hm

theorem ringStep_pull (p : Side) : ringStep i p .pull s = .next (s.pullDone i r) := by
  obtain ⟨hm, hi, hs⟩ := hq
  exact exec_rbPull_eq_pullDone h hi hs fun _ => hm

theorem ringStep_both (hok : r.ok = true) (hpc : r.producer ≠ r.consumer) (b : Byte) (k : Nat) :
    ∃ t, ringStep i r.producer (.both b k) s = .next t ∧ BothDone { s with sched := [] } i r b t := by
  obtain ⟨hm, hi, -⟩ := hq
  cases hp : r.producer with
  | main =>
    have hc : r.consumer = .irq := by
      cases hc : r.consumer with
      | irq => rfl
      | main => exact absurd (hp.trans hc.symm) hpc
    exact preempted_push h hok hm hi hp hc
  | irq =>
    have hc : r.consumer = .main := by
      cases hc : r.consumer with
      | main => rfl
      | irq => exact absurd (hp.trans hc.symm) hpc
    exact preempted_pull h hok hm hi hp hc

/-- One operation completes and is a queue's. -/
theorem ringStep_fifo (hok : r.ok = true) (op : RingOp)
    (hop : r.producer = r.consumer → ∀ b k, op ≠ .both b k) :
    ∃ t r', ringStep i r.producer op s = .next t ∧ t.quiet ∧ t.rings[i.toNat]? = some r' ∧
      QueueStep r r' (op.accepted r.producer t) (op.given r.consumer t) := by
  cases op with
  | push b =>
    refine ⟨_, _, ringStep_push hq h _ b, pushDone_quiet hq i r b, pushDone_ring h, ?_⟩
    rw [accepted_push (retOf_pushDone s i r b)]
    exact queueStep_tryPush hok b
  | pull =>
    refine ⟨_, _, ringStep_pull hq h _, pullDone_quiet hq i r, pullDone_ring h, ?_⟩
    rw [given_pull (retOf_pullDone s i r)]
    exact queueStep_tryPull hok
  | both b k =>
    have hpc : r.producer ≠ r.consumer := fun e => hop e b k rfl
    obtain ⟨t, ht, hb⟩ := ringStep_both hq h hok hpc b k
    obtain ⟨r', hr', hstep⟩ := bothDone_fifo (s := { s with sched := [] }) h hok hpc hb
    obtain ⟨hm, hi, -⟩ := hq
    exact ⟨t, r', ht, bothDone_quiet (s := { s with sched := [] }) hm hi rfl hb, hr', hstep⟩

end

/-- A sequence of operations completes and is a queue's. -/
theorem ringRun_fifo (ops : List RingOp) : ∀ {s : State} {r : Ring}, s.quiet → s.rings[i.toNat]? = some r →
    r.ok = true → (r.producer = r.consumer → ∀ b k, RingOp.both b k ∉ ops) →
    ∃ t acc out r', ringRun i r.producer r.consumer ops s = some (t, acc, out) ∧
      t.rings[i.toNat]? = some r' ∧ QueueStep r r' acc out := by
  induction ops with
  | nil => exact fun {s r} _ h hok _ => ⟨s, [], [], r, rfl, h, .refl hok⟩
  | cons op ops ih =>
    intro s r hq h hok hops
    obtain ⟨t, r', ht, hqt, hr', hstep⟩ := ringStep_fifo hq h hok op
      fun e b k hop => hops e b k (hop ▸ List.mem_cons_self)
    have hrest : r'.producer = r'.consumer → ∀ b k, RingOp.both b k ∉ ops := by
      rw [hstep.producer, hstep.consumer]
      exact fun e b k hmem => hops e b k (List.mem_cons_of_mem _ hmem)
    obtain ⟨u, acc, out, r'', hrun, hu, hsteps⟩ := ih hqt hr' hstep.ok hrest
    rw [hstep.producer, hstep.consumer] at hrun
    exact ⟨u, _, _, r'', by rw [ringRun, ht]; simp [hrun], hu, hstep.trans hsteps⟩

/-! ## Pushes until the ring is full -/

section
variable (hq : s.quiet) (h : s.rings[i.toNat]? = some r) (ops : List RingOp)
include hq h

theorem ringRun_push (c : Side) (b : Byte) : ringRun i r.producer c (.push b :: ops) s =
    (ringRun i r.producer c ops (s.pushDone i r b)).map fun (u, acc, out) =>
      (u, (if r.full then [] else [b]) ++ acc, out) := by
  rw [ringRun, ringStep_push hq h]
  simp [accepted_push (retOf_pushDone s i r b), RingOp.given]

theorem ringRun_pull (p : Side) : ringRun i p r.consumer (.pull :: ops) s =
    (ringRun i p r.consumer ops (s.pullDone i r)).map fun (u, acc, out) => (u, acc, r.oldest.toList ++ out) := by
  rw [ringRun, ringStep_pull hq h]
  simp [given_pull (retOf_pullDone s i r), RingOp.accepted]

end

/-- Bytes for which there is room are all accepted. -/
theorem ringRun_pushes (bs : List Byte) (ops : List RingOp) : ∀ {s : State} {r : Ring}, s.quiet →
    s.rings[i.toNat]? = some r → r.ok = true → r.contents.length + bs.length < r.n →
    ∃ t r', t.quiet ∧ t.rings[i.toNat]? = some r' ∧ QueueStep r r' bs [] ∧
      ringRun i r.producer r.consumer (bs.map .push ++ ops) s =
        (ringRun i r.producer r.consumer ops t).map fun (u, acc, out) => (u, bs ++ acc, out) := by
  induction bs with
  | nil =>
    exact fun {s r} hq h hok _ => ⟨s, r, hq, h, .refl hok, by simp⟩
  | cons b bs ih =>
    intro s r hq h hok hlen
    rw [List.length_cons] at hlen
    have hroom : r.full = false := (Ring.full_eq_false_iff hok).2 (by omega)
    have hstep := queueStep_tryPush hok b
    rw [hroom] at hstep
    have hlen' : (r.tryPush b).contents.length = r.contents.length + 1 := by
      simpa using (congrArg List.length hstep.contents).symm
    obtain ⟨t, r', hqt, hr', hsteps, hrun⟩ := ih (pushDone_quiet hq i r b) (pushDone_ring h) hstep.ok
      (by rw [hstep.size]; omega)
    rw [hstep.producer, hstep.consumer] at hrun
    refine ⟨t, r', hqt, hr', hstep.trans hsteps, ?_⟩
    rw [List.map_cons, List.cons_append, ringRun_push hq h, hrun, hroom, Option.map_map]
    rfl

end Sys2Proof.Machine

open Sys2Proof Sys2Proof.Machine

/-- Settles O3: every operation of the sequence is a queue's, wherever it lands. -/
theorem rbFifoOrder : Obligations.RbFifoOrder := by
  intro s i r ops hq h hok hops
  obtain ⟨t, acc, out, r', hrun, hr', hstep⟩ := ringRun_fifo ops hq h hok hops
  exact ⟨t, acc, out, r', hrun, hr', hstep.ok, hstep.contents⟩

/-- Settles O4: the first `N - 1` bytes fill the ring, so the last is refused; a pull gives the first and makes
room for one more. -/
theorem rbCapacity : Obligations.RbCapacity := by
  intro s i r bs c hq h hok h2 he hlen
  obtain ⟨d, hd⟩ : ∃ d, bs.drop (r.n - 1) = [d] := List.length_eq_one_iff.1 (by rw [List.length_drop]; omega)
  have hbs : bs.map RingOp.push ++ [.pull, .push c] =
      (bs.take (r.n - 1)).map RingOp.push ++ [.push d, .pull, .push c] := by
    conv_lhs => rw [← List.take_append_drop (r.n - 1) bs, hd]
    simp
  have hempty : r.contents = [] := Ring.contents_of_empty hok (beq_iff_eq.2 he)
  obtain ⟨t, q, hqt, hr, hstep, hrun⟩ := ringRun_pushes (bs.take (r.n - 1)) [.push d, .pull, .push c] hq h hok
    (by simp [hempty]; omega)
  have hcont : q.contents = bs.take (r.n - 1) := by simpa [hempty] using hstep.contents.symm
  have hfull : q.full = true := by
    rw [Ring.full_iff hstep.ok, hcont, hstep.size, List.length_take]
    omega
  have hroom : q.tryPull.full = false := Ring.tryPull_full hstep.ok (by rw [hstep.size]; exact h2)
  have hfirst : q.oldest.toList = bs.take 1 := by
    rw [Ring.oldest_eq_head? hstep.ok, hcont, List.head?_take, if_neg (by omega), List.take_one]
  have hr₁ : (t.pushDone i q d).rings[i.toNat]? = some q := by
    simpa [q.tryPush_of_full d hfull] using pushDone_ring (b := d) hr
  have hq₁ := pushDone_quiet hqt i q d
  have hlast := ringRun_push (pullDone_quiet hq₁ i q) (pullDone_ring hr₁) [] q.consumer c
  rw [q.tryPull_producer, hroom] at hlast
  rw [hbs, hrun, ← hstep.producer, ← hstep.consumer, ringRun_push hqt hr, ringRun_pull hq₁ hr₁, hlast, hfull, hfirst]
  exact ⟨((t.pushDone i q d).pullDone i q).pushDone i q.tryPull c, by simp [ringRun]⟩

end

section
/-! `SPI.SELECT` and `SPI.DESELECT` presented by themselves (R162, R164, R89): the spin, and the one micro-step that
moves the line. -/

namespace Sys2Proof.Machine

variable {s : State} {x : Bus}

/-! ## The micro-steps -/

theorem Bus.idle_iff : x.idle = true ↔ x.rxq = [] ∧ x.dma.active = false := by
  rw [Bus.idle, Bool.and_eq_true, List.isEmpty_iff, Bool.not_eq_true']

theorem Bus.idle_eq_false : x.idle = false ↔ x.rxq ≠ [] ∨ x.dma.active = true := by
  rw [Bus.idle, Bool.and_eq_false_iff, List.isEmpty_eq_false_iff, Bool.not_eq_false']

theorem withBus_of_some {b : Nat} (hb : s.buses[b]? = some x) (k : Bus → MRes) : withBus s b k = k x := by
  rw [withBus, hb]

theorem withBus_of_none {b : Nat} (hb : s.buses[b]? = none) (k : Bus → MRes) :
    withBus s b k = .refuse .noInstance := by rw [withBus, hb]

theorem assertCs_setProg (s : State) (c : Side) (p : List Micro) (b : Nat) (x : Bus) :
    (s.setProg c p).assertCs b x = (s.assertCs b x).setProg c p := by
  have hw : (s.setProg c p).wired b x = s.wired b x := by simp [State.wired]
  simp only [State.assertCs, hw]
  cases s.wired b x <;> cases c <;> rfl

theorem releaseCs_setProg (s : State) (c : Side) (p : List Micro) (b : Nat) (x : Bus) :
    (s.setProg c p).releaseCs b x = mapState (·.setProg c p) (s.releaseCs b x) := by
  have hw : (s.setProg c p).wired b x = s.wired b x := by simp [State.wired]
  simp only [State.releaseCs, hw, setProg_flash, setProg_cfg]
  cases s.wired b x
  · cases c <;> rfl
  · cases s.flash.commit s.cfg.flPage <;> cases c <;> rfl

section
variable {b : Nat} (hb : s.buses[b]? = some x)
include hb

theorem runs_spinIdle (c : Side) (hi : x.idle = true) : Runs c [.spinIdle b] 1 s s :=
  Runs.step fun q ms => (withBus_of_some (by rw [setProg_buses, hb]) _).trans (if_pos hi)

theorem runs_spinDma (c : Side) (ha : x.dma.active = false) : Runs c [.spinDma b] 1 s s :=
  Runs.step fun q ms => (withBus_of_some (by rw [setProg_buses, hb]) _).trans (if_neg (ne_true_of_eq_false ha))

theorem micro_spinIdle_busy (hi : x.idle = false) (ms : List Micro) :
    micro (.spinIdle b) ms s = .wait s (.spinIdle b :: ms) :=
  (withBus_of_some hb _).trans (if_neg (ne_true_of_eq_false hi))

theorem runs_selectBus (c : Side) (hcs : x.cs = false) : Runs c [.selectBus b] 1 s (s.assertCs b x) :=
  Runs.step fun q ms => (withBus_of_some (by rw [setProg_buses, hb]) _).trans <|
    (if_neg (ne_true_of_eq_false hcs)).trans (by rw [assertCs_setProg])

theorem runs_deselectBus (c : Side) {t : State} (hcs : x.cs = true) (ht : s.releaseCs b x = .ok t) :
    Runs c [.deselectBus b] 1 s t :=
  Runs.step fun q ms => (withBus_of_some (by rw [setProg_buses, hb]) _).trans <|
    (if_pos hcs).trans (by rw [releaseCs_setProg, ht]; rfl)

end

/-! ## The line (R162, R164) -/

theorem assertCs_wired {b : Nat} (hw : s.wired b x = true) : s.assertCs b x = { s with
    buses := s.buses.set b { x with cs := true }
    flash := { s.flash with frame := [] }
    trace := s.trace ++ [.select b] } := by
  rw [State.assertCs, if_pos hw]
  rfl

theorem assertCs_unwired {b : Nat} (hw : s.wired b x = false) :
    s.assertCs b x = { s with buses := s.buses.set b { x with cs := true } } := by
  rw [State.assertCs, if_neg (ne_true_of_eq_false hw)]
  rfl

theorem releaseCs_wired {b : Nat} {f : Flash} (hw : s.wired b x = true) (hf : s.flash.commit s.cfg.flPage = .ok f) :
    s.releaseCs b x = .ok { s with
      buses := s.buses.set b { x with cs := false }
      flash := f
      trace := s.trace ++ [.deselect b] } := by
  rw [State.releaseCs, if_pos hw, hf]
  rfl

theorem releaseCs_unwired {b : Nat} (hw : s.wired b x = false) :
    s.releaseCs b x = .ok { s with buses := s.buses.set b { x with cs := false } } := by
  rw [State.releaseCs, if_neg (ne_true_of_eq_false hw)]
  rfl

/-! ## The operations -/

section
variable {b : BitVec 8} (hq : s.quiet) (hb : s.buses[b.toNat]? = some x)
include hq hb

theorem exec_spiSelect_idle (hi : x.idle = true) (hcs : x.cs = false) : exec (.spiSelect b) s =
    .next { State.assertCs { s with ret := .none } b.toNat x with main := [] } := by
  have hb' : ({ s with ret := .none } : State).buses[b.toNat]? = some x := hb
  refine startMain_of_runs hq ((runs_spinIdle hb' .main hi).append (runs_selectBus hb' .main hcs)) (Nat.le_refl 2) ?_
  exact (assertCs_same _ b.toNat x).2.2.trans hq.2.1

theorem exec_spiDeselect_idle {t : State} (hi : x.idle = true) (hcs : x.cs = true)
    (ht : State.releaseCs { s with ret := .none } b.toNat x = .ok t) :
    exec (.spiDeselect b) s = .next { t with main := [] } := by
  have hb' : ({ s with ret := .none } : State).buses[b.toNat]? = some x := hb
  refine startMain_of_runs hq ((runs_spinIdle hb' .main hi).append (runs_deselectBus hb' .main hcs ht))
    (Nat.le_refl 2) ?_
  exact (releaseCs_same ht).2.2.trans hq.2.1

end

/-! ## A spin with no turn left (R25, log 23) -/

/-- A context at a spin stays at it. -/
theorem runAll_spinning {c : Side} {m : Micro} {ms : List Micro} (hp : s.prog c = m :: ms)
    (hm : micro m ms s = .wait s (m :: ms)) : runAll c s = .next s := by
  have e : s.setProg c (m :: ms) = s := by rw [← hp, setProg_self]
  have hm' : micro m ms (s.setProg c (m :: ms)) = .wait s (m :: ms) := by rw [e, hm]
  have h := runAll_of_waits (Runs.nil c s) hm' ((weight_pos _ m).trans (Nat.le_add_right ..))
  rwa [List.nil_append, e] at h

/-- An operation of MAIN whose first micro-step spins, with no turn left, is left at it. -/
theorem startMain_spinning {m : Micro} {ms : List Micro} (hq : s.quiet) (hs : s.sched = [])
    (hm : ∀ t : State, t.buses = s.buses → micro m ms t = .wait t (m :: ms)) :
    startMain (m :: ms) s = .next { s with main := m :: ms, ret := .none } := by
  have hrun : runAll .main { s with main := m :: ms, ret := .none } = .next { s with main := m :: ms, ret := .none } :=
    runAll_spinning rfl (hm _ rfl)
  have hirq : runAll .irq { s with main := m :: ms, ret := .none } = .next { s with main := m :: ms, ret := .none } :=
    runCtx_nil _ _ _ _ hq.2.1
  rw [startMain_quiet hq, hrun, andThen_next]
  calc drive s.sched { s with main := m :: ms, ret := .none }
      = runCore { s with main := m :: ms, ret := .none } := by rw [hs, drive, ← hs]
    _ = runAll .main { s with main := m :: ms, ret := .none } := by rw [runCore, hirq, andThen_next]
    _ = .next { s with main := m :: ms, ret := .none } := hrun

end Sys2Proof.Machine

open Sys2Proof Sys2Proof.Machine

/-- Settles O6: the spin passes on an idle bus, and the line moves with or without the device. -/
theorem spiSelectLine : Obligations.SpiSelectLine := by
  intro s b x hq hb hr ha
  have hi : x.idle = true := Bus.idle_iff.2 ⟨hr, ha⟩
  obtain ⟨hm, -, -⟩ := id hq
  refine ⟨fun hcs hw => ?_, fun hcs hw => ?_, fun f hcs hw hf => ?_, fun hcs hw => ?_⟩
  · rw [exec_spiSelect_idle hq hb hi hcs, assertCs_wired (s := { s with ret := .none }) hw, ← hm]
  · rw [exec_spiSelect_idle hq hb hi hcs, assertCs_unwired (s := { s with ret := .none }) hw, ← hm]
  · rw [exec_spiDeselect_idle hq hb hi hcs (releaseCs_wired hw hf), ← hm]
  · rw [exec_spiDeselect_idle hq hb hi hcs (releaseCs_unwired hw), ← hm]

/-- Settles O7: the first micro-step of both operations is the spin. -/
theorem spiSelectLineWaits : Obligations.SpiSelectLineWaits := by
  intro s b x hq hs hb h
  have hspin (ms : List Micro) (t : State) (ht : t.buses = s.buses) :
      micro (.spinIdle b.toNat) ms t = .wait t (.spinIdle b.toNat :: ms) :=
    micro_spinIdle_busy (by rw [ht, hb]) (Bus.idle_eq_false.2 h) ms
  exact ⟨startMain_spinning hq hs (hspin _), startMain_spinning hq hs (hspin _)⟩

end

section
/-! The words of a transfer (R166 to R176, R89): what crosses the bus, what is stored, and what the device answers, for
every bus, every source and every destination. -/

namespace Sys2Proof.Machine

variable {s : State} {b i k : Nat} {x : Bus} {src : Src} {dst : Dst} {sent rs ws vs : List Word}

/-! ## The state after some exchanges -/

/-- What the words `rs` leave in a bus they were received on. -/
def Bus.received (x : Bus) (dst : Dst) (rs : List Word) : Bus :=
  match dst with
  | .buf _ => x
  | .scratch => { x with scratch := rs.getLastD x.scratch }

/-- What the words `rs` leave in `BUF` when they are received from element `i` on. -/
def Dst.store (dst : Dst) (i : Nat) (rs : List Word) (m : List (Nat × Word)) : List (Nat × Word) :=
  match dst with
  | .buf q => bufFill q i rs m
  | .scratch => m

/-- The state once the words `sent` have crossed bus `b`, which is `x`, in exchange for `rs`. -/
def State.transferred (s : State) (b : Nat) (x : Bus) (dst : Dst) (i : Nat) (sent rs : List Word) (d : Nat) : State :=
  { s with
    buses := s.buses.set b (x.received dst rs)
    flash := { s.flash with frame := s.frameAfter b x sent }
    buf := dst.store i rs s.buf
    draws := d
    trace := s.trace ++ exchanges b sent rs }

@[simp] theorem received_cfg (x : Bus) (dst : Dst) (rs : List Word) : (x.received dst rs).cfg = x.cfg := by
  cases dst <;> rfl

@[simp] theorem received_cs (x : Bus) (dst : Dst) (rs : List Word) : (x.received dst rs).cs = x.cs := by
  cases dst <;> rfl

theorem received_nil (x : Bus) (dst : Dst) : x.received dst [] = x := by cases dst <;> rfl

theorem received_cons (x : Bus) (dst : Dst) (r : Word) (rs : List Word) :
    (x.received dst [r]).received dst rs = x.received dst (r :: rs) := by
  cases dst with
  | buf q => rfl
  | scratch => cases rs <;> rfl

theorem store_nil (dst : Dst) (i : Nat) (m : List (Nat × Word)) : dst.store i [] m = m := by cases dst <;> rfl

theorem store_cons (dst : Dst) (i : Nat) (r : Word) (rs : List Word) (m : List (Nat × Word)) :
    dst.store (i + 1) rs (dst.store i [r] m) = dst.store i (r :: rs) m := by cases dst <;> rfl

theorem set_eq_self_of_getElem? {α : Type} {l : List α} {i : Nat} {x : α} (h : l[i]? = some x) : l.set i x = l := by
  simpa using map_set_of_eq id h rfl

theorem frameAfter_selected (h : (s.wired b x && x.cs) = true) (ws : List Word) :
    s.frameAfter b x ws = s.flash.frame ++ ws.map (·.setWidth 8) := if_pos h

theorem frameAfter_unanswered (h : (s.wired b x && x.cs) = false) (ws : List Word) :
    s.frameAfter b x ws = s.flash.frame := if_neg (ne_true_of_eq_false h)

theorem wired_transferred (dst : Dst) (ws vs us : List Word) (d : Nat) :
    (s.transferred b x dst i ws vs d).wired b (x.received dst us) = s.wired b x := by
  simp only [State.wired, received_cfg]
  rfl

theorem frameAfter_transferred (dst : Dst) (w r : Word) (ws : List Word) (d : Nat) :
    (s.transferred b x dst i [w] [r] d).frameAfter b (x.received dst [r]) ws = s.frameAfter b x (w :: ws) := by
  have hw := wired_transferred (s := s) (b := b) (i := i) (x := x) dst [w] [r] [r] d
  cases h : s.wired b x && x.cs with
  | true =>
    rw [frameAfter_selected (by rw [hw, received_cs, h]), frameAfter_selected h]
    simp [State.transferred, frameAfter_selected h]
  | false =>
    rw [frameAfter_unanswered (by rw [hw, received_cs, h]), frameAfter_unanswered h]
    exact frameAfter_unanswered h _

theorem transferred_nil (hb : s.buses[b]? = some x) (dst : Dst) (i : Nat) :
    s.transferred b x dst i [] [] s.draws = s := by
  have hf : s.frameAfter b x [] = s.flash.frame := by simp [State.frameAfter]
  simp only [State.transferred, received_nil, set_eq_self_of_getElem? hb, store_nil, hf, exchanges,
    List.zipWith_nil_left, List.append_nil]

/-- One exchange, then the others. -/
theorem transferred_cons (dst : Dst) (w r : Word) (ws rs : List Word) (d d' : Nat) :
    (s.transferred b x dst i [w] [r] d).transferred b (x.received dst [r]) dst (i + 1) ws rs d' =
      s.transferred b x dst i (w :: ws) (r :: rs) d' := by
  have hf := frameAfter_transferred (s := s) (b := b) (i := i) (x := x) dst w r ws d
  rw [State.transferred, hf]
  simp only [State.transferred, received_cons, store_cons, exchanges, List.set_set, List.append_assoc,
    List.zipWith_cons_cons, List.zipWith_nil_left, List.singleton_append]

/-! ## What a transfer exchanges -/

/-- The `k` words from element `i` on that a transfer sends on bus `b`, which is `x`, and the words it receives: a word
of a buffer is read when those before it have been exchanged and stored (R170), and a word received inside a window of
the flash bus is the device's reply (R89). -/
structure Crosses (s : State) (b : Nat) (x : Bus) (src : Src) (dst : Dst) (i k : Nat) (sent rs : List Word) : Prop where
  sent_length : sent.length = k
  received_length : rs.length = k
  fetched : ∀ q, src = .buf q → ∀ j, j < k → sent.getD j 0 =
    busClip x.cfg.width (memGet 0 (dst.store i (rs.take j) s.buf) (q.cell (i + j)))
  replied : (s.wired b x && x.cs) = true → ∀ j, j < k → ∃ free r, rs.getD j 0 = r.toWord ∧
    s.flash.answer (s.flash.frame ++ (sent.take (j + 1)).map (·.setWidth 8)) free = .ok r

theorem Crosses.nil (s : State) (b : Nat) (x : Bus) (src : Src) (dst : Dst) (i : Nat) :
    Crosses s b x src dst i 0 [] [] := ⟨rfl, rfl, fun _ _ _ h => absurd h (Nat.not_lt_zero _),
  fun _ _ h => absurd h (Nat.not_lt_zero _)⟩

/-- One exchange has a reply to come, whether the device gives it or not (R89, R182). -/
theorem exchange_replied (hb : s.buses[b]? = some x) (hr : s.Replies b x (k + 1)) (w : Word) :
    ∃ r, s.exchange b w = .ok (r, { s with
        flash := { s.flash with frame := s.frameAfter b x [busClip x.cfg.width w] }
        draws := s.draws + 1
        trace := s.trace ++ exchanges b [busClip x.cfg.width w] [r.toWord] }) ∧
      ((s.wired b x && x.cs) = true → ∃ free,
        s.flash.answer (s.flash.frame ++ [(busClip x.cfg.width w).setWidth 8]) free = .ok r) := by
  cases h : s.wired b x && x.cs with
  | false =>
    refine ⟨.word (busClip x.cfg.width (Config.freeWord s.draws)), ?_, nofun⟩
    rw [frameAfter_unanswered h, exchange_unanswered ⟨hb, h⟩ w]
    rfl
  | true =>
    obtain ⟨r, ha⟩ := hr h (s.flash.frame ++ [(busClip x.cfg.width w).setWidth 8])
      (busClip x.cfg.width (Config.freeWord s.draws)) (List.prefix_append _ _) (by simp)
    obtain ⟨hw, hcs⟩ := Bool.and_eq_true_iff.1 h
    obtain ⟨hbus, hhas⟩ := Bool.and_eq_true_iff.1 hw
    obtain rfl := beq_iff_eq.1 hbus
    refine ⟨r, ?_, fun _ => ⟨_, ha⟩⟩
    rw [frameAfter_selected h, exchange_answered hb hcs hhas ha]
    rfl

/-- One word of a transfer. -/
theorem transferWord_crosses (hb : s.buses[b]? = some x) (hr : s.Replies b x (k + 1)) (src : Src) (dst : Dst)
    (i : Nat) :
    ∃ w r d, Crosses s b x src dst i 1 [w] [r] ∧
      s.transferWord b src dst i = .ok (s.transferred b x dst i [w] [r] d) := by
  obtain ⟨d, hd⟩ : ∃ d, (s.srcWord src i).2 = { s with draws := d } := by
    cases src <;> exact ⟨_, rfl⟩
  have hb' : ({ s with draws := d } : State).buses[b]? = some x := hb
  obtain ⟨r, he, ha⟩ := exchange_replied hb' hr (s.srcWord src i).1
  refine ⟨busClip x.cfg.width (s.srcWord src i).1, r.toWord, d + 1,
    ⟨rfl, rfl, fun q hq j hj => ?_, fun h j hj => ?_⟩, ?_⟩
  · obtain rfl : j = 0 := by omega
    subst hq
    rw [List.take_zero, store_nil]
    rfl
  · obtain rfl : j = 0 := by omega
    obtain ⟨free, ha⟩ := ha h
    exact ⟨free, r, rfl, ha⟩
  · rw [State.transferWord, hd, he]
    cases dst with
    | buf q =>
      simp only [State.transferred, Bus.received, set_eq_self_of_getElem? hb]
      rfl
    | scratch =>
      simp only [State.dstWord, hb]
      rfl

/-- What is left of the replies after one exchange. -/
theorem replies_transferred (hr : s.Replies b x (k + 1)) (dst : Dst) (w r : Word) (d : Nat) :
    (s.transferred b x dst i [w] [r] d).Replies b (x.received dst [r]) k := by
  intro h fr free hp hl
  rw [wired_transferred, received_cs] at h
  have hf : (s.transferred b x dst i [w] [r] d).flash.frame = s.flash.frame ++ [w.setWidth 8] := frameAfter_selected h _
  rw [hf] at hp hl
  exact hr h fr free ((List.prefix_append _ _).trans hp) (by simp at hl; omega)

theorem Crosses.cons {w r : Word} {d : Nat} (h₁ : Crosses s b x src dst i 1 [w] [r])
    (h₂ : Crosses (s.transferred b x dst i [w] [r] d) b (x.received dst [r]) src dst (i + 1) k sent rs) :
    Crosses s b x src dst i (k + 1) (w :: sent) (r :: rs) where
  sent_length := congrArg (· + 1) h₂.sent_length
  received_length := congrArg (· + 1) h₂.received_length
  fetched q hq j hj := by
    cases j with
    | zero => exact h₁.fetched q hq 0 (by omega)
    | succ j =>
      have h := h₂.fetched q hq j (by omega)
      rwa [received_cfg, show i + 1 + j = i + (j + 1) by omega,
        show (s.transferred b x dst i [w] [r] d).buf = dst.store i [r] s.buf from rfl, store_cons] at h
  replied h j hj := by
    cases j with
    | zero => exact h₁.replied h 0 (by omega)
    | succ j =>
      obtain ⟨free, v, hv, ha⟩ := h₂.replied (by rw [wired_transferred, received_cs, h]) j (by omega)
      have hf : (s.transferred b x dst i [w] [r] d).flash.frame = s.flash.frame ++ [w.setWidth 8] :=
        frameAfter_selected h _
      rw [hf, List.append_assoc] at ha
      exact ⟨free, v, hv, ha⟩

/-- The words of a transfer that have replies all cross the bus, and nothing else moves. -/
theorem transferAll_crosses (src : Src) (dst : Dst) (k : Nat) : ∀ {s : State} {x : Bus} (i : Nat),
    s.buses[b]? = some x → s.Replies b x k → ∃ sent rs d, Crosses s b x src dst i k sent rs ∧
      State.transferAll b src dst i k s = .ok (s.transferred b x dst i sent rs d) := by
  induction k with
  | zero => exact fun {s x} i hb _ => ⟨[], [], s.draws, .nil .., by rw [transferred_nil hb]; rfl⟩
  | succ k ih =>
    intro s x i hb hr
    obtain ⟨w, r, d, hc, hw⟩ := transferWord_crosses hb hr src dst i
    have hb' : (s.transferred b x dst i [w] [r] d).buses[b]? = some (x.received dst [r]) :=
      List.getElem?_set_self (List.getElem?_eq_some_iff.1 hb).1
    obtain ⟨sent, rs, d', hcs, hall⟩ := ih (i + 1) hb' (replies_transferred hr dst w r d)
    exact ⟨w :: sent, r :: rs, d', hc.cons hcs, by rw [transferAll_succ hw, hall, transferred_cons]⟩

/-! ## A transfer presented by itself -/

/-- A transfer of MAIN's, on a bus with no DMA transfer outstanding and between buffers that are not the block's. -/
theorem startMain_transfer {n : Nat} (hq : s.quiet) (hb : s.buses[b]? = some x) (ha : x.dma.active = false)
    (hn : 1 ≤ n) (hr : s.Replies b x n) (hf : s.mayTransfer src dst = true) :
    ∃ sent rs d, Crosses s b x src dst 0 n sent rs ∧
      startMain (transferProg b src dst n) s = .next { s.transferred b x dst 0 sent rs d with ret := .none } := by
  have hb' : ({ s with ret := .none } : State).buses[b]? = some x := hb
  obtain ⟨sent, rs, d, hc, hall⟩ := transferAll_crosses src dst n 0 hb' hr
  refine ⟨sent, rs, d, ⟨hc.sent_length, hc.received_length, hc.fetched, hc.replied⟩, ?_⟩
  obtain ⟨hm, hi, -⟩ := id hq
  refine (startMain_of_runs hq (runs_transfer hb' ha hn hf hall) ?_ hi).trans ?_
  · simp only [transferProg, progWeight, Micro.weight]
    omega
  · exact congrArg Host.Outcome.next
      (clear_main (t := State.transferred { s with ret := .none } b x dst 0 sent rs d) hm)

/-- A transfer stores nothing where it has still to read, whatever its two buffers are (R170). -/
theorem memGet_bufFill_later {m : List (Nat × Word)} (hwf : memWf 0 m = true) (q q' : BufRef) {j : Nat}
    (hj : j < 2 ^ 32) (hl : rs.length ≤ j) : memGet 0 (bufFill q' 0 rs m) (q.cell j) = memGet 0 m (q.cell j) := by
  rw [memGet_bufFill q' 0 rs hwf, if_neg]
  rintro ⟨hlow, hhigh⟩
  obtain ⟨l, hcell⟩ := Nat.exists_eq_add_of_le hlow
  have hlt : l < rs.length := by omega
  rw [← BufRef.cell_eq] at hcell
  have := (BufRef.cell_inj (fun _ => hj) (fun _ => by omega) hcell).2
  omega

/-- The words sent are those of the buffer, if the transfer does not write what it has still to read. -/
theorem Crosses.sent_eq {q : BufRef} {n : Nat} (h : Crosses s b x (.buf q) dst 0 n sent rs)
    (hd : ∀ j, j < n → memGet 0 (dst.store 0 (rs.take j) s.buf) (q.cell j) = s.bufRead q j) :
    sent = s.wordsOf x.cfg.width q n := by
  refine List.ext_getElem (by simp [State.wordsOf, h.sent_length]) fun j hj _ => ?_
  rw [h.sent_length] at hj
  have hf := h.fetched q rfl j hj
  rw [Nat.zero_add, hd j hj] at hf
  simpa [State.wordsOf, ← hf] using (List.getD_eq_getElem sent 0 (by rw [h.sent_length]; exact hj)).symm

section
variable {q : BufRef} {d : Nat}

theorem transferred_buf (hb : s.buses[b]? = some x) : s.transferred b x (.buf q) i sent rs d = { s with
    flash := { s.flash with frame := s.frameAfter b x sent }
    buf := bufFill q i rs s.buf
    draws := d
    trace := s.trace ++ exchanges b sent rs } := by
  simp only [State.transferred, Bus.received, set_eq_self_of_getElem? hb]
  rfl

/-- A transfer leaves what it received in its buffer, in order. -/
theorem bufRead_bufFill {t : State} (hwf : memWf 0 s.buf = true) (ht : t.buf = bufFill q 0 rs s.buf) {j : Nat}
    (hj : j < rs.length) : t.bufRead q j = rs.getD j 0 := by
  rw [State.bufRead, ht, memGet_bufFill q 0 rs hwf, q.cell_eq j, if_pos (by omega), Nat.add_sub_cancel_left]

theorem sameBufBut_bufFill {t : State} (hwf : memWf 0 s.buf = true) (ht : t.buf = bufFill q 0 rs s.buf) :
    sameBufBut s t q 0 rs.length := fun a ha => by
  rw [ht, memGet_bufFill q 0 rs hwf, if_neg (by omega)]

end

/-! ## The tests before a transfer (R168, log 26) -/

section
variable {n : Nat} {tx rx : BitVec 16} (hn : 1 ≤ n)
include hn

theorem exec_spiXfer (ht : bufOk s.cfg tx n = true) (hr : bufOk s.cfg rx n = true) (b : BitVec 8) :
    exec (.spiXfer b tx rx n) s = startMain (transferProg b.toNat (.buf (.user tx)) (.buf (.user rx)) n) s :=
  (need_pass (decide_eq_true hn) ..).trans (need_pass (by rw [ht, hr]; rfl) ..)

theorem exec_spiTx (ht : bufOk s.cfg tx n = true) (b : BitVec 8) :
    exec (.spiTx b tx n) s = startMain (transferProg b.toNat (.buf (.user tx)) .scratch n) s :=
  (need_pass (decide_eq_true hn) ..).trans (need_pass ht ..)

theorem exec_spiRx (hr : bufOk s.cfg rx n = true) (b : BitVec 8) :
    exec (.spiRx b rx n) s = startMain (transferProg b.toNat .filler (.buf (.user rx)) n) s :=
  (need_pass (decide_eq_true hn) ..).trans (need_pass hr ..)

end

/-- A receive-only transfer presented by itself: `n` words, whatever they are, in exchange for those stored. -/
theorem exec_spiRx_crosses {b : BitVec 8} {rx : BitVec 16} {n : Nat} (hq : s.quiet) (hb : s.buses[b.toNat]? = some x)
    (ha : x.dma.active = false) (hr : s.Replies b.toNat x n) (hn : 1 ≤ n) (hrx : bufOk s.cfg rx n = true)
    (ho : s.owned (.user rx) = false) : ∃ sent rs d,
      Crosses s b.toNat x .filler (.buf (.user rx)) 0 n sent rs ∧ exec (.spiRx b rx n) s = .next { s with
        flash := { s.flash with frame := s.frameAfter b.toNat x sent }
        buf := bufFill (.user rx) 0 rs s.buf, draws := d, ret := .none
        trace := s.trace ++ exchanges b.toNat sent rs } := by
  obtain ⟨sent, rs, d, hc, he⟩ := startMain_transfer (src := .filler) (dst := .buf (.user rx)) hq hb ha hn hr
    (by simp [State.mayTransfer, ho])
  exact ⟨sent, rs, d, hc, by rw [exec_spiRx hn hrx, he, transferred_buf hb]⟩

/-! ## The window of a read (R92) -/

theorem answer_readHeader {f : Flash} {a : BitVec 24} {n : Nat} (hbusy : f.busy = false) (ha : a.toNat + n ≤ f.capacity)
    (ext : List Byte) (hl : ext.length ≤ n) (free : Word) : ∃ r, f.answer (0x03 :: be24 a ++ ext) free = .ok r := by
  cases hk : ext.length with
  | zero => exact answer_of_short (by simp [be24, hk]) free
  | succ j => exact ⟨_, answer_read free hbusy hk (by omega)⟩

end Sys2Proof.Machine

open Sys2Proof Sys2Proof.Machine

/-- Settles O8: a word is read before anything is stored in its cell, so the words sent are those `tx` held, also when
`tx` is `rx`. -/
theorem spiXferResult : Obligations.SpiXferResult := by
  intro s b tx rx n x hq hb ha hr hn hmax htx hrx hot hor hm
  obtain ⟨-, hwf⟩ := memOk_iff.1 hm
  obtain ⟨sent, rs, d, hc, he⟩ := startMain_transfer (src := .buf (.user tx)) (dst := .buf (.user rx)) hq hb ha hn hr
    (by simp [State.mayTransfer, hot, hor])
  have hsent : sent = s.wordsOf x.cfg.width (.user tx) n := hc.sent_eq fun j hj =>
    memGet_bufFill_later hwf _ _ (by omega) (List.length_take_le ..)
  obtain ⟨-, hrl, -, -⟩ := hc
  rw [transferred_buf hb, hsent] at he
  refine ⟨_, rs, hrl, (exec_spiXfer hn htx hrx b).trans he, fun i hi => ?_, ?_, rfl⟩
  · exact bufRead_bufFill hwf rfl (by rw [hrl]; exact hi)
  · exact hrl ▸ sameBufBut_bufFill hwf rfl

/-- Settles O9: nothing is stored in `BUF`, and each word received replaces the one before in the scratch cell. -/
theorem spiTxResult : Obligations.SpiTxResult := by
  intro s b tx n x hq hb ha hr hn htx hot
  obtain ⟨sent, rs, d, hc, he⟩ := startMain_transfer (src := .buf (.user tx)) (dst := .scratch) hq hb ha hn hr
    (by simp [State.mayTransfer, hot])
  have hsent : sent = s.wordsOf x.cfg.width (.user tx) n := hc.sent_eq fun _ _ => rfl
  obtain ⟨-, hrl, -, -⟩ := hc
  have hlast : rs.getLastD x.scratch = rs.getD (n - 1) 0 := by
    rw [List.getLastD_eq_getLast?, List.getLast?_eq_getElem?, hrl, List.getD_eq_getElem?_getD,
      List.getElem?_eq_getElem (by omega)]
    rfl
  refine ⟨d, rs, hrl, ?_⟩
  rw [exec_spiTx hn htx, he, ← hsent, ← hlast]
  rfl

/-- Settles O10: the fillers are the words that crossed, and only the words received are stored. -/
theorem spiRxResult : Obligations.SpiRxResult := by
  intro s b rx n x hq hb ha hr hn hrx ho hm
  obtain ⟨-, hwf⟩ := memOk_iff.1 hm
  obtain ⟨sent, rs, d, ⟨hsl, hrl, -, -⟩, he⟩ := exec_spiRx_crosses hq hb ha hr hn hrx ho
  refine ⟨_, sent, rs, hsl, hrl, he, fun i hi => ?_, ?_, rfl⟩
  · exact bufRead_bufFill hwf rfl (by rw [hrl]; exact hi)
  · exact hrl ▸ sameBufBut_bufFill hwf rfl

/-- Settles O11: the device answers filler `j` after the header of a read with byte `j` of the span. -/
theorem spiRxInReadWindow : Obligations.SpiRxInReadWindow := by
  intro s b rx n x a hq hbus hb hhas hcs ha hbusy hfr hcap hn hrx ho hm
  obtain ⟨-, hwf⟩ := memOk_iff.1 hm
  have hsel : (s.wired b.toNat x && x.cs) = true := by simp [State.wired, hbus, hhas, hcs]
  have hr : s.Replies b.toNat x n := by
    rintro - fr free ⟨ext, rfl⟩ hl
    rw [hfr]
    exact answer_readHeader hbusy hcap ext (by simpa using hl) free
  obtain ⟨sent, rs, d, ⟨hsl, hrl, -, hreply⟩, he⟩ := exec_spiRx_crosses hq hb ha hr hn hrx ho
  refine ⟨_, he, fun j hj => ?_, hrl ▸ sameBufBut_bufFill hwf rfl, rfl, rfl⟩
  obtain ⟨free, r, hrj, hans⟩ := hreply hsel j hj
  rw [hfr, answer_read (j := j) free hbusy (by simp [hsl]; omega) (by omega)] at hans
  cases hans
  exact (bufRead_bufFill hwf rfl (by rw [hrl]; exact hj)).trans hrj

end

section
/-! The requests to the two bus engines that have no meaning (R162, R164, R168, R186, R194, U1, U2, log 15, log 26). -/

namespace Sys2Proof.Machine

variable {s : State} {x : Bus} {n : Nat}

/-! ## The tests before the first micro-step, in their order (log 26) -/

section
variable {tx rx : BitVec 16} (hn : 1 ≤ n)
include hn

theorem exec_spiXfer_short (h : bufOk s.cfg tx n = false ∨ bufOk s.cfg rx n = false) (b : BitVec 8) :
    exec (.spiXfer b tx rx n) s = .refused .shortBuffer :=
  (need_pass (decide_eq_true hn) ..).trans (need_fail (Bool.and_eq_false_iff.2 h) ..)

theorem exec_spiTx_short (h : bufOk s.cfg tx n = false) (b : BitVec 8) :
    exec (.spiTx b tx n) s = .refused .shortBuffer :=
  (need_pass (decide_eq_true hn) ..).trans (need_fail h ..)

theorem exec_spiRx_short (h : bufOk s.cfg rx n = false) (b : BitVec 8) :
    exec (.spiRx b rx n) s = .refused .shortBuffer :=
  (need_pass (decide_eq_true hn) ..).trans (need_fail h ..)

end

section
variable {tx rx : Option (BitVec 16)} (b : BitVec 8) (w : Bool)

theorem exec_dmaStart_long (h : s.cfg.dmaMax < n) : exec (.dmaStart b tx rx n w) s = .refused .dmaCount :=
  (need_pass (decide_eq_true (by omega)) ..).trans (need_fail (decide_eq_false (by omega)) ..)

variable (hn : 1 ≤ n) (hmax : n ≤ s.cfg.dmaMax)
include hn hmax

theorem exec_dmaStart_noBuffer : exec (.dmaStart b none none n w) s = .refused .noBuffer :=
  (need_pass (decide_eq_true hn) ..).trans <| (need_pass (decide_eq_true hmax) ..).trans (need_fail rfl ..)

variable (hsome : (tx.isSome || rx.isSome) = true)
include hsome

theorem exec_dmaStart_short (h : optBufOk s.cfg tx n = false ∨ optBufOk s.cfg rx n = false) :
    exec (.dmaStart b tx rx n w) s = .refused .shortBuffer :=
  (need_pass (decide_eq_true hn) ..).trans <| (need_pass (decide_eq_true hmax) ..).trans <|
    (need_pass hsome ..).trans (need_fail (Bool.and_eq_false_iff.2 h) ..)

theorem exec_dmaStart (ht : optBufOk s.cfg tx n = true) (hr : optBufOk s.cfg rx n = true) :
    exec (.dmaStart b tx rx n w) s = startMain (dmaProg b.toNat (tx.map .user) (rx.map .user) n w) s :=
  (need_pass (decide_eq_true hn) ..).trans <| (need_pass (decide_eq_true hmax) ..).trans <|
    (need_pass hsome ..).trans (need_pass (by rw [ht, hr]; rfl) ..)

end

/-! ## A bus that does not exist (R132, U2) -/

/-- Every operation of a bus begins with one of the two spins. -/
theorem startMain_absent {b : Nat} {m : Micro} {ms : List Micro} (hq : s.quiet) (hb : s.buses[b]? = none)
    (hm : m = .spinIdle b ∨ m = .spinDma b) : startMain (m :: ms) s = .refused .noInstance := by
  refine startMain_of_refuses hq (.nil _ _) ?_ ((weight_pos _ m).trans (Nat.le_add_right ..))
  obtain rfl | rfl := hm
  · exact withBus_of_none hb _
  · exact withBus_of_none hb _

theorem busHandler_absent {b : BitVec 8} (hb : s.buses[b.toNat]? = none) (ready : Bus → Bool)
    (p : Nat → List Micro) : busHandler b ready p s = .refused .noInstance := by rw [busHandler, hb]

theorem busStep_absent {b : BitVec 8} (hb : s.buses[b.toNat]? = none) (k : Bus → Out) :
    busStep b k s = .refused .noInstance := by rw [busStep, hb]

/-! ## The tests after the spin -/

theorem mayTransfer_src {q : BufRef} (h : s.owned q = true) (dst : Dst) : s.mayTransfer (.buf q) dst = false := by
  simp [State.mayTransfer, h]

theorem mayTransfer_dst {q : BufRef} (h : s.owned q = true) (src : Src) : s.mayTransfer src (.buf q) = false := by
  simp [State.mayTransfer, h]

theorem mayRequest_tx {q : BufRef} (h : s.owned q = true) (rx : Option BufRef) : s.mayRequest (some q) rx = false := by
  simp [State.mayRequest, h]

theorem mayRequest_rx {q : BufRef} (h : s.owned q = true) (tx : Option BufRef) : s.mayRequest tx (some q) = false := by
  simp [State.mayRequest, h]

section
variable {b : Nat} (hb : s.buses[b]? = some x)
include hb

theorem micro_selectBus_selected (hcs : x.cs = true) (ms : List Micro) :
    micro (.selectBus b) ms s = .refuse .alreadySelected := (withBus_of_some hb _).trans (if_pos hcs)

theorem micro_deselectBus_unselected (hcs : x.cs = false) (ms : List Micro) :
    micro (.deselectBus b) ms s = .refuse .notSelected :=
  (withBus_of_some hb _).trans (if_neg (ne_true_of_eq_false hcs))

theorem micro_dmaStage_rxq {tx rx : Option BufRef} (hn : n ≤ s.cfg.dmaMax) (hr : x.rxq ≠ []) (ms : List Micro) :
    micro (.dmaStage b tx rx n) ms s = .refuse .rxqNotEmpty := by
  simp [micro, stepDmaStage, withBus, hb, hr, Nat.not_lt.2 hn]

end

/-- An operation of MAIN whose second micro-step has no meaning. -/
theorem startMain_refused_second {m m' : Micro} {ms : List Micro} {r : Refusal} (hq : s.quiet)
    (hm : Runs .main [m] 1 { s with ret := .none } { s with ret := .none })
    (hm' : micro m' ms { s with main := m' :: ms, ret := .none } = .refuse r) :
    startMain (m :: m' :: ms) s = .refused r := by
  refine startMain_of_refuses hq hm hm' (Nat.lt_of_lt_of_le ?_ (length_le_progWeight _ _))
  exact Nat.succ_lt_succ (Nat.succ_pos _)

section
variable {b : BitVec 8} (hq : s.quiet) (hb : s.buses[b.toNat]? = some x)
include hq hb

theorem exec_spiSelect_selected (hi : x.idle = true) (hcs : x.cs = true) :
    exec (.spiSelect b) s = .refused .alreadySelected :=
  startMain_refused_second hq (runs_spinIdle (s := { s with ret := .none }) hb .main hi)
    (micro_selectBus_selected (s := { s with main := _, ret := .none }) hb hcs _)

theorem exec_spiDeselect_unselected (hi : x.idle = true) (hcs : x.cs = false) :
    exec (.spiDeselect b) s = .refused .notSelected :=
  startMain_refused_second hq (runs_spinIdle (s := { s with ret := .none }) hb .main hi)
    (micro_deselectBus_unselected (s := { s with main := _, ret := .none }) hb hcs _)

variable (ha : x.dma.active = false)
include ha

/-- A transfer that uses a buffer of the block's is refused at its first exchange (U1, R186). -/
theorem startMain_transfer_owned {src : Src} {dst : Dst} (h : s.mayTransfer src dst = false) (n : Nat) :
    startMain (transferProg b.toNat src dst n) s = .refused .bufferOwned :=
  startMain_refused_second hq (runs_spinDma (s := { s with ret := .none }) hb .main ha)
    (micro_xfer_owned (s := { s with main := _, ret := .none }) h _ _ _)

section
variable {tx rx : Option BufRef} (hmax : n ≤ s.cfg.dmaMax) (w : Bool)
include hmax

theorem startMain_dma_rxq (hr : x.rxq ≠ []) :
    startMain (dmaProg b.toNat tx rx n w) s = .refused .rxqNotEmpty :=
  startMain_refused_second hq (runs_spinDma (s := { s with ret := .none }) hb .main ha)
    (micro_dmaStage_rxq (s := { s with main := _, ret := .none }) hb hmax hr _)

theorem startMain_dma_owned (hr : x.rxq = []) (h : s.mayRequest tx rx = false) :
    startMain (dmaProg b.toNat tx rx n w) s = .refused .bufferOwned :=
  startMain_refused_second hq (runs_spinDma (s := { s with ret := .none }) hb .main ha)
    (micro_dmaStage_owned (s := { s with main := _, ret := .none }) hb hr hmax h _)

end

end

end Sys2Proof.Machine

open Sys2Proof Sys2Proof.Machine

/-- Settles O12: the tests before the first micro-step, then the spin, which finds that the bus does not exist, then
the tests of the micro-step after it. -/
theorem busRefusals : Obligations.BusRefusals := by
  intro s b tx rx n w hq
  refine ⟨rfl, rfl, rfl, fun hn h => exec_spiXfer_short hn h b, fun hn h => exec_spiTx_short hn h b,
    fun hn h => exec_spiRx_short hn h b, fun _ _ => ⟨rfl, exec_dmaStart_long b w⟩, exec_dmaStart_noBuffer b w,
    ?short, ?present, ?absent⟩
  case short =>
    rintro otx orx hn hmax (⟨rfl, h⟩ | ⟨rfl, h⟩)
    · exact exec_dmaStart_short b w hn hmax rfl (.inl h)
    · exact exec_dmaStart_short b w hn hmax (Bool.or_true _) (.inr h)
  case present =>
    intro x hb ha
    refine ⟨fun hr => exec_spiSelect_selected hq hb (Bus.idle_iff.2 ⟨hr, ha⟩),
      fun hr => exec_spiDeselect_unselected hq hb (Bus.idle_iff.2 ⟨hr, ha⟩), fun hn ht hr ho => ?_, fun hn ht ho => ?_,
      fun hn hr ho => ?_, fun otx orx hn hmax hsome ht hr => ?_⟩
    · rw [exec_spiXfer hn ht hr]
      exact startMain_transfer_owned hq hb ha (ho.elim (mayTransfer_src · _) (mayTransfer_dst · _)) n
    · rw [exec_spiTx hn ht]
      exact startMain_transfer_owned hq hb ha (mayTransfer_src ho _) n
    · rw [exec_spiRx hn hr]
      exact startMain_transfer_owned hq hb ha (mayTransfer_dst ho _) n
    · rw [exec_dmaStart b w hn hmax hsome ht hr]
      refine ⟨startMain_dma_rxq hq hb ha hmax w, fun hrxq ho => startMain_dma_owned hq hb ha hmax w hrxq ?_⟩
      obtain ⟨rfl, ho⟩ | ⟨rfl, ho⟩ := ho
      · exact mayRequest_tx ho _
      · exact mayRequest_rx ho _
  case absent =>
    intro hb
    refine ⟨?_, fun hn ht => ⟨?_, fun hr => ?_⟩, fun hn hr => ?_, fun otx orx hn hmax hsome ht hr => ?_⟩
    · simp only [List.forall_mem_cons, List.not_mem_nil, false_implies, implies_true, and_true, exec]
      exact ⟨startMain_absent hq hb (.inl rfl), startMain_absent hq hb (.inl rfl), startMain_absent hq hb (.inr rfl),
        busHandler_absent hb .., busHandler_absent hb .., busStep_absent hb _, busStep_absent hb _⟩
    · rw [exec_spiTx hn ht]
      exact startMain_absent hq hb (.inr rfl)
    · rw [exec_spiXfer hn ht hr]
      exact startMain_absent hq hb (.inr rfl)
    · rw [exec_spiRx hn hr]
      exact startMain_absent hq hb (.inr rfl)
    · rw [exec_dmaStart b w hn hmax hsome ht hr]
      exact startMain_absent hq hb (.inr rfl)

end

section
/-! What the eight handlers leave alone (R186, R320, R384): their micro-steps, one by one, and a context that has no
others. -/

namespace Sys2Proof.Machine

variable {s t : State} {ms : List Micro}

/-! ## What a handler leaves alone -/

/-- A micro-step of one of the eight handlers (R126). -/
def Micro.handles : Micro → Bool
  | .rxLevel .. | .rxTimeout _ | .rxFlush .. | .txDrain _ | .dmaRxDone _ | .dmaTxDone _ => true
  | .uartDmaDone _ | .eot _ | .lineError _ => true
  | _ => false

/-- The select line, the scratch cell and the received words of a bus: all of it but its configuration and its DMA
engine. -/
def Bus.transferPart (x : Bus) : Bool × Word × List Word := (x.cs, x.scratch, x.rxq)

/-- Between `s` and `t` only what a handler may touch has changed. -/
structure HandlerFrame (s t : State) : Prop where
  fl : t.fl = s.fl
  flash : t.flash = s.flash
  main : t.main = s.main
  ret : t.ret = s.ret
  irqRets : t.irqRets = s.irqRets
  rings : t.rings = s.rings
  buses : t.buses.map Bus.transferPart = s.buses.map Bus.transferPart

theorem HandlerFrame.refl (s : State) : HandlerFrame s s := ⟨rfl, rfl, rfl, rfl, rfl, rfl, rfl⟩

theorem HandlerFrame.trans {u : State} (h : HandlerFrame s t) (k : HandlerFrame t u) : HandlerFrame s u :=
  ⟨k.fl.trans h.fl, k.flash.trans h.flash, k.main.trans h.main, k.ret.trans h.ret, k.irqRets.trans h.irqRets,
    k.rings.trans h.rings, k.buses.trans h.buses⟩

theorem handlerFrame_setUart (s : State) (u : Nat) (x : Uart) : HandlerFrame s (s.setUart u x) :=
  ⟨rfl, rfl, rfl, rfl, rfl, rfl, rfl⟩

theorem handlerFrame_emit (s : State) (e : Event) : HandlerFrame s (s.emit e) := ⟨rfl, rfl, rfl, rfl, rfl, rfl, rfl⟩

theorem handlerFrame_setIrq (s : State) (p : List Micro) : HandlerFrame s { s with irq := p } :=
  ⟨rfl, rfl, rfl, rfl, rfl, rfl, rfl⟩

theorem handlerFrame_setBus {b : Nat} {x y : Bus} (hx : s.buses[b]? = some x) (h : y.transferPart = x.transferPart) :
    HandlerFrame s (s.setBus b y) := ⟨rfl, rfl, rfl, rfl, rfl, rfl, map_set_of_eq _ hx h⟩

theorem handlerFrame_reportDropped (s : State) (u : Nat) (cb : Callbacks) (d : Bool) :
    HandlerFrame s (s.reportDropped u cb d) := by
  cases d
  · exact .refl s
  · exact handlerFrame_emit s _

theorem handlerFrame_reportLine (s : State) (u : Nat) (x : Uart) : HandlerFrame s (s.reportLine u x) :=
  ⟨rfl, rfl, rfl, rfl, rfl, rfl, rfl⟩

theorem handlerFrame_rxTake (s : State) (u : Nat) (x : Uart) (b : Byte) (rest : List Byte) :
    HandlerFrame s (s.rxTake u x b rest).1 := by
  rw [State.rxTake]
  split
  · exact ⟨rfl, rfl, rfl, rfl, rfl, rfl, rfl⟩
  · exact handlerFrame_setUart ..

/-! ## One micro-step -/

/-- A micro-step with `ms` behind it keeps the frame, does not wait, and puts before `ms` only handlers' micro-steps. -/
def MRes.Handles (o : MRes) (ms : List Micro) (s : State) : Prop :=
  match o with
  | .more t p => HandlerFrame s t ∧ ∃ q, p = q ++ ms ∧ q.all Micro.handles = true
  | .wait _ _ => False
  | .refuse _ => True

theorem handles_done (h : HandlerFrame s t) : (MRes.more t ms).Handles ms s := ⟨h, [], rfl, rfl⟩

theorem handles_next {m : Micro} (h : HandlerFrame s t) (hm : m.handles = true) :
    (MRes.more t (m :: ms)).Handles ms s :=
  ⟨h, [m], rfl, by rw [List.all_cons, hm]; rfl⟩

theorem handles_withBus {b : Nat} {k : Bus → MRes} (h : ∀ x, s.buses[b]? = some x → (k x).Handles ms s) :
    (withBus s b k).Handles ms s := by
  unfold withBus
  split
  · exact h _ ‹_›
  · trivial

theorem handles_withUart {u : Nat} {k : Uart → MRes} (h : ∀ x, (k x).Handles ms s) : (withUart s u k).Handles ms s := by
  unfold withUart
  split
  · exact h _
  · trivial

theorem handles_rxLevel (u left : Nat) (d : Bool) : (stepRxLevel u left d ms s).Handles ms s := by
  refine handles_withUart fun x => ?_
  split
  · exact handles_done (handlerFrame_reportDropped ..)
  · split
    · trivial
    · exact handles_next (handlerFrame_rxTake ..) rfl

theorem handles_rxFlush (u : Nat) (d : Bool) : (stepRxFlush u d ms s).Handles ms s := by
  refine handles_withUart fun x => ?_
  split
  · exact handles_done (((handlerFrame_reportDropped ..).trans (handlerFrame_emit ..)).trans (handlerFrame_setUart ..))
  · exact handles_next (handlerFrame_rxTake ..) rfl

theorem handles_txDrain (u : Nat) : (stepTxDrain u ms s).Handles ms s := by
  refine handles_withUart fun x => ?_
  split
  · exact handles_done (.refl s)
  · split
    · exact handles_done (handlerFrame_setUart ..)
    · exact handles_next (handlerFrame_setUart ..) rfl

/-- Every micro-step of a handler keeps the frame. -/
theorem handles_micro {m : Micro} (hm : m.handles = true) (ms : List Micro) (s : State) :
    (micro m ms s).Handles ms s := by
  cases m with
  | rxLevel u left d => exact handles_rxLevel u left d
  | rxTimeout u => exact handles_withUart fun x => handles_done (handlerFrame_setUart ..)
  | rxFlush u d => exact handles_rxFlush u d
  | txDrain u => exact handles_txDrain u
  | dmaRxDone b | dmaTxDone b => exact handles_withBus fun x hx => handles_done (handlerFrame_setBus hx rfl)
  | uartDmaDone u => exact handles_withUart fun x => handles_done (handlerFrame_setUart ..)
  | eot u => exact handles_withUart fun x => handles_done ((handlerFrame_setUart ..).trans (handlerFrame_emit ..))
  | lineError u =>
    exact handles_withUart fun x => handles_done ((handlerFrame_reportLine ..).trans (handlerFrame_setUart ..))
  | _ => cases hm

/-! ## A whole handler -/

/-- The next state, if there is one, keeps the frame. -/
def KeepsFrame (s : State) (o : Out) : Prop := ∀ t, o = .next t → HandlerFrame s t

theorem keepsFrame_next (h : HandlerFrame s t) : KeepsFrame s (.next t) := fun _ e => by cases e; exact h

theorem keepsFrame_refused (s : State) (r : Refusal) : KeepsFrame s (.refused r) := fun _ e => by cases e

theorem KeepsFrame.trans {o : Out} (h : HandlerFrame s t) (k : KeepsFrame t o) : KeepsFrame s o :=
  fun u e => h.trans (k u e)

theorem keepsFrame_runCtx (stop : Bool) (n : Nat) : ∀ {s : State}, s.irq.all Micro.handles = true →
    KeepsFrame s (runCtx stop .irq n s) := by
  induction n with
  | zero => exact fun _ => keepsFrame_next (.refl _)
  | succ n ih =>
    intro s hs
    rw [runCtx]
    split
    · exact keepsFrame_next (.refl s)
    · rename_i m ms hp
      have hirq : s.irq = m :: ms := hp
      rw [hirq, List.all_cons, Bool.and_eq_true] at hs
      obtain ⟨hm, hms⟩ := hs
      have h := handles_micro hm ms s
      split
      · rename_i t p ht
        rw [ht] at h
        obtain ⟨hframe, q, rfl, hq⟩ := h
        have hall : (q ++ ms).all Micro.handles = true := by rw [List.all_append, hq, hms]; rfl
        exact .trans (hframe.trans (handlerFrame_setIrq t _)) (ih hall)
      · rename_i t p ht
        rw [ht] at h
        exact h.elim
      · exact keepsFrame_refused s _

/-- A handler that starts, or a turn in which it does not. -/
theorem keepsFrame_dispatchIrq {p : List Micro} (hp : p.all Micro.handles = true) (ready : Bool) (s : State) :
    KeepsFrame s (dispatchIrq ready p s) := by
  unfold dispatchIrq
  split
  · rename_i h
    obtain ⟨-, hi⟩ := Bool.and_eq_true_iff.1 h
    have hirq : (s.enterIrq p).irq = p := by rw [enterIrq_irq, List.isEmpty_iff.1 hi, List.nil_append]
    have henter : HandlerFrame s (s.enterIrq p) := handlerFrame_setIrq s _
    unfold startIrq launch
    split
    · exact keepsFrame_next henter
    · exact .trans henter (keepsFrame_runCtx _ _ (by rw [hirq, hp]))
  · exact keepsFrame_next (.refl s)

theorem keepsFrame_busHandler {p : Nat → List Micro} (hp : ∀ b, (p b).all Micro.handles = true) (b : BitVec 8)
    (ready : Bus → Bool) (s : State) : KeepsFrame s (busHandler b ready p s) := by
  unfold busHandler
  split
  · exact keepsFrame_dispatchIrq (hp _) _ s
  · exact keepsFrame_refused s _

theorem keepsFrame_uartHandler {p : Nat → List Micro} (hp : ∀ u, (p u).all Micro.handles = true) (u : BitVec 8)
    (ready : Uart → Bool) (s : State) : KeepsFrame s (uartHandler u ready p s) := by
  unfold uartHandler
  split
  · exact keepsFrame_dispatchIrq (hp _) _ s
  · exact keepsFrame_refused s _

/-- The eight handlers (R126, R366). -/
def handlersOf (n : BitVec 8) : List Instr :=
  [.evDmaRxDone n, .evDmaTxDone n, .evUartRxLevel n, .evUartRxTimeout n, .evUartTxLevel n, .evUartLineError n,
    .evUartDmaDone n, .evUartEot n]

theorem keepsFrame_exec (n : BitVec 8) (s : State) : ∀ i ∈ handlersOf n, KeepsFrame s (exec i s) := by
  simp only [handlersOf, List.forall_mem_cons, List.not_mem_nil, false_implies, implies_true, and_true, exec]
  exact ⟨keepsFrame_busHandler (fun _ => rfl) n _ s, keepsFrame_busHandler (fun _ => rfl) n _ s,
    keepsFrame_uartHandler (fun _ => rfl) n _ s, keepsFrame_uartHandler (fun _ => rfl) n _ s,
    keepsFrame_uartHandler (fun _ => rfl) n _ s, keepsFrame_uartHandler (fun _ => rfl) n _ s,
    keepsFrame_uartHandler (fun _ => rfl) n _ s, keepsFrame_uartHandler (fun _ => rfl) n _ s⟩

end Sys2Proof.Machine

open Sys2Proof Sys2Proof.Machine

/-- Settles O59: a handler's context holds micro-steps of handlers alone, and each of them keeps the frame. -/
theorem handlersLeaveFlash : Obligations.HandlersLeaveFlash := by
  intro i s t n hi ht
  obtain ⟨hfl, hflash, hmain, hret, hirqRets, hrings, hbuses⟩ := keepsFrame_exec n s i hi t ht
  exact ⟨hfl, hflash, hmain, hret, hirqRets, hrings, hbuses⟩

end

section
/-! The steps of a DMA transfer one by one: an element sent, an element taken, and the two completion handlers (R204 to
R207). -/

namespace Sys2Proof.Machine

variable {s : State} {x : Bus}

/-! ## The completion handlers (R206, R207) -/

/-- What `EV.DMA_RX_DONE` leaves of the bus (R206). -/
def Bus.rxDone (x : Bus) : Bus :=
  { x with dma := { x.dma with rxIrq := false, rxEn := false, active := x.dma.active && x.dma.txEn } }

/-- What `EV.DMA_TX_DONE` leaves of the bus (R207). -/
def Bus.txDone (x : Bus) : Bus :=
  { x with dma := { x.dma with txIrq := false, txEn := false, active := x.dma.active && x.dma.rxEn } }

/-- The two handlers may run in either order (R207). -/
theorem Bus.txDone_rxDone (x : Bus) : x.txDone.rxDone = x.rxDone.txDone := by
  simp [Bus.txDone, Bus.rxDone]

section
variable {b : Nat} (hb : s.buses[b]? = some x)
include hb

theorem runs_dmaRxDone : Runs .irq [.dmaRxDone b] 1 s (s.setBus b x.rxDone) :=
  Runs.step fun q ms => withBus_of_some (by rw [setProg_buses, hb]) _

theorem runs_dmaTxDone : Runs .irq [.dmaTxDone b] 1 s (s.setBus b x.txDone) :=
  Runs.step fun q ms => withBus_of_some (by rw [setProg_buses, hb]) _

end

/-- A bus handler of one micro-step, ready and undisturbed. -/
theorem busHandler_of_runs {b : BitVec 8} {ready : Bus → Bool} {m : Nat → Micro} {y : Bus}
    (hb : s.buses[b.toNat]? = some x) (hi : s.irq = []) (hs : s.sliced = false) (hr : ready x = true)
    (h : Runs .irq [m b.toNat] 1 s (s.setBus b.toNat y)) :
    busHandler b ready (fun n => [m n]) s = .next (s.setBus b.toNat y) := by
  rw [busHandler, hb]
  dsimp only
  rw [hr, dispatchIrq_of_runs hi hs h (length_le_progWeight _ [m b.toNat]),
    clear_irq (t := s.setBus b.toNat y) hi]

section
variable {b : BitVec 8} (hb : s.buses[b.toNat]? = some x) (hi : s.irq = []) (hs : s.sliced = false)
include hb hi hs

theorem execEvDmaRxDone_ready (h : x.dma.rxIrq = true) :
    execEvDmaRxDone b s = .next (s.setBus b.toNat x.rxDone) :=
  busHandler_of_runs hb hi hs h (runs_dmaRxDone hb)

theorem execEvDmaTxDone_ready (h : x.dma.txIrq = true) :
    execEvDmaTxDone b s = .next (s.setBus b.toNat x.txDone) :=
  busHandler_of_runs hb hi hs h (runs_dmaTxDone hb)

end

/-- A bus that has been replaced is the new one. -/
theorem setBus_self {b : Nat} {y : Bus} (hb : s.buses[b]? = some x) : (s.setBus b y).buses[b]? = some y :=
  List.getElem?_set_self (List.getElem?_eq_some_iff.1 hb).1

theorem setBus_setBus (s : State) (b : Nat) (x y : Bus) : (s.setBus b x).setBus b y = s.setBus b y := by
  simp only [State.setBus, List.set_set]

/-! ## The channels (R204, R205) -/

/-- The word a transfer sends next crosses the bus in exchange for one that is not stored yet. -/
theorem exchange_crosses {b k : Nat} (hb : s.buses[b]? = some x) (hr : s.Replies b x (k + 1)) (src : Src) (dst : Dst)
    (i : Nat) :
    ∃ w r d, Crosses s b x src dst i 1 [w] [r.toWord] ∧
      (s.srcWord src i).2.exchange b (s.srcWord src i).1 = .ok (r, { s with
        flash := { s.flash with frame := s.frameAfter b x [w] }
        draws := d
        trace := s.trace ++ exchanges b [w] [r.toWord] }) := by
  obtain ⟨d, hd⟩ : ∃ d, (s.srcWord src i).2 = { s with draws := d } := by
    cases src <;> exact ⟨_, rfl⟩
  obtain ⟨r, he, ha⟩ := exchange_replied (s := { s with draws := d }) hb hr (s.srcWord src i).1
  refine ⟨busClip x.cfg.width (s.srcWord src i).1, r, d + 1, ⟨rfl, rfl, fun q hq j hj => ?_, fun h j hj => ?_⟩, ?_⟩
  · obtain rfl : j = 0 := by omega
    subst hq
    rw [List.take_zero, store_nil]
    rfl
  · obtain rfl : j = 0 := by omega
    obtain ⟨free, ha⟩ := ha h
    exact ⟨free, r, rfl, ha⟩
  · rw [hd, he]
    rfl

/-- An enabled `CH_TX` sends what its descriptor names as element `i` of a transfer (R205). -/
theorem envDmaTxMove_crosses {b : BitVec 8} {k : Nat} {src : Src} {i : Nat} (hb : s.buses[b.toNat]? = some x)
    (he : x.txMoveEnabled s.cfg.busFifoDepth = true) (hr : s.Replies b.toNat x (k + 1)) (dst : Dst)
    (hw : s.srcWord (x.dma.txDesc.srcOf (x.dma.txDesc.count - x.dma.txLeft)).1
      (x.dma.txDesc.srcOf (x.dma.txDesc.count - x.dma.txLeft)).2 = s.srcWord src i) :
    ∃ w r d, Crosses s b.toNat x src dst i 1 [w] [r] ∧ execEnvDmaTxMove b s = .next { s with
      buses := s.buses.set b.toNat (x.txMoved r)
      flash := { s.flash with frame := s.frameAfter b.toNat x [w] }
      draws := d
      trace := s.trace ++ exchanges b.toNat [w] [r] } := by
  obtain ⟨w, r, d, hc, hx⟩ := exchange_crosses hb hr src dst i
  refine ⟨w, r.toWord, d, hc, (busStep_of_some hb _).trans ((if_pos he).trans ?_)⟩
  simp only [hw, hx]
  rfl

theorem Bus.txMoveEnabled_iff {depth : Nat} : x.txMoveEnabled depth = true ↔
    x.dma.txEn = true ∧ 0 < x.dma.txLeft ∧ x.rxq.length < depth := by
  rw [txMoveEnabled, Bool.and_eq_true, Bool.and_eq_true, decide_eq_true_iff, decide_eq_true_iff, and_assoc]

/-- An enabled `CH_RX` takes the oldest word to where its descriptor puts the next element (R204). -/
theorem envDmaRxMove_enabled {b : BitVec 8} {r : Word} {rest : List Word} (hb : s.buses[b.toNat]? = some x)
    (he : x.dma.rxEn = true) (hl : 0 < x.dma.rxLeft) (hq : x.rxq = r :: rest) :
    execEnvDmaRxMove b s = .next ((s.setBus b.toNat (x.rxMoved rest)).dstWord b.toNat
      (x.dma.rxDesc.dstOf (x.dma.rxDesc.count - x.dma.rxLeft)).1
      (x.dma.rxDesc.dstOf (x.dma.rxDesc.count - x.dma.rxLeft)).2 r) := by
  have hen : x.rxMoveEnabled = true := by simp [Bus.rxMoveEnabled, he, hl, hq]
  refine (busStep_of_some hb _).trans ((if_pos hen).trans ?_)
  rw [hq]

/-- What a taken word leaves of the bus, when it goes to the scratch cell. -/
theorem dstWord_scratch {b : Nat} (hb : s.buses[b]? = some x) (i : Nat) (r : Word) :
    s.dstWord b .scratch i r = s.setBus b { x with scratch := r } := by
  rw [State.dstWord, hb]

end Sys2Proof.Machine

open Sys2Proof Sys2Proof.Machine

/-- Settles O16: the exchange is that of the element the descriptor names. -/
theorem dmaTxMoveResult : Obligations.DmaTxMoveResult := by
  intro s b x hb he hl hd hr
  obtain ⟨w, r, d, ⟨-, -, hfetched, -⟩, hx⟩ := envDmaTxMove_crosses hb (Bus.txMoveEnabled_iff.2 ⟨he, hl, hd⟩) hr
    .scratch rfl
  refine ⟨w, r, d, fun q hq hinc => ?_, hx⟩
  have h := hfetched q (by rw [Desc.srcOf, hq]) 0 Nat.one_pos
  rw [List.take_zero, store_nil] at h
  simpa [Desc.srcOf, hq, hinc, State.bufRead] using h

/-- Settles O17: the word goes where the descriptor says, and one write of `BUF` changes one cell. -/
theorem dmaRxMoveResult : Obligations.DmaRxMoveResult := by
  intro s b x r rest hb he hl hq hm
  obtain ⟨-, hwf⟩ := memOk_iff.1 hm
  have hx := envDmaRxMove_enabled hb he hl hq
  refine ⟨_, rfl, fun hdst => ?_, fun q hdst hinc => ?_⟩
  · rw [Desc.dstOf, hdst, dstWord_scratch (setBus_self hb), setBus_setBus] at hx
    exact hx
  · rw [Desc.dstOf, hdst] at hx
    simp only [hinc, if_true, Nat.zero_add] at hx
    refine ⟨_, hx, rfl, bufRead_bufWrite_self hwf .., fun a ha => memGet_memSet_of_ne hwf r (by omega)⟩

/-- Settles O18: each handler is one micro-step, and of two that run the second finds the other channel disabled. -/
theorem dmaDoneResult : Obligations.DmaDoneResult := by
  intro s b x hi hs hb
  refine ⟨fun h => ?_, fun h => ?_, fun hrx htx => ?_⟩
  · rw [Bool.if_false_right, Bool.and_comm, Bool.decide_eq_true]
    exact execEvDmaRxDone_ready hb hi hs h
  · rw [Bool.if_false_right, Bool.and_comm, Bool.decide_eq_true]
    exact execEvDmaTxDone_ready hb hi hs h
  · have hrxFirst : exec (.evDmaRxDone b) s = .next (s.setBus b.toNat x.rxDone) :=
      execEvDmaRxDone_ready hb hi hs hrx
    have htxFirst : exec (.evDmaTxDone b) s = .next (s.setBus b.toNat x.txDone) :=
      execEvDmaTxDone_ready hb hi hs htx
    have htxSecond : exec (.evDmaTxDone b) (s.setBus b.toNat x.rxDone) = .next (s.setBus b.toNat x.rxDone.txDone) :=
      (execEvDmaTxDone_ready (x := x.rxDone) (setBus_self hb) hi hs htx).trans (by rw [setBus_setBus])
    have hrxSecond : exec (.evDmaRxDone b) (s.setBus b.toNat x.txDone) = .next (s.setBus b.toNat x.txDone.rxDone) :=
      (execEvDmaRxDone_ready (x := x.txDone) (setBus_self hb) hi hs hrx).trans (by rw [setBus_setBus])
    rw [hrxFirst, htxFirst, andThen_next, andThen_next, htxSecond, hrxSecond, Bus.txDone_rxDone]

end

section
/-! `DMA.START`, `DMA.WAIT` and `UART.DMA_WAIT` (R192 to R202, R251): what a request stages, and an operation that waits
at a spin. -/

namespace Sys2Proof.Machine

variable {s t : State} {x : Bus}

/-! ## An operation that comes to a spin (R378, log 23) -/

/-- The spin `m`, with `ms` behind it, does not pass in `s`, whatever its context has still to do. -/
def Spins (m : Micro) (ms : List Micro) (s : State) : Prop :=
  ∀ c q, micro m ms (s.setProg c q) = .wait (s.setProg c q) (m :: ms)

section
variable {p ms : List Micro} {m : Micro} (hq : s.quiet) (h : Runs .main p p.length { s with ret := .none } t)
  (hm : Spins m ms t)
include hq h hm

/-- An operation of MAIN whose micro-steps `p` lead to a spin waits there, and the schedule goes on. -/
theorem startMain_to_spin : startMain (p ++ m :: ms) s = drive t.sched { t with main := m :: ms } := by
  refine startMain_of_waits (u := t.setProg .main (m :: ms)) hq h (hm .main _)
    (Nat.lt_of_lt_of_le ?_ (length_le_progWeight _ _))
  simp

/-- With no turn left it is left at the spin. -/
theorem startMain_left_at_spin (hi : t.irq = []) (hs : t.sched = []) :
    startMain (p ++ m :: ms) s = .next { t with main := m :: ms } := by
  have hirq : runAll .irq { t with main := m :: ms } = .next { t with main := m :: ms } := runCtx_nil _ _ _ _ hi
  calc startMain (p ++ m :: ms) s = drive t.sched { t with main := m :: ms } := startMain_to_spin hq h hm
    _ = runCore { t with main := m :: ms } := by rw [hs, drive, ← hs]
    _ = runAll .main { t with main := m :: ms } := by rw [runCore, hirq, andThen_next]
    _ = .next { t with main := m :: ms } := runAll_spinning rfl (hm .main _)

end

/-! ## The two spins of a wait (R202, R251) -/

theorem spins_spinDma {b : Nat} (hb : s.buses[b]? = some x) (ha : x.dma.active = true) (ms : List Micro) :
    Spins (.spinDma b) ms s := fun c q => (withBus_of_some (by rw [setProg_buses, hb]) _).trans (if_pos ha)

theorem withUart_of_some {u : Nat} {y : Uart} (hu : s.uarts[u]? = some y) (k : Uart → MRes) : withUart s u k = k y := by
  rw [withUart, hu]

section
variable {u : Nat} {y : Uart} (hu : s.uarts[u]? = some y)
include hu

theorem runs_spinUart (c : Side) (hb : y.dmaBusy = false) : Runs c [.spinUart u] 1 s s :=
  Runs.step fun q ms => (withUart_of_some (by rw [setProg_uarts, hu]) _).trans (if_neg (ne_true_of_eq_false hb))

theorem spins_spinUart (hb : y.dmaBusy = true) (ms : List Micro) : Spins (.spinUart u) ms s :=
  fun c q => (withUart_of_some (by rw [setProg_uarts, hu]) _).trans (if_pos hb)

end

/-- An operation that is one spin, which passes. -/
theorem startMain_spin_passes {m : Micro} (hq : s.quiet)
    (h : Runs .main [m] 1 { s with ret := .none } { s with ret := .none }) :
    startMain [m] s = .next { s with ret := .none } := by
  obtain ⟨hm, hi, -⟩ := id hq
  rw [startMain_of_runs hq h (length_le_progWeight _ [m]) hi, clear_main (t := { s with ret := .none }) hm]

/-- An operation that is one spin, which does not pass with no turn left. -/
theorem startMain_spin_waits {m : Micro} (hq : s.quiet) (hs : s.sched = []) (h : Spins m [] { s with ret := .none }) :
    startMain [m] s = .next { s with main := [m], ret := .none } :=
  startMain_left_at_spin hq (Runs.nil _ _) h hq.2.1 hs

/-- `UART.DMA_WAIT` in the two states that admit it (R226). -/
theorem exec_uartDmaWait {u : BitVec 8} {y : Uart} (hu : s.uarts[u.toNat]? = some y)
    (h : y.mode = .interruptBound ∨ y.mode = .dmaTransmitting) :
    exec (.uartDmaWait u) s = startMain [.spinUart u.toNat] s := by
  have hok : (y.mode == .interruptBound || y.mode == .dmaTransmitting) = true := by
    rw [Bool.or_eq_true, beq_iff_eq, beq_iff_eq]
    exact h
  have hop : exec (.uartDmaWait u) s = uartOp u (fun m => m == .interruptBound || m == .dmaTransmitting)
    (fun _ => startMain [.spinUart u.toNat] s) s := rfl
  rw [hop, uartOp, hu]
  exact need_pass hok ..

/-! ## A request (R192, R196) -/

/-- What M2 leaves of the bus: both descriptors and both counts (R192, R196). -/
def Bus.staged (x : Bus) (tx rx : Option BufRef) (n : Nat) : Bus :=
  { x with dma := { x.dma with txDesc := txDescOf tx n, rxDesc := rxDescOf rx n, txLeft := n, rxLeft := n } }

/-- What M3 leaves of the bus: the two enables and the mark (R196). -/
def Bus.enabled (x : Bus) : Bus := { x with dma := { x.dma with rxEn := true, txEn := true, active := true } }

section
variable {b n : Nat} {tx rx : Option BufRef} (hb : s.buses[b]? = some x)
include hb

theorem runs_dmaEnable : Runs .main [.dmaEnable b] 1 s (s.setBus b x.enabled) :=
  Runs.step fun q ms => withBus_of_some (by rw [setProg_buses, hb]) _

variable (hr : x.rxq = []) (hn : n ≤ s.cfg.dmaMax) (hm : s.mayRequest tx rx = true)
include hr hn hm

theorem runs_dmaStage : Runs .main [.dmaStage b tx rx n] 1 s (s.setBus b (x.staged tx rx n)) :=
  Runs.step fun q ms => (withBus_of_some (by rw [setProg_buses, hb]) _).trans <|
    (if_neg (Nat.not_lt.2 hn)).trans <| (if_neg (by simp [hr])).trans (if_neg (by simp [hm]))

/-- The spin, the stage and the enables of a request that is admitted. -/
theorem runs_dmaStart (ha : x.dma.active = false) :
    Runs .main [.spinDma b, .dmaStage b tx rx n, .dmaEnable b] 3 s (s.setBus b (x.staged tx rx n).enabled) := by
  have henable := runs_dmaEnable (setBus_self (y := x.staged tx rx n) hb)
  rw [setBus_setBus] at henable
  exact (runs_spinDma hb .main ha).append ((runs_dmaStage hb hr hn hm).append henable)

end

theorem mayRequest_of_free {tx rx : Option (BitVec 16)}
    (h : ∀ q, tx = some q ∨ rx = some q → s.owned (.user q) = false) :
    s.mayRequest (tx.map .user) (rx.map .user) = true := by
  have htx : (tx.map BufRef.user).any s.owned = false := by
    cases tx with
    | none => rfl
    | some q => exact h q (.inl rfl)
  have hrx : (rx.map BufRef.user).any s.owned = false := by
    cases rx with
    | none => rfl
    | some q => exact h q (.inr rfl)
  rw [State.mayRequest, htx, hrx]
  rfl

end Sys2Proof.Machine

open Sys2Proof Sys2Proof.Machine

/-- Settles O15: each operation is one spin, which passes when no request is outstanding. -/
theorem waitOperations : Obligations.WaitOperations := by
  intro s hq
  refine ⟨fun b x hb => ⟨fun ha => ?_, fun ha hs => ?_⟩, fun u y hu hmode => ⟨fun hb => ?_, fun hb hs => ?_⟩⟩
  · exact startMain_spin_passes hq (runs_spinDma (s := { s with ret := .none }) hb .main ha)
  · exact startMain_spin_waits hq hs (spins_spinDma (s := { s with ret := .none }) hb ha [])
  · rw [exec_uartDmaWait hu hmode]
    exact startMain_spin_passes hq (runs_spinUart (s := { s with ret := .none }) hu .main hb)
  · rw [exec_uartDmaWait hu hmode]
    exact startMain_spin_waits hq hs (spins_spinUart (s := { s with ret := .none }) hu hb [])

/-- Settles O13: three micro-steps stage the request, and a blocking one has a spin behind them. -/
theorem dmaStartResult : Obligations.DmaStartResult := by
  intro s b tx rx n x hq hb ha hr hn hmax hsome htx hrx hfree
  obtain ⟨hm, hi, -⟩ := id hq
  have hb' : ({ s with ret := .none } : State).buses[b.toNat]? = some x := hb
  have hruns := runs_dmaStart hb' hr hmax (mayRequest_of_free hfree) ha
  refine ⟨(x.staged (tx.map .user) (rx.map .user) n).enabled, by cases tx <;> cases rx <;> rfl, ?_, fun hs => ?_⟩
  · rw [exec_dmaStart b false hn hmax hsome htx hrx]
    refine (startMain_of_runs hq hruns (length_le_progWeight _ [_, _, _]) hi).trans ?_
    rw [← hm]
    rfl
  · rw [exec_dmaStart b true hn hmax hsome htx hrx]
    exact startMain_left_at_spin hq hruns (spins_spinDma (setBus_self hb') rfl []) hi hs

end

section
/-! A blocking `DMA.START` with the steps of both channels and both handlers in the schedule (R196, R204 to R207, R214):
each pair of channel steps is one word of a transfer, so the words cross as they do in R170 to R176. -/

namespace Sys2Proof.Machine

variable {s : State} {x : Bus} {tx rx : Option BufRef}

/-! ## Words that do not depend on the rest of the state -/

/-- What crosses depends on the memory, the device and the configuration of the bus, and on nothing else. -/
theorem Crosses.congr {s' : State} {x' : Bus} {b i k : Nat} {src : Src} {dst : Dst} {sent rs : List Word}
    (h : Crosses s b x src dst i k sent rs) (hf : s'.flash = s.flash) (hbuf : s'.buf = s.buf) (hc : s'.cfg = s.cfg)
    (hx : x'.cfg = x.cfg) (hcs : x'.cs = x.cs) : Crosses s' b x' src dst i k sent rs where
  sent_length := h.sent_length
  received_length := h.received_length
  fetched := by rw [hx, hbuf]; exact h.fetched
  replied := by rw [State.wired, hx, hc, hcs, hf]; exact h.replied

/-! ## A DMA transfer as a transfer -/

/-- Where the words of a request come from (R205). -/
def requestSrc : Option BufRef → Src
  | some q => .buf q
  | none => .filler

/-- Where the words of a request go (R204). -/
def requestDst : Option BufRef → Dst
  | some q => .buf q
  | none => .scratch

theorem srcWord_txDescOf (s : State) (tx : Option BufRef) (n i : Nat) :
    s.srcWord ((txDescOf tx n).srcOf i).1 ((txDescOf tx n).srcOf i).2 = s.srcWord (requestSrc tx) i := by
  cases tx <;> simp [txDescOf, Desc.srcOf, requestSrc, State.srcWord]

theorem dstWord_rxDescOf (s : State) (b : Nat) (rx : Option BufRef) (n i : Nat) (r : Word) :
    s.dstWord b ((rxDescOf rx n).dstOf i).1 ((rxDescOf rx n).dstOf i).2 r = s.dstWord b (requestDst rx) i r := by
  cases rx <;> simp [rxDescOf, Desc.dstOf, requestDst, State.dstWord]

/-- The word received last goes to the bus or to `BUF`. -/
theorem dstWord_setBus {b : Nat} (hb : s.buses[b]? = some x) (y : Bus) (dst : Dst) (i : Nat) (r : Word) :
    (s.setBus b y).dstWord b dst i r =
      { s with buses := s.buses.set b (y.received dst [r]), buf := dst.store i [r] s.buf } := by
  cases dst with
  | buf q => rfl
  | scratch =>
    rw [dstWord_scratch (setBus_self hb), setBus_setBus]
    rfl

/-- A request of `n` elements of which each channel has still to move `k`. -/
structure Dma.Underway (d : Dma) (tx rx : Option BufRef) (n k : Nat) : Prop where
  txEn : d.txEn = true
  rxEn : d.rxEn = true
  txDesc : d.txDesc = txDescOf tx n
  rxDesc : d.rxDesc = rxDescOf rx n
  txLeft : d.txLeft = k
  rxLeft : d.rxLeft = k

/-- The engine after one step of each channel (R204, R205). -/
def Dma.moved (d : Dma) : Dma :=
  { d with
    txLeft := d.txLeft - 1, txIrq := d.txIrq || d.txLeft == 1
    rxLeft := d.rxLeft - 1, rxIrq := d.rxIrq || d.rxLeft == 1 }

/-- The engine after the last element (R204, R205). -/
def Dma.exhausted (d : Dma) : Dma := { d with txLeft := 0, txIrq := true, rxLeft := 0, rxIrq := true }

section
variable {d : Dma} {n k : Nat}

theorem Dma.Underway.moved (h : d.Underway tx rx n (k + 1)) : d.moved.Underway tx rx n k where
  txEn := h.txEn
  rxEn := h.rxEn
  txDesc := h.txDesc
  rxDesc := h.rxDesc
  txLeft := by rw [Dma.moved, h.txLeft]; rfl
  rxLeft := by rw [Dma.moved, h.rxLeft]; rfl

theorem Dma.Underway.moved_last (h : d.Underway tx rx n 1) : d.moved = d.exhausted := by
  simp [Dma.moved, Dma.exhausted, h.txLeft, h.rxLeft]

end

/-- The bus after one step of each channel. -/
def Bus.moved (x : Bus) : Bus := { x with dma := x.dma.moved }

/-- The bus after the last element of a request. -/
def Bus.exhausted (x : Bus) : Bus := { x with dma := x.dma.exhausted }

theorem txMoved_rxMoved (hq : x.rxq = []) (r : Word) : (x.txMoved r).rxMoved [] = x.moved := by
  simp [Bus.txMoved, Bus.rxMoved, Bus.moved, Dma.moved, hq]

section
variable (x : Bus) (dst : Dst) (rs : List Word)

theorem received_dma : (x.received dst rs).dma = x.dma := by cases dst <;> rfl

theorem received_rxq : (x.received dst rs).rxq = x.rxq := by cases dst <;> rfl

theorem received_exhausted : (x.moved.received dst rs).exhausted = x.exhausted.received dst rs := by cases dst <;> rfl

end

theorem txDescOf_count (tx : Option BufRef) (n : Nat) : (txDescOf tx n).count = n := by cases tx <;> rfl

theorem rxDescOf_count (rx : Option BufRef) (n : Nat) : (rxDescOf rx n).count = n := by cases rx <;> rfl

/-- The state once `CH_TX` has sent `w` in exchange for `r` (R205). -/
def State.sentByDma (s : State) (b : Nat) (x : Bus) (w r : Word) (d : Nat) : State :=
  { s with
    buses := s.buses.set b (x.txMoved r)
    flash := { s.flash with frame := s.frameAfter b x [w] }
    draws := d
    trace := s.trace ++ exchanges b [w] [r] }

/-- The state once `CH_RX` has taken `r`, the only word that waits, as word `i` of a transfer (R204). -/
def State.takenByDma (s : State) (b : Nat) (x : Bus) (dst : Dst) (i : Nat) (r : Word) : State :=
  { s with buses := s.buses.set b ((x.rxMoved []).received dst [r]), buf := dst.store i [r] s.buf }

/-- Between them the two channels make one word of a transfer. -/
theorem takenByDma_sentByDma {b : Nat} (hq : x.rxq = []) (dst : Dst) (i : Nat) (w r : Word) (d : Nat) :
    (s.sentByDma b x w r d).takenByDma b (x.txMoved r) dst i r =
      s.transferred b x.moved dst i [w] [r] d := by
  simp only [State.takenByDma, State.sentByDma, txMoved_rxMoved hq, List.set_set]
  rfl

section
variable {b : BitVec 8} {i k : Nat} (hu : x.dma.Underway tx rx (i + (k + 1)) (k + 1)) (hq : x.rxq = [])
include hu hq

/-- `CH_TX` sends word `i` of the transfer. -/
theorem envDmaTxMove_underway (hb : s.buses[b.toNat]? = some x) (hr : s.Replies b.toNat x (k + 1))
    (hd : 1 ≤ s.cfg.busFifoDepth) (dst : Dst) :
    ∃ w r d, Crosses s b.toNat x (requestSrc tx) dst i 1 [w] [r] ∧
      execEnvDmaTxMove b s = .next (s.sentByDma b.toNat x w r d) := by
  refine envDmaTxMove_crosses hb (Bus.txMoveEnabled_iff.2 ⟨hu.txEn, ?_, ?_⟩) hr dst ?_
  · rw [hu.txLeft]
    exact Nat.succ_pos k
  · rw [hq]
    exact hd
  · rw [hu.txDesc, hu.txLeft, txDescOf_count, Nat.add_sub_cancel, srcWord_txDescOf]

/-- `CH_RX` then stores it. -/
theorem envDmaRxMove_underway {r : Word} (hb : s.buses[b.toNat]? = some (x.txMoved r)) :
    execEnvDmaRxMove b s = .next (s.takenByDma b.toNat (x.txMoved r) (requestDst rx) i r) := by
  have hrxq : (x.txMoved r).rxq = [r] := by
    rw [Bus.txMoved, hq]
    rfl
  have hdesc : (x.txMoved r).dma.rxDesc = rxDescOf rx (i + (k + 1)) := hu.rxDesc
  have hleft : (x.txMoved r).dma.rxLeft = k + 1 := hu.rxLeft
  rw [envDmaRxMove_enabled hb hu.rxEn (by rw [hleft]; exact Nat.succ_pos k) hrxq, hdesc, hleft, rxDescOf_count,
    Nat.add_sub_cancel, dstWord_rxDescOf, dstWord_setBus hb]
  rfl

end

/-- An element, then the others; what the channels have still to do is overwritten. -/
theorem transferred_moved_cons (s : State) (b : Nat) (x : Bus) (dst : Dst) (i : Nat) (w r : Word) (ws rs : List Word)
    (d d' : Nat) (us ts : List Turn) :
    { State.transferred { s.transferred b x.moved dst i [w] [r] d with sched := us } b
        (x.exhausted.received dst [r]) dst (i + 1) ws rs d' with sched := ts } =
      { s.transferred b x.exhausted dst i (w :: ws) (r :: rs) d' with sched := ts } := by
  rw [← transferred_cons (s := s) (x := x.exhausted) dst w r ws rs d d']
  simp only [State.transferred, List.set_set]
  rfl

/-! ## Turns of other agents while MAIN waits (log 1) -/

/-- A turn of another agent's is taken while MAIN waits. -/
theorem drive_event {sp : Space} {bs : List Byte} {ts : List Turn} {f : State → Out} {u : State} (hm : s.main ≠ [])
    (he : eventTurn (.req sp bs) s = some f) (hf : f { s with sched := ts } = .next u) :
    drive (.req sp bs :: ts) s = drive ts u := by
  have hidle : s.coreIdle = false := by
    rw [State.coreIdle, Bool.and_eq_false_iff, List.isEmpty_eq_false_iff]
    exact .inl hm
  rw [drive, hidle]
  simp only [Bool.false_eq_true, if_false, he, hf, andThen_next]

/-- One step of each channel is one word of a transfer. -/
theorem drive_element {b : BitVec 8} {i k : Nat} (hm : s.main ≠ []) (hb : s.buses[b.toNat]? = some x)
    (hr : s.Replies b.toNat x (k + 1)) (hu : x.dma.Underway tx rx (i + (k + 1)) (k + 1)) (hq : x.rxq = [])
    (hd : 1 ≤ s.cfg.busFifoDepth) (ts : List Turn) :
    ∃ w r d, Crosses s b.toNat x (requestSrc tx) (requestDst rx) i 1 [w] [r] ∧
      drive (.req .op [0xC1, b] :: .req .op [0xC0, b] :: ts) s = drive ts
        { s.transferred b.toNat x.moved (requestDst rx) i [w] [r] d with sched := ts } := by
  obtain ⟨w, r, d, hc, htx⟩ := envDmaTxMove_underway (s := { s with sched := .req .op [0xC0, b] :: ts }) hu hq hb hr hd
    (requestDst rx)
  have hrx := envDmaRxMove_underway (s := State.sentByDma { s with sched := ts } b.toNat x w r d) (b := b) hu hq
    (List.getElem?_set_self (List.getElem?_eq_some_iff.1 hb).1)
  refine ⟨w, r, d, hc.congr rfl rfl rfl rfl rfl, ?_⟩
  rw [drive_event hm (f := execEnvDmaTxMove b) rfl htx]
  refine drive_event hm (f := execEnvDmaRxMove b) rfl (hrx.trans (congrArg _ ?_))
  exact takenByDma_sentByDma (s := { s with sched := ts }) hq ..

/-- The turns of both channels for `n` elements. -/
def elementTurns (b : BitVec 8) (n : Nat) : List Turn :=
  (List.replicate n [Turn.req .op [0xC1, b], .req .op [0xC0, b]]).flatten

theorem dmaTurns_eq (b : BitVec 8) (n : Nat) :
    dmaTurns b n = elementTurns b n ++ [.req .op [0x81, b], .req .op [0x80, b]] := rfl

/-- The steps of both channels for the last `k + 1` elements of a request are a transfer of them. -/
theorem drive_elements {b : BitVec 8} (ts : List Turn) (k : Nat) : ∀ {s : State} {x : Bus} (i : Nat), s.main ≠ [] →
    s.buses[b.toNat]? = some x → s.Replies b.toNat x (k + 1) → x.dma.Underway tx rx (i + (k + 1)) (k + 1) →
    x.rxq = [] → 1 ≤ s.cfg.busFifoDepth →
    ∃ sent rs d, Crosses s b.toNat x (requestSrc tx) (requestDst rx) i (k + 1) sent rs ∧
      drive (elementTurns b (k + 1) ++ ts) s =
        drive ts { s.transferred b.toNat x.exhausted (requestDst rx) i sent rs d with sched := ts } := by
  induction k with
  | zero =>
    intro s x i hm hb hr hu hq hd
    obtain ⟨w, r, d, hc, he⟩ := drive_element hm hb hr hu hq hd ts
    rw [Bus.moved, hu.moved_last] at he
    exact ⟨[w], [r], d, hc, he⟩
  | succ k ih =>
    intro s x i hm hb hr hu hq hd
    obtain ⟨w, r, d, hc, he⟩ := drive_element hm hb hr hu hq hd (elementTurns b (k + 1) ++ ts)
    have hu' : (x.moved.received (requestDst rx) [r]).dma.Underway tx rx (i + 1 + (k + 1)) (k + 1) := by
      rw [received_dma, Nat.add_assoc, Nat.add_comm 1]
      exact hu.moved
    obtain ⟨sent, rs, d', hcs, hes⟩ := ih (s := { s.transferred b.toNat x.moved (requestDst rx) i [w] [r] d with
        sched := elementTurns b (k + 1) ++ ts }) (i + 1) hm
      (List.getElem?_set_self (List.getElem?_eq_some_iff.1 hb).1)
      (replies_transferred (i := i) (x := x.moved) hr _ w r d) hu' (by rw [received_rxq]; exact hq) hd
    refine ⟨w :: sent, r :: rs, d', hc.cons (d := d) (hcs.congr rfl rfl rfl ?_ ?_), ?_⟩
    · rw [received_cfg, received_cfg]
      rfl
    · rw [received_cs, received_cs]
      rfl
    · rw [received_exhausted] at hes
      rw [← transferred_moved_cons]
      exact he.trans hes

/-! ## The end of a blocking request (R206, R207, R214) -/

/-- The spin M4 passes. -/
theorem drive_nil_spinDma {b : Nat} (hm : s.main = [.spinDma b]) (hi : s.irq = []) (hb : s.buses[b]? = some x)
    (ha : x.dma.active = false) : drive [] s = .next { s with main := [], sched := [] } := by
  have hb' : ({ s with sched := [] } : State).buses[b]? = some x := hb
  have hself : ({ s with sched := [] } : State).setProg .main [.spinDma b] = { s with sched := [] } := by
    rw [← hm]
    rfl
  have hirq : runAll .irq { s with sched := [] } = .next { s with sched := [] } := runCtx_nil _ _ _ _ hi
  have hmain := runAll_of_runs (runs_spinDma hb' .main ha) (length_le_progWeight _ [Micro.spinDma b])
  rw [hself] at hmain
  rw [drive, runCore, hirq, andThen_next, hmain]
  rfl

section
variable {b : BitVec 8} {ts : List Turn} (hm : s.main ≠ []) (hi : s.irq = [])
  (hts : ({ s with sched := ts } : State).sliced = false) (hb : s.buses[b.toNat]? = some x)
include hm hi hts hb

theorem drive_dmaTxDone (h : x.dma.txIrq = true) : drive (.req .op [0x81, b] :: ts) s =
    drive ts { s with buses := s.buses.set b.toNat x.txDone, sched := ts } :=
  drive_event hm (f := execEvDmaTxDone b) rfl (execEvDmaTxDone_ready (s := { s with sched := ts }) hb hi hts h)

theorem drive_dmaRxDone (h : x.dma.rxIrq = true) : drive (.req .op [0x80, b] :: ts) s =
    drive ts { s with buses := s.buses.set b.toNat x.rxDone, sched := ts } :=
  drive_event hm (f := execEvDmaRxDone b) rfl (execEvDmaRxDone_ready (s := { s with sched := ts }) hb hi hts h)

end

/-- Both handlers run, and MAIN returns. -/
theorem drive_dmaDone {b : BitVec 8} (hm : s.main = [.spinDma b.toNat]) (hi : s.irq = [])
    (hb : s.buses[b.toNat]? = some x) (htx : x.dma.txIrq = true) (hrx : x.dma.rxIrq = true) :
    drive [.req .op [0x81, b], .req .op [0x80, b]] s =
      .next { s with buses := s.buses.set b.toNat x.txDone.rxDone, main := [], sched := [] } := by
  have hne : s.main ≠ [] := by rw [hm]; exact List.cons_ne_nil _ _
  have hlt : b.toNat < s.buses.length := (List.getElem?_eq_some_iff.1 hb).1
  have hb₁ : (s.buses.set b.toNat x.txDone)[b.toNat]? = some x.txDone := List.getElem?_set_self hlt
  have hb₂ : (s.buses.set b.toNat x.txDone.rxDone)[b.toNat]? = some x.txDone.rxDone := List.getElem?_set_self hlt
  have hidle : x.txDone.rxDone.dma.active = false := Bool.and_false _
  rw [drive_dmaTxDone hne hi rfl hb htx]
  refine Eq.trans (drive_dmaRxDone (x := x.txDone) hne hi rfl hb₁ hrx) ?_
  rw [List.set_set]
  exact drive_nil_spinDma hm hi hb₂ hidle

/-! ## The whole request (R214) -/

/-- The bus after a request of `n` elements that has completed: the two descriptors stand, and the engine is at rest. -/
def Bus.completed (x : Bus) (tx rx : Option BufRef) (n : Nat) : Bus :=
  { x with dma := {
      active := false, txDesc := txDescOf tx n, rxDesc := rxDescOf rx n, rxEn := false, txEn := false
      rxLeft := 0, txLeft := 0, rxIrq := false, txIrq := false } }

theorem underway_enabled (x : Bus) (tx rx : Option BufRef) (n : Nat) :
    (x.staged tx rx n).enabled.dma.Underway tx rx n n := ⟨rfl, rfl, rfl, rfl, rfl, rfl⟩

theorem completed_received (x : Bus) (tx rx : Option BufRef) (n : Nat) (dst : Dst) (rs : List Word) :
    ((x.staged tx rx n).enabled.exhausted.received dst rs).txDone.rxDone = (x.completed tx rx n).received dst rs := by
  cases dst <;> rfl

/-- From the moment MAIN waits: the words of a transfer cross, and MAIN returns. -/
theorem drive_dmaTurns {b : BitVec 8} {n : Nat} (hm : s.main = [.spinDma b.toNat]) (hi : s.irq = [])
    (hb : s.buses[b.toNat]? = some (x.staged tx rx n).enabled) (hr : s.Replies b.toNat x n) (hn : 1 ≤ n)
    (hq : x.rxq = []) (hd : 1 ≤ s.cfg.busFifoDepth) :
    ∃ sent rs d, Crosses s b.toNat x (requestSrc tx) (requestDst rx) 0 n sent rs ∧
      drive (dmaTurns b n) s = .next { s.transferred b.toNat (x.completed tx rx n) (requestDst rx) 0 sent rs d with
        main := [], sched := [] } := by
  obtain ⟨k, rfl⟩ := Nat.exists_eq_add_of_le' hn
  have hne : s.main ≠ [] := by rw [hm]; exact List.cons_ne_nil _ _
  obtain ⟨sent, rs, d, hc, he⟩ := drive_elements [.req .op [0x81, b], .req .op [0x80, b]] k 0 hne hb hr
    (by rw [Nat.zero_add]; exact underway_enabled ..) hq hd
  rw [dmaTurns_eq]
  refine ⟨sent, rs, d, hc.congr rfl rfl rfl rfl rfl, he.trans ?_⟩
  refine Eq.trans (drive_dmaDone hm hi (List.getElem?_set_self (List.getElem?_eq_some_iff.1 hb).1) ?_ ?_) ?_
  · rw [received_dma]
    rfl
  · rw [received_dma]
    rfl
  · rw [completed_received]
    simp only [State.transferred, List.set_set]
    rfl

/-- The turns of a transfer grant the core no slice. -/
theorem sliced_dmaTurns {b : BitVec 8} {n : Nat} (hs : s.sched = dmaTurns b n) : s.sliced = false := by
  rw [State.sliced, hs]
  cases n <;> rfl

/-- A blocking `DMA.START` presented with the turns that complete it. -/
theorem startMain_dmaBlocking {b : BitVec 8} {n : Nat} (hm : s.main = []) (hi : s.irq = [])
    (hs : s.sched = dmaTurns b n) (hb : s.buses[b.toNat]? = some x) (ha : x.dma.active = false) (hq : x.rxq = [])
    (hr : s.Replies b.toNat x n) (hn : 1 ≤ n) (hmax : n ≤ s.cfg.dmaMax) (hd : 1 ≤ s.cfg.busFifoDepth)
    (hreq : s.mayRequest tx rx = true) :
    ∃ sent rs d, Crosses s b.toNat x (requestSrc tx) (requestDst rx) 0 n sent rs ∧
      startMain (dmaProg b.toNat tx rx n true) s =
        .next { s.transferred b.toNat (x.completed tx rx n) (requestDst rx) 0 sent rs d with
          ret := .none, sched := [] } := by
  have hb' : ({ s with ret := .none } : State).buses[b.toNat]? = some x := hb
  have hstart := startMain_to_spin ⟨hm, hi, sliced_dmaTurns hs⟩ (runs_dmaStart hb' hq hmax hreq ha)
    (spins_spinDma (setBus_self hb') rfl [])
  obtain ⟨sent, rs, d, hc, hdrive⟩ := drive_dmaTurns (tx := tx) (rx := rx) (s := { s with
    buses := s.buses.set b.toNat (x.staged tx rx n).enabled, main := [.spinDma b.toNat], ret := .none }) rfl hi
    (setBus_self hb') hr hn hq hd
  rw [← hs] at hdrive
  refine ⟨sent, rs, d, hc.congr rfl rfl rfl rfl rfl, hstart.trans (hdrive.trans ?_)⟩
  simp only [State.transferred, List.set_set]
  rw [← hm]
  rfl

/-- The scratch cell holds the word received last. -/
theorem getLastD_eq_getD {rs : List Word} {n : Nat} (hl : rs.length = n) (hn : 1 ≤ n) (w : Word) :
    rs.getLastD w = rs.getD (n - 1) 0 := by
  rw [List.getLastD_eq_getLast?, List.getLast?_eq_getElem?, hl, List.getD_eq_getElem?_getD,
    List.getElem?_eq_getElem (by omega)]
  rfl

end Sys2Proof.Machine

open Sys2Proof Sys2Proof.Machine

/-- Settles O14: the request is staged and MAIN waits, the steps of the channels make a transfer of it, and the two
handlers end the wait. -/
theorem dmaBlockingTransfer : Obligations.DmaBlockingTransfer := by
  intro s b tx rx n x hm hi hs hb ha hq hr hn hlong hmax hdepth hsome htx hrx hfree hok
  obtain ⟨-, hwf⟩ := memOk_iff.1 hok
  obtain ⟨sent, rs, d, hc, he⟩ := startMain_dmaBlocking hm hi hs hb ha hq hr hn hmax hdepth (mayRequest_of_free hfree)
  obtain ⟨hsl, hrl, -, -⟩ := id hc
  rw [← exec_dmaStart b true hn hmax hsome htx hrx] at he
  refine ⟨_, sent, rs, hsl, hrl, he, ?sent, ?received, ?unchanged, ?rest⟩
  case sent =>
    rintro q rfl
    refine hc.sent_eq fun j hj => ?_
    cases rx with
    | none => rfl
    | some p => exact memGet_bufFill_later hwf _ _ (by omega) (List.length_take_le ..)
  case received =>
    rintro q rfl
    exact ⟨fun j hj => bufRead_bufFill hwf rfl (by rw [hrl]; exact hj), hrl ▸ sameBufBut_bufFill hwf rfl⟩
  case unchanged =>
    rintro rfl
    rfl
  case rest =>
    rw [← getLastD_eq_getD hrl hn x.scratch]
    cases tx <;> cases rx <;> rfl

end

section
/-! The steps of a UART's agents and of its line (R252, R262, R263, R266), one case at a time. -/

namespace Sys2Proof.Machine

variable {s : State} {u : BitVec 8} {x : Uart}

/-- A UART that has been replaced is the new one. -/
theorem setUart_self {v : Nat} {y : Uart} (hu : s.uarts[v]? = some x) : (s.setUart v y).uarts[v]? = some y :=
  List.getElem?_set_self (List.getElem?_eq_some_iff.1 hu).1

theorem setUart_setUart (s : State) (v : Nat) (x y : Uart) : (s.setUart v x).setUart v y = s.setUart v y := by
  simp only [State.setUart, List.set_set]

theorem Uart.utxMoveEnabled_iff {depth : Nat} : x.utxMoveEnabled depth = true ↔
    x.utxEn = true ∧ 0 < x.utxLeft ∧ x.txfifo.length < depth := by
  rw [utxMoveEnabled, Bool.and_eq_true, Bool.and_eq_true, decide_eq_true_iff, decide_eq_true_iff, and_assoc]

/-- The latched errors once a byte with defect `e`, if any, has arrived (R262). -/
def LineErrs.latch (l : LineErrs) (e : Option LineErr) : LineErrs where
  framing := l.framing || decide (e = some .framing)
  parity := l.parity || decide (e = some .parity)
  brk := l.brk || decide (e = some .brk)

theorem LineErrs.latch_none (l : LineErrs) : l.latch Option.none = l := by simp [latch]

theorem LineErrs.latch_some (l : LineErrs) (k : LineErr) : l.latch (some k) = l.insert k := by
  cases k <;> simp [latch, LineErrs.insert]

/-! ## `CH_UTX` and `SHIFT_TX` (R252, R266) -/

/-- What a step of `CH_UTX` that moves the byte `b` leaves of the UART. -/
def Uart.utxMoved (x : Uart) (b : Byte) : Uart :=
  { x with
    txfifo := x.txfifo ++ [b], utxIdx := x.utxIdx + 1, utxLeft := x.utxLeft - 1
    dmaIrq := x.dmaIrq || x.utxLeft == 1 }

section
variable (hu : s.uarts[u.toNat]? = some x)
include hu

theorem envUartDmaMove_enabled (he : x.utxEn = true) (hl : 0 < x.utxLeft) (hd : x.txfifo.length < s.cfg.uartFifoDepth) :
    execEnvUartDmaMove u s =
      .next (s.setUart u.toNat (x.utxMoved ((s.bufRead x.dmaSrc x.utxIdx).setWidth 8))) :=
  (uartStep_of_some hu _).trans (if_pos (Uart.utxMoveEnabled_iff.2 ⟨he, hl, hd⟩))

theorem envTxShift_ends (h : x.txShifting = true) :
    execEnvTxShift u s = .next (s.setUart u.toNat { x with txShifting := false }) :=
  (uartStep_of_some hu _).trans (if_pos h)

theorem envTxShift_starts {v : Byte} {rest : List Byte} (h : x.txShifting = false) (hf : x.txfifo = v :: rest) :
    execEnvTxShift u s =
      .next ((s.setUart u.toNat { x with txfifo := rest, txShifting := true }).emit (.lineOut u.toNat v)) := by
  refine (uartStep_of_some hu _).trans ((if_neg (ne_true_of_eq_false h)).trans ?_)
  rw [hf]

/-! ## The line (R262, R263) -/

/-- A byte finds room, or is lost (R262). -/
theorem envLineByte_arrives (b : Byte) (e : Option LineErr) :
    execEnvLineByte u b e s = .next (s.setUart u.toNat { x with
      rxfifo := if x.rxfifo.length < s.cfg.uartFifoDepth then x.rxfifo ++ [b] else x.rxfifo
      fifoOverrun := if x.rxfifo.length < s.cfg.uartFifoDepth then x.fifoOverrun else true
      lineErr := x.lineErr.latch e
      gapArmed := true }) := by
  refine (uartStep_of_some hu _).trans ?_
  cases e with
  | none =>
    rw [LineErrs.latch_none]
    by_cases hd : x.rxfifo.length < s.cfg.uartFifoDepth <;> simp [hd]
  | some k =>
    rw [LineErrs.latch_some]
    by_cases hd : x.rxfifo.length < s.cfg.uartFifoDepth <;> simp [hd]

theorem envLineSilence_armed (h : x.gapArmed = true) :
    execEnvLineSilence u s = .next (s.setUart u.toNat { x with
      gapArmed := false, rxTimeoutFlag := x.rxTimeoutFlag || !x.rxfifo.isEmpty }) :=
  (uartStep_of_some hu _).trans (if_pos h)

end

end Sys2Proof.Machine

open Sys2Proof Sys2Proof.Machine

/-- Settles O29: an enabled `CH_UTX` takes the one branch that moves a byte. -/
theorem uartDmaMoveResult : Obligations.UartDmaMoveResult := by
  intro s u x hu he hl hd
  exact envUartDmaMove_enabled hu he hl hd

/-- Settles O31: the shift register holds a byte, or it takes the oldest of the FIFO. -/
theorem uartTxShiftResult : Obligations.UartTxShiftResult :=
  fun _ _ _ hu => ⟨envTxShift_ends hu, fun _ _ => envTxShift_starts hu⟩

/-- Settles O30: the byte finds room or is lost, and the silence is one after a byte, with the FIFO empty or not. -/
theorem uartLineEvents : Obligations.UartLineEvents := by
  intro s u x b e hu
  refine ⟨envLineByte_arrives hu b e, fun hgap => (envLineSilence_armed hu hgap).trans ?_⟩
  cases hf : x.rxfifo <;> simp [State.setUart]

end

section
/-! The six handlers of a UART, ready and undisturbed (R232 to R260): what each leaves of the machine. -/

namespace Sys2Proof.Machine

variable {s t : State} {u : BitVec 8} {x : Uart}

/-! ## A handler that runs whole (R368, R380) -/

/-- A ready handler whose micro-steps lead to `t`, where the interrupt context has nothing to do. -/
theorem uartHandler_of_runs {ready : Uart → Bool} {p : Nat → List Micro} {k : Nat} (hu : s.uarts[u.toNat]? = some x)
    (hi : s.irq = []) (hs : s.sliced = false) (hr : ready x = true) (h : Runs .irq (p u.toNat) k s t)
    (hk : k ≤ progWeight (s.setProg .irq (p u.toNat)) (p u.toNat)) (ht : t.irq = []) :
    uartHandler u ready p s = .next t := by
  rw [uartHandler, hu]
  dsimp only
  rw [hr, dispatchIrq_of_runs hi hs h hk, clear_irq ht]

/-- An overflow is reported when bytes were dropped (R238). -/
theorem reportDropped_eq (s : State) (v : Nat) (cb : Callbacks) (p : Prop) [Decidable p] :
    s.reportDropped v cb (decide p) =
      { s with trace := s.trace ++ if p then [.call cb.error v (.error .overflow)] else [] } := by
  by_cases h : p <;> simp [State.reportDropped, State.callError, State.emit, h]

/-! ## The handlers of one micro-step (R254, R256, R260) -/

/-- What the completion of a chunk leaves of the UART (R254). -/
def Uart.chunkDone (x : Uart) (dmaMax : Nat) : Uart :=
  if 0 < x.dmaRemaining - x.dmaChunk then { x with
    dmaIrq := false
    dmaCursor := x.dmaCursor + x.dmaChunk, dmaRemaining := x.dmaRemaining - x.dmaChunk
    dmaChunk := min (x.dmaRemaining - x.dmaChunk) dmaMax
    utxIdx := x.dmaCursor + x.dmaChunk, utxLeft := min (x.dmaRemaining - x.dmaChunk) dmaMax, utxEn := true }
  else { x with
    dmaIrq := false, utxEn := false
    dmaCursor := x.dmaCursor + x.dmaChunk, dmaRemaining := x.dmaRemaining - x.dmaChunk
    dmaChunk := 0, dmaPhase := .drain, ieDma := false, ieEot := true }

/-- What the end of a transmission leaves of the UART (R256). -/
def Uart.drained (x : Uart) : Uart :=
  { x with ieEot := false, dmaPhase := .none, mode := .interruptBound, dmaBusy := false }

section
variable (hu : s.uarts[u.toNat]? = some x) (hi : s.irq = []) (hs : s.sliced = false)
include hu hi hs

/-- A ready handler of one micro-step. -/
theorem uartHandler_of_step {ready : Uart → Bool} {m : Nat → Micro} (hr : ready x = true)
    (h : Runs .irq [m u.toNat] 1 s t) (ht : t.irq = []) : uartHandler u ready (fun n => [m n]) s = .next t :=
  uartHandler_of_runs hu hi hs hr h (length_le_progWeight _ [m u.toNat]) ht

theorem evUartDmaDone_ready (he : x.ieDma = true) (hf : x.dmaIrq = true) :
    execEvUartDmaDone u s = .next (s.setUart u.toNat (x.chunkDone s.cfg.dmaMax)) :=
  uartHandler_of_step (m := .uartDmaDone) hu hi hs (by rw [Uart.dmaDoneReady, he, hf]; rfl)
    (Runs.step fun q ms => withUart_of_some hu _) hi

theorem evUartEot_ready (he : x.ieEot = true) (hf : x.txfifo = []) (hsh : x.txShifting = false) :
    execEvUartEot u s = .next ((s.setUart u.toNat x.drained).emit (.call x.cb.txDone u.toNat .txDone)) :=
  uartHandler_of_step (m := .eot) hu hi hs (by rw [Uart.eotReady, he, hf, hsh]; rfl)
    (Runs.step fun q ms => withUart_of_some hu _) hi

theorem evUartLineError_ready (he : x.ieLine = true) (hl : x.lineErr.isEmpty = false ∨ x.fifoOverrun = true) :
    execEvUartLineError u s = .next
      ((s.reportLine u.toNat x).setUart u.toNat { x with lineErr := .none, fifoOverrun := false }) := by
  refine uartHandler_of_step (m := .lineError) hu hi hs ?_ (Runs.step fun q ms => withUart_of_some hu _) hi
  rw [Uart.lineErrorReady, he, Bool.true_and, Bool.or_eq_true, Bool.not_eq_true']
  exact hl

/-! ## The transmit level (R244) -/

theorem evUartTxLevel_ready (he : x.ieTxLevel = true) (ht : x.txfifo.length ≤ s.cfg.uartTxTrig)
    (hd : x.txfifo.length ≤ s.cfg.uartFifoDepth) (hok : x.txring.ok = true) :
    execEvUartTxLevel u s =
      .next (txAfter s u.toNat x (min x.txring.count (s.cfg.uartFifoDepth - x.txfifo.length))) := by
  refine uartHandler_of_runs hu hi hs ?_ (runs_txDrain .irq u.toNat _ s x hu hok hd rfl) ?_ hi
  · rw [Uart.txLevelReady, he, Bool.true_and, decide_eq_true_iff]
    exact ht
  · have hcount : x.txring.count < x.txring.n := Nat.mod_lt _ (x.txring.ok_iff.1 hok).1
    have hweight : (Micro.txDrain u.toNat).weight (s.setProg .irq [.txDrain u.toNat]) = x.txring.n + 1 := by
      simp [Micro.weight, hu]
    rw [progWeight, hweight]
    omega

/-! ## The receive handlers (R232, R234) -/

theorem evUartRxLevel_ready (he : x.ieRxLevel = true) (hl : s.cfg.uartRxTrig ≤ x.rxfifo.length) :
    execEvUartRxLevel u s = .next { rxAfter s u.toNat x (s.cfg.uartRxTrig - 2) with
      trace := s.trace ++ if x.rxCap - x.rxCount < s.cfg.uartRxTrig - 2 then
        [.call x.cb.error u.toNat (.error .overflow)] else [] } := by
  have hruns := runs_rxLevel .irq u.toNat (s.cfg.uartRxTrig - 2) false s x hu (by omega)
  rw [Bool.false_or, reportDropped_eq] at hruns
  refine uartHandler_of_runs hu hi hs ?_ hruns (Nat.le_refl _) hi
  rw [Uart.rxLevelReady, he, Bool.true_and, decide_eq_true_iff]
  exact hl

/-- The flag is cleared, then the FIFO is flushed. -/
theorem evUartRxTimeout_ready (he : x.ieRxTimeout = true) (hf : x.rxTimeoutFlag = true) :
    execEvUartRxTimeout u s = .next { s with
      uarts := s.uarts.set u.toNat { x with rxTimeoutFlag := false, rxfifo := [], rxCount := 0 }
      buf := (rxAfter s u.toNat x x.rxfifo.length).buf
      trace := s.trace ++
        (if x.rxCap - x.rxCount < x.rxfifo.length then [.call x.cb.error u.toNat (.error .overflow)] else []) ++
        [.call x.cb.frameReceived u.toNat
          (.frameReceived x.rxBuf (x.rxCount + min x.rxfifo.length (x.rxCap - x.rxCount)))] } := by
  have hflag : Runs .irq [.rxTimeout u.toNat] 1 s (s.setUart u.toNat { x with rxTimeoutFlag := false }) :=
    Runs.step fun q ms => withUart_of_some hu _
  have hflush := runs_rxFlush .irq u.toNat x.rxfifo.length false (s.setUart u.toNat { x with rxTimeoutFlag := false })
    { x with rxTimeoutFlag := false } (setUart_self hu) rfl
  simp only [Bool.false_or, reportDropped_eq, rxAfter, State.setUart, State.emit, List.set_set] at hflush
  refine uartHandler_of_runs hu hi hs (by rw [Uart.rxTimeoutReady, he, hf]; rfl) (hflag.append hflush) ?_ hi
  have hweight : (Micro.rxFlush u.toNat false).weight
      (s.setProg .irq [.rxTimeout u.toNat, .rxFlush u.toNat false]) = x.rxfifo.length + 1 := by
    simp [Micro.weight, hu]
  rw [progWeight, progWeight, hweight]
  exact Nat.le_refl _

end

/-! ## What a receive handler stores (R230) -/

section
variable {q : BufRef} {j i : Nat} {ws : List Word} (hwf : memWf 0 s.buf = true) (ht : t.buf = bufFill q j ws s.buf)
include hwf ht

/-- Elements written in a row are there, in order. -/
theorem bufRead_bufFill_from (hi : i < ws.length) : t.bufRead q (j + i) = ws.getD i 0 := by
  rw [State.bufRead, ht, memGet_bufFill q j ws hwf, q.cell_eq (j + i), q.cell_eq j, if_pos (by omega)]
  congr 1
  omega

theorem sameBufBut_bufFill_from : sameBufBut s t q j ws.length := fun a ha => by
  rw [ht, memGet_bufFill q j ws hwf, if_neg (by omega)]

end

/-- The bytes that fit are stored from `rx_count` on, and nothing else is written. -/
theorem stored_rxAfter (v : Nat) {m k : Nat} (hwf : memWf 0 s.buf = true) (ht : t.buf = (rxAfter s v x m).buf)
    (hm : m ≤ x.rxfifo.length) (hk : k = min m (x.rxCap - x.rxCount)) :
    (∀ i, i < k → t.bufRead x.rxBuf (x.rxCount + i) = (x.rxfifo.getD i 0).setWidth 16) ∧
      sameBufBut s t x.rxBuf x.rxCount k := by
  have hlen : ((x.rxfifo.take (min m (x.rxCap - x.rxCount))).map fun b => b.setWidth 16).length = k := by
    rw [List.length_map, List.length_take]
    omega
  refine ⟨fun i hik => ?_, hlen ▸ sameBufBut_bufFill_from hwf ht⟩
  rw [bufRead_bufFill_from hwf ht (by rwa [hlen])]
  have hil : i < x.rxfifo.length := by omega
  simp [hil, ← hk, hik]

/-- The reports of the line handler, in the order of R260. -/
theorem reportLine_eq (s : State) (v : Nat) (x : Uart) : s.reportLine v x = { s with
    trace := s.trace ++
      (if x.lineErr.framing then [.call x.cb.error v (.error (.line .framing))] else []) ++
      (if x.lineErr.parity then [.call x.cb.error v (.error (.line .parity))] else []) ++
      (if x.lineErr.brk then [.call x.cb.error v (.error (.line .brk))] else []) ++
      (if x.fifoOverrun then [.call x.cb.error v (.error .overflow)] else []) } := by
  simp only [State.reportLine, LineErrs.kinds, List.map_append, List.append_assoc, apply_ite (List.map _),
    List.map_cons, List.map_nil]

end Sys2Proof.Machine

open Sys2Proof Sys2Proof.Machine

/-- Settles O24: the pops of the handler, of which as many bytes are stored as fit. -/
theorem uartRxLevelResult : Obligations.UartRxLevelResult := by
  intro s u x m k hi hs hu he hl hm hk hok
  obtain ⟨-, hwf⟩ := memOk_iff.1 hok
  subst hm
  have hdropped : x.rxCap - x.rxCount < s.cfg.uartRxTrig - 2 ↔ k < s.cfg.uartRxTrig - 2 := by omega
  have hx := evUartRxLevel_ready hu hi hs he hl
  simp only [hdropped] at hx
  obtain ⟨hstored, hsame⟩ := stored_rxAfter (s := s) (x := x) u.toNat hwf rfl (by omega) hk
  exact ⟨_, hx, hstored, hsame, by rw [hk]; rfl⟩

/-- Settles O25: the flag is cleared, the whole FIFO is taken, and what `rx_count` then is goes with the callback. -/
theorem uartRxTimeoutResult : Obligations.UartRxTimeoutResult := by
  intro s u x m k hi hs hu he hf hm hk hok
  obtain ⟨-, hwf⟩ := memOk_iff.1 hok
  subst hm
  have hdropped : x.rxCap - x.rxCount < x.rxfifo.length ↔ k < x.rxfifo.length := by omega
  have hx := evUartRxTimeout_ready hu hi hs he hf
  simp only [hdropped, ← hk] at hx
  obtain ⟨hstored, hsame⟩ := stored_rxAfter (s := s) (x := x) u.toNat hwf rfl (Nat.le_refl _) hk
  exact ⟨_, hx, hstored, hsame, rfl⟩

/-- Settles O26: the drain loop, which stops at a full FIFO or disables the handler at an empty ring. -/
theorem uartTxLevelResult : Obligations.UartTxLevelResult := by
  intro s u x k hi hs hu he ht hd hok hk
  have hx := evUartTxLevel_ready hu hi hs he ht hd hok
  rw [← hk, txAfter, he] at hx
  have hlevel : (if x.txfifo.length + x.txring.count < s.cfg.uartFifoDepth then false else true) =
      decide (s.cfg.uartFifoDepth ≤ x.txfifo.length + x.txring.count) := by
    by_cases h : x.txfifo.length + x.txring.count < s.cfg.uartFifoDepth
    · simp [h]
    · simp [h, Nat.not_lt.1 h]
  exact hlevel ▸ hx

/-- Settles O27: the handler is ready for each kind of latched error and for an overrun. -/
theorem uartLineErrorResult : Obligations.UartLineErrorResult := by
  intro s u x hi hs hu he hl
  have hready : x.lineErr.isEmpty = false ∨ x.fifoOverrun = true := by
    simpa [LineErrs.isEmpty, or_assoc, imp_iff_not_or] using hl
  have hx := evUartLineError_ready hu hi hs he hready
  rw [reportLine_eq] at hx
  exact hx

/-- Settles O28: each handler is one micro-step. -/
theorem uartDmaHandlers : Obligations.UartDmaHandlers :=
  fun _ _ _ hi hs hu => ⟨evUartDmaDone_ready hu hi hs, evUartEot_ready hu hi hs⟩

end

section
/-! The operations of a UART presented by themselves (R222 to R251): each in the states that allow it (R226), from its
micro-steps, and the refusals of all the others (R226, R270, U1, U2, U10, log 15, log 26, log 30). -/

namespace Sys2Proof.Machine

variable {s t : State} {u : BitVec 8} {x : Uart}

/-! ## Admission (R226, R132) -/

section
variable {ok : UartMode → Bool} (k : Uart → Out)

theorem uartOp_admitted (hu : s.uarts[u.toNat]? = some x) (h : ok x.mode = true) : uartOp u ok k s = k x := by
  rw [uartOp, hu]
  exact need_pass h ..

theorem uartOp_barred (hu : s.uarts[u.toNat]? = some x) (h : ok x.mode = false) :
    uartOp u ok k s = .refused .uartState := by
  rw [uartOp, hu]
  exact need_fail h ..

/-- The operations that one state alone admits. -/
theorem uartOp_of_mode {m : UartMode} (hu : s.uarts[u.toNat]? = some x) (hm : x.mode = m) :
    uartOp u (· == m) k s = k x := uartOp_admitted k hu (beq_iff_eq.2 hm)

theorem uartOp_of_mode_ne {m : UartMode} (hu : s.uarts[u.toNat]? = some x) (hm : x.mode ≠ m) :
    uartOp u (· == m) k s = .refused .uartState := uartOp_barred k hu (beq_eq_false_iff_ne.2 hm)

theorem uartOp_absent (hu : s.uarts[u.toNat]? = none) : uartOp u ok k s = .refused .noInstance := by
  rw [uartOp, hu]

end

theorem uartHandler_absent (hu : s.uarts[u.toNat]? = none) (ready : Uart → Bool) (p : Nat → List Micro) :
    uartHandler u ready p s = .refused .noInstance := by rw [uartHandler, hu]

theorem uartStep_absent (hu : s.uarts[u.toNat]? = none) (k : Uart → Out) :
    uartStep u k s = .refused .noInstance := by rw [uartStep, hu]

theorem writeInIrq_absent (hu : s.uarts[u.toNat]? = none) : s.writeInIrq u = false := by rw [State.writeInIrq, hu]

/-- The states that allow `UART.DMA_TX` and `UART.DMA_WAIT` (R226). -/
theorem dmaMode_iff {m : UartMode} : (m == .interruptBound || m == .dmaTransmitting) = true ↔
    m = .interruptBound ∨ m = .dmaTransmitting := by
  rw [Bool.or_eq_true, beq_iff_eq, beq_iff_eq]

/-! Which states allow an operation, and what it then does (R226). -/

theorem exec_uartBindPoll_eq (u : BitVec 8) (s : State) : exec (.uartBindPoll u) s =
    uartOp u (· == .idle) (fun _ => startMain [.bindPoll u.toNat] s) s := rfl

theorem exec_uartBindIrq_eq (u : BitVec 8) (q : BitVec 16) (cap : Nat) (s : State) : exec (.uartBindIrq u q cap) s =
    uartOp u (· == .idle) (fun _ => need (bufOk s.cfg q cap) .shortBuffer
      (startMain [.bindBuffer u.toNat (.user q) cap, .bindEnable u.toNat] s)) s := rfl

theorem exec_uartPollRead_eq (u : BitVec 8) (s : State) : exec (.uartPollRead u) s =
    uartOp u (· == .pollingBound) (fun _ => startMain [.pollRead u.toNat] s) s := rfl

theorem exec_uartWriteByte_eq (u : BitVec 8) (b : Byte) (s : State) : exec (.uartWriteByte u b) s =
    if s.writeInIrq u then writeInIrq u b s
    else uartOp u (· == .interruptBound) (fun _ => startMain [.writeDirect u.toNat b] s) s := rfl

theorem exec_uartDmaTx_eq (u : BitVec 8) (q : BitVec 16) (n : Nat) (s : State) : exec (.uartDmaTx u q n) s =
    uartOp u (fun m => m == .interruptBound || m == .dmaTransmitting) (fun _ =>
      need (decide (1 ≤ n)) .zeroLength (need (bufOk s.cfg q n) .shortBuffer
        (startMain [.spinUart u.toNat, .dmaTxSet u.toNat (.user q) n, .dmaTxGo u.toNat] s))) s := rfl

theorem exec_uartDmaWait_eq (u : BitVec 8) (s : State) : exec (.uartDmaWait u) s =
    uartOp u (fun m => m == .interruptBound || m == .dmaTransmitting)
      (fun _ => startMain [.spinUart u.toNat] s) s := rfl

section
variable (hu : s.uarts[u.toNat]? = some x)
include hu

theorem exec_uartBindPoll (hm : x.mode = .idle) : exec (.uartBindPoll u) s = startMain [.bindPoll u.toNat] s := by
  rw [exec_uartBindPoll_eq, uartOp_of_mode _ hu hm]

theorem exec_uartBindIrq (hm : x.mode = .idle) {q : BitVec 16} {cap : Nat} (hq : bufOk s.cfg q cap = true) :
    exec (.uartBindIrq u q cap) s = startMain [.bindBuffer u.toNat (.user q) cap, .bindEnable u.toNat] s := by
  rw [exec_uartBindIrq_eq, uartOp_of_mode _ hu hm, need_pass hq]

theorem exec_uartPollRead (hm : x.mode = .pollingBound) :
    exec (.uartPollRead u) s = startMain [.pollRead u.toNat] s := by
  rw [exec_uartPollRead_eq, uartOp_of_mode _ hu hm]

theorem exec_uartDmaTx (hm : x.mode = .interruptBound ∨ x.mode = .dmaTransmitting) {q : BitVec 16} {n : Nat}
    (hn : 1 ≤ n) (hq : bufOk s.cfg q n = true) : exec (.uartDmaTx u q n) s =
      startMain [.spinUart u.toNat, .dmaTxSet u.toNat (.user q) n, .dmaTxGo u.toNat] s := by
  rw [exec_uartDmaTx_eq, uartOp_admitted _ hu (dmaMode_iff.2 hm), need_pass (decide_eq_true hn), need_pass hq]

theorem writeInIrq_side : s.writeInIrq u = (x.txring.producer == .irq) := by rw [State.writeInIrq, hu]

/-- The context that is the ring's one producer performs the write (R140, R388). -/
theorem exec_uartWriteByte (hm : x.mode = .interruptBound) (b : Byte) : exec (.uartWriteByte u b) s =
    if x.txring.producer = .irq then startIrq [.writeDirect u.toNat b] s else startMain [.writeDirect u.toNat b] s := by
  have hirq : writeInIrq u b s = startIrq [.writeDirect u.toNat b] s := by
    rw [writeInIrq, hu]
    exact if_pos hm
  simp only [exec_uartWriteByte_eq, uartOp_of_mode _ hu hm, hirq, writeInIrq_side hu, beq_iff_eq]

/-- Neither context performs a write that the state does not allow. -/
theorem exec_uartWriteByte_barred (hm : x.mode ≠ .interruptBound) (b : Byte) :
    exec (.uartWriteByte u b) s = .refused .uartState := by
  have hirq : writeInIrq u b s = .refused .uartState := by
    rw [writeInIrq, hu]
    exact if_neg hm
  rw [exec_uartWriteByte_eq, hirq, uartOp_of_mode_ne _ hu hm, ite_self]

end

/-! ## Ring operations presented on a ring that is a driver's, or that does not exist (R156, R132) -/

theorem exec_rbPush_absent {r : RingRef} (b : Byte) (hr : s.ring? (ringId r) = none) :
    exec (.rbPush r b) s = .refused .noInstance := by simp only [exec, execRbPush, hr]

theorem exec_rbPull_absent {r : RingRef} (hr : s.ring? (ringId r) = none) :
    exec (.rbPull r) s = .refused .noInstance := by simp only [exec, execRbPull, hr]

section
variable {v : BitVec 7} {y : Ring} (hr : s.ring? (ringId (.tx v)) = some y)
include hr

theorem exec_rbPush_tx (b : Byte) : exec (.rbPush (.tx v) b) s = .refused .ringDiscipline := by
  simp only [exec, execRbPush, hr]

theorem exec_rbPull_tx : exec (.rbPull (.tx v)) s = .refused .ringDiscipline := by
  simp only [exec, execRbPull, hr]

end

/-! ## Operations of MAIN that run to their end -/

/-- An operation of MAIN of which each micro-step is done once, undisturbed. -/
theorem startMain_of_steps {p : List Micro} (hq : s.quiet) (h : Runs .main p p.length { s with ret := .none } t)
    (hm : t.main = []) (hi : t.irq = []) : startMain p s = .next t :=
  (startMain_of_runs hq h (length_le_progWeight _ p) hi).trans (by rw [clear_main hm])

/-! ## Binding (R222, R224) -/

/-- What B1 of R222 leaves of the UART. -/
def Uart.boundPoll (x : Uart) : Uart :=
  { x with
    ieRxLevel := false, ieRxTimeout := false, ieLine := false, ieTxLevel := false, ieDma := false, ieEot := false
    mode := .pollingBound }

/-- What B1 of R224 leaves of the UART. -/
def Uart.withBuffer (x : Uart) (q : BufRef) (cap : Nat) : Uart := { x with rxBuf := q, rxCap := cap, rxCount := 0 }

/-- What B2 of R224 leaves of the UART. -/
def Uart.boundIrq (x : Uart) : Uart :=
  { x with
    ieRxLevel := true, ieRxTimeout := true, ieLine := true, ieTxLevel := false, ieDma := false, ieEot := false
    mode := .interruptBound }

section
variable {v : Nat} (hu : s.uarts[v]? = some x) (hm : x.mode = .idle)
include hu hm

theorem runs_bindPoll : Runs .main [.bindPoll v] 1 s (s.setUart v x.boundPoll) :=
  Runs.step fun q ms => (withUart_of_some (by rw [setProg_uarts, hu]) _).trans (if_pos hm)

theorem micro_bindBuffer_owned {q : BufRef} (ho : s.owned q = true) (cap : Nat) (ms : List Micro) :
    micro (.bindBuffer v q cap) ms s = .refuse .bufferOwned :=
  (withUart_of_some hu _).trans ((if_pos hm).trans (if_pos ho))

theorem runs_bindBuffer {q : BufRef} (ho : s.owned q = false) (cap : Nat) :
    Runs .main [.bindBuffer v q cap] 1 s (s.setUart v (x.withBuffer q cap)) :=
  Runs.step fun p ms => (withUart_of_some (by rw [setProg_uarts, hu]) _).trans <|
    (if_pos hm).trans (if_neg (by simp [ho]))

theorem runs_bindEnable : Runs .main [.bindEnable v] 1 s (s.setUart v x.boundIrq) :=
  Runs.step fun q ms => (withUart_of_some (by rw [setProg_uarts, hu]) _).trans (if_pos hm)

theorem runs_bindIrq {q : BufRef} (ho : s.owned q = false) (cap : Nat) :
    Runs .main [.bindBuffer v q cap, .bindEnable v] 2 s (s.setUart v (x.withBuffer q cap).boundIrq) := by
  have henable := runs_bindEnable (x := x.withBuffer q cap) (setUart_self hu) hm
  rw [setUart_setUart] at henable
  exact (runs_bindBuffer hu hm ho cap).append henable

end

/-! ## `UART.POLL_READ` (R228) -/

section
variable {v : Nat} (hu : s.uarts[v]? = some x)
include hu

theorem runs_pollRead_empty (hf : x.rxfifo = []) :
    Runs .main [.pollRead v] 1 s (s.give .main (.optByte none)) :=
  Runs.step fun q ms => (withUart_of_some (by rw [setProg_uarts, hu]) _).trans (by rw [hf]; rfl)

theorem runs_pollRead_byte {b : Byte} {rest : List Byte} (hf : x.rxfifo = b :: rest) :
    Runs .main [.pollRead v] 1 s ((s.setUart v { x with rxfifo := rest }).give .main (.optByte (some b))) :=
  Runs.step fun q ms => (withUart_of_some (by rw [setProg_uarts, hu]) _).trans (by rw [hf]; rfl)

/-! ## `UART.WRITE_BYTE` (R240) -/

theorem runs_writeDirect_open (c : Side) (b : Byte) (hd : x.directOpen s.cfg.uartFifoDepth = true) :
    Runs c [.writeDirect v b] 1 s ((s.setUart v { x with txfifo := x.txfifo ++ [b] }).give x.txring.producer .ok) :=
  Runs.step fun q ms => (withUart_of_some (by rw [setProg_uarts, hu]) _).trans <|
    (if_pos (by rw [setProg_cfg]; exact hd)).trans (by cases c <;> cases x.txring.producer <;> rfl)

/-- T2 takes the place of T1 when the direct path is closed. -/
theorem runs_writeDirect_closed {c : Side} {b : Byte} {k : Nat} (hd : x.directOpen s.cfg.uartFifoDepth = false)
    (h : Runs c [.pushSample (.tx v) b (.write v)] k s t) : Runs c [.writeDirect v b] (k + 1) s t :=
  Runs.cons (p' := [.pushSample (.tx v) b (.write v)]) (fun q ms =>
    (withUart_of_some (by rw [setProg_uarts, hu]) _).trans (if_neg (by rw [setProg_cfg, hd]; exact Bool.false_ne_true)))
    h

theorem ring?_tx : s.ring? (.tx v) = some x.txring := by rw [State.ring?, hu]; rfl

theorem setRing_tx (r : Ring) : s.setRing (.tx v) r = s.setUart v { x with txring := r } := by
  rw [State.setRing, hu]

/-- T2 at a full ring. -/
theorem runs_pushWrite_full (c : Side) (b : Byte) (hf : x.txring.full = true) :
    Runs c [.pushSample (.tx v) b (.write v)] 1 s (s.give x.txring.producer (.err .backpressure)) :=
  Runs.step fun q ms => by simp [micro, stepPushSample, withRing, ring?_tx hu, hf, give_setProg]

theorem runs_enableTx (c : Side) : Runs c [.enableTx v] 1 s
    ((s.setUart v { x with ieTxLevel := true }).give x.txring.producer .ok) :=
  Runs.step fun q ms => (withUart_of_some (by rw [setProg_uarts, hu]) _).trans (by
    cases c <;> cases x.txring.producer <;> rfl)

/-- T2 at a ring with room, and T3. -/
theorem runs_pushWrite_room (c : Side) (b : Byte) (hf : x.txring.full = false) :
    Runs c [.pushSample (.tx v) b (.write v)] 4 s
      ((s.setUart v { x with txring := x.txring.pushed b, ieTxLevel := true }).give x.txring.producer .ok) := by
  have hr := ring?_tx hu
  have hset : (s.setRing (.tx v) (x.txring.pushed b)).uarts[v]? = some { x with txring := x.txring.pushed b } := by
    rw [setRing_tx hu]
    exact setUart_self hu
  have henable := runs_enableTx hset c
  have hboth (y : Uart) : (s.setRing (.tx v) (x.txring.pushed b)).setUart v y = s.setUart v y := by
    rw [setRing_tx hu, setUart_setUart]
  rw [hboth] at henable
  refine Runs.cons (p' := [.pushStore (.tx v) x.txring.head ((x.txring.head + 1) % x.txring.n) b (.write v)]) (t := s)
    (fun q ms => by simp [micro, stepPushSample, withRing, hr, hf]) ?_
  refine Runs.cons (p' := [.pushPublish (.tx v) ((x.txring.head + 1) % x.txring.n) (.write v)])
    (t := s.setRing (.tx v) { x.txring with storage := x.txring.storage.set x.txring.head b })
    (fun q ms => by simp [micro, stepPushStore, withRing, hr, setRing_setProg]) ?_
  exact Runs.cons (p' := [.enableTx v]) (t := s.setRing (.tx v) (x.txring.pushed b)) (fun q ms => by
    simp [micro, stepPushPublish, withRing, ring?_setRing _ hr, setRing_setProg, setRing_setRing _ _ hr, Ring.pushed])
    henable

end

/-- A whole `UART.WRITE_BYTE` on UART `v`, which is `x` (R240). -/
def State.wrote (s : State) (v : Nat) (x : Uart) (b : Byte) : State :=
  if x.directOpen s.cfg.uartFifoDepth then
    (s.setUart v { x with txfifo := x.txfifo ++ [b] }).give x.txring.producer .ok
  else if x.txring.full then s.give x.txring.producer (.err .backpressure)
  else (s.setUart v { x with txring := x.txring.pushed b, ieTxLevel := true }).give x.txring.producer .ok

theorem wrote_main (s : State) (v : Nat) (x : Uart) (b : Byte) : (s.wrote v x b).main = s.main := by
  unfold State.wrote
  split
  · simp
  · split <;> simp

theorem wrote_irq (s : State) (v : Nat) (x : Uart) (b : Byte) : (s.wrote v x b).irq = s.irq := by
  unfold State.wrote
  split
  · simp
  · split <;> simp

theorem runs_writeByte {v : Nat} (hu : s.uarts[v]? = some x) (c : Side) (b : Byte) :
    ∃ k, k ≤ 5 ∧ Runs c [.writeDirect v b] k s (s.wrote v x b) := by
  cases hd : x.directOpen s.cfg.uartFifoDepth with
  | true => exact ⟨1, by omega, by simpa [State.wrote, hd] using runs_writeDirect_open hu c b hd⟩
  | false =>
    cases hf : x.txring.full with
    | true =>
      exact ⟨2, by omega, by
        simpa [State.wrote, hd, hf] using runs_writeDirect_closed hu hd (runs_pushWrite_full hu c b hf)⟩
    | false =>
      exact ⟨5, by omega, by
        simpa [State.wrote, hd, hf] using runs_writeDirect_closed hu hd (runs_pushWrite_room hu c b hf)⟩

/-- The write takes effect as a whole, in the producer's context. -/
theorem exec_uartWriteByte_eq_wrote (hu : s.uarts[u.toNat]? = some x) (hi : s.irq = []) (hs : s.sliced = false)
    (hp : x.txring.producer = .main → s.main = []) (hm : x.mode = .interruptBound) (b : Byte) :
    exec (.uartWriteByte u b) s = .next (s.wrote u.toNat x b) := by
  rw [exec_uartWriteByte hu hm]
  cases hside : x.txring.producer with
  | irq =>
    obtain ⟨k, hk, hr⟩ := runs_writeByte hu .irq b
    refine (startIrq_of_runs hi hs hr hk).trans ?_
    rw [clear_irq ((wrote_irq ..).trans hi)]
  | main =>
    obtain ⟨k, hk, hr⟩ := runs_writeByte (s := { s with ret := .none }) hu .main b
    refine (startMain_of_runs ⟨hp hside, hi, hs⟩ hr hk ((wrote_irq ..).trans hi)).trans ?_
    have hret : State.wrote { s with ret := .none } u.toNat x b = s.wrote u.toNat x b := by
      simp only [State.wrote, hside]
      rfl
    rw [hret, clear_main ((wrote_main ..).trans (hp hside))]

/-! ## `UART.DMA_TX` (R250) -/

/-- What U2 of R250 leaves of the UART. -/
def Uart.dmaSet (x : Uart) (q : BufRef) (n dmaMax : Nat) : Uart :=
  { x with
    dmaSrc := q, dmaLen := n, dmaCursor := 0, dmaRemaining := n, dmaChunk := min n dmaMax
    dmaPhase := .chunk, dmaBusy := true, mode := .dmaTransmitting }

/-- What U3 of R250 leaves of the UART. -/
def Uart.dmaGone (x : Uart) : Uart := { x with utxIdx := 0, utxLeft := x.dmaChunk, ieDma := true, utxEn := true }

theorem Ring.empty_iff_head {r : Ring} : r.empty = true ↔ r.head = r.tail := beq_iff_eq

/-- The transmit path is empty (R250). -/
theorem txPath_iff : (x.txring.empty && !x.ieTxLevel) = true ↔ x.txring.head = x.txring.tail ∧ x.ieTxLevel = false := by
  rw [Bool.and_eq_true, Ring.empty_iff_head, Bool.not_eq_true']

section
variable {v : Nat} {q : BufRef} (hu : s.uarts[v]? = some x) (hm : x.mode = .interruptBound)
include hu hm

theorem micro_dmaTxSet_busyPath (hp : (x.txring.empty && !x.ieTxLevel) = false) (n : Nat) (ms : List Micro) :
    micro (.dmaTxSet v q n) ms s = .refuse .txPathBusy :=
  (withUart_of_some hu _).trans ((if_pos hm).trans (if_neg (ne_true_of_eq_false hp)))

section
variable (hp : (x.txring.empty && !x.ieTxLevel) = true)
include hp

theorem micro_dmaTxSet_owned (ho : s.owned q = true) (n : Nat) (ms : List Micro) :
    micro (.dmaTxSet v q n) ms s = .refuse .bufferOwned :=
  (withUart_of_some hu _).trans ((if_pos hm).trans ((if_pos hp).trans (if_pos ho)))

theorem runs_dmaTxSet (ho : s.owned q = false) (n : Nat) :
    Runs .main [.dmaTxSet v q n] 1 s (s.setUart v (x.dmaSet q n s.cfg.dmaMax)) :=
  Runs.step fun p ms => (withUart_of_some (by rw [setProg_uarts, hu]) _).trans <|
    (if_pos hm).trans ((if_pos hp).trans (if_neg (by simp [ho])))

theorem runs_dmaTx (hb : x.dmaBusy = false) (ho : s.owned q = false) (n : Nat) :
    Runs .main [.spinUart v, .dmaTxSet v q n, .dmaTxGo v] 3 s
      (s.setUart v (x.dmaSet q n s.cfg.dmaMax).dmaGone) := by
  have hgo : Runs .main [.dmaTxGo v] 1 (s.setUart v (x.dmaSet q n s.cfg.dmaMax))
      ((s.setUart v (x.dmaSet q n s.cfg.dmaMax)).setUart v (x.dmaSet q n s.cfg.dmaMax).dmaGone) :=
    Runs.step fun p ms => withUart_of_some (by rw [setProg_uarts, setUart_self hu]) _
  rw [setUart_setUart] at hgo
  exact (runs_spinUart hu .main hb).append ((runs_dmaTxSet hu hm hp ho n).append hgo)

end

end

/-- A `UART.DMA_TX` that is admitted, whatever turns come after it: the first chunk is started. -/
theorem exec_uartDmaTx_starts {src : BitVec 16} {n : Nat} (hq : s.quiet) (hu : s.uarts[u.toNat]? = some x)
    (hm : x.mode = .interruptBound) (hb : x.dmaBusy = false) (hp : x.txring.head = x.txring.tail)
    (he : x.ieTxLevel = false) (hn : 1 ≤ n) (hbuf : bufOk s.cfg src n = true) (ho : s.owned (.user src) = false) :
    exec (.uartDmaTx u src n) s = .next { s with
      uarts := s.uarts.set u.toNat (x.dmaSet (.user src) n s.cfg.dmaMax).dmaGone, ret := .none } := by
  rw [exec_uartDmaTx hu (.inl hm) hn hbuf]
  exact startMain_of_steps hq
    (runs_dmaTx (s := { s with ret := .none }) (q := .user src) hu hm (txPath_iff.2 ⟨hp, he⟩) hb ho n) hq.1 hq.2.1

end Sys2Proof.Machine

open Sys2Proof Sys2Proof.Machine

/-- Settles O19: one micro-step binds to polling, two to interrupts. -/
theorem uartBindResult : Obligations.UartBindResult := by
  intro s u q cap x hq hu hm
  refine ⟨?_, fun hbuf ho => ?_⟩
  · rw [exec_uartBindPoll hu hm]
    exact startMain_of_steps hq (runs_bindPoll (s := { s with ret := .none }) hu hm) hq.1 hq.2.1
  · rw [exec_uartBindIrq hu hm hbuf]
    exact startMain_of_steps hq (runs_bindIrq (s := { s with ret := .none }) (q := .user q) hu hm ho cap) hq.1 hq.2.1

/-- Settles O20: the one micro-step finds the FIFO empty, or takes its oldest byte. -/
theorem uartPollReadResult : Obligations.UartPollReadResult := by
  intro s u x hq hu hm
  rw [exec_uartPollRead hu hm]
  cases hf : x.rxfifo with
  | nil => exact startMain_of_steps hq (runs_pollRead_empty (s := { s with ret := .none }) hu hf) hq.1 hq.2.1
  | cons b rest => exact startMain_of_steps hq (runs_pollRead_byte (s := { s with ret := .none }) hu hf) hq.1 hq.2.1

/-- Settles O21: a whole write in either context, by the direct path, or to a ring that is full or has room. -/
theorem uartWriteByteResult : Obligations.UartWriteByteResult := by
  intro s u b x hi hs hu hp hm
  rw [exec_uartWriteByte_eq_wrote hu hi hs hp hm, State.wrote]
  simp only [Uart.directOpen, Ring.full, Bool.and_eq_true, Bool.not_eq_true', decide_eq_true_eq, beq_iff_eq]
  rfl

/-- Settles O22: three micro-steps, of which the first is a spin. -/
theorem uartDmaTxResult : Obligations.UartDmaTxResult := by
  intro s u src n x hq hu hn hbuf
  refine ⟨fun hm hb hp he ho => exec_uartDmaTx_starts hq hu hm hb hp he hn hbuf ho, fun hm hb hs => ?_⟩
  rw [exec_uartDmaTx hu hm hn hbuf]
  exact startMain_left_at_spin (p := []) hq (Runs.nil _ _) (spins_spinUart (s := { s with ret := .none }) hu hb _)
    hq.2.1 hs

/-- Settles O23: the first test that fails gives the refusal its name; the buffer and the transmit path are tested in a
micro-step of the operation's. -/
theorem uartAdmission : Obligations.UartAdmission := by
  intro s u v b q n e hq
  refine ⟨fun x hu => ⟨fun hv => ?ownRing, fun hm => ⟨uartOp_of_mode_ne _ hu hm,
      uartOp_of_mode_ne _ hu hm⟩, fun hm hbuf => ?bindShort, fun hm hbuf ho => ?bindOwned,
      fun hm => uartOp_of_mode_ne _ hu hm, fun hm => exec_uartWriteByte_barred hu hm b,
      fun hm => ?notIrqBound, fun hm => ⟨?zero, fun hn hbuf => ?short⟩, fun hm hn hbuf hb hp => ?path,
      fun hm hn hbuf hb hp he ho => ?source⟩, fun hu => ?absent, fun r hr => ?ring⟩
  case ownRing =>
    have hring : s.ring? (ringId (.tx v)) = some x.txring := ring?_tx (hv ▸ hu)
    exact ⟨exec_rbPush_tx hring b, exec_rbPull_tx hring⟩
  case bindShort => rw [exec_uartBindIrq_eq, uartOp_of_mode _ hu hm, need_fail hbuf]
  case bindOwned =>
    rw [exec_uartBindIrq hu hm hbuf]
    exact startMain_of_refuses (p := []) (k := 0) hq (.nil _ _)
      (micro_bindBuffer_owned (s := { s with main := _, ret := .none }) hu hm ho _ _) (Nat.succ_pos _)
  case notIrqBound =>
    have hbarred : (x.mode == .interruptBound || x.mode == .dmaTransmitting) = false := by
      obtain hm | hm := hm <;> rw [hm] <;> rfl
    rw [exec_uartDmaTx_eq, exec_uartDmaWait_eq]
    exact ⟨uartOp_barred _ hu hbarred, uartOp_barred _ hu hbarred⟩
  case zero => rw [exec_uartDmaTx_eq, uartOp_admitted _ hu (dmaMode_iff.2 hm), need_fail (decide_eq_false (by simp))]
  case short =>
    rw [exec_uartDmaTx_eq, uartOp_admitted _ hu (dmaMode_iff.2 hm), need_pass (decide_eq_true hn), need_fail hbuf]
  case path =>
    have hpath : (x.txring.empty && !x.ieTxLevel) = false := by
      rw [← Bool.not_eq_true, txPath_iff]
      rintro ⟨hempty, hoff⟩
      obtain hp | hp := hp
      · exact hp hempty
      · rw [hp] at hoff
        cases hoff
    rw [exec_uartDmaTx hu (.inl hm) hn hbuf]
    exact startMain_refused_second hq (runs_spinUart (s := { s with ret := .none }) hu .main hb)
      (micro_dmaTxSet_busyPath (s := { s with main := _, ret := .none }) hu hm hpath _ _)
  case source =>
    rw [exec_uartDmaTx hu (.inl hm) hn hbuf]
    exact startMain_refused_second hq (runs_spinUart (s := { s with ret := .none }) hu .main hb)
      (micro_dmaTxSet_owned (s := { s with main := _, ret := .none }) hu hm (txPath_iff.2 ⟨hp, he⟩) ho _ _)
  case absent =>
    have hwrite : exec (.uartWriteByte u b) s = .refused .noInstance := by
      rw [exec_uartWriteByte_eq, writeInIrq_absent hu, if_neg Bool.false_ne_true, uartOp_absent _ hu]
    simp only [List.forall_mem_cons, hwrite]
    simp only [exec]
    exact ⟨uartOp_absent _ hu, uartOp_absent _ hu, uartOp_absent _ hu, trivial, uartOp_absent _ hu, uartOp_absent _ hu,
      uartHandler_absent hu .., uartHandler_absent hu .., uartHandler_absent hu .., uartHandler_absent hu ..,
      uartHandler_absent hu .., uartHandler_absent hu .., uartStep_absent hu _, uartStep_absent hu _,
      uartStep_absent hu _, uartStep_absent hu _, nofun⟩
  case ring => exact ⟨exec_rbPush_absent b hr, exec_rbPull_absent hr⟩

end

section
/-! Runs of the machine in which every turn presents something while the core has nothing in progress (R83, log 1), and
the first of them: a burst arrives on a UART as one frame (R236). -/

namespace Sys2Proof.Machine

variable {s t : State} {u : BitVec 8} {x : Uart}

/-! ## Runs -/

theorem run_succ_of_step {M : Host.Core} {a b : M.State} (h : M.step a = .next b) (k : Nat) :
    M.run (k + 1) a = M.run k b := by rw [Host.Core.run, h]

/-- `k` steps of the machine lead from `s` to `t`. -/
def StepsTo (k : Nat) (s t : State) : Prop := Sys2Proof.core.run k s = .next t

theorem StepsTo.refl (s : State) : StepsTo 0 s s := rfl

theorem StepsTo.head {k : Nat} {r : State} (h : step s = .next t) (ht : StepsTo k t r) : StepsTo (k + 1) s r :=
  (run_succ_of_step (M := Sys2Proof.core) h k).trans ht

/-- A turn that presents the instruction `i`, with nothing in progress, is its meaning. -/
theorem StepsTo.turn {k : Nat} {bs : List Byte} {ts : List Turn} {i : Instr} {r : State} (hm : s.main = [])
    (hi : s.irq = []) (hs : s.sched = .req .op bs :: ts) (hd : decode .op bs = .ok i)
    (h : exec i { s with sched := ts } = .next t) (ht : StepsTo k t r) : StepsTo (k + 1) s r :=
  StepsTo.head ((step_presented hs hd (.inl (by simp [State.coreIdle, hm, hi]))).trans h) ht

/-! ## A burst (R232, R236, R262) -/

theorem bufFill_append (q : BufRef) (j : Nat) (ws vs : List Word) (m : List (Nat × Word)) :
    bufFill q j (ws ++ vs) m = bufFill q (j + ws.length) vs (bufFill q j ws m) := by
  induction ws generalizing j m with
  | nil => rfl
  | cons w ws ih =>
    rw [List.cons_append, bufFill, bufFill, ih, List.length_cons, Nat.add_right_comm, Nat.add_assoc]

/-- UART `x` in a burst: `n` bytes are in the receive buffer, and `queued` are in the FIFO. -/
def Uart.inBurst (x : Uart) (n : Nat) (queued : List Byte) (gap : Bool) : Uart :=
  { x with rxfifo := queued, rxCount := n, gapArmed := gap }

/-- A burst on UART `v`, which was `x`: the bytes `stored` are in the receive buffer, `queued` in the FIFO, and `ts` are
the turns to come. -/
def State.burst (s : State) (v : Nat) (x : Uart) (stored queued : List Byte) (gap : Bool) (ts : List Turn) : State :=
  { s with
    uarts := s.uarts.set v (x.inBurst stored.length queued gap)
    buf := bufFill x.rxBuf 0 (stored.map (·.setWidth 16)) s.buf
    sched := ts }

/-- Before the first byte. -/
theorem burst_nil {v : Nat} (hu : s.uarts[v]? = some x) (hf : x.rxfifo = []) (hc : x.rxCount = 0) :
    s.burst v x [] [] x.gapArmed s.sched = s := by
  have hx : x.inBurst 0 [] x.gapArmed = x := by rw [Uart.inBurst, ← hf, ← hc]
  simp only [State.burst, List.length_nil, hx, set_eq_self_of_getElem? hu]
  rfl

/-- Bytes of the FIFO that all fit move to the buffer. -/
theorem rxAfter_burst {v : Nat} {stored queued : List Byte} {gap : Bool} {ts : List Turn} {m : Nat}
    (hm : m ≤ queued.length) (hcap : stored.length + queued.length ≤ x.rxCap) :
    rxAfter (s.burst v x stored queued gap ts) v (x.inBurst stored.length queued gap) m =
      s.burst v x (stored ++ queued.take m) (queued.drop m) gap ts := by
  have hfit : min m (x.rxCap - stored.length) = m := by omega
  have hlen : (stored ++ queued.take m).length = stored.length + m := by
    rw [List.length_append, List.length_take, Nat.min_eq_left hm]
  simp only [rxAfter, State.burst, Uart.inBurst, List.set_set, hfit, hlen, List.map_append, bufFill_append,
    List.length_map, Nat.zero_add]

/-! ### The handlers, when all bytes fit -/

section
variable (hu : s.uarts[u.toNat]? = some x) (hi : s.irq = []) (hs : s.sliced = false)
include hu hi hs

theorem evUartRxLevel_fits (he : x.ieRxLevel = true) (hl : s.cfg.uartRxTrig ≤ x.rxfifo.length)
    (hfit : s.cfg.uartRxTrig - 2 ≤ x.rxCap - x.rxCount) :
    execEvUartRxLevel u s = .next (rxAfter s u.toNat x (s.cfg.uartRxTrig - 2)) := by
  rw [evUartRxLevel_ready hu hi hs he hl, if_neg (Nat.not_lt.2 hfit), List.append_nil]
  rfl

theorem evUartRxTimeout_fits {m : Nat} {buf : List (Nat × Word)} (he : x.ieRxTimeout = true)
    (hf : x.rxTimeoutFlag = true) (hl : x.rxfifo.length = m) (hfit : m ≤ x.rxCap - x.rxCount)
    (hbuf : (rxAfter s u.toNat x m).buf = buf) : execEvUartRxTimeout u s = .next { s with
      uarts := s.uarts.set u.toNat { x with rxTimeoutFlag := false, rxfifo := [], rxCount := 0 }
      buf := buf
      trace := s.trace ++ [.call x.cb.frameReceived u.toNat (.frameReceived x.rxBuf (x.rxCount + m))] } := by
  rw [evUartRxTimeout_ready hu hi hs he hf, hl, if_neg (Nat.not_lt.2 hfit), List.append_nil, Nat.min_eq_left hfit, hbuf]

end

/-- The machine once the bytes `bs` have arrived as one frame (R236). -/
def State.framed (s : State) (v : Nat) (x : Uart) (bs : List Byte) : State :=
  { s with
    uarts := s.uarts.set v { x with rxTimeoutFlag := false, gapArmed := false, rxfifo := [], rxCount := 0 }
    buf := bufFill x.rxBuf 0 (bs.map (·.setWidth 16)) s.buf
    trace := s.trace ++ [.call x.cb.frameReceived v (.frameReceived x.rxBuf bs.length)]
    sched := [] }

/-! ### The turns -/

section
variable (hu : s.uarts[u.toNat]? = some x)
include hu

theorem burst_uart {y : Uart} (stored queued : List Byte) (gap : Bool) (ts : List Turn) :
    (s.burst u.toNat y stored queued gap ts).uarts[u.toNat]? = some (y.inBurst stored.length queued gap) :=
  setUart_self hu

/-- A byte arrives and finds room. -/
theorem burst_byte {stored queued : List Byte} (gap : Bool) (ts : List Turn) (b : Byte)
    (hroom : queued.length < s.cfg.uartFifoDepth) :
    execEnvLineByte u b none (s.burst u.toNat x stored queued gap ts) =
      .next (s.burst u.toNat x stored (queued ++ [b]) true ts) := by
  refine (envLineByte_arrives (burst_uart hu stored queued gap ts) b none).trans (congrArg _ ?_)
  simp only [State.burst, Uart.inBurst, State.setUart, List.set_set, hroom, if_true, LineErrs.latch_none]

/-- A silence after a byte finds the FIFO not empty. -/
theorem burst_silence {stored queued : List Byte} {ts : List Turn} (hne : queued ≠ []) :
    execEnvLineSilence u (s.burst u.toNat x stored queued true ts) =
      .next (s.burst u.toNat { x with rxTimeoutFlag := true } stored queued false ts) := by
  have hflag : (x.rxTimeoutFlag || !queued.isEmpty) = true := by
    rw [List.isEmpty_eq_false_iff.2 hne, Bool.not_false, Bool.or_true]
  refine (envLineSilence_armed (burst_uart hu stored queued true ts) rfl).trans (congrArg _ ?_)
  simp only [State.burst, Uart.inBurst, State.setUart, List.set_set, hflag]

/-- The timeout handler takes what the FIFO holds and reports one frame. -/
theorem burst_timeout {stored queued : List Byte} (hi : s.irq = []) (htimeout : x.ieRxTimeout = true)
    (hcap : stored.length + queued.length ≤ x.rxCap) :
    execEvUartRxTimeout u (s.burst u.toNat { x with rxTimeoutFlag := true } stored queued false []) =
      .next (s.framed u.toNat x (stored ++ queued)) := by
  have hfit : queued.length ≤ x.rxCap - stored.length := by omega
  have hafter := rxAfter_burst (s := s) (x := { x with rxTimeoutFlag := true }) (v := u.toNat) (gap := false) (ts := [])
    (Nat.le_refl _) hcap
  have hu' := burst_uart (y := { x with rxTimeoutFlag := true }) hu stored queued false []
  refine (evUartRxTimeout_fits hu' hi rfl htimeout rfl rfl hfit (congrArg State.buf hafter)).trans (congrArg _ ?_)
  rw [State.framed, List.length_append]
  simp only [State.burst, List.set_set, List.take_length]
  rfl

section
variable {stored queued : List Byte} {ts : List Turn}

/-- The fill-level handler has nothing to do below its trigger. -/
theorem burst_below (hq : queued.length < s.cfg.uartRxTrig) :
    execEvUartRxLevel u (s.burst u.toNat x stored queued true ts) =
      .next (s.burst u.toNat x stored queued true ts) :=
  uartHandler_disabled (ready := fun y => y.rxLevelReady s.cfg.uartRxTrig) (burst_uart hu ..)
    (.inl (Uart.rxLevelReady_eq_false.2 (.inr hq)))

variable (hi : s.irq = []) (hlevel : x.ieRxLevel = true)
include hi hlevel

/-- At its trigger it moves all bytes but two. -/
theorem burst_level (hts : ({ s with sched := ts } : State).sliced = false)
    (hq : queued.length = s.cfg.uartRxTrig) (hcap : stored.length + queued.length ≤ x.rxCap) :
    execEvUartRxLevel u (s.burst u.toNat x stored queued true ts) =
      .next (s.burst u.toNat x (stored ++ queued.take (s.cfg.uartRxTrig - 2))
        (queued.drop (s.cfg.uartRxTrig - 2)) true ts) := by
  have hfit : s.cfg.uartRxTrig - 2 ≤ x.rxCap - stored.length := by omega
  rw [← rxAfter_burst (by omega) hcap]
  exact evUartRxLevel_fits (burst_uart hu ..) hi hts hlevel (Nat.le_of_eq hq.symm) hfit

/-- One byte arrives, and the fill-level handler runs if the FIFO has reached its trigger. -/
theorem steps_burst_byte (hm : s.main = []) (hts : ({ s with sched := ts } : State).sliced = false)
    (htrig : 3 ≤ s.cfg.uartRxTrig) (hdepth : s.cfg.uartRxTrig ≤ s.cfg.uartFifoDepth)
    (hq : queued.length < s.cfg.uartRxTrig) (gap : Bool) (b : Byte)
    (hcap : stored.length + (queued ++ [b]).length ≤ x.rxCap) :
    ∃ stored' queued', stored' ++ queued' = stored ++ (queued ++ [b]) ∧ queued' ≠ [] ∧
      queued'.length < s.cfg.uartRxTrig ∧ ∀ k r, StepsTo k (s.burst u.toNat x stored' queued' true ts) r →
        StepsTo (k + 2) (s.burst u.toNat x stored queued gap (.req .op [0xC3, u, b, 0x00] :: .req .op [0x82, u] :: ts))
          r := by
  have hbyte := burst_byte hu (stored := stored) gap (.req .op [0x82, u] :: ts) b (Nat.lt_of_lt_of_le hq hdepth)
  have hlen : (queued ++ [b]).length = queued.length + 1 := List.length_append
  by_cases hfull : (queued ++ [b]).length = s.cfg.uartRxTrig
  · have hmoved := burst_level hu hi hlevel hts hfull hcap
    refine ⟨_, _, ?_, ?_, ?_, fun k r h => .turn hm hi rfl rfl hbyte (.turn hm hi rfl rfl hmoved h)⟩
    · rw [List.append_assoc, List.take_append_drop]
    · rw [← List.length_pos_iff, List.length_drop]
      omega
    · rw [List.length_drop]
      omega
  · have hbelow : (queued ++ [b]).length < s.cfg.uartRxTrig := by omega
    have hstays := burst_below hu (stored := stored) (ts := ts) hbelow
    exact ⟨stored, queued ++ [b], rfl, by simp, hbelow,
      fun k r h => .turn hm hi rfl rfl hbyte (.turn hm hi rfl rfl hstays h)⟩

end

end

section
variable (hu : s.uarts[u.toNat]? = some x) (hm : s.main = []) (hi : s.irq = []) (htimeout : x.ieRxTimeout = true)
include hu hm hi htimeout

/-- The silence finds the FIFO not empty, and its handler empties it. -/
theorem steps_burst_end {stored queued : List Byte} (hne : queued ≠ [])
    (hcap : stored.length + queued.length ≤ x.rxCap) :
    StepsTo 2 (s.burst u.toNat x stored queued true (receiveTurns u []))
      (s.framed u.toNat x (stored ++ queued)) :=
  .turn hm hi rfl rfl (burst_silence hu hne) <|
    .turn hm hi rfl rfl (burst_timeout hu hi htimeout hcap) (.refl _)

/-- The bytes still to come, then the silence. -/
theorem steps_burst (hlevel : x.ieRxLevel = true) (htrig : 3 ≤ s.cfg.uartRxTrig)
    (hdepth : s.cfg.uartRxTrig ≤ s.cfg.uartFifoDepth) (bs : List Byte) : ∀ {stored queued : List Byte} {gap : Bool},
    queued.length < s.cfg.uartRxTrig → stored.length + queued.length + bs.length ≤ x.rxCap →
    (bs = [] → queued ≠ [] ∧ gap = true) →
    StepsTo (receiveTurns u bs).length (s.burst u.toNat x stored queued gap (receiveTurns u bs))
      (s.framed u.toNat x (stored ++ queued ++ bs)) := by
  induction bs with
  | nil =>
    intro stored queued gap hq hcap hlast
    obtain ⟨hne, rfl⟩ := hlast rfl
    rw [List.append_nil]
    exact steps_burst_end hu hm hi htimeout hne hcap
  | cons b bs ih =>
    intro stored queued gap hq hcap hlast
    rw [List.length_cons] at hcap
    have hlen : (queued ++ [b]).length = queued.length + 1 := List.length_append
    obtain ⟨stored', queued', hall, hne, hq', hbyte⟩ := steps_burst_byte hu hi hlevel (ts := receiveTurns u bs) hm
      (by cases bs <;> rfl) htrig hdepth hq gap b (stored := stored) (by omega)
    have hsum : stored'.length + queued'.length = stored.length + (queued ++ [b]).length := by
      simpa using congrArg List.length hall
    have hrest := ih (stored := stored') (queued := queued') (gap := true) hq' (by omega) fun _ => ⟨hne, rfl⟩
    rw [hall, ← List.append_assoc, List.append_assoc _ [b], List.singleton_append] at hrest
    exact hbyte _ _ hrest

end

end Sys2Proof.Machine

open Sys2Proof Sys2Proof.Machine

/-- Settles O33: byte by byte the burst is what the buffer and the FIFO hold together, and the silence finds the FIFO
not empty. -/
theorem uartFrameLaw : Obligations.UartFrameLaw := by
  intro s u bs x hm hi hs hu hlevel htimeout hf hc hne hcap htrig hdepth hok
  obtain ⟨-, hwf⟩ := memOk_iff.1 hok
  have hrun := steps_burst hu hm hi htimeout hlevel htrig hdepth bs (stored := []) (queued := []) (gap := x.gapArmed)
    (Nat.lt_of_lt_of_le (by decide) htrig) (by simpa using hcap) fun h => absurd h hne
  rw [← hs, burst_nil hu hf hc, List.nil_append, List.nil_append] at hrun
  have hlen : (bs.map fun b => b.setWidth 16).length = bs.length := List.length_map ..
  refine ⟨_, hrun, rfl, fun i hib => ?_, ?_, ?_⟩
  · rw [bufRead_bufFill hwf rfl (by rwa [hlen])]
    simp [hib]
  · exact hlen ▸ sameBufBut_bufFill hwf rfl
  · rw [State.framed, ← hf, ← hc]

end

section
/-! A DMA transmit of a UART goes out chunk by chunk (R258). -/

namespace Sys2Proof.Machine

variable {s t : State} {u : BitVec 8} {x : Uart} {q : BufRef} {len c : Nat}

theorem run_add_of_run {M : Host.Core} {k : Nat} {a b : M.State} (h : M.run k a = .next b) (n : Nat) :
    M.run (k + n) a = M.run n b := by
  induction k generalizing a with
  | zero =>
    obtain rfl : a = b := by simpa [Host.Core.run] using h
    rw [Nat.zero_add]
  | succ k ih =>
    rw [Host.Core.run] at h
    rw [Nat.add_right_comm, Host.Core.run]
    cases hstep : M.step a with
    | next a' =>
      rw [hstep] at h
      exact ih h
    | fault r => rw [hstep] at h; cases h
    | refused r => rw [hstep] at h; cases h

theorem StepsTo.trans {k n : Nat} {r : State} (h : StepsTo k s t) (ht : StepsTo n t r) : StepsTo (k + n) s r :=
  (run_add_of_run (M := Sys2Proof.core) h n).trans ht

/-! ## The lengths of the chunks (R258) -/

/-- Each chunk is the whole of what remains, cut at `max`. -/
def CutAt (max : Nat) : List Nat → Prop
  | [] => True
  | d :: ds => 1 ≤ d ∧ d = min (d + ds.sum) max ∧ CutAt max ds

theorem cutAt_replicate_append {max r : Nat} (hr : 1 ≤ r) (hle : r ≤ max) (m : Nat) :
    CutAt max (List.replicate m max ++ [r]) := by
  induction m with
  | zero => exact ⟨hr, (Nat.min_eq_left hle).symm, trivial⟩
  | succ m ih => exact ⟨Nat.le_trans hr hle, (Nat.min_eq_right (Nat.le_add_right ..)).symm, ih⟩

theorem cutAt_chunkLengths {max : Nat} (hmax : 1 ≤ max) (hlen : 1 ≤ len) : CutAt max (chunkLengths len max) := by
  have hle : max * ((len - 1) / max) ≤ len - 1 := Nat.mul_div_le ..
  have hlt : len - 1 < max * ((len - 1) / max + 1) := Nat.lt_mul_div_succ _ hmax
  rw [Nat.mul_succ] at hlt
  exact cutAt_replicate_append (by omega) (by omega) _

theorem sum_chunkLengths (max : Nat) (hlen : 1 ≤ len) : (chunkLengths len max).sum = len := by
  have hle : max * ((len - 1) / max) ≤ len - 1 := Nat.mul_div_le ..
  rw [chunkLengths, List.sum_append, List.sum_replicate, smul_eq_mul, List.sum_singleton, Nat.mul_comm]
  omega

theorem chunkLengths_ne_nil (len max : Nat) : chunkLengths len max ≠ [] :=
  List.append_ne_nil_of_right_ne_nil _ (List.cons_ne_nil _ _)

/-- The turns of the chunk of `n` bytes, up to its completion handler. -/
def byteTurns (u : BitVec 8) (n : Nat) : List Turn :=
  (List.replicate n [Turn.req .op [0xC2, u], .req .op [0xC5, u], .req .op [0xC5, u]]).flatten

theorem byteTurns_succ (u : BitVec 8) (n : Nat) : byteTurns u (n + 1) =
    .req .op [0xC2, u] :: .req .op [0xC5, u] :: .req .op [0xC5, u] :: byteTurns u n := rfl

theorem uartDmaTurns_cons (u : BitVec 8) (d : Nat) (ds : List Nat) :
    uartDmaTurns u (d :: ds) = byteTurns u d ++ .req .op [0x86, u] :: uartDmaTurns u ds := rfl

theorem length_byteTurns (u : BitVec 8) (n : Nat) : (byteTurns u n).length = 3 * n := by
  induction n with
  | zero => rfl
  | succ n ih => rw [byteTurns_succ, List.length_cons, List.length_cons, List.length_cons, ih, Nat.mul_succ]

theorem length_uartDmaTurns_cons (u : BitVec 8) (d : Nat) (ds : List Nat) :
    (uartDmaTurns u (d :: ds)).length = 3 * d + 1 + (uartDmaTurns u ds).length := by
  rw [uartDmaTurns_cons, List.length_append, length_byteTurns, List.length_cons, Nat.add_comm _ 1, Nat.add_assoc]

theorem length_uartDmaTurns_pos (u : BitVec 8) (ds : List Nat) : 1 ≤ (uartDmaTurns u ds).length := by
  cases ds with
  | nil => exact Nat.le_refl 1
  | cons d ds => rw [length_uartDmaTurns_cons]; omega

theorem sliced_uartDmaTurns (u : BitVec 8) (ds : List Nat) :
    ({ s with sched := uartDmaTurns u ds } : State).sliced = false := by
  obtain _ | ⟨_ | d, ds⟩ := ds <;> rfl

theorem length_uartDmaTurns (u : BitVec 8) (ds : List Nat) :
    (uartDmaTurns u ds).length = (uartDmaTurns u ds).length - 1 + 1 :=
  (Nat.sub_add_cancel (length_uartDmaTurns_pos u ds)).symm

/-! ## Bytes that leave (R252, R266) -/

/-- What moving and shifting out the next byte leaves of the UART. -/
def Uart.byteGone (x : Uart) : Uart :=
  { x with utxIdx := x.utxIdx + 1, utxLeft := x.utxLeft - 1, dmaIrq := x.dmaIrq || x.utxLeft == 1 }

/-- What moving and shifting out all bytes of the chunk leaves of the UART. -/
def Uart.chunkGone (x : Uart) : Uart :=
  { x with utxIdx := x.utxIdx + x.utxLeft, utxLeft := 0, dmaIrq := true }

/-- A transmit is under way on UART `v`, which is `y`: the bytes `bs` have left on the line, and `ts` are the turns to
come. -/
def State.sent (s : State) (v : Nat) (y : Uart) (bs : List Byte) (ts : List Turn) : State :=
  { s with uarts := s.uarts.set v y, trace := s.trace ++ bs.map (Event.lineOut v), sched := ts }

/-- Before the first byte. -/
theorem sent_nil (s : State) (v : Nat) (y : Uart) :
    s.sent v y [] s.sched = { s with uarts := s.uarts.set v y } := by
  simp only [State.sent, List.map_nil, List.append_nil]

theorem bytesOf_succ (s : State) (q : BufRef) (n : Nat) :
    s.bytesOf q (n + 1) = s.bytesOf q n ++ [(s.bufRead q n).setWidth 8] := by
  rw [State.bytesOf, List.range_succ, List.map_append, List.map_singleton, State.bytesOf]

theorem bytesOf_take (s : State) (q : BufRef) {n m : Nat} (h : n ≤ m) : (s.bytesOf q m).take n = s.bytesOf q n := by
  rw [State.bytesOf, ← List.map_take, List.take_range, Nat.min_eq_left h, State.bytesOf]

section
variable (hu : s.uarts[u.toNat]? = some x)
include hu

theorem sent_uart (y : Uart) (bs : List Byte) (ts : List Turn) :
    (s.sent u.toNat y bs ts).uarts[u.toNat]? = some y :=
  setUart_self hu

section
variable {y : Uart} (bs : List Byte) (ts : List Turn)

theorem sent_move (he : y.utxEn = true) (hl : 0 < y.utxLeft) (hd : y.txfifo.length < s.cfg.uartFifoDepth) :
    execEnvUartDmaMove u (s.sent u.toNat y bs ts) =
      .next (s.sent u.toNat (y.utxMoved ((s.bufRead y.dmaSrc y.utxIdx).setWidth 8)) bs ts) := by
  refine (envUartDmaMove_enabled (sent_uart hu y bs ts) he hl hd).trans (congrArg _ ?_)
  simp only [State.setUart, State.sent, List.set_set]
  rfl

theorem sent_starts {b : Byte} (hsh : y.txShifting = false) (hf : y.txfifo = [b]) :
    execEnvTxShift u (s.sent u.toNat y bs ts) =
      .next (s.sent u.toNat { y with txfifo := [], txShifting := true } (bs ++ [b]) ts) := by
  refine (envTxShift_starts (sent_uart hu y bs ts) hsh hf).trans (congrArg _ ?_)
  simp only [State.setUart, State.emit, State.sent, List.set_set, List.map_append, List.map_singleton,
    List.append_assoc]

theorem sent_ends (hsh : y.txShifting = true) :
    execEnvTxShift u (s.sent u.toNat y bs ts) = .next (s.sent u.toNat { y with txShifting := false } bs ts) := by
  refine (envTxShift_ends (sent_uart hu y bs ts) hsh).trans (congrArg _ ?_)
  simp only [State.setUart, State.sent, List.set_set]

end

variable (hm : s.main = []) (hi : s.irq = []) (hdepth : 1 ≤ s.cfg.uartFifoDepth)
include hm hi hdepth

/-- The next byte is moved to the FIFO, and leaves on the line. -/
theorem steps_byte {y : Uart} (ts : List Turn) (he : y.utxEn = true) (hl : 0 < y.utxLeft) (hf : y.txfifo = [])
    (hsh : y.txShifting = false) :
    StepsTo 3 (s.sent u.toNat y (s.bytesOf y.dmaSrc y.utxIdx)
        (.req .op [0xC2, u] :: .req .op [0xC5, u] :: .req .op [0xC5, u] :: ts))
      (s.sent u.toNat y.byteGone (s.bytesOf y.dmaSrc (y.utxIdx + 1)) ts) := by
  have hgone (b : Byte) : { y.utxMoved b with txfifo := [], txShifting := false } = y.byteGone := by
    rw [Uart.byteGone, ← hf, ← hsh]
    rfl
  rw [bytesOf_succ, ← hgone ((s.bufRead y.dmaSrc y.utxIdx).setWidth 8)]
  have hroom : y.txfifo.length < s.cfg.uartFifoDepth := by rw [hf]; exact hdepth
  have hmoved (b : Byte) : (y.utxMoved b).txfifo = [b] := by rw [Uart.utxMoved, hf, List.nil_append]
  exact .turn hm hi rfl rfl (sent_move hu _ _ he hl hroom) <|
    .turn hm hi rfl rfl (sent_starts hu _ _ hsh (hmoved _)) <|
    .turn hm hi rfl rfl (sent_ends hu _ _ rfl) (.refl _)

/-- All bytes of the chunk leave. -/
theorem steps_chunk {n : Nat} (ts : List Turn) : ∀ {y : Uart}, y.utxEn = true → y.utxLeft = n + 1 → y.txfifo = [] →
    y.txShifting = false →
    StepsTo (3 * (n + 1)) (s.sent u.toNat y (s.bytesOf y.dmaSrc y.utxIdx) (byteTurns u (n + 1) ++ ts))
      (s.sent u.toNat y.chunkGone (s.bytesOf y.dmaSrc (y.utxIdx + y.utxLeft)) ts) := by
  induction n with
  | zero =>
    intro y he hl hf hsh
    have hgone : y.byteGone = y.chunkGone := by simp [Uart.byteGone, Uart.chunkGone, hl]
    rw [← hgone, hl]
    exact steps_byte hu hm hi hdepth ts he (by omega) hf hsh
  | succ n ih =>
    intro y he hl hf hsh
    have hgone : y.byteGone.chunkGone = y.chunkGone := by
      simp only [Uart.byteGone, Uart.chunkGone, hl]
      congr 1
      omega
    have hbyte := steps_byte hu hm hi hdepth (byteTurns u (n + 1) ++ ts) he (by omega) hf hsh
    have hrest := hbyte.trans (ih (y := y.byteGone) he (Nat.sub_eq_of_eq_add hl) hf hsh)
    have hidx : y.byteGone.utxIdx + y.byteGone.utxLeft = y.utxIdx + y.utxLeft := by
      simp only [Uart.byteGone]
      omega
    rwa [hgone, hidx, Nat.add_comm 3] at hrest

end

/-! ## Chunk by chunk (R254, R256, R258) -/

/-- UART `x` while it sends the `len` bytes of `q`, with the first `c` gone and the chunks `ds` to come: the first of
them is under way, or the drain. -/
def Uart.atChunk (x : Uart) (q : BufRef) (len c : Nat) : List Nat → Uart
  | [] => { x with
      dmaSrc := q, dmaLen := len, dmaBusy := true, mode := .dmaTransmitting, dmaCursor := c, utxIdx := c
      dmaRemaining := 0, dmaChunk := 0, utxLeft := 0, dmaPhase := .drain, utxEn := false, ieDma := false
      ieEot := true }
  | d :: ds => { x with
      dmaSrc := q, dmaLen := len, dmaBusy := true, mode := .dmaTransmitting, dmaCursor := c, utxIdx := c
      dmaRemaining := d + ds.sum, dmaChunk := d, utxLeft := d, dmaPhase := .chunk, utxEn := true, ieDma := true }

theorem atChunk_progress (x : Uart) (q : BufRef) (len c : Nat) (ds : List Nat) :
    (x.atChunk q len c ds).dmaCursor = c ∧ (x.atChunk q len c ds).dmaRemaining = ds.sum ∧
      (x.atChunk q len c ds).dmaChunk = ds.headD 0 ∧ (x.atChunk q len c ds).utxLeft = ds.headD 0 ∧
      (x.atChunk q len c ds).dmaBusy = true ∧
      (x.atChunk q len c ds).dmaPhase = (if ds = [] then .drain else .chunk) ∧
      (x.atChunk q len c ds).utxEn = decide (ds ≠ []) := by
  cases ds with
  | nil => exact ⟨rfl, rfl, rfl, rfl, rfl, rfl, rfl⟩
  | cons d ds => exact ⟨rfl, rfl, rfl, rfl, rfl, rfl, rfl⟩

/-- The end of the transmission leaves the UART as it was, but for its progress and its interrupts. -/
theorem drained_atChunk (hm : x.mode = .interruptBound) (hb : x.dmaBusy = false) :
    (x.atChunk q len c []).drained = { x with
      dmaSrc := q, dmaLen := len, dmaCursor := c, dmaRemaining := 0, dmaChunk := 0, dmaPhase := .none
      ieDma := false, ieEot := false, utxEn := false, utxLeft := 0, utxIdx := c } := by
  simp only [Uart.drained, Uart.atChunk, ← hm]
  rw [← hb]

/-- The completion handler of a chunk leads to the next one, or to the drain. -/
theorem chunkDone_atChunk {d max : Nat} {ds : List Nat} (h : CutAt max ds) :
    (x.atChunk q len c (d :: ds)).chunkGone.chunkDone max =
      ({ x with dmaIrq := false } : Uart).atChunk q len (c + d) ds := by
  cases ds with
  | nil => simp [Uart.chunkDone, Uart.chunkGone, Uart.atChunk]
  | cons e es =>
    obtain ⟨he, hcut, -⟩ := h
    have hrest : d + (e + es.sum) - d = e + es.sum := Nat.add_sub_cancel_left ..
    have hpos : 0 < e + es.sum := by omega
    simp [Uart.chunkDone, Uart.chunkGone, Uart.atChunk, hrest, hpos, ← hcut]

/-- What starts the first chunk leaves it under way. -/
theorem dmaGone_dmaSet {max : Nat} {ds : List Nat} (h : CutAt max ds) (hne : ds ≠ []) (hsum : ds.sum = len) :
    (x.dmaSet q len max).dmaGone = x.atChunk q len 0 ds := by
  obtain _ | ⟨d, ds⟩ := ds
  · exact absurd rfl hne
  · obtain ⟨-, hcut, -⟩ := h
    rw [List.sum_cons] at hsum
    rw [hsum] at hcut
    simp only [Uart.dmaGone, Uart.dmaSet, Uart.atChunk, hsum, ← hcut]

section
variable (hu : s.uarts[u.toNat]? = some x) (hi : s.irq = [])
include hu hi

theorem sent_chunkDone {y : Uart} {bs : List Byte} {ts : List Turn}
    (hts : ({ s with sched := ts } : State).sliced = false) (he : y.ieDma = true) (hq : y.dmaIrq = true) :
    execEvUartDmaDone u (s.sent u.toNat y bs ts) = .next (s.sent u.toNat (y.chunkDone s.cfg.dmaMax) bs ts) := by
  refine (evUartDmaDone_ready (sent_uart hu y bs ts) hi hts he hq).trans (congrArg _ ?_)
  simp only [State.setUart, State.sent, List.set_set]

variable (hm : s.main = []) (hdepth : 1 ≤ s.cfg.uartFifoDepth)
include hm hdepth

/-- The chunk under way goes out, and its handler leads to the next. -/
theorem steps_atChunk {y : Uart} (hf : y.txfifo = []) (hsh : y.txShifting = false) {d : Nat} {ds : List Nat}
    (h : CutAt s.cfg.dmaMax (d :: ds)) :
    StepsTo (3 * d + 1) (s.sent u.toNat (y.atChunk q len c (d :: ds)) (s.bytesOf q c) (uartDmaTurns u (d :: ds)))
      (s.sent u.toNat (({ y with dmaIrq := false } : Uart).atChunk q len (c + d) ds) (s.bytesOf q (c + d))
        (uartDmaTurns u ds)) := by
  obtain ⟨hd, -, hds⟩ := h
  obtain ⟨n, rfl⟩ : ∃ n, d = n + 1 := ⟨d - 1, by omega⟩
  have hbytes := steps_chunk hu hm hi hdepth (.req .op [0x86, u] :: uartDmaTurns u ds)
    (y := y.atChunk q len c ((n + 1) :: ds)) rfl rfl hf hsh
  have hdone := sent_chunkDone hu hi (y := (y.atChunk q len c ((n + 1) :: ds)).chunkGone)
    (bs := s.bytesOf q (c + (n + 1))) (sliced_uartDmaTurns u ds) rfl rfl
  rw [chunkDone_atChunk hds] at hdone
  exact hbytes.trans (.turn hm hi rfl rfl hdone (.refl _))

/-- The chunks `cs` go out. -/
theorem steps_chunks {cs ds : List Nat} : ∀ {y : Uart} {c : Nat}, y.txfifo = [] → y.txShifting = false →
    CutAt s.cfg.dmaMax (cs ++ ds) → StepsTo ((uartDmaTurns u cs).length - 1)
      (s.sent u.toNat (y.atChunk q len c (cs ++ ds)) (s.bytesOf q c) (uartDmaTurns u (cs ++ ds)))
      (s.sent u.toNat (({ y with dmaIrq := y.dmaIrq && cs.isEmpty } : Uart).atChunk q len (c + cs.sum) ds)
        (s.bytesOf q (c + cs.sum)) (uartDmaTurns u ds)) := by
  induction cs with
  | nil =>
    intro y c _ _ _
    rw [List.isEmpty_nil, Bool.and_true]
    exact .refl _
  | cons d cs ih =>
    intro y c hf hsh h
    have hfirst := steps_atChunk (q := q) (len := len) (c := c) hu hi hm hdepth hf hsh h
    obtain ⟨-, -, hcut⟩ := h
    have hrest := ih (y := { y with dmaIrq := false }) (c := c + d) hf hsh hcut
    rw [length_uartDmaTurns_cons, Nat.add_sub_assoc (length_uartDmaTurns_pos u cs), List.sum_cons, ← Nat.add_assoc,
      List.isEmpty_cons, Bool.and_false]
    exact hfirst.trans hrest

/-- From the start, the chunks `cs` go out, and their bytes with them. -/
theorem steps_firstChunks {cs ds all : List Nat} (hall : all = cs ++ ds) (hsum : all.sum = len)
    (hcut : CutAt s.cfg.dmaMax all) (hf : x.txfifo = []) (hsh : x.txShifting = false) :
    StepsTo ((uartDmaTurns u cs).length - 1) (s.sent u.toNat (x.atChunk q len 0 all) [] (uartDmaTurns u all))
      (s.sent u.toNat (({ x with dmaIrq := x.dmaIrq && cs.isEmpty } : Uart).atChunk q len cs.sum ds)
        ((s.bytesOf q len).take cs.sum) (uartDmaTurns u ds)) := by
  subst hall
  have hle : cs.sum ≤ len := by
    rw [← hsum, List.sum_append]
    exact Nat.le_add_right ..
  have hrun := steps_chunks (q := q) (len := len) (c := 0) hu hi hm hdepth hf hsh hcut
  rw [Nat.zero_add] at hrun
  rw [bytesOf_take s q hle]
  exact hrun

omit hdepth

/-- After the last chunk the end of the transmission is reported. -/
theorem steps_drained {y : Uart} {bs : List Byte} (he : y.ieEot = true) (hf : y.txfifo = [])
    (hsh : y.txShifting = false) : StepsTo 1 (s.sent u.toNat y bs (uartDmaTurns u []))
      ((s.sent u.toNat y.drained bs []).emit (.call y.cb.txDone u.toNat .txDone)) := by
  refine .turn hm hi rfl rfl ((evUartEot_ready (sent_uart hu y bs []) hi rfl he hf hsh).trans (congrArg _ ?_)) (.refl _)
  simp only [State.setUart, State.sent, List.set_set]

include hdepth

/-- All chunks go out, and the end of the transmission is reported. -/
theorem steps_transmit {cs : List Nat} (hf : x.txfifo = []) (hsh : x.txShifting = false)
    (hmode : x.mode = .interruptBound) (hb : x.dmaBusy = false) (hcut : CutAt s.cfg.dmaMax cs) (hne : cs ≠ [])
    (hsum : cs.sum = len) :
    StepsTo (uartDmaTurns u cs).length (s.sent u.toNat (x.atChunk q len 0 cs) [] (uartDmaTurns u cs))
      ((s.sent u.toNat { x with
          dmaSrc := q, dmaLen := len, dmaCursor := len, dmaRemaining := 0, dmaChunk := 0, dmaPhase := .none
          ieDma := false, ieEot := false, dmaIrq := false, utxEn := false, utxLeft := 0, utxIdx := len }
        (s.bytesOf q len) []).emit (.call x.cb.txDone u.toNat .txDone)) := by
  have hchunks := steps_firstChunks (q := q) hu hi hm hdepth (List.append_nil cs).symm hsum hcut hf hsh
  rw [hsum, bytesOf_take s q (Nat.le_refl _), List.isEmpty_eq_false_iff.2 hne, Bool.and_false] at hchunks
  have hall := hchunks.trans (steps_drained (y := Uart.atChunk _ _ _ _ []) hu hi hm rfl hf hsh)
  rw [← length_uartDmaTurns, drained_atChunk (x := { x with dmaIrq := false }) hmode hb] at hall
  exact hall

end

end Sys2Proof.Machine

open Sys2Proof Sys2Proof.Machine

/-- Settles O32: by induction over the chunks, each of which is the whole of what remains, cut at `DMA_MAX`. -/
theorem uartChunkLaw : Obligations.UartChunkLaw := by
  intro s u src len x hm hi hs hu hmode hb hp he hf hsh hdepth hmax hlen hbuf ho
  have hcut := cutAt_chunkLengths hmax hlen
  have hsum := sum_chunkLengths s.cfg.dmaMax hlen
  have hnil := chunkLengths_ne_nil len s.cfg.dmaMax
  have hsliced : s.sliced = false := by
    rw [← sliced_uartDmaTurns (s := s) u (chunkLengths len s.cfg.dmaMax), ← hs]
  have hstart := exec_uartDmaTx_starts ⟨hm, hi, hsliced⟩ hu hmode hb hp he hlen hbuf ho
  rw [dmaGone_dmaSet hcut hnil hsum] at hstart
  have hnone := sent_nil { s with ret := .none } u.toNat (x.atChunk (.user src) len 0 (chunkLengths len s.cfg.dmaMax))
  have hall := steps_transmit (s := { s with ret := .none }) (q := .user src) hu hi hm hdepth hf hsh hmode hb hcut hnil
    hsum
  rw [← hs] at hall
  refine ⟨_, _, hstart.trans (congrArg _ hnone.symm), rfl, fun cs ds h => ?_, hall, rfl, rfl⟩
  have hrun := steps_firstChunks (s := { s with ret := .none }) (q := .user src) hu hi hm hdepth h hsum hcut hf hsh
  rw [← hs] at hrun
  obtain ⟨hcursor, hrem, hchunk, hleft, hbusy, hphase, hen⟩ := atChunk_progress
    { x with dmaIrq := x.dmaIrq && cs.isEmpty } (.user src) len cs.sum ds
  exact ⟨_, _, hrun, setUart_self hu, hcursor, hrem, hchunk, hleft, hbusy, hphase, hen, rfl⟩

end

section
/-! The density word of the discovery table (R314). -/

namespace Sys2Proof.Machine

variable {w : BitVec 32}

theorem countP_range_lt (m n : Nat) : (List.range n).countP (fun k => decide (k < m)) = min n m := by
  induction n with
  | zero => simp
  | succ n ih =>
    rw [List.range_succ, List.countP_append, ih, List.countP_singleton]
    split <;> simp_all <;> omega

/-- Counting the powers of two below `n` finds the least exponent whose power is not below it. -/
theorem ceilLog2_eq_clog {n : Nat} (hn : n ≤ 2 ^ 32) : ceilLog2 n = Nat.clog 2 n := by
  have hp : (fun k => decide (2 ^ k < n)) = fun k => decide (k < Nat.clog 2 n) := by
    funext k
    exact decide_eq_decide.2 (Nat.lt_clog_iff_pow_lt Nat.one_lt_two).symm
  rw [ceilLog2, hp, countP_range_lt, Nat.min_eq_right (Nat.clog_le_of_le_pow hn)]

/-- Bit 31 is set in the upper half of the words. -/
theorem getLsbD_31_eq : w.getLsbD 31 = decide (2 ^ 31 ≤ w.toNat) := w.msb_eq_decide

theorem low31_toNat : (w.extractLsb' 0 31).toNat = w.toNat % 2 ^ 31 := w.extractLsb'_toNat 0 31

theorem densityLog2_of_set (h : w.getLsbD 31 = true) : densityLog2 w = w.toNat - 2 ^ 31 := by
  have hge : 2 ^ 31 ≤ w.toNat := by rwa [getLsbD_31_eq, decide_eq_true_eq] at h
  have hlt := w.isLt
  rw [densityLog2, if_pos h, low31_toNat]
  omega

theorem densityLog2_of_clear (h : w.getLsbD 31 = false) : densityLog2 w = Nat.clog 2 (w.toNat + 1) := by
  have hlt : w.toNat < 2 ^ 31 := by rwa [getLsbD_31_eq, decide_eq_false_iff_not, Nat.not_le] at h
  rw [densityLog2, if_neg (ne_true_of_eq_false h), low31_toNat, Nat.mod_eq_of_lt hlt, ceilLog2_eq_clog (by omega)]

theorem densityDecode_of_range (h3 : 3 ≤ densityLog2 w) (h66 : densityLog2 w ≤ 66) :
    densityDecode w = some (BitVec.ofNat 6 (densityLog2 w - 3)) := if_pos ⟨h3, h66⟩

theorem densityDecode_outside (h : densityLog2 w < 3 ∨ 66 < densityLog2 w) : densityDecode w = none :=
  if_neg (by omega)

end Sys2Proof.Machine

open Sys2Proof Sys2Proof.Machine

/-- Settles O39: with bit 31 clear the exponent is the ceiling of the logarithm; one from 3 to 66 less 3 fits six
bits. -/
theorem densityDecode : Obligations.DensityDecode := by
  intro w
  refine ⟨densityLog2_of_set, fun h => ?_, fun h3 h66 => ⟨_, densityDecode_of_range h3 h66, ?_⟩,
    densityDecode_outside⟩
  · rw [densityLog2_of_clear h]
    exact ⟨Nat.le_pow_clog Nat.one_lt_two _, fun k => Nat.clog_le_of_le_pow⟩
  · rw [BitVec.toNat_ofNat, Nat.mod_eq_of_lt (by omega)]
    omega

end

section
/-! How an operation of the flash driver goes on: it runs to its end, or polls a busy device (R286, R320), which is
polled again or becomes ready. -/

namespace Sys2Proof.Machine

variable {s : State} {x : Bus} {q : BufRef} {p ms : List Micro} {k : Nat} {c : Config} {u v v' w : View}
  {ts : List Turn} {hs hs' : List Byte}

/-! ## What a view says of the claims -/

/-- From `v` to `v'` the trace has grown by windows with the opcodes `hs`. -/
def View.Opens (c : Config) (v v' : View) (hs : List Byte) : Prop :=
  ∃ evs, v'.trace = v.trace ++ evs ∧ Heads c.flashBus evs hs

theorem View.Opens.trans (h : u.Opens c v hs) (h' : v.Opens c w hs') : u.Opens c w (hs ++ hs') := by
  obtain ⟨evs, ht, he⟩ := h
  obtain ⟨evs', ht', he'⟩ := h'
  exact ⟨evs ++ evs', by rw [ht', ht, List.append_assoc], he.append he'⟩

/-- The opcodes of the windows that a step added to the trace. -/
theorem newOpcodes_of_heads {t : State} {evs : List Event} (ht : t.trace = s.trace ++ evs)
    (h : Heads s.cfg.flashBus evs hs) : newOpcodes s t = hs := by
  rw [newOpcodes, newEvents, ht, List.drop_left, h.eq]

theorem View.Opens.newOpcodes (h : (s.view x).Opens s.cfg v hs) {t : State} (ht : t.trace = v.trace) :
    newOpcodes s t = hs := by
  obtain ⟨evs, hv, he⟩ := h
  exact newOpcodes_of_heads (ht.trans hv) he

/-- Whether the bus is free depends on the bus alone. -/
theorem View.Free.congr (h : v.Free) (hb : v'.bus = v.bus) : v'.Free :=
  ⟨by rw [hb]; exact h.cs, by rw [hb]; exact h.hasCs, by rw [hb]; exact h.width, by rw [hb]; exact h.drained,
    by rw [hb]; exact h.inactive⟩

/-- From `v` to `v'` the driver has left all of its bus but the scratch cell. -/
def View.SameBus (v v' : View) : Prop := ∃ sc, v'.bus = { v.bus with scratch := sc }

theorem View.SameBus.trans (h : u.SameBus v) (h' : v.SameBus w) : u.SameBus w := by
  obtain ⟨sc, h⟩ := h
  obtain ⟨sc', h'⟩ := h'
  exact ⟨sc', by rw [h', h]⟩

theorem View.SameBus.free (h : v.SameBus v') (hv : v.Free) : v'.Free := by
  obtain ⟨sc, hb⟩ := h
  exact ⟨by rw [hb]; exact hv.cs, by rw [hb]; exact hv.hasCs, by rw [hb]; exact hv.width, by rw [hb]; exact hv.drained,
    by rw [hb]; exact hv.inactive⟩

/-! ## MAIN in the middle of an operation -/

/-- The driver's part of the machine is `v`, MAIN has still to do `p`, and the turns `ts` are to come. -/
def State.midway (s : State) (v : View) (p : List Micro) (ts : List Turn) : State :=
  { s.put v with main := p, sched := ts }

/-- An operation that is over. -/
theorem midway_driverFrame (hm : s.main = []) (hb : (s.view x).SameBus v) (ho : (s.view x).Opens s.cfg v hs)
    (ts : List Turn) : DriverFrame s (s.midway v [] ts) x := by
  obtain ⟨sc, hb⟩ := hb
  obtain ⟨evs, ht, -⟩ := ho
  have htrace : (s.midway v [] ts).trace = s.trace ++ evs := ht
  have hbus : v.bus = { x with scratch := sc } := hb
  have he : newEvents s (s.midway v [] ts) = evs := by rw [newEvents, htrace, List.drop_left]
  refine ⟨sc, ?_⟩
  rw [he, ← hm, ← htrace, ← hbus]
  rfl

theorem State.FlashBusFree.lt_length (hx : s.FlashBusFree x) : s.cfg.flashBus < s.buses.length :=
  (List.getElem?_eq_some_iff.1 hx.bus).1

/-- A program of the driver, taken from the start of an operation. -/
theorem Does.runs_view (hx : s.FlashBusFree x) (ho : s.Leaves q)
    (hd : Does s.cfg q p k { s.view x with ret := .none } v) : Runs .main p k { s with ret := .none } (s.put v) := by
  have hst : s.put { s.view x with ret := .none } = { s with ret := .none } := by
    conv_rhs => rw [← put_view hx.bus]
    rfl
  rw [← hst]
  exact hd s rfl hx.lt_length ho

section
variable (hlen : s.cfg.flashBus < s.buses.length) (ho : s.Leaves q) (hd : Does s.cfg q p k v v')
include hlen ho hd

/-- What MAIN has still to do ends. -/
theorem runAll_midway (hk : ∀ t, k ≤ progWeight t p) (ts : List Turn) :
    runAll .main (s.midway v p ts) = .next (s.midway v' [] ts) :=
  runAll_of_runs (hd { s with sched := ts } rfl hlen ho) (hk _)

/-- What MAIN has still to do comes to a poll that finds the device busy. -/
theorem runAll_midway_polls (hbit : v'.fl.st.bit0 = true) (hk : ∀ t, k ≤ progWeight t p) (ms : List Micro)
    (ts : List Turn) : runAll .main (s.midway v (p ++ .waitCheck :: ms) ts) =
      .next (s.midway v' (waitProg s.cfg ++ ms) ts) := by
  refine runAll_of_waits (hd { s with sched := ts } rfl hlen ho)
    (micro_waitCheck_busy hbit (({ s with sched := ts } : State).setProg .main (.waitCheck :: ms)) ms rfl) ?_
  rw [progWeight_append]
  exact Nat.lt_of_le_of_lt (hk _) (Nat.lt_add_of_pos_right (Nat.lt_add_right _ (weight_pos _ _)))

end

section
variable (hq : s.quiet) (hx : s.FlashBusFree x) (ho : s.Leaves q)
  (hd : Does s.cfg q p k { s.view x with ret := .none } v) (hk : ∀ t, t.cfg = s.cfg → k ≤ progWeight t p)
include hq hx ho hd hk

/-- An operation of MAIN that runs to its end. -/
theorem startMain_ends : startMain p s = .next (s.midway v [] s.sched) := by
  rw [startMain_of_does hq hx.bus ho hd (hk _ rfl), State.midway, ← hq.1]
  rfl

/-- An operation of MAIN whose poll finds the device busy goes on under the schedule. -/
theorem startMain_polls (hbit : v.fl.st.bit0 = true) (ms : List Micro) :
    startMain (p ++ .waitCheck :: ms) s = drive s.sched (s.midway v (waitProg s.cfg ++ ms) s.sched) := by
  refine startMain_of_waits hq (hd.runs_view hx ho)
    (micro_waitCheck_busy hbit (s.setProg .main (.waitCheck :: ms)) ms rfl) ?_
  rw [progWeight_append]
  refine Nat.lt_of_le_of_lt (hk _ ?_) (Nat.lt_add_of_pos_right (Nat.lt_add_right _ (weight_pos _ _)))
  rfl

end

/-! ## Polls (R285, R286) -/

/-- What one status frame changes. -/
structure View.Polled (c : Config) (v v' : View) : Prop where
  bus : v.SameBus v'
  flash : v'.flash = { v.flash with frame := [] }
  fl : v'.fl = { v.fl with status := v'.fl.status, st := v'.fl.st }
  buf : v'.buf = v.buf
  ret : v'.ret = v.ret
  opens : v.Opens c v' [0x05]

theorem does_poll (h : v.Free) (q : BufRef) :
    ∃ v', Does c q (statusProg c false) 9 v v' ∧ v.Polled c v' ∧ v'.fl.st.bit0 = v.flash.busy := by
  obtain ⟨sc, r, evs, b, he, d⟩ := does_status (c := c) (q := q) h false
  exact ⟨_, d, ⟨⟨sc, rfl⟩, rfl, rfl, rfl, rfl, _, rfl, Heads.window he⟩, rfl⟩

/-- The end of an operation of the driver that returns `r` (R284). -/
def View.ended (v : View) (r : Ret) : View := { v with fl := { v.fl with phase := .idle, op := .none }, ret := r }

/-- A ready device ends the wait at the first poll. -/
theorem does_lastPoll (h : v.Free) (hb : v.flash.busy = false) (q : BufRef) (r : Ret) :
    ∃ v', v.Polled c v' ∧ Does c q (waitProg c ++ [.flEnd r]) 11 v (v'.ended r) := by
  obtain ⟨v', d, hp, hbit⟩ := does_poll (c := c) h q
  exact ⟨v', hp, (d.append (acts_waitCheck (hbit.trans hb)).does).append (acts_flEnd r).does⟩

theorem waitProg_append_ne_nil (c : Config) (ms : List Micro) : waitProg c ++ ms ≠ [] := List.cons_ne_nil _ _

theorem weight_lastPoll (t : State) (c : Config) (r : Ret) : 11 ≤ progWeight t (waitProg c ++ [.flEnd r]) := by
  rw [progWeight_append, weight_waitProg]
  exact Nat.le_add_right ..

section
variable (hi : s.irq = []) (hlen : s.cfg.flashBus < s.buses.length) (hf : v.Free) (hb : v.flash.busy = true)
include hi hlen hf hb

/-- With no turn left one more poll finds the device busy, and MAIN polls on (R286). -/
theorem drive_nil_polling (ms : List Micro) (ts : List Turn) : ∃ v', v.Polled s.cfg v' ∧
    drive [] (s.midway v (waitProg s.cfg ++ ms) ts) = .next (s.midway v' (waitProg s.cfg ++ ms) []) := by
  obtain ⟨v', d, hp, hbit⟩ := does_poll (c := s.cfg) hf .loc
  have hpoll := runAll_midway_polls hlen (leaves_loc _) d (hbit.trans hb)
    (fun t => by rw [weight_statusProg]; omega) ms []
  have hw : statusProg s.cfg false ++ .waitCheck :: ms = waitProg s.cfg ++ ms := by simp [waitProg]
  have hirq : runAll .irq (s.midway v (waitProg s.cfg ++ ms) []) = .next (s.midway v (waitProg s.cfg ++ ms) []) :=
    runCtx_nil _ _ _ _ hi
  rw [hw] at hpoll
  refine ⟨v', hp, ?_⟩
  change runCore (s.midway v (waitProg s.cfg ++ ms) []) = _
  rw [runCore, hirq, andThen_next, hpoll]

/-- The device finishes, the next poll finds it ready, and the operation ends (R286, R96). -/
theorem drive_flashDone_polling (r : Ret) (ts : List Turn) : ∃ v', { v with flash := v.flash.done }.Polled s.cfg v' ∧
    drive [flashDoneTurn] (s.midway v (waitProg s.cfg ++ [.flEnd r]) ts) = .next (s.midway (v'.ended r) [] []) := by
  obtain ⟨v', hp, d⟩ := does_lastPoll (c := s.cfg) (v := { v with flash := v.flash.done })
    (hf.congr rfl) rfl .loc r
  refine ⟨v', hp, ?_⟩
  rw [drive_flashDone (w := s.midway v (waitProg s.cfg ++ [.flEnd r]) ts) (waitProg_append_ne_nil _ _) hi hb]
  exact runAll_midway hlen (leaves_loc _) d (fun t => weight_lastPoll t s.cfg r) []

end

/-! ## `FL.WAIT_READY` and `BD.SYNC` (R286, R352) -/

/-- The driver once a wait has begun. -/
def View.waiting (v : View) : View := { v with fl := { v.fl with op := .wait, phase := .preWait }, ret := .none }

theorem does_waitBegin (x : Bus) (s : State) (q : BufRef) :
    Does c q [.flBegin .wait none none, .flPhase .preWait] 2 { s.view x with ret := .none } (s.view x).waiting :=
  Does.cons (acts_flBegin .wait none none) (acts_flPhase .preWait).does

theorem State.FlashBusFree.waiting (hx : s.FlashBusFree x) : (s.view x).waiting.Free :=
  hx.view.congr rfl

/-- A wait for a device that is ready: one poll. -/
theorem startMain_waitOp (hq : s.quiet) (hx : s.FlashBusFree x) (hb : s.flash.busy = false) (r : Ret) :
    ∃ v, (s.view x).waiting.Polled s.cfg v ∧
      startMain (waitOpProg s.cfg r) s = .next (s.midway (v.ended r) [] s.sched) := by
  obtain ⟨v, hp, d⟩ := does_lastPoll (c := s.cfg) hx.waiting hb .loc r
  have hprog : waitOpProg s.cfg r =
      [.flBegin .wait none none, .flPhase .preWait] ++ (waitProg s.cfg ++ [.flEnd r]) := by simp [waitOpProg]
  refine ⟨v, hp, ?_⟩
  rw [hprog]
  refine startMain_ends hq hx (leaves_loc s) ((does_waitBegin x s .loc).append d) fun t _ => ?_
  rw [progWeight_append]
  exact Nat.add_le_add (length_le_progWeight t [_, _]) (weight_lastPoll ..)

/-- A wait for a device that is busy: its first poll leaves it polling, and the schedule goes on. -/
theorem startMain_waitOp_polls (hq : s.quiet) (hx : s.FlashBusFree x) (hb : s.flash.busy = true) (r : Ret) :
    ∃ v, (s.view x).waiting.Polled s.cfg v ∧
      startMain (waitOpProg s.cfg r) s = drive s.sched (s.midway v (waitProg s.cfg ++ [.flEnd r]) s.sched) := by
  obtain ⟨v, d, hp, hbit⟩ := does_poll (c := s.cfg) hx.waiting .loc
  have hprog : waitOpProg s.cfg r = [.flBegin .wait none none, .flPhase .preWait] ++ statusProg s.cfg false ++
      .waitCheck :: [.flEnd r] := by simp [waitOpProg, waitProg]
  refine ⟨v, hp, ?_⟩
  rw [hprog]
  refine startMain_polls hq hx (leaves_loc s) ((does_waitBegin x s .loc).append d) (fun t _ => ?_) (hbit.trans hb) _
  rw [progWeight_append, weight_statusProg]
  exact Nat.add_le_add (length_le_progWeight t [_, _]) (by omega)

/-- What a wait that has returned leaves. -/
theorem waitOp_result (hm : s.main = []) {f : Flash} (hp : { (s.view x).waiting with flash := f }.Polled s.cfg v)
    (r : Ret) (ts : List Turn) : DriverFrame s (s.midway (v.ended r) [] ts) x ∧
      newOpcodes s (s.midway (v.ended r) [] ts) = [0x05] ∧
      (s.midway (v.ended r) [] ts).flash = { f with frame := [] } ∧
      (s.midway (v.ended r) [] ts).fl =
        { s.fl with phase := .idle, op := .none, status := v.fl.status, st := v.fl.st } ∧
      (s.midway (v.ended r) [] ts).buf = s.buf := by
  have hopens : (s.view x).Opens s.cfg (v.ended r) [0x05] := hp.opens
  have hbus : (s.view x).SameBus (v.ended r) := hp.bus
  refine ⟨midway_driverFrame hm hbus hopens ts, hopens.newOpcodes rfl, hp.flash, ?_, hp.buf⟩
  simp only [State.midway, State.put, View.ended]
  rw [hp.fl]
  rfl

/-! ## A misaligned erase (R302, R303) -/

theorem whenMain_idle (hm : s.main = []) (hi : s.irq = []) (o : Out) : whenMain o s = o := by simp [whenMain, hm, hi]

theorem flashErase_misaligned {a size : Nat} (hq : s.quiet) (h : a % size ≠ 0) (p : List Micro) :
    flashErase a size p s = .next { s with ret := .err .alignment } := by
  rw [flashErase, if_neg h, returnNow, whenMain_idle hq.1 hq.2.1]
  rfl

end Sys2Proof.Machine

open Sys2Proof Sys2Proof.Machine

/-- Settles O45: the alignment test comes before anything else. -/
theorem flMisaligned : Obligations.FlMisaligned := by
  intro s addr a hq ha
  rw [exec_flEraseSector ha, exec_flEraseBlock ha]
  exact ⟨fun h => flashErase_misaligned hq h _, fun h => flashErase_misaligned hq h _⟩

/-- Settles O34: each operation is one frame, whose window the device answers at its deselect or in its reply. -/
theorem flSingleFrames : Obligations.FlSingleFrames := by
  intro s x hq hx
  refine ⟨?enable, ?status⟩
  case enable =>
    obtain ⟨sc, evs, he, d⟩ := does_writeEnable (c := s.cfg) (q := .loc) hx.view
    have hwel : (s.flash.wel || !s.flash.busy) = if s.flash.busy then s.flash.wel else true := by
      cases s.flash.busy <;> simp
    rw [← hwel]
    exact ⟨_, startMain_ends hq hx (leaves_loc s) d (fun t _ => by rw [weight_writeEnableProg]; omega),
      midway_driverFrame hq.1 ⟨sc, rfl⟩ ⟨_, rfl, Heads.window he⟩ _,
      newOpcodes_of_heads rfl (Heads.window he), rfl, rfl, rfl, rfl, rfl⟩
  case status =>
    obtain ⟨sc, r, evs, b, he, d⟩ := does_status (c := s.cfg) (q := .loc) hx.view true
    exact ⟨_, _, startMain_ends hq hx (leaves_loc s) d (fun t _ => by rw [weight_statusProg]; omega),
      midway_driverFrame hq.1 ⟨sc, rfl⟩ ⟨_, rfl, Heads.window he⟩ _,
      newOpcodes_of_heads rfl (Heads.window he), rfl, rfl, rfl, rfl, status_bit0 _ _, rfl⟩

/-- Settles O35: a ready device ends the wait at its first poll; a busy one leaves it polling, for the schedule to end
or not. -/
theorem flWaitReadyResult : Obligations.FlWaitReadyResult := by
  intro s x hq hx
  refine ⟨fun hb => ?_, fun hb hv => ?_, fun hb hs => ?_, fun hb hs => ?_⟩
  · obtain ⟨v, hp, he⟩ := startMain_waitOp hq hx hb .none
    obtain ⟨hframe, hopc, hflash, hfl, hbuf⟩ := waitOp_result hq.1 hp .none s.sched
    exact ⟨_, he, hframe, hopc, hflash, hfl, hbuf, rfl, rfl, rfl⟩
  · obtain ⟨v, hp, he⟩ := startMain_waitOp hq hx hb .ok
    obtain ⟨hframe, hopc, hflash, hfl, hbuf⟩ := waitOp_result hq.1 hp .ok s.sched
    exact ⟨_, (need_pass hv _ _).trans he, hframe, hopc, hflash, hfl, hbuf, rfl, rfl, rfl⟩
  · obtain ⟨v, hp, hstart⟩ := startMain_waitOp_polls hq hx hb .none
    obtain ⟨v', hp', hend⟩ := drive_nil_polling hq.2.1 hx.lt_length (hp.bus.free hx.waiting)
      (by rw [hp.flash]; exact hb) [.flEnd .none] s.sched
    rw [hs] at hstart hend
    refine ⟨_, hstart.trans hend, waitProg_append_ne_nil _ _, ?_, ?_, hp'.buf.trans hp.buf⟩
    · have hopens : (s.view x).Opens s.cfg v' _ := hp.opens.trans hp'.opens
      rw [hopens.newOpcodes rfl]
      simp
    · exact hp'.flash.trans (by rw [hp.flash]; rfl)
  · obtain ⟨v, hp, hstart⟩ := startMain_waitOp_polls hq hx hb .none
    obtain ⟨v', hp', hend⟩ := drive_flashDone_polling hq.2.1 hx.lt_length (hp.bus.free hx.waiting)
      (by rw [hp.flash]; exact hb) .none s.sched
    rw [hs] at hstart hend
    have hopens : (s.view x).Opens s.cfg v' _ := hp.opens.trans hp'.opens
    refine ⟨_, hstart.trans hend, midway_driverFrame hq.1 (hp.bus.trans hp'.bus) (v := v'.ended .none) hopens _,
      hopens.newOpcodes rfl, ?_, hp'.buf.trans hp.buf, rfl, rfl, rfl⟩
    exact hp'.flash.trans (by rw [hp.flash]; rfl)

end

section
/-! Reads, programs and erases by the synchronous route (R290, R296, R300 to R304): what each leaves of the driver's
part of the machine. -/

namespace Sys2Proof.Machine

variable {s : State} {x : Bus} {q : BufRef} {a n k : Nat} {c : Config} {u v : View} {r : Ret} {ts : List Turn}

/-! ## The tests and the address -/

theorem payloadOk_of_sync (h : dmaRoute c n = false) : payloadOk c n = true := by simp [payloadOk, h]

theorem wireAddr_toNat (h : a < 2 ^ 24) : (wireAddr a).toNat = a := by
  rw [wireAddr, BitVec.toNat_ofNat, Nat.mod_eq_of_lt h]

theorem flSpanOk_iff {f : Flash} : flSpanOk f a n = true ↔ a + n ≤ 2 ^ 24 ∧ a + n ≤ f.capacity := by
  rw [flSpanOk, decide_eq_true_iff, Nat.le_min]

section
variable {id : BitVec 16} (h1 : 1 ≤ n) (hbuf : bufOk s.cfg id n = true) (hspan : flSpanOk s.flash a n = true)
  (hok : payloadOk s.cfg n = true)
include h1 hbuf hspan hok

theorem flashRead_eq_startMain (r : Ret) :
    flashRead a id n r s = startMain (readProg s.cfg a (.user id) n r) s := by
  rw [flashRead_eq, spanTests_pass h1 hbuf hspan, need_pass hok]

theorem flashProgram_eq_startMain (hpage : onePage s.cfg.flPage a n = true) (r : Ret) :
    flashProgram a id n r s = startMain (programProg s.cfg a (.user id) n r) s := by
  rw [flashProgram_eq, spanTests_pass h1 hbuf hspan, need_pass hpage, need_pass hok]

end

theorem flashErase_eq_startMain (h0 : a % n = 0) (hspan : flSpanOk s.flash a n = true) (p : List Micro) :
    flashErase a n p s = startMain p s := by
  rw [flashErase, if_pos h0, need_pass hspan]

/-! ## A read (R296) -/

/-- From `u` to `v` a read of `n` bytes from address `a` into buffer `q`, which returns `r`, has taken place. -/
structure View.ReadDone (c : Config) (u : View) (a : Nat) (q : BufRef) (n : Nat) (r : Ret) (v : View) : Prop where
  free : v.Free
  opens : u.Opens c v [0x05, 0x03]
  flash : v.flash = { u.flash with frame := [] }
  fl : v.fl = { u.fl with
    phase := .idle, op := .none, addr := a, len := n, status := v.fl.status, st := v.fl.st }
  ret : v.ret = r
  stored : ∃ ws : List Word, ws.length = n ∧ (∀ j, j < n → ws.getD j 0 = (u.flash.read (a + j)).setWidth 16) ∧
    v.buf = bufFill q 0 ws u.buf

theorem View.ReadDone.bufRead (h : (s.view x).ReadDone c a q n r v) (hwf : memWf 0 s.buf = true) {j : Nat}
    (hj : j < n) : (s.midway v [] ts).bufRead q j = (s.flash.read (a + j)).setWidth 16 := by
  obtain ⟨ws, hl, hws, hbuf⟩ := h.stored
  rw [bufRead_bufFill hwf (t := s.midway v [] ts) hbuf (by rw [hl]; exact hj), hws j hj]
  rfl

theorem View.ReadDone.sameBufBut (h : (s.view x).ReadDone c a q n r v) (hwf : memWf 0 s.buf = true) :
    sameBufBut s (s.midway v [] ts) q 0 n := by
  obtain ⟨ws, hl, -, hbuf⟩ := h.stored
  have hsame := sameBufBut_bufFill (t := s.midway v [] ts) hwf hbuf
  rwa [hl] at hsame

/-- A read by the synchronous route. -/
theorem startMain_read_sync (hq : s.quiet) (hx : s.FlashBusFree x) (ho : s.Leaves q) (hb : s.flash.busy = false)
    (h1 : 1 ≤ n) (hspan : flSpanOk s.flash a n = true) (hroute : dmaRoute s.cfg n = false) (r : Ret) :
    ∃ v, (s.view x).ReadDone s.cfg a q n r v ∧ (s.view x).SameBus v ∧
      startMain (readProg s.cfg a q n r) s = .next (s.midway v [] s.sched) := by
  obtain ⟨sc, st, stb, ws, d, evs, hl, hws, he, hd⟩ := does_read (c := s.cfg) hx.view hb a q r h1 hroute hspan
  refine ⟨_, ⟨⟨hx.cs, hx.hasCs, hx.width, hx.drained, hx.inactive⟩, ⟨evs, rfl, he⟩, rfl, rfl, rfl, ws, hl, hws, rfl⟩,
    ⟨sc, rfl⟩, startMain_ends hq hx ho hd fun t _ => ?_⟩
  have hh : (0x03 :: be24 (wireAddr a)).length = 4 := rfl
  simp only [readProg_eq, readStart, progWeight_append, progWeight, weight_waitProg, Micro.weight,
    weight_frame_input _ _ _ _ _ hroute, hh]
  omega

/-! ## A program or an erase (R300 to R304) -/

/-- From `u` to `v` a program or erase, which has the device do the work `p` at opcode `opc`, has taken place. -/
structure View.WriteDone (c : Config) (u : View) (opc : Byte) (p : Pending) (addr len : Option Nat) (r : Ret)
    (v : View) : Prop where
  free : v.Free
  opens : u.Opens c v [0x05, 0x06, opc, 0x05, 0x05]
  flash : v.flash = { (u.flash.started p).done with frame := [] }
  fl : v.fl = { u.fl with
    phase := .idle, op := .none, addr := addr.getD u.fl.addr, len := len.getD u.fl.len
    status := v.fl.status, st := v.fl.st }
  buf : v.buf = u.buf
  ret : v.ret = r

section
variable {opc : Byte} {p : Pending} {addr len : Option Nat}

/-- A finished write leaves the device ready with its latch clear, and changes only the array. -/
theorem View.WriteDone.flash_eq (h : (s.view x).WriteDone c opc p addr len r v) : v.flash = { s.flash with
    mem := v.flash.mem, busy := false, wel := false, pending := .none, frame := [] } := by
  rw [h.flash]
  rfl

theorem View.WriteDone.read_program {ds : List Byte} (h : (s.view x).WriteDone c opc (.program a ds) addr len r v)
    (hwf : memWf erased s.flash.mem = true) (i : Nat) : v.flash.read i =
      if a ≤ i ∧ i < a + ds.length then s.flash.read i &&& ds.getD (i - a) 0 else s.flash.read i := by
  rw [h.flash]
  exact read_done_program (f := s.flash.started (.program a ds)) hwf rfl i

/-- A finished program is an AND with the low bytes of the buffer (R95, R74). -/
theorem View.WriteDone.read_payload
    (h : (s.view x).WriteDone c opc (.program a (payloadBytes s.buf q n)) addr len r v)
    (hwf : memWf erased s.flash.mem = true) (i : Nat) : v.flash.read i = if a ≤ i ∧ i < a + n then
      s.flash.read i &&& (s.bufRead q (i - a)).setWidth 8 else s.flash.read i := by
  have hl : (payloadBytes s.buf q n).length = n := by simp
  rw [h.read_program hwf, hl]
  by_cases hi : a ≤ i ∧ i < a + n
  · rw [if_pos hi, if_pos hi, List.getD_eq_getElem _ _ (by omega), List.getElem_map, List.getElem_range]
    rfl
  · rw [if_neg hi, if_neg hi]

theorem View.WriteDone.addr_eq (h : (s.view x).WriteDone c opc p addr len r v) : v.fl.addr = addr.getD s.fl.addr := by
  rw [h.fl]
  rfl

theorem View.WriteDone.read_erase (h : (s.view x).WriteDone c opc (.erase a n) addr len r v)
    (hwf : memWf erased s.flash.mem = true) (i : Nat) :
    v.flash.read i = if a ≤ i ∧ i < a + n then 0xFF else s.flash.read i := by
  rw [h.flash]
  exact read_done_erase (f := s.flash.started (.erase a n)) hwf rfl i

/-- A program or erase whose payload takes the synchronous route, the device finishing while the driver polls. -/
theorem startMain_write_sync {hdr : List Byte} {pl : Payload} (hq : s.quiet) (hx : s.FlashBusFree x) (ho : s.Leaves q)
    (hsched : s.sched = [flashDoneTurn]) (hb : s.flash.busy = false) (op : FlOp) (r : Ret)
    (hs : Starts s.cfg q hdr pl k (s.view x) (s.flash.started p) opc)
    (hk : ∀ t : State, k ≤ progWeight t (frameProg s.cfg hdr pl)) :
    ∃ v, (s.view x).WriteDone s.cfg opc p addr len r v ∧ (s.view x).SameBus v ∧
      startMain (writeProg s.cfg op addr len hdr pl r) s = .next (s.midway v [] []) := by
  obtain ⟨sc, st, stb, d, evs, he, hstart⟩ := startMain_write hq hx ho hsched hb op addr len r hs rfl hk
  refine ⟨⟨{ x with scratch := sc }, { (s.flash.started p).done with frame := [] }, { s.fl with
      phase := .idle, op := .none, addr := addr.getD s.fl.addr, len := len.getD s.fl.len, status := stb, st := st },
      s.buf, d, s.trace ++ evs, r⟩,
    ⟨⟨hx.cs, hx.hasCs, hx.width, hx.drained, hx.inactive⟩, ⟨evs, rfl, he⟩, rfl, rfl, rfl, rfl⟩, ⟨sc, rfl⟩,
    hstart.trans ?_⟩
  rw [State.midway, ← hq.1]
  rfl

end

/-- The commit of a program's frame, whichever way its payload has crossed (R95). -/
theorem commit_program (hw : u.flash.wel = true) (hb : u.flash.busy = false) (h1 : 1 ≤ n)
    (hspan : flSpanOk u.flash a n = true) (hpage : onePage c.flPage a n = true) :
    ({ u.flash with frame := 0x02 :: be24 (wireAddr a) ++ payloadBytes u.buf q n } : Flash).commit c.flPage =
      .ok (u.flash.started (.program a (payloadBytes u.buf q n))) := by
  obtain ⟨h24, hcap⟩ := flSpanOk_iff.1 hspan
  have ha : (wireAddr a).toNat = a := wireAddr_toNat (by omega)
  have hl : (payloadBytes u.buf q n).length = n := by simp
  have hne : payloadBytes u.buf q n ≠ [] := List.ne_nil_of_length_pos (by omega)
  have hcommit := commit_pp (f := u.flash) (a := wireAddr a) c.flPage hb hw hne (by rw [ha, hl]; exact hpage)
    (by rw [ha, hl]; exact hcap)
  rwa [ha] at hcommit

/-- A program by the synchronous route. -/
theorem startMain_program_sync (hq : s.quiet) (hx : s.FlashBusFree x) (ho : s.Leaves q)
    (hsched : s.sched = [flashDoneTurn]) (hb : s.flash.busy = false) (h1 : 1 ≤ n)
    (hspan : flSpanOk s.flash a n = true) (hpage : onePage s.cfg.flPage a n = true)
    (hroute : dmaRoute s.cfg n = false) (r : Ret) :
    ∃ v, (s.view x).WriteDone s.cfg 0x02 (.program a (payloadBytes s.buf q n)) (some a) (some n) r v ∧
      (s.view x).SameBus v ∧ startMain (programProg s.cfg a q n r) s = .next (s.midway v [] []) := by
  have hcommit := commit_program (c := s.cfg) (q := q) (u := { s.view x with flash := { s.flash with wel := true } })
    rfl hb h1 hspan hpage
  refine startMain_write_sync hq hx ho hsched hb .program r
    (starts_output (v := s.view x) (by simp [be24]) (by decide) h1 hroute hcommit) fun t => ?_
  rw [weight_frame_output _ _ _ _ _ hroute]
  omega

/-- An erase: its frame has no payload. -/
theorem startMain_erase {op : FlOp} {opc : Byte} {tl : List Byte} {addr : Option Nat} (hq : s.quiet)
    (hx : s.FlashBusFree x) (hsched : s.sched = [flashDoneTurn]) (hb : s.flash.busy = false)
    (hl : (opc :: tl).length ≤ 4)
    (hcommit : ({ s.flash with wel := true, frame := opc :: tl } : Flash).commit s.cfg.flPage =
      .ok (s.flash.started (.erase a n))) (r : Ret) :
    ∃ v, (s.view x).WriteDone s.cfg opc (.erase a n) addr none r v ∧ (s.view x).SameBus v ∧
      startMain (writeProg s.cfg op addr none (opc :: tl) .none r) s = .next (s.midway v [] []) :=
  startMain_write_sync hq hx (leaves_loc s) hsched hb op r (starts_none (v := s.view x) hl hcommit) fun t => by
    rw [weight_frame_none]
    omega

/-! ## The three erases (R302 to R304) -/

/-- Instruction `i` erases `n` bytes from address `a`, by the frame of `opc` and `tl`. -/
structure Erases (s : State) (i : Instr) (op : FlOp) (opc : Byte) (tl : List Byte) (addr : Option Nat) (a n : Nat)
    (r : Ret) : Prop where
  exec_eq : exec i s = startMain (writeProg s.cfg op addr none (opc :: tl) .none r) s
  length_le : (opc :: tl).length ≤ 4
  commit_eq : ({ s.flash with wel := true, frame := opc :: tl } : Flash).commit s.cfg.flPage =
    .ok (s.flash.started (.erase a n))

section
variable (hb : s.flash.busy = false)
include hb

theorem erases_flEraseSector {addr : BitVec 64} (ha : a = addr.toNat % 2 ^ s.cfg.apiAddrW) (h0 : a % 4096 = 0)
    (hspan : flSpanOk s.flash a 4096 = true) :
    Erases s (.flEraseSector addr) .eraseSector 0x20 (be24 (wireAddr a)) (some a) a 4096 .ok := by
  obtain ⟨h24, hcap⟩ := flSpanOk_iff.1 hspan
  have hw : (wireAddr a).toNat = a := wireAddr_toNat (by omega)
  have hcommit := commit_se (f := { s.flash with wel := true }) (a := wireAddr a) s.cfg.flPage hb rfl
    (by rw [hw]; exact hcap)
  rw [hw] at hcommit
  exact ⟨(exec_flEraseSector ha).trans (flashErase_eq_startMain h0 hspan _), by simp [be24], hcommit⟩

theorem erases_flEraseBlock {addr : BitVec 64} (ha : a = addr.toNat % 2 ^ s.cfg.apiAddrW) (h0 : a % 32768 = 0)
    (hspan : flSpanOk s.flash a 32768 = true) :
    Erases s (.flEraseBlock addr) .eraseBlock 0x52 (be24 (wireAddr a)) (some a) a 32768 .ok := by
  obtain ⟨h24, hcap⟩ := flSpanOk_iff.1 hspan
  have hw : (wireAddr a).toNat = a := wireAddr_toNat (by omega)
  have hcommit := commit_be32 (f := { s.flash with wel := true }) (a := wireAddr a) s.cfg.flPage hb rfl
    (by rw [hw]; exact hcap)
  rw [hw] at hcommit
  exact ⟨(exec_flEraseBlock ha).trans (flashErase_eq_startMain h0 hspan _), by simp [be24], hcommit⟩

theorem erases_flEraseAll : Erases s .flEraseAll .eraseAll 0xC7 [] none 0 s.flash.capacity .none :=
  ⟨rfl, by simp, commit_ce (f := { s.flash with wel := true }) _ hb rfl⟩

end

end Sys2Proof.Machine

open Sys2Proof Sys2Proof.Machine

/-- Settles O40: the payload is below the threshold, so the read is two frames in which no agent has a part. -/
theorem flReadResult : Obligations.FlReadResult := by
  intro s x addr a rx len hq hx ha hb h1 hbuf hspan ho hroute hm
  obtain ⟨-, hwf⟩ := memOk_iff.1 hm
  obtain ⟨v, hv, hbus, he⟩ := startMain_read_sync hq hx (leaves_of_owned ho) hb h1 hspan hroute .none
  rw [← flashRead_eq_startMain h1 hbuf hspan (payloadOk_of_sync hroute), ← exec_flRead ha] at he
  exact ⟨_, he, midway_driverFrame hq.1 hbus hv.opens _, hv.opens.newOpcodes rfl, fun i hi => hv.bufRead hwf hi,
    hv.sameBufBut hwf, hv.flash, hv.fl, hv.ret, rfl⟩

/-- Settles O42: the device finishes while the driver polls, and its finished program is an AND. -/
theorem flProgramResult : Obligations.FlProgramResult := by
  intro s x addr a tx len hq hx ha hs hb h1 hbuf hspan hpage ho hroute hm
  obtain ⟨hwf, -⟩ := memOk_iff.1 hm
  obtain ⟨v, hv, hbus, he⟩ := startMain_program_sync hq hx (leaves_of_owned ho) hs hb h1 hspan hpage hroute .none
  rw [← flashProgram_eq_startMain h1 hbuf hspan (payloadOk_of_sync hroute) hpage, ← exec_flProgram ha] at he
  exact ⟨_, he, midway_driverFrame hq.1 hbus hv.opens _, hv.opens.newOpcodes rfl, hv.read_payload hwf,
    hv.flash_eq, hv.fl, hv.buf, hv.ret, rfl, rfl⟩

/-- Settles O43: the three erases differ in their frame and their span alone. -/
theorem flEraseResult : Obligations.FlEraseResult := by
  intro s x addr i opc a base size r hq hx ha hs hb hm hi hal
  obtain ⟨hwf, -⟩ := memOk_iff.1 hm
  have herases : ∃ op tl ad, Erases s i op opc tl ad base size r ∧
      ad.getD s.fl.addr = if i = .flEraseAll then s.fl.addr else a := by
    rcases hi with h | h | h <;> cases h
    · obtain ⟨h0, hspan⟩ := hal nofun
      exact ⟨_, _, _, erases_flEraseSector hb ha h0 hspan, (if_neg nofun).symm⟩
    · obtain ⟨h0, hspan⟩ := hal nofun
      exact ⟨_, _, _, erases_flEraseBlock hb ha h0 hspan, (if_neg nofun).symm⟩
    · exact ⟨_, _, _, erases_flEraseAll hb, (if_pos rfl).symm⟩
  obtain ⟨op, tl, ad, herase, had⟩ := herases
  obtain ⟨v, hv, hbus, he⟩ := startMain_erase hq hx hs hb herase.length_le herase.commit_eq r
  refine ⟨_, herase.exec_eq.trans he, midway_driverFrame hq.1 hbus hv.opens _, hv.opens.newOpcodes rfl,
    hv.read_erase hwf, hv.flash_eq, hv.fl.trans ?_, hv.addr_eq.trans had, hv.buf, hv.ret, rfl, rfl⟩
  rw [show (s.midway v [] []).fl.addr = ad.getD s.fl.addr from hv.addr_eq]
  rfl

end

section
/-! Identification and discovery (R306 to R318): where they end, what they leave, and where they have no meaning. -/

namespace Sys2Proof.Machine

variable {s : State} {x : Bus} {n k : Nat} {c : Config} {u v : View} {p p' : List Micro} {m : Micro} {r : Refusal}
  {hs hs' : List Byte}

/-! ## A program that comes to a micro-step with no meaning -/

/-- From view `v` the micro-steps `p` lead to one that is refused. -/
def Refuses (c : Config) (p : List Micro) (v : View) (r : Refusal) : Prop :=
  ∃ k, (∀ t : State, t.cfg = c → k < progWeight t p) ∧
    ∀ s : State, s.cfg = c → c.flashBus < s.buses.length → ∀ rest n,
      runCtx true .main (k + 1 + n) ((s.put v).setProg .main (p ++ rest)) = .refused r

theorem refuses_micro (h : ∀ (s : State) (ms : List Micro), s.cfg = c → c.flashBus < s.buses.length →
    micro m ms (s.put v) = .refuse r) : Refuses c [m] v r := by
  refine ⟨0, fun t _ => weight_pos t m, fun s hc hlen rest n => ?_⟩
  have hm := h (s.setProg .main (m :: rest)) rest hc hlen
  rw [← put_setMain] at hm
  rw [Nat.zero_add, Nat.add_comm, runCtx, prog_setProg]
  simp only [List.singleton_append, hm]

theorem Refuses.append_right (h : Refuses c p v r) (p' : List Micro) : Refuses c (p ++ p') v r := by
  obtain ⟨k, hk, hrun⟩ := h
  refine ⟨k, fun t ht => ?_, fun s hc hlen rest n => ?_⟩
  · rw [progWeight_append]
    exact Nat.lt_add_right _ (hk t ht)
  · rw [List.append_assoc]
    exact hrun s hc hlen _ n

/-- What runs undisturbed first puts the refusal off. -/
theorem Refuses.after (h : Refuses c p' v r) (hd : Does c .loc p k u v)
    (hk : ∀ t : State, t.cfg = c → k ≤ progWeight t p) : Refuses c (p ++ p') u r := by
  obtain ⟨l, hl, hrun⟩ := h
  refine ⟨k + l, fun t ht => ?_, fun s hc hlen rest n => ?_⟩
  · rw [progWeight_append]
    exact Nat.add_lt_add_of_le_of_lt (hk t ht) (hl t ht)
  · have hfirst := hd s hc hlen (leaves_loc s) true (p' ++ rest) (l + 1 + n)
    rw [List.append_assoc, Nat.add_assoc k l 1, Nat.add_assoc k (l + 1) n, hfirst]
    exact hrun s hc hlen rest n

/-- A micro-step that puts others in its place. -/
theorem Refuses.expand (h : Refuses c p v r) (hw : ∀ t : State, t.cfg = c → progWeight t p < m.weight t)
    (hm : ∀ (s : State) (ms : List Micro), s.cfg = c → micro m ms (s.put u) = .more (s.put v) (p ++ ms)) :
    Refuses c [m] u r := by
  obtain ⟨l, hl, hrun⟩ := h
  refine ⟨l + 1, fun t ht => ?_, fun s hc hlen rest n => ?_⟩
  · have := hl t ht
    have := hw t ht
    simp only [progWeight]
    omega
  · have hstep := hm (s.setProg .main (m :: rest)) rest hc
    rw [← put_setMain, ← put_setMain] at hstep
    rw [show l + 1 + 1 + n = l + 1 + n + 1 by omega, runCtx, prog_setProg]
    simp only [List.singleton_append, hstep, setProg_setProg]
    exact hrun s hc hlen rest n

theorem startMain_refuses (hq : s.quiet) (hx : s.FlashBusFree x)
    (h : Refuses s.cfg p { s.view x with ret := .none } r) :
    startMain p s = .refused r := by
  obtain ⟨k, hk, hrun⟩ := h
  have hst : s.put { s.view x with ret := .none } = { s with ret := .none } := by
    conv_rhs => rw [← put_view hx.bus]
    rfl
  have hlt := hk { s with main := p, ret := .none } rfl
  obtain ⟨n, hn⟩ := Nat.exists_eq_add_of_le (Nat.succ_le_of_lt hlt)
  have hall : runAll .main { s with main := p, ret := .none } = .refused r := by
    have h := hrun s rfl hx.lt_length [] n
    rw [hst, List.append_nil] at h
    rw [runAll, State.prog, hn]
    exact h
  rw [startMain_quiet hq, hall]
  rfl

/-! ## A payload that is too long for the DMA route (R290, U8) -/

theorem micro_dmaStage_long (hn : c.dmaMax < n) (tx rx : Option BufRef) (s : State) (ms : List Micro) (hc : s.cfg = c)
    (hlen : c.flashBus < s.buses.length) :
    micro (.dmaStage c.flashBus tx rx n) ms (s.put v) = .refuse .dmaCount := by
  subst hc
  exact (withBus_of_some (put_bus rfl hlen v) _).trans (if_pos hn)

theorem refuses_frame_long (h : v.Free) {hdr : List Byte} (hne : hdr ≠ [])
    (hh : hdr.length ≤ 4 ∨ (hdr.headD 0).toNat ≠ 0x03) (hroute : dmaRoute c n = true) (hn : c.dmaMax < n) (q : BufRef) :
    Refuses c (frameProg c hdr (.input q n)) v .dmaCount := by
  obtain ⟨sc, evs, -, d⟩ := does_open (c := c) (q := .loc) h hne hh
  have hprog : frameProg c hdr (.input q n) = ((selectProg c.flashBus ++ txBytes c.flashBus hdr) ++
      ([.spinDma c.flashBus] ++ [.dmaStage c.flashBus none (some q) n])) ++
      (.dmaEnable c.flashBus :: .spinDma c.flashBus :: deselectProg c.flashBus) := by
    simp [frameProg, payloadProg, hroute, dmaProg]
  rw [hprog]
  refine ((refuses_micro (micro_dmaStage_long hn none (some q))).after (acts_spinDma ?_).does
    (fun t _ => length_le_progWeight t [_]) |>.after d fun t _ => ?_).append_right _
  · exact h.inactive
  · simp only [progWeight_append, progWeight, selectProg, txBytes, transferProg, Micro.weight]
    omega

theorem refuses_identify (h : v.Free) (hr : dmaRoute c 2 = true) (hn : c.dmaMax < 2) :
    Refuses c (identifyProg c) v .dmaCount := by
  have hprog : identifyProg c = [.flBegin .identify none none, .flPhase .cmd] ++
      (frameProg c [0x90, 0, 0, 0] (.input .loc 2) ++ [.identEnd]) := by simp [identifyProg]
  rw [hprog]
  refine ((refuses_frame_long ?_ (by simp) (.inl (by simp)) hr hn .loc).append_right _).after
    (Does.cons (acts_flBegin .identify none none) (acts_flPhase .cmd).does) fun t _ => length_le_progWeight t [_, _]
  exact h.congr rfl

/-! ## What discovery does before its two frames -/

theorem discoverProg_eq (c : Config) : discoverProg c = [.flBegin .discover none none, .flPhase .cmd] ++
    (frameProg c (0x5A :: (be24 c.sfdp.sigOff ++ [0x00])) (.input .loc c.sfdp.hdrLen) ++ [.discHeader]) := by
  simp [discoverProg]

/-- The driver once discovery has begun. -/
def View.discovering (v : View) : View := { v with fl := { v.fl with op := .discover, phase := .cmd } }

theorem does_discoverBegin (v : View) (q : BufRef) :
    Does c q [.flBegin .discover none none, .flPhase .cmd] 2 v v.discovering :=
  Does.cons (acts_flBegin .discover none none) (acts_flPhase .cmd).does

theorem View.Free.discovering (h : v.Free) : v.discovering.Free := h.congr rfl

/-- Discovery takes no more micro-steps than it weighs. -/
theorem weight_discoverProg (hr : dmaRoute c c.sfdp.hdrLen = false) (t : State) (hc : t.cfg = c) :
    30 + c.sfdp.hdrLen + c.sfdp.tblLen ≤ progWeight t (discoverProg c) := by
  have hl : (0x5A :: (be24 c.sfdp.sigOff ++ [0x00])).length = 5 := rfl
  simp only [discoverProg_eq, progWeight_append, progWeight, weight_frame_input _ _ _ _ _ hr, hl, Micro.weight, hc]
  omega

/-- The second transaction weighs less than the micro-step that leads to it. -/
theorem weight_discTableProg (ptr : BitVec 24) (t : State) (hc : t.cfg = c) :
    progWeight t (discTableProg c ptr) < Micro.weight t .discHeader := by
  have hl : (0x5A :: (be24 ptr ++ [0x00])).length = 5 := rfl
  cases hr : dmaRoute c c.sfdp.tblLen with
  | false =>
    simp only [discTableProg, progWeight_append, progWeight, weight_frame_input _ _ _ _ _ hr, hl, Micro.weight, hc]
    omega
  | true =>
    simp only [discTableProg, frameProg, payloadProg, hr, if_true, dmaProg, selectProg, deselectProg, txBytes,
      transferProg, progWeight_append, progWeight, hl, Micro.weight, hc]
    omega

/-- From `u` to `v` one frame of discovery has brought `n` bytes from position `a` of the table (R93). -/
structure View.Fetched (c : Config) (u : View) (a n : Nat) (v : View) : Prop where
  bus : u.SameBus v
  flash : v.flash = { u.flash with frame := [] }
  wf : memWf 0 v.buf = true
  reply : v.reply n = u.flash.sfdpBytes a n

theorem does_fetch (h : v.Free) (hb : v.flash.busy = false) (hn : 1 ≤ n) (hr : dmaRoute c n = false)
    (hwf : memWf 0 v.buf = true) {a : BitVec 24} (hs : a.toNat + n ≤ v.flash.sfdp.length) :
    ∃ w, v.Fetched c a.toNat n w ∧
      Does c .loc (frameProg c (0x5A :: (be24 a ++ [0x00])) (.input .loc n)) (11 + n) v w := by
  obtain ⟨sc, m, d, evs, hm, -, hrep, -, hd⟩ := does_sfdp (c := c) h hb hn hr hwf hs
  refine ⟨_, ?_, hd⟩
  exact ⟨⟨sc, rfl⟩, rfl, hm, hrep⟩

theorem weight_fetch (hr : dmaRoute c n = false) (a : BitVec 24) (t : State) :
    11 + n ≤ progWeight t (frameProg c (0x5A :: (be24 a ++ [0x00])) (.input .loc n)) := by
  have hl : (0x5A :: (be24 a ++ [0x00])).length = 5 := rfl
  rw [weight_frame_input _ _ _ _ _ hr, hl]
  omega

/-! ## Discovery that has no meaning (U8, U11) -/

theorem refuses_discover_header (h : v.Free) (hr : dmaRoute c c.sfdp.hdrLen = true) (hn : c.dmaMax < c.sfdp.hdrLen) :
    Refuses c (discoverProg c) v .dmaCount := by
  rw [discoverProg_eq]
  exact ((refuses_frame_long h.discovering (by simp) (.inr (by simp)) hr hn .loc).append_right _).after
    (does_discoverBegin v .loc) fun t _ => length_le_progWeight t [_, _]

/-- R314 gives the density of a table no meaning. -/
theorem micro_discTable_density (ht : tableOk c.sfdp (v.reply c.sfdp.tblLen) = true)
    (hd : densityDecode (le32 (v.reply c.sfdp.tblLen) c.sfdp.w2Off) = none) (s : State) (ms : List Micro)
    (hc : s.cfg = c) : micro .discTable ms (s.put v) = .refuse .density := by
  subst hc
  simp only [micro, stepDiscTable, put_cfg, put_reply, tableOk_iff, ht, if_true, hd]

section
variable (h : v.Free) (hb : v.flash.busy = false) (hwf : memWf 0 v.buf = true) (h1 : 1 ≤ c.sfdp.hdrLen)
  (hr1 : dmaRoute c c.sfdp.hdrLen = false) (hs1 : c.sfdp.sigOff.toNat + c.sfdp.hdrLen ≤ v.flash.sfdp.length)
  (hh : headerOk c.sfdp (v.flash.sfdpHeader c.sfdp) = true)
include h hb hwf h1 hr1 hs1 hh

/-- After a good header discovery is refused where its second transaction is. -/
theorem refuses_discover_table (hw : ∀ w : View, w.Free → memWf 0 w.buf = true →
      w.flash = { v.flash with frame := [] } →
      Refuses c (discTableProg c (le24 (v.flash.sfdpHeader c.sfdp) c.sfdp.ptrOff)) w r) :
    Refuses c (discoverProg c) v r := by
  obtain ⟨w, hf, hd⟩ := does_fetch (c := c) h.discovering hb h1 hr1 hwf hs1
  have hreply : w.reply c.sfdp.hdrLen = v.flash.sfdpHeader c.sfdp := hf.reply
  have hrefuses := hw w (hf.bus.free h.discovering) hf.wf hf.flash
  rw [← hreply] at hrefuses hh
  rw [discoverProg_eq]
  exact ((hrefuses.expand (weight_discTableProg _) (micro_discHeader hh)).after hd
    fun t _ => weight_fetch hr1 _ t).after (does_discoverBegin v .loc) fun t _ => length_le_progWeight t [_, _]

theorem refuses_discover_tableLong (hr : dmaRoute c c.sfdp.tblLen = true) (hn : c.dmaMax < c.sfdp.tblLen) :
    Refuses c (discoverProg c) v .dmaCount :=
  refuses_discover_table h hb hwf h1 hr1 hs1 hh fun _ hw _ _ =>
    (refuses_frame_long hw (by simp) (.inr (by simp)) hr hn .loc).append_right _

theorem refuses_discover_density (h2 : 1 ≤ c.sfdp.tblLen) (hr2 : dmaRoute c c.sfdp.tblLen = false)
    (hs2 : (le24 (v.flash.sfdpHeader c.sfdp) c.sfdp.ptrOff).toNat + c.sfdp.tblLen ≤ v.flash.sfdp.length)
    (ht : tableOk c.sfdp (v.flash.sfdpTable c.sfdp) = true)
    (hd : densityDecode (le32 (v.flash.sfdpTable c.sfdp) c.sfdp.w2Off) = none) :
    Refuses c (discoverProg c) v .density := by
  refine refuses_discover_table h hb hwf h1 hr1 hs1 hh fun w hw hm hf => ?_
  obtain ⟨w', hf', hd'⟩ := does_fetch (c := c) hw (by rw [hf]; exact hb) h2 hr2 hm (by rw [hf]; exact hs2)
  have hreply : w'.reply c.sfdp.tblLen = v.flash.sfdpTable c.sfdp := by
    rw [hf'.reply, hf]
    rfl
  rw [← hreply] at ht hd
  exact (refuses_micro fun s ms hc _ => micro_discTable_density ht hd s ms hc).after hd' fun t _ => weight_fetch hr2 _ t

end

/-! ## What discovery leaves (R308 to R314) -/

theorem discoverOutcome_badHeader {f : Flash} (hh : headerOk c.sfdp (f.sfdpHeader c.sfdp) = false) (d : FlashDesc) :
    discoverOutcome c f d = some (d, .err .discovery) := if_neg (ne_true_of_eq_false hh)

theorem discoverOutcome_badTable {f : Flash} (hh : headerOk c.sfdp (f.sfdpHeader c.sfdp) = true)
    (ht : tableOk c.sfdp (f.sfdpTable c.sfdp) = false) (d : FlashDesc) :
    discoverOutcome c f d = some (d, .err .unsupportedGeometry) := by
  rw [discoverOutcome, if_pos hh, if_neg (ne_true_of_eq_false ht)]

theorem discoverOutcome_ok {f : Flash} {l : BitVec 6} (hh : headerOk c.sfdp (f.sfdpHeader c.sfdp) = true)
    (ht : tableOk c.sfdp (f.sfdpTable c.sfdp) = true)
    (hd : densityDecode (le32 (f.sfdpTable c.sfdp) c.sfdp.w2Off) = some l) (d : FlashDesc) :
    discoverOutcome c f d = some ({ d with log2Capacity := l, valid := true }, .ok) := by
  rw [discoverOutcome, if_pos hh, if_pos ht, hd]
  rfl

/-- How many cells of the reply buffer discovery writes: those of the longer of the frames it gets to. -/
def discoverCells (c : Config) (f : Flash) : Nat :=
  if headerOk c.sfdp (f.sfdpHeader c.sfdp) then max c.sfdp.hdrLen c.sfdp.tblLen else c.sfdp.hdrLen

/-- The opcodes of the frames it gets to. -/
def discoverOpcodes (c : Config) (f : Flash) : List Byte :=
  if headerOk c.sfdp (f.sfdpHeader c.sfdp) then [0x5A, 0x5A] else [0x5A]

/-! ## Discovery after the micro-steps `p` of an operation, which may be none -/

/-- An operation of the driver has got from its start to view `u`, by micro-steps that opened windows with the opcodes
`hs`, wrote `n` cells of the reply buffer, and left the descriptor `d`; the device is as it was. -/
structure ReadyAt (s : State) (x : Bus) (p : List Micro) (u : View) (hs : List Byte) (n : Nat) (d : FlashDesc) :
    Prop where
  does : ∃ k, (∀ t, k ≤ progWeight t p) ∧ Does s.cfg .loc p k { s.view x with ret := .none } u
  bus : (s.view x).SameBus u
  opens : (s.view x).Opens s.cfg u hs
  flash : ∃ fr, u.flash = { s.flash with frame := fr }
  fl : { u.fl with phase := .idle, op := .none } = { s.fl with phase := .idle, op := .none, desc := d }
  wf : memWf 0 u.buf = true
  buf : ∀ i, i < BufRef.loc.cell 0 ∨ BufRef.loc.cell 0 + n ≤ i → memGet 0 u.buf i = memGet 0 s.buf i

/-- Nothing has been done yet. -/
theorem readyAt_start (hwf : memWf 0 s.buf = true) (x : Bus) :
    ReadyAt s x [] { s.view x with ret := .none } [] 0 s.fl.desc where
  does := ⟨0, fun _ => Nat.zero_le _, Does.nil _ _⟩
  bus := ⟨x.scratch, rfl⟩
  opens := ⟨[], (List.append_nil _).symm, Heads.nil _⟩
  flash := ⟨s.flash.frame, rfl⟩
  fl := rfl
  wf := hwf
  buf _ _ := rfl

/-- Identification (R306). -/
theorem readyAt_identified (hwf : memWf 0 s.buf = true) (hx : s.FlashBusFree x) (hb : s.flash.busy = false)
    (hr : dmaRoute s.cfg 2 = false) : ∃ u, u.ret = .ident s.flash.vendor s.flash.device ∧
      u.fl = { s.fl with
        phase := .idle, op := .none
        desc := { s.fl.desc with vendorId := s.flash.vendor, deviceId := s.flash.device } } ∧
      u.flash = { s.flash with frame := [] } ∧
      ReadyAt s x (identifyProg s.cfg) u [0x90] 2
        { s.fl.desc with vendorId := s.flash.vendor, deviceId := s.flash.device } := by
  obtain ⟨sc, ws, d, evs, hl, he, hd⟩ := does_identify (c := s.cfg) hx.view hb hr hwf
  refine ⟨_, rfl, rfl, rfl, ⟨⟨15, fun t => ?_, hd⟩, ⟨sc, rfl⟩, ⟨evs, rfl, he⟩, ⟨[], rfl⟩, rfl, ?_, fun i hi => ?_⟩⟩
  · have hprog : identifyProg s.cfg = [.flBegin .identify none none, .flPhase .cmd] ++
        (frameProg s.cfg [0x90, 0, 0, 0] (.input .loc 2) ++ [.identEnd]) := by simp [identifyProg]
    have hl : ([0x90, 0, 0, 0] : List Byte).length = 4 := rfl
    simp only [hprog, progWeight_append, progWeight, weight_frame_input _ _ _ _ _ hr, hl, Micro.weight]
    omega
  · exact memWf_bufFill _ _ _ hwf
  · exact (memGet_bufFill .loc 0 ws hwf i).trans (if_neg (by omega))

section
variable {d d' : FlashDesc} {res : Ret} (hq : s.quiet) (hx : s.FlashBusFree x) (hu : ReadyAt s x p u hs n d)
include hx hu

theorem ReadyAt.free : u.Free := hu.bus.free (hx.view.congr rfl)

include hq

theorem ReadyAt.refused (h : Refuses s.cfg p' u r) : startMain (p ++ p') s = .refused r := by
  obtain ⟨k, hk, hd⟩ := hu.does
  exact startMain_refuses hq hx (h.after hd fun t _ => hk t)

theorem ReadyAt.refused_header (hr : dmaRoute s.cfg s.cfg.sfdp.hdrLen = true) (hn : s.cfg.dmaMax < s.cfg.sfdp.hdrLen) :
    startMain (p ++ discoverProg s.cfg) s = .refused .dmaCount :=
  hu.refused hq hx (refuses_discover_header (hu.free hx) hr hn)

/-- An operation that ends here. -/
theorem ReadyAt.ends : startMain p s = .next (s.midway u [] s.sched) := by
  obtain ⟨k, hk, hd⟩ := hu.does
  exact startMain_ends hq hx (leaves_loc s) hd fun t _ => hk t

variable (hb : s.flash.busy = false) (h1 : 1 ≤ s.cfg.sfdp.hdrLen) (hr1 : dmaRoute s.cfg s.cfg.sfdp.hdrLen = false)
  (hs1 : s.cfg.sfdp.sigOff.toNat + s.cfg.sfdp.hdrLen ≤ s.flash.sfdp.length)
include hb h1 hr1 hs1

theorem ReadyAt.refused_tableLong (hh : headerOk s.cfg.sfdp (s.flash.sfdpHeader s.cfg.sfdp) = true)
    (hr : dmaRoute s.cfg s.cfg.sfdp.tblLen = true) (hn : s.cfg.dmaMax < s.cfg.sfdp.tblLen) :
    startMain (p ++ discoverProg s.cfg) s = .refused .dmaCount := by
  obtain ⟨fr, hf⟩ := hu.flash
  exact hu.refused hq hx (refuses_discover_tableLong (hu.free hx) (by rw [hf]; exact hb) hu.wf h1 hr1
    (by rw [hf]; exact hs1) (by rw [hf]; exact hh) hr hn)

theorem ReadyAt.refused_density (hh : headerOk s.cfg.sfdp (s.flash.sfdpHeader s.cfg.sfdp) = true)
    (h2 : 1 ≤ s.cfg.sfdp.tblLen) (hr2 : dmaRoute s.cfg s.cfg.sfdp.tblLen = false)
    (hs2 : (le24 (s.flash.sfdpHeader s.cfg.sfdp) s.cfg.sfdp.ptrOff).toNat + s.cfg.sfdp.tblLen ≤ s.flash.sfdp.length)
    (ht : tableOk s.cfg.sfdp (s.flash.sfdpTable s.cfg.sfdp) = true)
    (hd : densityDecode (le32 (s.flash.sfdpTable s.cfg.sfdp) s.cfg.sfdp.w2Off) = none) :
    startMain (p ++ discoverProg s.cfg) s = .refused .density := by
  obtain ⟨fr, hf⟩ := hu.flash
  exact hu.refused hq hx (refuses_discover_density (hu.free hx) (by rw [hf]; exact hb) hu.wf h1 hr1
    (by rw [hf]; exact hs1) (by rw [hf]; exact hh) h2 hr2 (by rw [hf]; exact hs2) (by rw [hf]; exact ht)
    (by rw [hf]; exact hd))

/-- An operation that ends with discovery, by the synchronous route. -/
theorem ReadyAt.discovers
    (h2 : headerOk s.cfg.sfdp (s.flash.sfdpHeader s.cfg.sfdp) = true → 1 ≤ s.cfg.sfdp.tblLen ∧
      dmaRoute s.cfg s.cfg.sfdp.tblLen = false ∧
      (le24 (s.flash.sfdpHeader s.cfg.sfdp) s.cfg.sfdp.ptrOff).toNat + s.cfg.sfdp.tblLen ≤ s.flash.sfdp.length)
    (ho : discoverOutcome s.cfg s.flash d = some (d', res)) {ops : List Byte} {cells : Nat}
    (hops : ops = hs ++ discoverOpcodes s.cfg s.flash) (hn : n ≤ cells) (hc : discoverCells s.cfg s.flash ≤ cells) :
    ∃ t, startMain (p ++ discoverProg s.cfg) s = .next t ∧ DriverFrame s t x ∧
      newOpcodes s t = ops ∧ t.ret = res ∧ t.flash = { s.flash with frame := [] } ∧
      t.fl = { s.fl with phase := .idle, op := .none, desc := d' } ∧
      sameBufBut s t .loc 0 cells ∧ t.sched = s.sched := by
  obtain ⟨k, hk, hd⟩ := hu.does
  obtain ⟨fr, hf⟩ := hu.flash
  have hdesc : u.fl.desc = d := congrArg Fl.desc hu.fl
  obtain ⟨sc, m, dr, evs, k', hs', hm, hsame, he, hhs, hk', hd'⟩ := does_discover (c := s.cfg) (hu.free hx)
    (by rw [hf]; exact hb) hu.wf h1 hr1 (by rw [hf]; exact fun h => ⟨(h2 h).1, (h2 h).2.1⟩) (by rw [hf]; exact hs1)
    (by rw [hf]; exact fun h => (h2 h).2.2) (desc := d') (r := res) (by rw [hf, hdesc]; exact ho)
  obtain ⟨evs₀, ht₀, he₀⟩ := hu.opens
  have hopc : hs' = discoverOpcodes s.cfg s.flash := by
    rw [hf] at hhs
    exact hhs
  have hcells : headerOk s.cfg.sfdp (u.flash.sfdpHeader s.cfg.sfdp) =
      headerOk s.cfg.sfdp (s.flash.sfdpHeader s.cfg.sfdp) := by
    rw [hf]
    rfl
  refine ⟨_, startMain_ends hq hx (leaves_loc s) (hd.append hd') fun t ht => ?_,
    midway_driverFrame hq.1 (hu.bus.trans ⟨sc, rfl⟩) (hu.opens.trans ⟨evs, rfl, he⟩) _, ?_, rfl, ?_,
    congrArg (fun f : Fl => { f with desc := d' }) hu.fl, fun i hi => (hsame i ?_).trans (hu.buf i ?_), rfl⟩
  · rw [progWeight_append]
    exact Nat.add_le_add (hk t) (hk'.trans (weight_discoverProg hr1 t ht))
  · rw [hops, ← hopc]
    exact newOpcodes_of_heads ((congrArg (· ++ evs) ht₀).trans (List.append_assoc ..)) (he₀.append he)
  · rw [hf]
    rfl
  · rw [hcells]
    unfold discoverCells at hc
    split at hc <;> rename_i hh
    · exact hi.imp_right fun h => ⟨by omega, fun _ => by omega⟩
    · exact hi.imp_right fun h => ⟨by omega, fun h => absurd h hh⟩
  · omega

end

end Sys2Proof.Machine

open Sys2Proof Sys2Proof.Machine

/-- Settles O36: one frame by the synchronous route; by the other its payload is refused as too long. -/
theorem flIdentifyResult : Obligations.FlIdentifyResult := by
  intro s x hq hx hb
  refine ⟨fun hr hn => ?_, fun hr hm => ?_⟩
  · exact startMain_refuses hq hx (refuses_identify hx.view hr hn)
  · obtain ⟨-, hwf⟩ := memOk_iff.1 hm
    obtain ⟨u, hret, hfl, hflash, hu⟩ := readyAt_identified hwf hx hb hr
    exact ⟨_, hu.ends hq hx, midway_driverFrame hq.1 hu.bus hu.opens _, hu.opens.newOpcodes rfl, hflash, hfl,
      hu.buf, hret, rfl⟩

/-- Settles O37: discovery with nothing before it. -/
theorem flDiscoverResult : Obligations.FlDiscoverResult := by
  intro s x h tb hq hx hb hm hh htb h1
  have hu := readyAt_start (memOk_iff.1 hm).2 x
  have hprog : exec .flDiscover s = startMain ([] ++ discoverProg s.cfg) s := rfl
  subst hh htb
  rw [hprog]
  refine ⟨hu.refused_header hq hx, fun hr hs => ⟨fun hbad => ?_, hu.refused_tableLong hq hx hb h1 hr hs,
    fun hgood h2 hr2 hs2 => ⟨fun ht => ?_, hu.refused_density hq hx hb h1 hr hs hgood h2 hr2 hs2, fun l ht hd => ?_⟩⟩⟩
  · exact hu.discovers hq hx hb h1 hr hs (fun h => absurd h (ne_true_of_eq_false hbad))
      (discoverOutcome_badHeader hbad _) (by simp [discoverOpcodes, hbad]) (Nat.zero_le _)
      (by simp [discoverCells, hbad])
  · exact hu.discovers hq hx hb h1 hr hs (fun _ => ⟨h2, hr2, hs2⟩) (discoverOutcome_badTable hgood ht _)
      (by simp [discoverOpcodes, hgood]) (Nat.zero_le _) (by simp [discoverCells, hgood])
  · exact hu.discovers hq hx hb h1 hr hs (fun _ => ⟨h2, hr2, hs2⟩) (discoverOutcome_ok hgood ht hd _)
      (by simp [discoverOpcodes, hgood]) (Nat.zero_le _) (by simp [discoverCells, hgood])

/-- Settles O38: discovery with identification before it. -/
theorem flInitResult : Obligations.FlInitResult := by
  intro s x h tb hq hx hb hm hh htb h1
  have hready := readyAt_identified (memOk_iff.1 hm).2 hx hb
  have hprog : exec .flInit s = startMain (identifyProg s.cfg ++ discoverProg s.cfg) s := rfl
  subst hh htb
  rw [hprog]
  refine ⟨fun hr hn => startMain_refuses hq hx ((refuses_identify hx.view hr hn).append_right _),
    fun hr0 hn hr => ?_, fun hr0 hr hs => ?_⟩
  · obtain ⟨u, -, -, -, hu⟩ := hready hr0
    exact hu.refused_header hq hx hr hn
  · obtain ⟨u, -, -, -, hu⟩ := hready hr0
    refine ⟨fun hbad => ?_, hu.refused_tableLong hq hx hb h1 hr hs, fun hgood h2 hr2 hs2 =>
      ⟨fun ht => ?_, hu.refused_density hq hx hb h1 hr hs hgood h2 hr2 hs2, fun l ht hd => ?_⟩⟩
    · exact hu.discovers hq hx hb h1 hr hs (fun h => absurd h (ne_true_of_eq_false hbad))
        (discoverOutcome_badHeader hbad _) (by simp [discoverOpcodes, hbad]) (Nat.le_max_left ..)
        (by simp [discoverCells, hbad])
    · exact hu.discovers hq hx hb h1 hr hs (fun _ => ⟨h2, hr2, hs2⟩) (discoverOutcome_badTable hgood ht _)
        (by simp [discoverOpcodes, hgood]) (Nat.le_max_left ..) (by simp [discoverCells, hgood])
    · exact hu.discovers hq hx hb h1 hr hs (fun _ => ⟨h2, hr2, hs2⟩) (discoverOutcome_ok hgood ht hd _)
        (by simp [discoverOpcodes, hgood]) (Nat.le_max_left ..) (by simp [discoverCells, hgood])

end

section
/-! A payload by the DMA route (R290, R204 to R207): MAIN stages the request and waits, the steps of the channels make a
transfer of it, and MAIN goes on when the second handler has run. -/

namespace Sys2Proof.Machine

variable {s : State} {x : Bus} {q : BufRef} {b : BitVec 8} {a n k : Nat} {c : Config} {u v v' : View} {r : Ret}
  {tx rx : Option BufRef} {p ms : List Micro} {ts us : List Turn} {sent rs : List Word}

/-! ## The request -/

/-- The view once a request of `n` elements has been staged and enabled (R192, R196). -/
def View.requested (v : View) (tx rx : Option BufRef) (n : Nat) : View :=
  { v with bus := (v.bus.staged tx rx n).enabled }

/-- The three micro-steps of a request that is admitted (R192, R196). -/
theorem does_dmaStart (hrxq : v.bus.rxq = []) (ha : v.bus.dma.active = false) (hn : n ≤ c.dmaMax)
    (hmay : ∀ s : State, s.Leaves q → (s.put v).mayRequest tx rx = true) :
    Does c q [.spinDma c.flashBus, .dmaStage c.flashBus tx rx n, .dmaEnable c.flashBus] 3 v
      (v.requested tx rx n) := by
  rintro s rfl hlen hl
  have h := runs_dmaStart (put_bus rfl hlen v) hrxq hn (hmay s hl) ha
  have hset : (s.put v).setBus s.cfg.flashBus (v.bus.staged tx rx n).enabled = s.put (v.requested tx rx n) := by
    simp only [State.put, State.setBus, View.requested, List.set_set]
  rwa [hset] at h

/-! ## The words of a request on the flash bus -/

/-- The view once the words `sent` have crossed its bus, which is `y`, inside a window, in exchange for `rs`. -/
def View.exchanged (v : View) (c : Config) (y : Bus) (dst : Dst) (sent rs : List Word) (d : Nat) : View :=
  { v with
    bus := y.received dst rs
    flash := { v.flash with frame := v.flash.frame ++ sent.map (·.setWidth 8) }
    buf := dst.store 0 rs v.buf
    draws := d
    trace := v.trace ++ exchanges c.flashBus sent rs }

/-- Words exchanged inside a window, while MAIN waits. -/
theorem transferred_midway (v : View) (p : List Micro) (ts us : List Turn) {y : Bus} (hy : y.cs = true)
    (hyc : y.cfg.hasCs = true) (dst : Dst) (sent rs : List Word) (d : Nat) :
    { (s.midway v p us).transferred s.cfg.flashBus y dst 0 sent rs d with sched := ts } =
      s.midway (v.exchanged s.cfg y dst sent rs d) p ts := by
  have hsel : ((s.midway v p us).wired s.cfg.flashBus y && y.cs) = true := by
    simp [State.wired, State.midway, hy, hyc]
  rw [State.transferred, frameAfter_selected hsel]
  simp only [State.midway, State.put, View.exchanged, List.set_set]

theorem midway_bus (hlen : s.cfg.flashBus < s.buses.length) (v : View) (p : List Micro) (ts : List Turn) :
    (s.midway v p ts).buses[s.cfg.flashBus]? = some v.bus := put_bus rfl hlen v

theorem midway_set_bus (v : View) (p : List Micro) (ts us : List Turn) (y : Bus) :
    { s.midway v p ts with buses := (s.midway v p ts).buses.set s.cfg.flashBus y, sched := us } =
      s.midway { v with bus := y } p us := by
  simp only [State.midway, State.put, List.set_set]

/-- Under an empty schedule the core runs until it ends or waits. -/
theorem drive_nil_midway (hi : s.irq = []) (v : View) (p : List Micro) (ts : List Turn) :
    drive [] (s.midway v p ts) = runAll .main (s.midway v p []) := by
  have hirq : runAll .irq (s.midway v p []) = .next (s.midway v p []) := runCtx_nil _ _ _ _ hi
  change runCore (s.midway v p []) = _
  rw [runCore, hirq, andThen_next]

/-- A slice of the core, while MAIN waits. -/
theorem drive_core (hm : s.main ≠ []) (ts : List Turn) :
    drive (.core none :: ts) s = andThen (runCore { s with sched := ts }) (drive ts) := by
  have hidle : s.coreIdle = false := by
    rw [State.coreIdle, Bool.and_eq_false_iff, List.isEmpty_eq_false_iff]
    exact .inl hm
  rw [drive, hidle]
  rfl

/-- What happens after the last handler under the turns `ts`: with none, the core runs at once; with a slice of the core
at their head, the handler has to wait for it, and the core runs then. -/
def Resumes (ts : List Turn) (o : Out) (w : List Turn → State) : Prop :=
  (ts = [] → o = runAll .main (w [])) ∧
  ∀ us, ts = .core none :: us → o = andThen (runAll .main (w us)) (drive us)

section
variable (hi : s.irq = []) (hb : s.buses[b.toNat]? = some x) (h : x.dma.rxIrq = true)
include hi hb h

/-- A handler whose micro-steps the schedule slices has only started (R380, log 1). -/
theorem execEvDmaRxDone_sliced (hs : s.sliced = true) :
    execEvDmaRxDone b s = .next (s.enterIrq [.dmaRxDone b.toNat]) := by
  rw [execEvDmaRxDone, busHandler, hb]
  simp only [h]
  have hs' : (s.enterIrq [.dmaRxDone b.toNat]).sliced = true := hs
  rw [dispatchIrq, if_pos (by simp [hi]), startIrq, launch, if_pos hs']

/-- The slice that follows runs it, and MAIN after it. -/
theorem drive_dmaRxDone_sliced (hm : s.main ≠ []) (us : List Turn) :
    drive (.req .op [0x80, b] :: .core none :: us) s =
      andThen (runAll .main { s with buses := s.buses.set b.toNat x.rxDone, sched := us }) (drive us) := by
  have hirq : runAll .irq (State.setProg { s with sched := us } .irq [.dmaRxDone b.toNat]) =
      .next { s with buses := s.buses.set b.toNat x.rxDone, sched := us } := by
    rw [runAll_of_runs (runs_dmaRxDone (s := { s with sched := us }) hb) (length_le_progWeight _ [_])]
    exact congrArg _ (clear_irq (t := { s with buses := s.buses.set b.toNat x.rxDone, sched := us }) hi)
  have hstart : ({ s with sched := us } : State).enterIrq [.dmaRxDone b.toNat] =
      State.setProg { s with sched := us } .irq [.dmaRxDone b.toNat] := by
    simp only [State.enterIrq, hi, List.nil_append]
    rfl
  rw [drive_event hm (f := execEvDmaRxDone b) rfl
    (execEvDmaRxDone_sliced (s := { s with sched := .core none :: us }) hi hb h rfl)]
  refine (drive_core (s := State.enterIrq { s with sched := .core none :: us } _) hm us).trans ?_
  refine congrArg (andThen · (drive us)) ?_
  change runCore (({ s with sched := us } : State).enterIrq [.dmaRxDone b.toNat]) = _
  rw [hstart, runCore, hirq, andThen_next]

end

theorem drive_lastHandler (hi : s.irq = []) (hlen : s.cfg.flashBus < s.buses.length) (hb : s.cfg.flashBus = b.toNat)
    (hp : p ≠ []) (h : v.bus.dma.rxIrq = true) (ts us : List Turn) :
    Resumes ts (drive (.req .op [0x80, b] :: ts) (s.midway v p us)) (s.midway { v with bus := v.bus.rxDone } p) := by
  have hbus : (s.midway v p us).buses[b.toNat]? = some v.bus := hb ▸ midway_bus hlen v p us
  refine ⟨?atOnce, ?sliced⟩
  case atOnce =>
    rintro rfl
    rw [drive_dmaRxDone (s := s.midway v p us) hp hi rfl hbus h, ← hb, midway_set_bus, drive_nil_midway hi]
  case sliced =>
    rintro us' rfl
    rw [drive_dmaRxDone_sliced (s := s.midway v p us) hi hbus h hp, ← hb, midway_set_bus]

/-- Both handlers have run after the last word of a request. -/
theorem exchanged_handled (v : View) (tx rx : Option BufRef) (n : Nat) (dst : Dst) (d : Nat) :
    { (v.requested tx rx n).exchanged c (v.requested tx rx n).bus.exhausted dst sent rs d with
      bus := ((v.requested tx rx n).exchanged c (v.requested tx rx n).bus.exhausted dst sent rs d).bus.txDone.rxDone } =
      v.exchanged c (v.bus.completed tx rx n) dst sent rs d :=
  congrArg (fun y => { v.exchanged c v.bus dst sent rs d with bus := y }) (completed_received v.bus tx rx n dst rs)

/-- From the moment MAIN waits for a request inside a window: the words cross, and MAIN goes on. -/
theorem drive_dmaPayload (hi : s.irq = []) (hlen : s.cfg.flashBus < s.buses.length) (hb : s.cfg.flashBus = b.toNat)
    (hd : 1 ≤ s.cfg.busFifoDepth) (hw : v.Window) (hrxq : v.bus.rxq = []) (h1 : 1 ≤ n)
    (hr : (s.put v).Replies s.cfg.flashBus v.bus n) (tx rx : Option BufRef) (hp : p ≠ []) (ts us : List Turn) :
    ∃ sent rs d, Crosses (s.put v) s.cfg.flashBus v.bus (requestSrc tx) (requestDst rx) 0 n sent rs ∧
      Resumes ts (drive (dmaTurns b n ++ ts) (s.midway (v.requested tx rx n) p us))
        (s.midway (v.exchanged s.cfg (v.bus.completed tx rx n) (requestDst rx) sent rs d) p) := by
  obtain ⟨k, rfl⟩ := Nat.exists_eq_add_of_le' h1
  have hbus (w : View) (us : List Turn) : (s.midway w p us).buses[b.toNat]? = some w.bus := hb ▸ midway_bus hlen w p us
  obtain ⟨sent, rs, d, hc, helements⟩ := drive_elements (s := s.midway (v.requested tx rx (k + 1)) p us)
    (.req .op [0x81, b] :: .req .op [0x80, b] :: ts) k 0 hp (hbus _ _) (hb ▸ hr)
    (by rw [Nat.zero_add]; exact underway_enabled ..) hrxq hd
  rw [← hb] at hc helements
  have hmoved := transferred_midway (v.requested tx rx (k + 1)) p (.req .op [0x81, b] :: .req .op [0x80, b] :: ts) us
    (s := s) (y := (v.requested tx rx (k + 1)).bus.exhausted) hw.cs hw.hasCs (requestDst rx) sent rs d
  have htx := drive_dmaTxDone (s := s.midway ((v.requested tx rx (k + 1)).exchanged s.cfg
    (v.requested tx rx (k + 1)).bus.exhausted (requestDst rx) sent rs d) p
    (.req .op [0x81, b] :: .req .op [0x80, b] :: ts)) hp hi (ts := .req .op [0x80, b] :: ts) rfl (hbus _ _)
    (by rw [View.exchanged, received_dma]; rfl)
  rw [← hb, midway_set_bus] at htx
  refine ⟨sent, rs, d, hc.congr rfl rfl rfl rfl rfl, ?_⟩
  rw [dmaTurns_eq, List.append_assoc]
  change Resumes ts (drive (elementTurns b (k + 1) ++ .req .op [0x81, b] :: .req .op [0x80, b] :: ts) _) _
  rw [helements, hmoved, htx, ← exchanged_handled]
  refine drive_lastHandler hi hlen hb hp ?_ ts _
  change ((v.requested tx rx (k + 1)).bus.exhausted.received (requestDst rx) rs).dma.rxIrq = true
  rw [received_dma]
  rfl

/-! ## A frame whose payload takes the DMA route (R290) -/

/-- The buffer a payload goes out of. -/
def Payload.txBuf : Payload → Option BufRef
  | .output r _ => some r
  | _ => Option.none

/-- The buffer a payload comes into. -/
def Payload.rxBuf : Payload → Option BufRef
  | .input r _ => some r
  | _ => Option.none

/-- The view once a window is open and the header `hdr` has crossed. -/
def View.opened (v : View) (c : Config) (hdr : List Byte) (sc : Word) (evs : List Event) : View :=
  { v with
    bus := { v.bus with cs := true, scratch := sc }
    flash := { v.flash with frame := hdr }
    draws := v.draws + hdr.length
    trace := v.trace ++ (.select c.flashBus :: evs) }

variable {hdr data : List Byte} {pl : Payload} {ws : List Word} {evs : List Event} {sc : Word} {d : Nat}

section
variable (hp : pl.Moves q n)
include hp

theorem payloadProg_dma (hroute : dmaRoute c n = true) :
    payloadProg c pl = dmaProg c.flashBus pl.txBuf pl.rxBuf n true := by
  rcases hp with rfl | rfl <;> exact if_pos hroute

theorem mayRequest_of_leaves (hl : s.Leaves q) (ha : v.bus.dma.active = false) :
    (s.put v).mayRequest pl.txBuf pl.rxBuf = true := by
  rcases hp with rfl | rfl <;> simp [State.mayRequest, Payload.txBuf, Payload.rxBuf, hl v ha]

end

/-- From `u` to `v` a window has opened, and the header `hdr` and a payload of `n` elements have crossed: the bytes
`data`, in exchange for the words `ws`. -/
structure View.Carried (c : Config) (u : View) (hdr : List Byte) (pl : Payload) (n : Nat) (data : List Byte)
    (ws : List Word) (v : View) : Prop where
  window : v.Window
  drained : v.bus.rxq = []
  inactive : v.bus.dma.active = false
  flash : v.flash = { u.flash with frame := hdr ++ data }
  fl : v.fl = u.fl
  buf : v.buf = (requestDst pl.rxBuf).store 0 ws u.buf
  ret : v.ret = u.ret
  trace : ∃ evs, Sends c.flashBus (hdr ++ data) evs ∧ v.trace = u.trace ++ .select c.flashBus :: evs
  length : ws.length = n
  fetched : ∀ q, pl = .output q n → data = payloadBytes u.buf q n
  replied : ∀ j, j < n → ∃ ext free r, ext.length = j + 1 ∧ ws.getD j 0 = r.toWord ∧
    u.flash.answer (hdr ++ ext) free = .ok r

/-- The exchanges of some words send their low bytes. -/
theorem sends_exchanges (b : Nat) (h : sent.length = rs.length) :
    Sends b (sent.map (·.setWidth 8)) (exchanges b sent rs) := by
  induction sent generalizing rs with
  | nil => exact .nil
  | cons w ws ih =>
    cases rs with
    | nil => cases h
    | cons r rs => exact .cons ⟨w, r, rfl, rfl⟩ (ih (Nat.succ.inj h))

/-- A bus of 8 bits sends the low byte of a word. -/
theorem busClip_w8_low (w : Word) : (busClip .w8 w).setWidth 8 = w.setWidth 8 := by
  rw [busClip, BitVec.setWidth_and]
  exact BitVec.and_allOnes

/-- The low bytes of a buffer are what crosses. -/
theorem Crosses.payloadBytes (h : Crosses s k x (.buf q) .scratch 0 n sent rs) (hw : x.cfg.width = .w8) :
    sent.map (·.setWidth 8) = payloadBytes s.buf q n := by
  obtain ⟨hsl, -, hf, -⟩ := h
  refine List.ext_getElem (by simp [hsl]) fun j hj _ => ?_
  have hj' : j < n := by simpa [hsl] using hj
  have hfetch := hf q rfl j hj'
  rw [hw, Nat.zero_add, List.getD_eq_getElem _ _ (by omega)] at hfetch
  simp only [List.getElem_map, List.getElem_range, hfetch, busClip_w8_low]
  rfl

/-- What has crossed inside a window that the header `hdr` has opened. -/
theorem carried_of_crosses (hu : u.Free) (he : Sends s.cfg.flashBus hdr evs)
    (hc : Crosses (s.put (u.opened s.cfg hdr sc evs)) s.cfg.flashBus (u.opened s.cfg hdr sc evs).bus
      (requestSrc pl.txBuf) (requestDst pl.rxBuf) 0 n sent rs) :
    u.Carried s.cfg hdr pl n (sent.map (·.setWidth 8)) rs ((u.opened s.cfg hdr sc evs).exchanged s.cfg
      ((u.opened s.cfg hdr sc evs).bus.completed pl.txBuf pl.rxBuf n) (requestDst pl.rxBuf) sent rs d) where
  window := ⟨received_cs .., by rw [View.exchanged, received_cfg]; exact hu.hasCs,
    by rw [View.exchanged, received_cfg]; exact hu.width⟩
  drained := (received_rxq ..).trans hu.drained
  inactive := congrArg Dma.active (received_dma ..)
  flash := rfl
  fl := rfl
  buf := rfl
  ret := rfl
  trace := ⟨_, he.append (sends_exchanges _ (hc.sent_length.trans hc.received_length.symm)), by
    simp [View.exchanged, View.opened]⟩
  length := hc.received_length
  fetched := by
    rintro q rfl
    exact Crosses.payloadBytes hc hu.width
  replied j hj := by
    obtain ⟨free, r, hr, ha⟩ := hc.replied (by simp [State.wired, View.opened, hu.hasCs]) j hj
    exact ⟨_, free, r, by simp [hc.sent_length]; omega, hr, ha⟩

/-- A program has a micro-step left once the request of its payload has been enabled. -/
theorem lt_progWeight_requested {pre : List Micro} (hk : k ≤ progWeight s pre) (b : Nat) (hdr : List Byte)
    (m₁ m₂ m₃ m : Micro) (ms : List Micro) : k + (3 + hdr.length + 3) <
      progWeight s (pre ++ ((selectProg b ++ txBytes b hdr) ++ [m₁, m₂, m₃]) ++ m :: ms) := by
  have h3 := length_le_progWeight s [m₁, m₂, m₃]
  have hm := weight_pos s m
  rw [List.length_cons, List.length_cons, List.length_cons, List.length_nil] at h3
  simp only [progWeight_append, progWeight, selectProg, txBytes, transferProg, Micro.weight] at h3 ⊢
  omega

/-- An operation of MAIN whose program comes, by `pre`, to a frame with a payload by the DMA route, presented with the
turns of the transfer. -/
theorem startMain_dmaFrame {pre post : List Micro} (hq : s.quiet) (hsched : s.sched = dmaTurns b n ++ ts)
    (hx : s.FlashBusFree x) (hb : s.cfg.flashBus = b.toNat) (hfifo : 1 ≤ s.cfg.busFifoDepth) (ho : s.Leaves q)
    (hd : Does s.cfg q pre k { s.view x with ret := .none } u) (hk : ∀ t : State, k ≤ progWeight t pre) (hu : u.Free)
    (hp : pl.Moves q n) (hroute : dmaRoute s.cfg n = true) (h1 : 1 ≤ n) (hmax : n ≤ s.cfg.dmaMax) (hne : hdr ≠ [])
    (hl : hdr.length ≤ 4) (hr : ∀ ext free, ext.length ≤ n → ∃ r, u.flash.answer (hdr ++ ext) free = .ok r) :
    ∃ data ws v, u.Carried s.cfg hdr pl n data ws v ∧
      Resumes ts (startMain (pre ++ (frameProg s.cfg hdr pl ++ post)) s)
        (s.midway v (.spinDma s.cfg.flashBus :: (deselectProg s.cfg.flashBus ++ post))) := by
  obtain ⟨sc, evs, he, dopen⟩ := does_open (c := s.cfg) (q := q) hu hne (.inl hl)
  have dstart := does_dmaStart (v := u.opened s.cfg hdr sc evs) hu.drained hu.inactive hmax
    fun t ht => mayRequest_of_leaves hp ht hu.inactive
  have hprog : pre ++ (frameProg s.cfg hdr pl ++ post) =
      (pre ++ ((selectProg s.cfg.flashBus ++ txBytes s.cfg.flashBus hdr) ++ [.spinDma s.cfg.flashBus,
        .dmaStage s.cfg.flashBus pl.txBuf pl.rxBuf n, .dmaEnable s.cfg.flashBus])) ++
      .spinDma s.cfg.flashBus :: (deselectProg s.cfg.flashBus ++ post) := by
    simp [frameProg, payloadProg_dma hp hroute, dmaProg]
  obtain ⟨sent, rs, d, hc, hresumes⟩ := drive_dmaPayload (v := u.opened s.cfg hdr sc evs) hq.2.1 hx.lt_length hb hfifo
    ⟨rfl, hu.hasCs, hu.width⟩ hu.drained h1 (by
      rintro - fr free ⟨ext, rfl⟩ hlen
      exact hr ext free (by simpa [State.put, View.opened] using hlen)) pl.txBuf pl.rxBuf
    (List.cons_ne_nil (.spinDma s.cfg.flashBus) (deselectProg s.cfg.flashBus ++ post)) ts s.sched
  refine ⟨_, rs, _, carried_of_crosses (d := d) hu he hc, ?_⟩
  have hwaits := startMain_of_waits hq ((hd.append (dopen.append dstart)).runs_view hx ho)
    (spins_spinDma (put_bus rfl hx.lt_length _) rfl (deselectProg s.cfg.flashBus ++ post) .main _)
    (lt_progWeight_requested (hk _) ..)
  rw [← hsched] at hresumes
  rw [hprog, hwaits]
  exact hresumes

/-- From `u` to `v` one frame has been sent: its window, which opcode `op` opens, has left the device as `f` and `BUF`
as `m`. -/
structure View.Framed (c : Config) (u : View) (op : Byte) (f : Flash) (m : List (Nat × Word)) (v : View) : Prop where
  free : v.Free
  opens : u.Opens c v [op]
  flash : v.flash = f
  fl : v.fl = u.fl
  buf : v.buf = m
  ret : v.ret = u.ret

/-- The spin behind a payload passes, and the window closes. -/
theorem does_carriedEnd {op : Byte} {tl : List Byte} {f : Flash} (h : u.Carried c (op :: tl) pl n data ws v)
    (hf : ({ u.flash with frame := op :: tl ++ data } : Flash).commit c.flPage = .ok f) (q : BufRef) :
    ∃ v', u.Framed c op f ((requestDst pl.rxBuf).store 0 ws u.buf) v' ∧
      Does c q (.spinDma c.flashBus :: deselectProg c.flashBus) 3 v v' := by
  obtain ⟨evs, he, ht⟩ := h.trace
  have hclose := does_deselect (c := c) (q := q) h.window.cs h.window.hasCs (by simp [Bus.idle, h.drained, h.inactive])
    (by rw [h.flash]; exact hf)
  refine ⟨_, ⟨⟨?_, ?_, ?_, ?_, ?_⟩, ⟨.select c.flashBus :: evs ++ [.deselect c.flashBus], ?_, Heads.window he⟩,
    ?_, ?_, ?_, ?_⟩, Does.cons (acts_spinDma h.inactive) hclose⟩
  · rfl
  · exact h.window.hasCs
  · exact h.window.width
  · exact h.drained
  · exact h.inactive
  · simp [ht]
  · rfl
  · exact h.fl
  · exact h.buf
  · exact h.ret

/-! ## What comes before the frame (R296, R300) -/

/-- From `u` to `v` the driver has begun `op` at address `a` for `n` bytes, has opened windows with the opcodes `hs`,
and is ready to send its command to the device, which is `f`. -/
structure View.Prepared (c : Config) (u : View) (op : FlOp) (a n : Nat) (f : Flash) (hs : List Byte) (v : View) :
    Prop where
  free : v.Free
  opens : u.Opens c v hs
  flash : v.flash = f
  fl : v.fl = { u.fl with phase := .cmd, op := op, addr := a, len := n, status := v.fl.status, st := v.fl.st }
  buf : v.buf = u.buf
  ret : v.ret = u.ret

/-- The driver once an operation has begun. -/
def View.begun (v : View) (op : FlOp) (a n : Nat) : View :=
  { v with fl := { v.fl with op := op, addr := a, len := n, phase := .preWait } }

theorem View.Free.begun (h : v.Free) (op : FlOp) (a n : Nat) : (v.begun op a n).Free :=
  h.congr rfl

theorem does_begun (v : View) (op : FlOp) (a n : Nat) (q : BufRef) :
    Does c q [.flBegin op (some a) (some n), .flPhase .preWait] 2 v (v.begun op a n) :=
  Does.cons (acts_flBegin op (some a) (some n)) (acts_flPhase .preWait).does

section
variable (h : u.Free) (hb : u.flash.busy = false) (a n : Nat) (q : BufRef)
include h hb

/-- A ready device passes the wait. -/
theorem does_readyPoll : ∃ v, u.Polled c v ∧ Does c q (waitProg c) 10 u v := by
  obtain ⟨v, d, hp, hbit⟩ := does_poll (c := c) h q
  exact ⟨v, hp, d.append (acts_waitCheck (hbit.trans hb)).does⟩

theorem does_readStart :
    ∃ v, u.Prepared c .read a n { u.flash with frame := [] } [0x05] v ∧ Does c q (readStart c a n) 13 u v := by
  obtain ⟨v, hp, d⟩ := does_readyPoll (c := c) (h.begun .read a n) hb q
  have hfree := hp.bus.free (h.begun .read a n)
  refine ⟨{ v with fl := { v.fl with phase := .cmd } }, ⟨hfree.congr rfl, hp.opens, hp.flash, ?_, hp.buf, hp.ret⟩, ?_⟩
  · rw [hp.fl]
    rfl
  · exact (does_begun u .read a n q).append (d.append (acts_flPhase .cmd).does)

theorem does_programStart : ∃ v, u.Prepared c .program a n { u.flash with frame := [], wel := true } [0x05, 0x06] v ∧
    Does c q (programStart c a n) 20 u v := by
  obtain ⟨v, hp, d⟩ := does_readyPoll (c := c) (h.begun .program a n) hb q
  have hfree := hp.bus.free (h.begun .program a n)
  obtain ⟨sc, evs, he, denable⟩ := does_writeEnable (c := c) (q := q)
    (v := { v with fl := { v.fl with phase := .wren } }) (hfree.congr rfl)
  refine ⟨_, ?prepared, (does_begun u .program a n q).append
    (d.append (Does.cons (acts_flPhase .wren) (denable.append (acts_flPhase .cmd).does)))⟩
  refine ⟨⟨hfree.cs, hfree.hasCs, hfree.width, hfree.drained, hfree.inactive⟩,
    hp.opens.trans ⟨_, rfl, Heads.window he⟩, ?flash, ?fl, hp.buf, hp.ret⟩
  case flash =>
    have hflash : v.flash = { u.flash with frame := [] } := hp.flash
    simp only [hflash, hb, Bool.not_false, Bool.or_true]
  case fl => exact congrArg (fun f : Fl => { f with phase := .cmd }) hp.fl

end

theorem weight_readStart (t : State) (c : Config) (a n : Nat) : 13 ≤ progWeight t (readStart c a n) := by
  simp only [readStart, progWeight, progWeight_append, weight_waitProg, Micro.weight]
  omega

theorem weight_programStart (t : State) (c : Config) (a n : Nat) : 20 ≤ progWeight t (programStart c a n) := by
  simp only [programStart, progWeight, progWeight_append, weight_waitProg, weight_writeEnableProg, Micro.weight]
  omega

/-! ## A read (R296) -/

/-- The words a read receives are the bytes of the array (R92). -/
theorem View.Carried.read_eq (h : u.Carried c (0x03 :: be24 (wireAddr a)) pl n data ws v) (hb : u.flash.busy = false)
    (hspan : flSpanOk u.flash a n = true) {j : Nat} (hj : j < n) :
    ws.getD j 0 = (u.flash.read (a + j)).setWidth 16 := by
  obtain ⟨h24, hcap⟩ := flSpanOk_iff.1 hspan
  have ha : (wireAddr a).toNat = a := wireAddr_toNat (by omega)
  obtain ⟨ext, free, r, hl, hr, hans⟩ := h.replied j hj
  rw [answer_read free hb hl (by omega), ha] at hans
  cases hans
  exact hr

/-- A read by the DMA route, presented with the turns of its transfer. -/
theorem startMain_read_dma (hq : s.quiet) (hsched : s.sched = dmaTurns b n) (hx : s.FlashBusFree x)
    (hbus : s.cfg.flashBus = b.toNat) (hfifo : 1 ≤ s.cfg.busFifoDepth) (ho : s.Leaves q) (hb : s.flash.busy = false)
    (hroute : dmaRoute s.cfg n = true) (h1 : 1 ≤ n) (hmax : n ≤ s.cfg.dmaMax) (hspan : flSpanOk s.flash a n = true)
    (r : Ret) : ∃ v, (s.view x).ReadDone s.cfg a q n r v ∧
      startMain (readProg s.cfg a q n r) s = .next (s.midway v [] []) := by
  obtain ⟨h24, hcap⟩ := flSpanOk_iff.1 hspan
  have ha : (wireAddr a).toNat = a := wireAddr_toNat (by omega)
  obtain ⟨u, hu, dstart⟩ := does_readStart (c := s.cfg) (u := { s.view x with ret := .none })
    hx.view hb a n q
  have hbusy : u.flash.busy = false := by rw [hu.flash]; exact hb
  obtain ⟨data, ws, v, hv, hresumes⟩ := startMain_dmaFrame (ts := []) (pl := .input q n) (post := [.flEnd r])
    (hdr := 0x03 :: be24 (wireAddr a)) hq (by rw [hsched, List.append_nil]) hx hbus hfifo ho dstart
    (weight_readStart · s.cfg a n) hu.free (.inl rfl) hroute h1 hmax (List.cons_ne_nil _ _) (Nat.le_refl 4)
    fun ext free hl => answer_readHeader hbusy (by rw [ha, hu.flash]; exact hcap) ext hl free
  obtain ⟨w, hw, dend⟩ := does_carriedEnd hv (commit_of_read _ (by simp)) q
  have hend := runAll_midway hx.lt_length ho (dend.append (acts_flEnd r).does)
    (fun t => length_le_progWeight t [_, _, _, _]) []
  refine ⟨w.ended r,
    ⟨?free, hu.opens.trans hw.opens, ?flash, ?fl, rfl, ws, hv.length, fun j hj => ?read, ?stored⟩, ?run⟩
  case free => exact hw.free.congr rfl
  case flash => exact hw.flash.trans (by rw [hu.flash])
  case fl =>
    simp only [View.ended, hw.fl]
    rw [hu.fl]
  case read => rw [hv.read_eq hbusy (by rw [hu.flash]; exact hspan) hj, hu.flash]; rfl
  case stored => exact hw.buf.trans (by rw [hu.buf]; rfl)
  case run =>
    rw [readProg_eq, hresumes.1 rfl]
    exact hend

/-! ## A program (R300) -/

theorem le_dmaMax_of_payloadOk (h : payloadOk c n = true) (hroute : dmaRoute c n = true) : n ≤ c.dmaMax := by
  simpa [payloadOk, hroute] using h

/-- The turns of a payload grant the core no slice, whatever follows them. -/
theorem sliced_dmaTurns_append (h1 : 1 ≤ n) (hs : s.sched = dmaTurns b n ++ ts) : s.sliced = false := by
  obtain ⟨k, rfl⟩ := Nat.exists_eq_add_of_le' h1
  rw [State.sliced, hs]
  rfl

/-- From `u` to `v` the driver has given the device a program of the `n` bytes of buffer `q` at address `a`, has opened
windows with the opcodes `hs`, and polls. -/
structure View.Programs (c : Config) (u : View) (a : Nat) (q : BufRef) (n : Nat) (hs : List Byte) (v : View) :
    Prop where
  free : v.Free
  opens : u.Opens c v hs
  flash : v.flash = { u.flash.started (.program a (payloadBytes u.buf q n)) with frame := [] }
  fl : v.fl = { u.fl with
    phase := .postWait, op := .program, addr := a, len := n, status := v.fl.status, st := v.fl.st }
  buf : v.buf = u.buf
  ret : v.ret = .none

/-- One more poll. -/
theorem View.Programs.polled {hs : List Byte} (h : u.Programs c a q n hs v) (hp : v.Polled c v') :
    u.Programs c a q n (hs ++ [0x05]) v' where
  free := hp.bus.free h.free
  opens := h.opens.trans hp.opens
  flash := by rw [hp.flash, h.flash]
  fl := by
    rw [hp.fl, h.fl]
  buf := hp.buf.trans h.buf
  ret := hp.ret.trans h.ret

/-- The device finishes, and the operation returns. -/
theorem View.Programs.finished (h : u.Programs c a q n [0x05, 0x06, 0x02, 0x05] v)
    (hp : { v with flash := v.flash.done }.Polled c v') (r : Ret) :
    u.WriteDone c 0x02 (.program a (payloadBytes u.buf q n)) (some a) (some n) r (v'.ended r) where
  free := by
    have hfree := hp.bus.free (v := { v with flash := v.flash.done })
      (h.free.congr rfl)
    exact hfree.congr rfl
  opens := h.opens.trans hp.opens
  flash := hp.flash.trans (by rw [h.flash]; rfl)
  fl := by
    simp only [View.ended]
    rw [hp.fl, h.fl]
    rfl
  buf := hp.buf.trans h.buf
  ret := rfl

theorem weight_writePrefix {op : FlOp} {addr len : Option Nat} (hk : k ≤ progWeight s (frameProg c hdr pl)) :
    30 + k ≤ progWeight s (writePrefix c op addr len hdr pl) := by
  simp only [writePrefix, progWeight_append, progWeight, Micro.weight, weight_waitProg, weight_statusProg,
    weight_writeEnableProg]
  omega

theorem weight_dmaEnd (t : State) (c : Config) : 3 + (9 + 1) ≤ progWeight t
    (.spinDma c.flashBus :: deselectProg c.flashBus ++ .flPhase .postWait :: statusProg c false) := by
  simp only [progWeight_append, progWeight, deselectProg, weight_statusProg, Micro.weight]
  omega

section
variable (hq : s.quiet) (hx : s.FlashBusFree x) (ho : s.Leaves q) (hb : s.flash.busy = false) (h1 : 1 ≤ n)
  (hspan : flSpanOk s.flash a n = true) (hpage : onePage s.cfg.flPage a n = true)
include hq hx ho hb h1 hspan hpage

/-- A program by the synchronous route polls, and the schedule goes on. -/
theorem startMain_program_polls_sync (hroute : dmaRoute s.cfg n = false) (r : Ret) :
    ∃ v, (s.view x).Programs s.cfg a q n [0x05, 0x06, 0x02, 0x05] v ∧ startMain (programProg s.cfg a q n r) s =
      drive s.sched (s.midway v (waitProg s.cfg ++ [.flEnd r]) s.sched) := by
  have hcommit := commit_program (c := s.cfg) (q := q) (u := { s.view x with flash := { s.flash with wel := true } })
    rfl hb h1 hspan hpage
  obtain ⟨sc, st, stb, d, evs, he, hprefix⟩ := does_writePrefix (c := s.cfg) (q := q)
    (v := { s.view x with ret := .none }) hx.view hb .program (some a)
    (some n) (starts_output (tl := be24 (wireAddr a)) (by simp [be24]) (by decide) h1 hroute hcommit)
  have hstart := startMain_polls hq hx ho hprefix (fun t _ => weight_writePrefix (by
    rw [weight_frame_output _ _ _ _ _ hroute]
    omega)) rfl [.flEnd r]
  rw [← writeProg_eq] at hstart
  refine ⟨_, ?programs, hstart⟩
  exact ⟨⟨hx.cs, hx.hasCs, hx.width, hx.drained, hx.inactive⟩, ⟨evs, rfl, he⟩, rfl, rfl, rfl, rfl⟩

/-- A program by the DMA route, presented with the turns of its transfer and the turns `ts`, polls. -/
theorem startMain_program_polls_dma (hsched : s.sched = dmaTurns b n ++ ts) (hbus : s.cfg.flashBus = b.toNat)
    (hfifo : 1 ≤ s.cfg.busFifoDepth) (hroute : dmaRoute s.cfg n = true) (hmax : n ≤ s.cfg.dmaMax) (r : Ret) :
    ∃ v, (s.view x).Programs s.cfg a q n [0x05, 0x06, 0x02, 0x05] v ∧
      (ts = [] → startMain (programProg s.cfg a q n r) s = .next (s.midway v (waitProg s.cfg ++ [.flEnd r]) [])) ∧
      ∀ us, ts = .core none :: us → startMain (programProg s.cfg a q n r) s =
        drive us (s.midway v (waitProg s.cfg ++ [.flEnd r]) us) := by
  obtain ⟨u, hu, dstart⟩ := does_programStart (c := s.cfg) (u := { s.view x with ret := .none })
    hx.view hb a n q
  obtain ⟨data, ws, v, hv, hresumes⟩ := startMain_dmaFrame (ts := ts) (pl := .output q n)
    (post := .flPhase .postWait :: (waitProg s.cfg ++ [.flEnd r])) (hdr := 0x02 :: be24 (wireAddr a)) hq hsched hx hbus
    hfifo ho dstart (weight_programStart · s.cfg a n) hu.free (.inr rfl) hroute h1 hmax (List.cons_ne_nil _ _)
    (Nat.le_refl 4) fun ext free _ => answer_of_ne (by simp) free
  have hcommit := commit_program (c := s.cfg) (q := q) (u := u) (by rw [hu.flash]) (by rw [hu.flash]; exact hb) h1
    (by rw [hu.flash]; exact hspan) hpage
  rw [← hv.fetched q rfl] at hcommit
  obtain ⟨w, hw, dend⟩ := does_carriedEnd hv hcommit q
  obtain ⟨v', dpoll, hp, hbit⟩ := does_poll (c := s.cfg) (v := { w with fl := { w.fl with phase := .postWait } })
    (hw.free.congr rfl) q
  have hend := runAll_midway_polls hx.lt_length ho (dend.append (Does.cons (acts_flPhase .postWait) dpoll))
    (hbit.trans (by rw [hw.flash]; rfl)) (fun t => weight_dmaEnd t s.cfg) [.flEnd r]
  have hprog : (.spinDma s.cfg.flashBus :: deselectProg s.cfg.flashBus ++
      .flPhase .postWait :: statusProg s.cfg false) ++ .waitCheck :: [.flEnd r] =
      .spinDma s.cfg.flashBus :: (deselectProg s.cfg.flashBus ++
        .flPhase .postWait :: (waitProg s.cfg ++ [.flEnd r])) := by
    simp [waitProg]
  rw [hprog] at hend
  rw [programProg_eq]
  refine ⟨v', ⟨?free, ?opens, ?flash, ?fl, ?buf, ?none⟩, fun hts => (hresumes.1 hts).trans (hend []), fun us hts => ?_⟩
  case free => exact hp.bus.free (hw.free.congr rfl)
  case opens => exact (hu.opens.trans hw.opens).trans hp.opens
  case flash => rw [hp.flash, hw.flash, hu.flash, hv.fetched q rfl, hu.buf]; rfl
  case fl => rw [hp.fl, hw.fl, hu.fl]
  case buf => rw [hp.buf, hw.buf, hu.buf]; rfl
  case none => rw [hp.ret, hw.ret, hu.ret]
  rw [hresumes.2 us hts, hend us, andThen_next]

variable (hbus : s.cfg.flashBus = b.toNat) (hfifo : 1 ≤ s.cfg.busFifoDepth) (hok : payloadOk s.cfg n = true)
include hbus hfifo hok

/-- With the turns of its payload and no other, a program is left polling a busy device. -/
theorem startMain_program_waits (hsched : s.sched = payloadTurns s.cfg b n) (r : Ret) :
    ∃ hs v, (s.view x).Programs s.cfg a q n hs v ∧ startMain (programProg s.cfg a q n r) s =
      .next (s.midway v (waitProg s.cfg ++ [.flEnd r]) []) := by
  cases hroute : dmaRoute s.cfg n with
  | true =>
    rw [payloadTurns, if_pos hroute] at hsched
    obtain ⟨v, hv, hstart, -⟩ := startMain_program_polls_dma (ts := []) hq hx ho hb h1 hspan hpage
      (hsched.trans (List.append_nil _).symm) hbus hfifo hroute (le_dmaMax_of_payloadOk hok hroute) r
    exact ⟨_, v, hv, hstart rfl⟩
  | false =>
    rw [payloadTurns, if_neg (ne_true_of_eq_false hroute)] at hsched
    obtain ⟨v, hv, hstart⟩ := startMain_program_polls_sync hq hx ho hb h1 hspan hpage hroute r
    obtain ⟨v', hp, hpolls⟩ := drive_nil_polling hq.2.1 hx.lt_length hv.free (by rw [hv.flash]; rfl) [.flEnd r] []
    rw [hsched] at hstart
    exact ⟨_, v', hv.polled hp, hstart.trans hpolls⟩

/-- With the turns of its payload and the end of the device's work, a program returns. -/
theorem startMain_program (hsched : s.sched = programTurns s.cfg b n) (r : Ret) :
    ∃ v, (s.view x).WriteDone s.cfg 0x02 (.program a (payloadBytes s.buf q n)) (some a) (some n) r v ∧
      startMain (programProg s.cfg a q n r) s = .next (s.midway v [] []) := by
  obtain ⟨us, v, hv, hstart⟩ : ∃ us v, (s.view x).Programs s.cfg a q n [0x05, 0x06, 0x02, 0x05] v ∧
      startMain (programProg s.cfg a q n r) s =
        drive [flashDoneTurn] (s.midway v (waitProg s.cfg ++ [.flEnd r]) us) := by
    cases hroute : dmaRoute s.cfg n with
    | true =>
      simp only [programTurns, payloadTurns, hroute, if_true] at hsched
      obtain ⟨v, hv, -, hstart⟩ := startMain_program_polls_dma hq hx ho hb h1 hspan hpage hsched hbus hfifo hroute
        (le_dmaMax_of_payloadOk hok hroute) r
      exact ⟨_, v, hv, hstart _ rfl⟩
    | false =>
      simp only [programTurns, payloadTurns, hroute, Bool.false_eq_true, if_false, List.nil_append] at hsched
      obtain ⟨v, hv, hstart⟩ := startMain_program_polls_sync hq hx ho hb h1 hspan hpage hroute r
      exact ⟨_, v, hv, hsched ▸ hstart⟩
  obtain ⟨v', hp, hend⟩ := drive_flashDone_polling hq.2.1 hx.lt_length hv.free (by rw [hv.flash]; rfl) r us
  exact ⟨_, hv.finished hp r, hstart.trans hend⟩

end

/-- A read by either route, presented with the turns of its payload. -/
theorem startMain_read (hq : s.quiet) (hx : s.FlashBusFree x) (ho : s.Leaves q) (hb : s.flash.busy = false)
    (h1 : 1 ≤ n) (hspan : flSpanOk s.flash a n = true) (hbus : s.cfg.flashBus = b.toNat)
    (hfifo : 1 ≤ s.cfg.busFifoDepth) (hok : payloadOk s.cfg n = true) (hsched : s.sched = payloadTurns s.cfg b n)
    (r : Ret) : ∃ v, (s.view x).ReadDone s.cfg a q n r v ∧
      startMain (readProg s.cfg a q n r) s = .next (s.midway v [] []) := by
  cases hroute : dmaRoute s.cfg n with
  | true =>
    rw [payloadTurns, if_pos hroute] at hsched
    exact startMain_read_dma hq hsched hx hbus hfifo ho hb hroute h1 (le_dmaMax_of_payloadOk hok hroute) hspan r
  | false =>
    rw [payloadTurns, if_neg (ne_true_of_eq_false hroute)] at hsched
    obtain ⟨v, hv, -, hstart⟩ := startMain_read_sync hq hx ho hb h1 hspan hroute r
    exact ⟨v, hv, hsched ▸ hstart⟩

end Sys2Proof.Machine

open Sys2Proof Sys2Proof.Machine

/-- Settles O41: the two channels make a transfer of the payload, and MAIN goes on when the second handler has run, at
once or in the slice that lets the handler run. -/
theorem flPayloadByDma : Obligations.FlPayloadByDma := by
  intro s x b addr a q len hm hi ha hx hbus hb h1 hmax hfifo hbuf hspan hroute ho hmem
  obtain ⟨hwf, hbwf⟩ := memOk_iff.1 hmem
  have hok : payloadOk s.cfg len = true := by simp [payloadOk, hroute, hmax]
  refine ⟨fun hs => ?read, fun hs hpage => ?program⟩
  case read =>
    have hq : s.quiet := ⟨hm, hi, sliced_dmaTurns hs⟩
    obtain ⟨v, hv, he⟩ := startMain_read_dma hq hs hx hbus hfifo (leaves_of_owned ho) hb hroute h1 hmax hspan .none
    rw [← flashRead_eq_startMain h1 hbuf hspan hok, ← exec_flRead ha] at he
    exact ⟨_, v.bus, he, hv.opens.newOpcodes rfl, fun i hi => hv.bufRead hbwf hi, hv.sameBufBut hbwf, hv.flash, hv.fl,
      rfl, hv.free.cs, hv.free.drained, hv.free.inactive, rfl, hv.ret, rfl, rfl, rfl⟩
  case program =>
    have hq : s.quiet := ⟨hm, hi, sliced_dmaTurns_append h1 hs⟩
    have hsched : s.sched = programTurns s.cfg b len := by simp [hs, programTurns, payloadTurns, hroute]
    obtain ⟨v, hv, he⟩ := startMain_program hq hx (leaves_of_owned ho) hb h1 hspan hpage hbus hfifo hok hsched .none
    rw [← flashProgram_eq_startMain h1 hbuf hspan hok hpage, ← exec_flProgram ha] at he
    have hready := hv.flash_eq
    exact ⟨_, v.bus, he, hv.opens.newOpcodes rfl, hv.read_payload hwf, congrArg Flash.busy hready,
      congrArg Flash.wel hready, hv.buf, rfl, hv.free.cs, hv.free.drained, hv.free.inactive, rfl, hv.ret, rfl, rfl, rfl⟩

/-- Settles O44: a program is left polling when its payload has crossed, by whichever route, and an erase when its
command has been given. -/
theorem flWritesWait : Obligations.FlWritesWait := by
  intro s x c addr a tx len hq hx ha hb
  refine ⟨fun hbus hs hfifo h1 hok hbuf hspan hpage ho => ?program, fun i op base size hs hi hal => ?erase⟩
  case program =>
    obtain ⟨hs', v, hv, he⟩ := startMain_program_waits hq hx (leaves_of_owned ho) hb h1 hspan hpage hbus hfifo
      hok hs .none
    rw [← flashProgram_eq_startMain h1 hbuf hspan hok hpage, ← exec_flProgram ha] at he
    exact ⟨_, he, waitProg_append_ne_nil _ _, hv.ret, rfl, by rw [show (s.midway v _ _).fl = _ from hv.fl],
      by rw [show (s.midway v _ _).fl = _ from hv.fl], hv.flash⟩
  case erase =>
    have herases : ∃ opc tl ad r, Erases s i op opc tl ad base size r := by
      rcases hi with h | h | h <;> cases h
      · obtain ⟨h0, hspan⟩ := hal nofun
        exact ⟨_, _, _, _, erases_flEraseSector hb ha h0 hspan⟩
      · obtain ⟨h0, hspan⟩ := hal nofun
        exact ⟨_, _, _, _, erases_flEraseBlock hb ha h0 hspan⟩
      · exact ⟨_, _, _, _, erases_flEraseAll hb⟩
    obtain ⟨opc, tl, ad, r, herase⟩ := herases
    obtain ⟨t, he, hmain, hret, hflash, hphase, hop⟩ := startMain_write_waits (q := .loc) hq hx (leaves_loc s) hs
      hb op ad none r (starts_none (v := s.view x) herase.length_le herase.commit_eq) rfl (fun t => by
        rw [weight_frame_none]
        omega)
    exact ⟨t, herase.exec_eq.trans he, hmain, hret, hphase, hop, hflash⟩

end

section
/-! Erase, program, read (R324): each operation of the driver leaves the machine as the next one needs it. -/

namespace Sys2Proof.Machine

variable {s : State} {x : Bus} {q : BufRef} {a i n : Nat} {c : Config} {v : View} {r : Ret} {p : List Micro}
  {ts : List Turn} {opc : Byte} {pd : Pending} {ad ln : Option Nat}

/-! ## What an operation that is over leaves for the next -/

theorem midway_leaves (h : s.Leaves q) (v : View) (p : List Micro) (ts : List Turn) : (s.midway v p ts).Leaves q := by
  intro w hw
  have howned : ((s.midway v p ts).put w).owned q = ((s.put v).put w).owned q := by cases q <;> rfl
  rw [howned, put_put]
  exact h w hw

/-- No operation and no handler is in progress, the flash bus is free, and the device is ready. -/
structure State.FlashReady (s : State) (x : Bus) : Prop where
  main : s.main = []
  irq : s.irq = []
  bus : s.FlashBusFree x
  busy : s.flash.busy = false
  memOk : s.memOk = true

theorem State.FlashReady.quiet (h : s.FlashReady x) (hs : s.sliced = false) : s.quiet := ⟨h.main, h.irq, hs⟩

/-- A program or erase keeps the size of the array. -/
theorem View.WriteDone.flSpanOk_eq (h : (s.view x).WriteDone c opc pd ad ln r v) (a n : Nat) :
    flSpanOk v.flash a n = flSpanOk s.flash a n := by
  rw [h.flash_eq]
  rfl

/-- A program or erase that has returned leaves the machine ready for the next operation. -/
theorem View.WriteDone.ready (h : (s.view x).WriteDone c opc pd ad ln r v) (hs : s.FlashReady x) (ts : List Turn) :
    (s.midway v [] ts).FlashReady v.bus := by
  obtain ⟨hwf, hbwf⟩ := memOk_iff.1 hs.memOk
  refine ⟨rfl, hs.irq, ⟨midway_bus hs.bus.lt_length .., h.free.width, h.free.hasCs, h.free.cs, h.free.drained,
    h.free.inactive⟩, congrArg Flash.busy h.flash_eq, memOk_iff.2 ⟨?flash, ?buf⟩⟩
  case flash =>
    change memWf erased v.flash.mem = true
    rw [h.flash]
    exact memWf_done (f := s.flash.started pd) hwf
  case buf =>
    change memWf 0 v.buf = true
    rw [h.buf]
    exact hbwf

/-! ## The schedules of the second and third operation -/

theorem sliced_payloadTurns {b : BitVec 8} (hs : s.sched = payloadTurns c b n) : s.sliced = false := by
  cases hroute : dmaRoute c n with
  | true => exact sliced_dmaTurns (hs.trans (if_pos hroute))
  | false =>
    rw [State.sliced, hs, payloadTurns, if_neg (ne_true_of_eq_false hroute)]

theorem sliced_programTurns {b : BitVec 8} (h1 : 1 ≤ n) (hs : s.sched = programTurns c b n) : s.sliced = false := by
  cases hroute : dmaRoute c n with
  | true =>
    refine sliced_dmaTurns_append (b := b) (ts := [.core none, flashDoneTurn]) h1 ?_
    simp [hs, programTurns, payloadTurns, hroute]
  | false =>
    rw [State.sliced, hs]
    simp [programTurns, payloadTurns, hroute, flashDoneTurn]

/-! ## A program, and a read of the same span -/

section
variable {addr : BitVec 64} {b : BitVec 8} {id : BitVec 16} (hs : s.FlashReady x)
  (ha : a = addr.toNat % 2 ^ s.cfg.apiAddrW) (hbus : s.cfg.flashBus = b.toNat) (hfifo : 1 ≤ s.cfg.busFifoDepth)
  (h1 : 1 ≤ n) (hok : payloadOk s.cfg n = true) (hspan : flSpanOk s.flash a n = true)
include hs ha hbus hfifo h1 hok hspan

theorem exec_flProgram_ready (hbuf : bufOk s.cfg id n = true) (ho : s.Leaves (.user id))
    (hpage : onePage s.cfg.flPage a n = true) (hsched : s.sched = programTurns s.cfg b n) :
    ∃ v, (s.view x).WriteDone s.cfg 0x02 (.program a (payloadBytes s.buf (.user id) n)) (some a) (some n) .none v ∧
      exec (.flProgram addr id n) s = .next (s.midway v [] []) := by
  rw [exec_flProgram ha, flashProgram_eq_startMain h1 hbuf hspan hok hpage]
  exact startMain_program (hs.quiet (sliced_programTurns h1 hsched)) hs.bus ho hs.busy h1 hspan hpage hbus hfifo hok
    hsched .none

theorem exec_flRead_ready (hbuf : bufOk s.cfg id n = true) (ho : s.Leaves (.user id))
    (hsched : s.sched = payloadTurns s.cfg b n) : ∃ v, (s.view x).ReadDone s.cfg a (.user id) n .none v ∧
      exec (.flRead addr id n) s = .next (s.midway v [] []) := by
  rw [exec_flRead ha, flashRead_eq_startMain h1 hbuf hspan hok]
  exact startMain_read (hs.quiet (sliced_payloadTurns hsched)) hs.bus ho hs.busy h1 hspan hbus hfifo hok hsched .none

/-- A read of what has been programmed returns the AND of the array and the data. -/
theorem exec_flProgram_flRead {tx rx : BitVec 16} (htx : bufOk s.cfg tx n = true) (hrx : bufOk s.cfg rx n = true)
    (hot : s.Leaves (.user tx)) (hor : s.Leaves (.user rx)) (hpage : onePage s.cfg.flPage a n = true)
    (hsched : s.sched = programTurns s.cfg b n) :
    ∃ t u, exec (.flProgram addr tx n) s = .next t ∧
      exec (.flRead addr rx n) { t with sched := payloadTurns s.cfg b n } = .next u ∧
      ∀ i, i < n → u.bufRead (.user rx) i =
        (s.flash.read (a + i) &&& (s.bufRead (.user tx) i).setWidth 8).setWidth 16 := by
  obtain ⟨v, hv, hprogram⟩ := exec_flProgram_ready hs ha hbus hfifo h1 hok hspan htx hot hpage hsched
  have hready := hv.ready hs (payloadTurns s.cfg b n)
  obtain ⟨w, hw, hread⟩ := exec_flRead_ready hready ha hbus hfifo h1 hok ((hv.flSpanOk_eq a n).trans hspan) hrx
    (midway_leaves hor _ _ _) rfl
  refine ⟨_, _, hprogram, hread, fun i hi => ?_⟩
  have hbyte := hv.read_payload (memOk_iff.1 hs.memOk).1 (a + i)
  rw [if_pos (by omega), Nat.add_sub_cancel_left] at hbyte
  rw [hw.bufRead (memOk_iff.1 hready.memOk).2 hi, ← hbyte]
  rfl

end

/-! ## A page at the start of a sector -/

section
variable {page : Nat} (hpage : 4096 % page = 0) (hn : n ≤ page)
include hpage hn

theorem onePage_of_aligned (ha : a % 4096 = 0) : onePage page a n = true := by
  have h0 : a % page = 0 := Nat.mod_eq_zero_of_dvd
    ((Nat.dvd_of_mod_eq_zero hpage).trans (Nat.dvd_of_mod_eq_zero ha))
  rw [onePage, decide_eq_true_iff, h0, Nat.zero_add]
  exact hn

theorem le_of_page : n ≤ 4096 := hn.trans (Nat.le_of_dvd (by decide) (Nat.dvd_of_mod_eq_zero hpage))

end

theorem flSpanOk_mono {f : Flash} {m : Nat} (h : flSpanOk f a m = true) (hn : n ≤ m) : flSpanOk f a n = true := by
  obtain ⟨h24, hcap⟩ := flSpanOk_iff.1 h
  exact flSpanOk_iff.2 ⟨by omega, by omega⟩

/-- A byte programmed over an erased one is the byte (R95). -/
theorem erased_and (b : Byte) : 0xFF &&& b = b := BitVec.allOnes_and

end Sys2Proof.Machine

open Sys2Proof Sys2Proof.Machine

/-- Settles O46: the erase leaves 0xFF in the sector, so the AND of the program is the data, and the read returns it. -/
theorem flRoundTrip : Obligations.FlRoundTrip := by
  intro s x c addr a tx rx len hq hx ha hbus hs hb hm h0 hspan h1 hlen hpage hok hfifo htx hrx hot hor
  have hle : len ≤ 4096 := le_of_page hpage hlen
  have herase := erases_flEraseSector hb ha h0 hspan
  obtain ⟨v, hv, -, he⟩ := startMain_erase (addr := some a) hq hx hs hb herase.length_le herase.commit_eq .ok
  have hready := hv.ready ⟨hq.1, hq.2.1, hx, hb, hm⟩ (programTurns s.cfg c len)
  obtain ⟨t, u, hprogram, hread, hdata⟩ := exec_flProgram_flRead hready ha hbus hfifo h1 hok
    ((hv.flSpanOk_eq a len).trans (flSpanOk_mono hspan hle)) htx hrx (midway_leaves (leaves_of_owned hot) _ _ _)
    (midway_leaves (leaves_of_owned hor) _ _ _) (onePage_of_aligned hpage hlen h0) rfl
  refine ⟨_, t, u, herase.exec_eq.trans he, hprogram, hread, fun i hi => ?_⟩
  have herased : v.flash.read (a + i) = 0xFF := by
    rw [hv.read_erase (memOk_iff.1 hm).1, if_pos (by omega)]
  have hsource : (s.midway v [] (programTurns s.cfg c len)).bufRead (.user tx) i = s.bufRead (.user tx) i :=
    congrArg (memGet 0 · _) hv.buf
  rw [hdata i hi, hsource, show (s.midway v [] _).flash.read (a + i) = 0xFF from herased, erased_and]

end

section
/-! The block adapter (R340 to R348): where a request of a valid configuration lies, and the driver's operation that it
is there. -/

namespace Sys2Proof.Machine

variable {s : State} {x : Bus} {block off : BitVec 32} {q : BitVec 16} {a m n : Nat} {c : Config} {g : Geometry}

/-! ## Where the blocks lie (R342, R347) -/

/-- What `Config.wf` says of the place of the blocks: whole sectors, all below the end of the wire's addresses. -/
structure BlocksPlaced (c : Config) : Prop where
  blockSize_eq : c.geom.blockSize = 4096
  base_aligned : c.geom.base % 4096 = 0
  end_le : c.geom.base + c.geom.blockCount * c.geom.blockSize ≤ 2 ^ 24
  addrW_ge : 24 ≤ c.apiAddrW

theorem blocksPlaced_of_wf (h : c.wf = true) : BlocksPlaced c := by
  simp only [Config.wf, Bool.and_eq_true, decide_eq_true_eq, beq_iff_eq] at h
  obtain ⟨⟨⟨⟨⟨⟨⟨⟨h, hsize⟩, hbase⟩, hend⟩, -⟩, -⟩, -⟩, -⟩, -⟩ := h
  obtain ⟨⟨⟨⟨⟨⟨⟨⟨-, haddrW⟩, -⟩, -⟩, -⟩, -⟩, -⟩, -⟩, -⟩ := h
  exact ⟨hsize, hbase, hend, haddrW⟩

/-- A span inside a block lies before the end of the last block. -/
theorem span_le_blocks (hblock : block.toNat < g.blockCount) (hoff : off.toNat + n ≤ g.blockSize) :
    g.base + block.toNat * g.blockSize + off.toNat + n ≤ g.base + g.blockCount * g.blockSize := by
  have hnext : (block.toNat + 1) * g.blockSize ≤ g.blockCount * g.blockSize := Nat.mul_le_mul_right _ hblock
  rw [Nat.succ_mul] at hnext
  omega

theorem blockOk_iff : blockOk g block off n = true ↔ block.toNat < g.blockCount ∧ off.toNat + n ≤ g.blockSize ∧
    g.base + block.toNat * g.blockSize + off.toNat < 2 ^ 32 := by
  simp only [blockOk, Bool.and_eq_true, decide_eq_true_eq, and_assoc]

/-- A shorter request at the same place is in range too. -/
theorem blockOk_mono (h : blockOk g block off n = true) (hm : m ≤ n) : blockOk g block off m = true := by
  obtain ⟨hblock, hoff, hlt⟩ := blockOk_iff.1 h
  exact blockOk_iff.2 ⟨hblock, by omega, hlt⟩

/-- Below 2^32 the translator's arithmetic does not wrap (R342). -/
theorem translate_toNat (h : g.base + block.toNat * g.blockSize + off.toNat < 2 ^ 32) :
    (translate g block off).toNat = g.base + block.toNat * g.blockSize + off.toNat := by
  simp only [translate, BitVec.toNat_add, BitVec.toNat_mul, BitVec.toNat_ofNat, Nat.mul_mod_mod, Nat.mod_add_mod,
    Nat.add_mod_mod]
  exact Nat.mod_eq_of_lt h

/-! ## A request in range -/

/-- The adapter admits a request of `n` bytes, and it lies at address `a` of the device. -/
structure BdRequest (s : State) (block off : BitVec 32) (n a : Nat) : Prop where
  valid : s.fl.desc.valid = true
  blockOk : blockOk s.cfg.geom block off n = true
  addr : bdAddr s.cfg block off = a
  span : flSpanOk s.flash a n = true

theorem bdRequest_of_range (hc : BlocksPlaced s.cfg) (hd : s.fl.desc.valid = true)
    (hblock : block.toNat < s.cfg.geom.blockCount) (h1 : 1 ≤ n) (hoff : off.toNat + n ≤ s.cfg.geom.blockSize)
    (ha : a = s.cfg.geom.base + block.toNat * s.cfg.geom.blockSize + off.toNat)
    (hcap : s.cfg.geom.base + s.cfg.geom.blockCount * s.cfg.geom.blockSize ≤ s.flash.capacity) :
    BdRequest s block off n a := by
  have hspan : a + n ≤ s.cfg.geom.base + s.cfg.geom.blockCount * s.cfg.geom.blockSize :=
    ha ▸ span_le_blocks hblock hoff
  have hend := hc.end_le
  have hlt : a < 2 ^ s.cfg.apiAddrW :=
    Nat.lt_of_lt_of_le (by omega) (Nat.pow_le_pow_right Nat.two_pos hc.addrW_ge)
  refine ⟨hd, blockOk_iff.2 ⟨hblock, hoff, by omega⟩, ?_, flSpanOk_iff.2 ⟨by omega, by omega⟩⟩
  rw [bdAddr, translate_toNat (by omega), ← ha, Config.addrOf, Nat.mod_eq_of_lt hlt]

section
variable (h : BdRequest s block off n a) (h1 : 1 ≤ n) (hbuf : bufOk s.cfg q n = true)
  (hok : payloadOk s.cfg n = true)
include h h1 hbuf hok

/-- A read of the adapter is the driver's (R344). -/
theorem BdRequest.exec_bdRead_eq :
    exec (.bdRead block off q n) s = startMain (readProg s.cfg a (.user q) n .ok) s := by
  rw [exec_bdRead, bdNeed_pass h.valid h.blockOk, h.addr, flashRead_eq_startMain h1 hbuf h.span hok]

/-- A program of the adapter is the driver's (R346). -/
theorem BdRequest.exec_bdProgram_eq (hpage : onePage s.cfg.flPage a n = true) :
    exec (.bdProgram block off q n) s = startMain (programProg s.cfg a (.user q) n .ok) s := by
  rw [exec_bdProgram, bdNeed_pass h.valid h.blockOk, h.addr, flashProgram_eq_startMain h1 hbuf h.span hok hpage]

end

/-- The address operand with which the driver would be asked for the same place (R122, R342). -/
theorem BdRequest.addr_eq_operand (h : BdRequest s block off n a) :
    a = ((translate s.cfg.geom block off).setWidth 64).toNat % 2 ^ s.cfg.apiAddrW := by
  rw [BitVec.toNat_setWidth_of_le (by decide), ← h.addr]
  rfl

/-- An erase of the adapter is the driver's sector erase (R348). -/
theorem BdRequest.exec_bdErase_eq (h : BdRequest s block 0 n a) :
    exec (.bdErase block) s = exec (.flEraseSector ((translate s.cfg.geom block 0).setWidth 64)) s := by
  rw [exec_flEraseSector h.addr_eq_operand, exec_bdErase, bdNeed_pass h.valid (blockOk_mono h.blockOk n.zero_le),
    h.addr]
  rfl

theorem BlocksPlaced.block_aligned (hc : BlocksPlaced c) (b : Nat) :
    (c.geom.base + b * c.geom.blockSize) % 4096 = 0 := by
  rw [hc.blockSize_eq, Nat.add_mul_mod_self_right, hc.base_aligned]

theorem erases_bdErase (hb : s.flash.busy = false) (h : BdRequest s block 0 4096 a) (h0 : a % 4096 = 0) :
    Erases s (.bdErase block) .eraseSector 0x20 (be24 (wireAddr a)) (some a) a 4096 .ok :=
  have hdriver := erases_flEraseSector hb h.addr_eq_operand h0 h.span
  { hdriver with exec_eq := h.exec_bdErase_eq.trans hdriver.exec_eq }

/-! ## The driver after a write -/

section
variable {v : View} {opc : Byte} {p : Pending} {addr len : Option Nat} {r : Ret}
  (h : (s.view x).WriteDone c opc p addr len r v)
include h

theorem View.WriteDone.phase_eq : v.fl.phase = .idle := by rw [h.fl]

theorem View.WriteDone.desc_eq : v.fl.desc = s.fl.desc := by
  rw [h.fl]
  rfl

end

end Sys2Proof.Machine

open Sys2Proof Sys2Proof.Machine

/-- Settles O47: the translated address does not wrap and its span lies inside the device, so each request is the
driver's operation there; a block is a whole sector. -/
theorem bdResult : Obligations.BdResult := by
  intro s x block off buf n a hq hx hwf hd hb hm hblock hoff ha hcap
  obtain ⟨hfwf, hbwf⟩ := memOk_iff.1 hm
  have hc := blocksPlaced_of_wf hwf
  refine ⟨fun h1 hroute hbuf ho => ?read, fun h1 hroute hbuf ho hpage hs => ?program, fun hs => ?erase⟩
  case read =>
    have hreq := bdRequest_of_range hc hd hblock h1 hoff ha hcap
    obtain ⟨v, hv, hbus, he⟩ := startMain_read_sync hq hx (leaves_of_owned ho) hb h1 hreq.span hroute .ok
    rw [← hreq.exec_bdRead_eq h1 hbuf (payloadOk_of_sync hroute)] at he
    exact ⟨_, he, midway_driverFrame hq.1 hbus hv.opens _, hv.opens.newOpcodes rfl, fun i hi => hv.bufRead hbwf hi,
      hv.sameBufBut hbwf, hv.flash, hv.fl, hv.ret, rfl⟩
  case program =>
    have hreq := bdRequest_of_range hc hd hblock h1 hoff ha hcap
    have hpage : onePage s.cfg.flPage a n = true := decide_eq_true hpage
    obtain ⟨v, hv, hbus, he⟩ := startMain_program_sync hq hx (leaves_of_owned ho) hs hb h1 hreq.span hpage hroute .ok
    rw [← hreq.exec_bdProgram_eq h1 hbuf (payloadOk_of_sync hroute) hpage] at he
    have hready := hv.flash_eq
    exact ⟨_, he, midway_driverFrame hq.1 hbus hv.opens _, hv.opens.newOpcodes rfl, hv.read_payload hfwf, hv.buf,
      hv.phase_eq, hv.desc_eq, congrArg Flash.busy hready, congrArg Flash.wel hready, hv.ret, rfl⟩
  case erase =>
    have hsize := hc.blockSize_eq
    have hend : s.cfg.geom.base + (block.toNat + 1) * s.cfg.geom.blockSize =
        s.cfg.geom.base + block.toNat * s.cfg.geom.blockSize + 4096 := by rw [Nat.succ_mul, hsize, Nat.add_assoc]
    have hreq : BdRequest s block 0 4096 (s.cfg.geom.base + block.toNat * s.cfg.geom.blockSize) :=
      bdRequest_of_range hc hd hblock (by decide) (by rw [hsize]; decide) rfl hcap
    have herase := erases_bdErase hb hreq (hc.block_aligned block.toNat)
    obtain ⟨v, hv, hbus, he⟩ := startMain_erase (addr := some _) hq hx hs hb herase.length_le herase.commit_eq .ok
    have hready := hv.flash_eq
    refine ⟨_, herase.exec_eq.trans he, midway_driverFrame hq.1 hbus hv.opens _, hv.opens.newOpcodes rfl, fun i => ?_,
      hv.buf, hv.phase_eq, hv.desc_eq, congrArg Flash.busy hready, congrArg Flash.wel hready, hv.ret, rfl⟩
    rw [hend]
    exact hv.read_erase hfwf i

end

section
/-! Whatever MAIN performs is refused, or goes through the one gate where it is asked whether MAIN may start an
operation now (R378, R388, U9). -/

namespace Sys2Proof.Machine

variable {s : State}

/-- The outcome of an operation of MAIN in `s`: a refusal for what is asked, or what the gate of MAIN lets through. -/
def Gated (s : State) (o : Out) : Prop := (∃ r, o = .refused r) ∨ ∃ k, o = whenMain k s

/-! ## The ways an operation of MAIN is put together -/

theorem gated_refused (s : State) (r : Refusal) : Gated s (.refused r) := .inl ⟨r, rfl⟩

theorem gated_startMain (p : List Micro) (s : State) : Gated s (startMain p s) := .inr ⟨_, rfl⟩

theorem gated_returnNow (r : Ret) (s : State) : Gated s (returnNow r s) := .inr ⟨_, rfl⟩

theorem gated_need {c : Bool} {r : Refusal} {k : Out} (h : Gated s k) : Gated s (need c r k) := by
  cases c
  · exact gated_refused s r
  · exact h

theorem gated_uartOp {u : BitVec 8} {ok : UartMode → Bool} {k : Uart → Out} (h : ∀ x, Gated s (k x)) :
    Gated s (uartOp u ok k s) := by
  unfold uartOp
  split
  · exact gated_need (h _)
  · exact gated_refused s _

theorem gated_flashRead (a : Nat) (q : BitVec 16) (n : Nat) (r : Ret) (s : State) :
    Gated s (flashRead a q n r s) :=
  gated_need (gated_need (gated_need (gated_need (gated_startMain _ s))))

theorem gated_flashProgram (a : Nat) (q : BitVec 16) (n : Nat) (r : Ret) (s : State) :
    Gated s (flashProgram a q n r s) :=
  gated_need (gated_need (gated_need (gated_need (gated_need (gated_startMain _ s)))))

theorem gated_flashErase (a n : Nat) (p : List Micro) (s : State) : Gated s (flashErase a n p s) := by
  unfold flashErase
  split
  · exact gated_need (gated_startMain p s)
  · exact gated_returnNow _ s

theorem gated_bdNeed {block off : BitVec 32} {n : Nat} {k : Out} (h : Gated s k) :
    Gated s (bdNeed block off n s k) := gated_need (gated_need h)

/-! ## The three operations that either context may perform (R140, R388) -/

theorem gated_rbPush {r : RingRef} (h : s.pushInIrq r = false) (b : Byte) : Gated s (exec (.rbPush r b) s) := by
  cases hr : s.ring? (ringId r) with
  | none => rw [exec_rbPush_absent b hr]; exact gated_refused s _
  | some y =>
    cases r with
    | tx v => rw [exec_rbPush_tx hr]; exact gated_refused s _
    | own i =>
      simp only [exec, execRbPush, hr, h]
      exact gated_startMain _ s

theorem gated_rbPull {r : RingRef} (h : s.pullInIrq r = false) : Gated s (exec (.rbPull r) s) := by
  cases hr : s.ring? (ringId r) with
  | none => rw [exec_rbPull_absent hr]; exact gated_refused s _
  | some y =>
    cases r with
    | tx v => rw [exec_rbPull_tx hr]; exact gated_refused s _
    | own i =>
      simp only [exec, execRbPull, hr, h]
      exact gated_startMain _ s

theorem gated_uartWriteByte {u : BitVec 8} (h : s.writeInIrq u = false) (b : Byte) :
    Gated s (exec (.uartWriteByte u b) s) := by
  rw [exec_uartWriteByte_eq, h, if_neg Bool.false_ne_true]
  exact gated_uartOp fun _ => gated_startMain _ s

/-! ## Every instruction -/

/-- An instruction that is no event passes the gate of MAIN, or is refused. -/
theorem gated_exec {i : Instr} (h : eventOf i s = none) : Gated s (exec i s) := by
  cases i with
  | fcRdsr | fcWren | fcSe | fcBe32 | fcRdid | fcCe => exact gated_startMain _ s
  | fcPp | fcRead | fcRdsfdp => exact gated_need (gated_startMain _ s)
  | rbPush r b => exact gated_rbPush (by simpa [eventOf] using h) b
  | rbPull r => exact gated_rbPull (by simpa [eventOf] using h)
  | spiSelect | spiDeselect | dmaWait => exact gated_startMain _ s
  | spiXfer | spiTx | spiRx => exact gated_need (gated_need (gated_startMain _ s))
  | dmaStart => exact gated_need (gated_need (gated_need (gated_need (gated_startMain _ s))))
  | uartBindPoll => rw [exec_uartBindPoll_eq]; exact gated_uartOp fun _ => gated_startMain _ s
  | uartBindIrq => rw [exec_uartBindIrq_eq]; exact gated_uartOp fun _ => gated_need (gated_startMain _ s)
  | uartPollRead => rw [exec_uartPollRead_eq]; exact gated_uartOp fun _ => gated_startMain _ s
  | uartDmaTx => rw [exec_uartDmaTx_eq]; exact gated_uartOp fun _ => gated_need (gated_need (gated_startMain _ s))
  | uartDmaWait => rw [exec_uartDmaWait_eq]; exact gated_uartOp fun _ => gated_startMain _ s
  | uartWriteByte u b => exact gated_uartWriteByte (by simpa [eventOf] using h) b
  | flIdentify | flDiscover | flInit | flEraseAll | flWaitReady | flWriteEnable | flReadStatus =>
    exact gated_startMain _ s
  | flRead => exact gated_flashRead _ _ _ _ s
  | flProgram => exact gated_flashProgram _ _ _ _ s
  | flEraseSector | flEraseBlock => exact gated_flashErase _ _ _ s
  | bdRead => exact gated_bdNeed (gated_flashRead _ _ _ _ s)
  | bdProgram => exact gated_bdNeed (gated_flashProgram _ _ _ _ s)
  | bdErase => exact gated_bdNeed (gated_flashErase _ _ _ s)
  | bdSync => exact gated_need (gated_startMain _ s)
  | evDmaRxDone | evDmaTxDone | evUartRxLevel | evUartRxTimeout | evUartTxLevel | evUartLineError | evUartDmaDone
  | evUartEot | envDmaRxMove | envDmaTxMove | envUartDmaMove | envLineByte | envLineSilence | envTxShift
  | envFlashDone | fcJedec => cases h

/-! ## The gate (R378, R388) -/

theorem whenMain_inIrq (hi : s.irq ≠ []) (k : Out) : whenMain k s = .refused .interruptContext := by
  simp [whenMain, hi]

theorem whenMain_inProgress (hi : s.irq = []) (hm : s.main ≠ []) (k : Out) :
    whenMain k s = .refused .operationInProgress := by
  simp [whenMain, hi, hm]

/-- The gate is closed while a context has work. -/
theorem whenMain_busy (hs : s.irq ≠ [] ∨ s.main ≠ []) (k : Out) : ∃ r, whenMain k s = .refused r := by
  by_cases hi : s.irq = []
  · exact ⟨_, whenMain_inProgress hi (hs.resolve_left (not_not_intro hi)) k⟩
  · exact ⟨_, whenMain_inIrq hi k⟩

end Sys2Proof.Machine

open Sys2Proof Sys2Proof.Machine

/-- Settles O58: whatever MAIN performs passes the gate, and the gate is closed while a context has work. -/
theorem mainBusyRefuses : Obligations.MainBusyRefuses := by
  intro i s h hs
  obtain hr | ⟨k, hk⟩ := gated_exec h
  · exact hr
  · rw [hk]
    exact whenMain_busy hs k

end
